-- ==== Sys2Proof/Word.lean ====
section
/-! DEFINITION. The word types of the DBC and access to a numbered bank of like things. -/

namespace Sys2Proof

/-- One byte: the unit of every DBC memory (20_memory.md R61). -/
abbrev Byte := BitVec 8

/-- One 64-bit register of a port (10_state.md R20, R21, R51). -/
abbrev Word := BitVec 64

/-- Entry `i` of a numbered bank, or `d` when the bank has no such entry. -/
def bankGet {α : Type} {n : Nat} (v : Vector α n) (i : Nat) (d : α) : α :=
  v[i]?.getD d

/-- The bank with entry `i` replaced; unchanged when the bank has no such entry. -/
def bankSet {α : Type} {n : Nat} (v : Vector α n) (i : Nat) (x : α) : Vector α n :=
  v.setIfInBounds i x

end Sys2Proof
end

