-- ==== Sys2Proof/Config.lean ====
section
/-! DEFINITION. What an implementation fixes: the parameters of 00_scope.md section 4, the model
arguments and OPEN parameters of rule R8, and the free values of 93_implementation_defined.md. -/

namespace Sys2Proof

namespace Config

/-- `NUM_HT`: halftracks per disk (00_scope.md section 4). -/
def numHt : Nat := 84

/-- `NUM_TRACKS`: full tracks per disk. -/
def numTracks : Nat := 42

/-- `TRACK_CAP_BYTES`: bytes of one halftrack buffer (R27). -/
def trackCapBytes : Nat := 7928

/-- `TRACK_CAP_BITS`: bits of one halftrack buffer (R27, R28). -/
def trackCapBits : Nat := 63424

/-- `FILL`: the unformatted fill byte. -/
def fill : Byte := 0x55

/-- `MAX_PATTERN_BITS`: largest count of `getBits`, `setBits` and `forward`. -/
def maxPatternBits : Nat := 64

/-- `C64_PAYLOAD`: payload bytes of a C64 sector. -/
def c64Payload : Nat := 256

/-- `AMIGA_PAYLOAD`, `DOS_PAYLOAD`: payload bytes of an MFM sector. -/
def mfmPayload : Nat := 512

/-- `C64_MAX_SECTORS`: size of the per-track sector table. -/
def c64MaxSectors : Nat := 21

/-- `AMIGA_SECTORS`. -/
def amigaSectors : Nat := 11

/-- `DOS_SECTORS`. -/
def dosSectors : Nat := 9

/-- `XTRK_CAP_BYTES` (R32). -/
def xtrkCapBytes : Nat := 16384

/-- Largest legal `XLEN` (R32, R75). -/
def xtrkCapBits : Nat := 131072

/-- `AMIGA_TRACK_BYTES` (R246). -/
def amigaTrackBytes : Nat := 12668

/-- `DOS_TRACK_BYTES` (R276). -/
def dosTrackBytes : Nat := 12500

/-- `DMEM_CAP_BYTES` (R33). -/
def dmemCapBytes : Nat := 262144

/-- `ERRTAB_CAP` (R34). -/
def errtabCap : Nat := 802

/-- What `GCR.DEC` reads: everything the nibble it makes from an invalid codeword may depend on
(R68: repeated with the same operands and the same memory it gives the same result). The memory enters by
its contents, not by how the state keeps them (log 7). -/
structure GcrDraw where
  /-- Buffer select code of the view (R25). -/
  buf : Nat
  /-- First bit of the view. -/
  first : Nat
  /-- One past the last bit of the view. -/
  last : Nat
  /-- The operand `pos`. -/
  pos : Int
  /-- Every byte of the buffer, from address 0 on. -/
  contents : List Byte
  /-- True for the low nibble, false for the high one. -/
  low : Bool
deriving DecidableEq, Repr

/-- FREE VALUE (93_implementation_defined.md U1, rule R164): the nibble `GCR.DEC` returns for an
invalid codeword. No rule constrains it. Log 7. -/
opaque freeNibble : GcrDraw → BitVec 4

/-- FREE VALUE (U2, rule R430): byte `a` of `XTRK` after reset number `epoch`, as long as nothing
has written it. Log 6. -/
opaque freeXtrk (epoch a : Nat) : Byte

/-- FREE VALUE (U2, rule R430): byte `a` of `DMEM` after reset number `epoch`. Log 6. -/
opaque freeDmem (epoch a : Nat) : Byte

/-- FREE VALUE (U2, U3, rule R430): entry `b` of `ERRTAB` after reset number `epoch`. Log 6. -/
opaque freeErrtab (epoch b : Nat) : Byte

end Config

/-- The memories a host bus may show (R74). -/
inductive HostMemory where
  /-- `TRK`, bytes, numbered `7928*h + i`. -/
  | trk
  /-- `LEN`, numbered by the halftrack. -/
  | len
  /-- `XTRK`, bytes. -/
  | xtrk
  /-- `XLEN`, element 0. -/
  | xlen
  /-- `DMEM`, bytes. -/
  | dmem
  /-- `ERRTAB`, bytes. -/
  | errtab
  /-- `INFO`, numbered by the record. -/
  | info
  /-- `LOG`, numbered by the record. -/
  | log
deriving DecidableEq, Repr

/-- One window of `HOST_MAP` (R74): the elements `index .. index + count - 1` of a memory appear on the
host bus one behind the other from `address` on, each `stride` addresses wide. Every finite map from
elements to bus addresses is a list of windows (log 5). -/
structure HostWindow where
  /-- The memory. -/
  memory : HostMemory
  /-- Its first element in the window. -/
  index : Nat
  /-- How many elements. -/
  count : Nat
  /-- Bus address of the first one. -/
  address : Nat
  /-- Distance of two elements on the bus. -/
  stride : Nat
deriving DecidableEq, Repr

/-- The configuration fields of rule R8, every row of 00_scope.md section 4 that is a model argument or
OPEN: values a claim may name or quantify over. Every state carries them and no step changes them
(log 4, log 5). -/
structure ModelArgs where
  /-- `TAILGAP[z]`, z = 0..3: tail gap bytes of a C64 sector per speed zone (R301). -/
  tailGap : Vector Nat 4
  /-- `STAGGER_Q16[t]`, t = 0..41: stagger as a 16-bit fraction of a revolution (R303). -/
  staggerQ16 : Vector (BitVec 16) 42
  /-- `C64_FS_TRACKS`: tracks covered by the linear block numbering (R307), at most 42. -/
  fsTracks : Fin 43
  /-- `LOG_CAP`: log entries kept per halftrack (R36, R343). -/
  logCap : Nat
  /-- `HOST_MAP` (OPEN, R74, U16): where the memories appear on a host bus. No rule's result depends
  on it. -/
  hostMap : List HostWindow
  /-- `CARRY_PERIOD[z]`, z = 0..3 (OPEN, R380, U15): the time between two ticks over a track of speed
  zone z. No rule's result depends on it. -/
  carryPeriod : Vector Nat 4
deriving DecidableEq, Repr

/-- The defaults of 92_eei_decisions.md section 1, which gives `HOST_MAP` and `CARRY_PERIOD` none ("none
needed"): the empty map and zeros there are the model's (log 5). -/
def ModelArgs.default : ModelArgs where
  tailGap := #v[13, 16, 21, 12]
  staggerQ16 := Vector.replicate 42 0
  fsTracks := 35
  logCap := 128
  hostMap := []
  carryPeriod := Vector.replicate 4 0

end Sys2Proof
end

