-- ==== Sys2Proof/Syntax.lean ====
section
/-! DEFINITION. The commands of the DBC (30_encoding.md R93) and everything its environment can do
to it (00_scope.md R16): the ports, the memories, the events. -/

namespace Sys2Proof

/-- The two ports that accept commands (R91). -/
inductive Port where
  /-- `CMD`, `STATUS`, `A0..A5`, `R0..R3` (R20-R23). -/
  | host
  /-- `ECMD`, `EA0`, `EA1`, `ER0..ER3` (R51). -/
  | controller
deriving DecidableEq, Repr

/-- The 66 operations of rule R93. A command has no operand field of its own: every operand is a
field of an operand register (R90, R92). -/
inductive Instr where
  /-- `NOP` (0x00), System: rule R95. -/
  | nop
  /-- `RESET` (0x01), System: rule R96. -/
  | reset
  /-- `BV.DEF` (0x10), BitView unit: rule R140. -/
  | bvDef
  /-- `BV.SLICE` (0x11), BitView unit: rule R141. -/
  | bvSlice
  /-- `BV.SIZE` (0x12), BitView unit: rule R142. -/
  | bvSize
  /-- `BV.GET` (0x13), BitView unit: rule R143. -/
  | bvGet
  /-- `BV.SET` (0x14), BitView unit: rule R144. -/
  | bvSet
  /-- `BV.GETBYTE` (0x15), BitView unit: rule R145. -/
  | bvGetbyte
  /-- `BV.SETBYTE` (0x16), BitView unit: rule R146. -/
  | bvSetbyte
  /-- `BV.GETBITS` (0x17), BitView unit: rule R147. -/
  | bvGetbits
  /-- `BV.SETBITS` (0x18), BitView unit: rule R148. -/
  | bvSetbits
  /-- `BV.FWD` (0x19), BitView unit: rule R149. -/
  | bvFwd
  /-- `BY.GET` (0x1A), BitView unit: rule R150. -/
  | byGet
  /-- `BY.SET` (0x1B), BitView unit: rule R151. -/
  | bySet
  /-- `GCR.B2G` (0x20), GCR unit: rule R161. -/
  | gcrB2g
  /-- `GCR.G2B` (0x21), GCR unit: rule R162. -/
  | gcrG2b
  /-- `GCR.ENC` (0x22), GCR unit: rule R163. -/
  | gcrEnc
  /-- `GCR.DEC` (0x23), GCR unit: rule R164. -/
  | gcrDec
  /-- `MFM.ENC` (0x30), MFM unit: rule R181. -/
  | mfmEnc
  /-- `MFM.DEC` (0x31), MFM unit: rule R182. -/
  | mfmDec
  /-- `MFM.OEENC` (0x32), MFM unit: rule R183. -/
  | mfmOeenc
  /-- `MFM.OEDEC` (0x33), MFM unit: rule R184. -/
  | mfmOedec
  /-- `MFM.CLK` (0x34), MFM unit: rule R185. -/
  | mfmClk
  /-- `MFM.CLKBUF` (0x35), MFM unit: rule R186. -/
  | mfmClkbuf
  /-- `C64.ENCSEC` (0x40), C64 sector codec: rule R210. -/
  | c64Encsec
  /-- `C64.ENCTRK` (0x41), C64 sector codec: rule R212. -/
  | c64Enctrk
  /-- `C64.DECSEC` (0x42), C64 sector codec: rule R218. -/
  | c64Decsec
  /-- `C64.DECTRK` (0x43), C64 sector codec: rule R219. -/
  | c64Dectrk
  /-- `C64.SEEK` (0x44), C64 sector codec: rule R221. -/
  | c64Seek
  /-- `C64.SEEKALL` (0x45), C64 sector codec: rule R222. -/
  | c64Seekall
  /-- `AMI.ENCSEC` (0x50), Amiga sector codec: rule R248. -/
  | amiEncsec
  /-- `AMI.ENCTRK` (0x51), Amiga sector codec: rule R249. -/
  | amiEnctrk
  /-- `AMI.DECSEC` (0x52), Amiga sector codec: rule R252. -/
  | amiDecsec
  /-- `AMI.DECTRK` (0x53), Amiga sector codec: rule R253. -/
  | amiDectrk
  /-- `AMI.SEEK` (0x54), Amiga sector codec: rule R254. -/
  | amiSeek
  /-- `AMI.SEEKALL` (0x55), Amiga sector codec: rule R255. -/
  | amiSeekall
  /-- `DOS.ENCSEC` (0x60), IBM/DOS sector codec: rule R278. -/
  | dosEncsec
  /-- `DOS.ENCTRK` (0x61), IBM/DOS sector codec: rule R279. -/
  | dosEnctrk
  /-- `DOS.DECSEC` (0x62), IBM/DOS sector codec: rule R282. -/
  | dosDecsec
  /-- `DOS.DECTRK` (0x63), IBM/DOS sector codec: rule R283. -/
  | dosDectrk
  /-- `DOS.SEEK` (0x64), IBM/DOS sector codec: rule R284. -/
  | dosSeek
  /-- `DOS.SEEKALL` (0x65), IBM/DOS sector codec: rule R285. -/
  | dosSeekall
  /-- `DSK.CLEAR` (0x70), Disk model: rule R305. -/
  | dskClear
  /-- `DSK.ENCODE` (0x71), Disk model: rule R306. -/
  | dskEncode
  /-- `DSK.RDBLK` (0x72), Disk model: rule R317. -/
  | dskRdblk
  /-- `DSK.WRBLK` (0x73), Disk model: rule R318. -/
  | dskWrblk
  /-- `DSK.NUMBLK` (0x74), Disk model: rule R308. -/
  | dskNumblk
  /-- `DSK.LENHT` (0x75), Disk model: rule R309. -/
  | dskLenht
  /-- `DSK.LENTRK` (0x76), Disk model: rule R310. -/
  | dskLentrk
  /-- `DSK.DEFAULTS` (0x77), Disk model: rule R311. -/
  | dskDefaults
  /-- `DSK.SETWP` (0x78), Disk model: rule R313. -/
  | dskSetwp
  /-- `DSK.INSERT` (0x79), Disk model: rule R312. -/
  | dskInsert
  /-- `DSK.EJECT` (0x7A), Disk model: rule R314. -/
  | dskEject
  /-- `DSK.FLAGS` (0x7B), Disk model: rule R315. -/
  | dskFlags
  /-- `ANA.RUN` (0x80), Disk analyzer: rule R331. -/
  | anaRun
  /-- `ANA.LAYOUT` (0x81), Disk analyzer: rule R338. -/
  | anaLayout
  /-- `ANA.LOG` (0x82), Disk analyzer: rule R339. -/
  | anaLog
  /-- `ANA.XRUN` (0x83), Disk analyzer: rule R340. -/
  | anaXrun
  /-- `ENG.TICK` (0x90), Drive bit engine (controller port): rule R361. -/
  | engTick
  /-- `ENG.RDBIT` (0x91), Drive bit engine (controller port): rule R374. -/
  | engRdbit
  /-- `ENG.WRBIT` (0x92), Drive bit engine (controller port): rule R375. -/
  | engWrbit
  /-- `ENG.ROT` (0x93), Drive bit engine (controller port): rule R376. -/
  | engRot
  /-- `ENG.SYNC` (0x94), Drive bit engine (controller port): rule R372. -/
  | engSync
  /-- `ENG.LATCH` (0x95), Drive bit engine (controller port): rule R377. -/
  | engLatch
  /-- `ENG.SETHT` (0x96), Drive bit engine (controller port): rule R378. -/
  | engSetht
  /-- `ENG.POS` (0x97), Drive bit engine (controller port): rule R379. -/
  | engPos
deriving DecidableEq, Repr

/-- The port whose command register accepts the operation (R91, R93). -/
def Instr.port : Instr → Port
  | .nop | .reset | .bvDef | .bvSlice | .bvSize | .bvGet | .bvSet | .bvGetbyte
  | .bvSetbyte | .bvGetbits | .bvSetbits | .bvFwd | .byGet | .bySet | .gcrB2g | .gcrG2b
  | .gcrEnc | .gcrDec | .mfmEnc | .mfmDec | .mfmOeenc | .mfmOedec | .mfmClk | .mfmClkbuf
  | .c64Encsec | .c64Enctrk | .c64Decsec | .c64Dectrk | .c64Seek | .c64Seekall | .amiEncsec | .amiEnctrk
  | .amiDecsec | .amiDectrk | .amiSeek | .amiSeekall | .dosEncsec | .dosEnctrk | .dosDecsec | .dosDectrk
  | .dosSeek | .dosSeekall | .dskClear | .dskEncode | .dskRdblk | .dskWrblk | .dskNumblk | .dskLenht
  | .dskLentrk | .dskDefaults | .dskSetwp | .dskInsert | .dskEject | .dskFlags | .anaRun | .anaLayout
  | .anaLog | .anaXrun => .host
  | .engTick | .engRdbit | .engWrbit | .engRot | .engSync | .engLatch | .engSetht | .engPos =>
    .controller

/-- The buffer a view selects (R25): codes 0..83, 84, 85. -/
inductive BufSel where
  /-- `TRK[h]`. -/
  | trk (h : Fin 84)
  /-- `XTRK`. -/
  | xtrk
  /-- `DMEM`. -/
  | dmem
deriving DecidableEq, Repr

/-- The byte memories of rule R61. -/
inductive Space where
  /-- `TRK[h]`. -/
  | trk (h : Fin 84)
  /-- `XTRK`. -/
  | xtrk
  /-- `DMEM`. -/
  | dmem
  /-- `ERRTAB`. -/
  | errtab
deriving DecidableEq, Repr

/-- The host port's registers (R74). -/
inductive HostReg where
  /-- `CMD`, write-only. -/
  | cmd
  /-- `STATUS`, read-only. -/
  | status
  /-- `A0`..`A5`. -/
  | a (i : Fin 6)
  /-- `R0`..`R3`, read-only. -/
  | r (i : Fin 4)
deriving DecidableEq, Repr

/-- The controller port's registers (R51, R74). -/
inductive CtrlReg where
  /-- `ECMD`, write-only. -/
  | ecmd
  /-- `EA0`, `EA1`. -/
  | ea (i : Fin 2)
  /-- `ER0`..`ER3`, read-only. -/
  | er (i : Fin 4)
deriving DecidableEq, Repr

/-- One field of the analyzer's `INFO[h]` (R35). -/
inductive InfoField where
  /-- The track's bit length at the last analysis. -/
  | len
  /-- `sec[s].headerBegin`. -/
  | headerBegin (s : Nat)
  /-- `sec[s].headerEnd`. -/
  | headerEnd (s : Nat)
  /-- `sec[s].dataBegin`. -/
  | dataBegin (s : Nat)
  /-- `sec[s].dataEnd`. -/
  | dataEnd (s : Nat)
deriving DecidableEq, Repr

/-- One field of the analyzer's `LOG[h]` (R36). -/
inductive LogField where
  /-- How many entries the list holds. -/
  | count
  /-- The code of entry `i`. -/
  | code (i : Nat)
  /-- The sector field of entry `i`. -/
  | sector (i : Nat)
  /-- The start bit of entry `i`. -/
  | startBit (i : Nat)
  /-- The end bit of entry `i`. -/
  | endBit (i : Nat)
deriving DecidableEq, Repr

/-- The external events (R16): commands on the two ports, operand writes and register reads,
memory accesses of one byte or one entry (R67), and the reset input (R430). -/
inductive Event where
  /-- The host writes a byte to `CMD` (R22). -/
  | hostCmd (b : Byte)
  /-- The host writes an operand register (R20). -/
  | hostWriteA (i : Fin 6) (v : Word)
  /-- The host reads a register of its port (R74). -/
  | hostReadReg (r : HostReg)
  /-- The controller writes a byte to `ECMD` (R51). -/
  | ctrlCmd (b : Byte)
  /-- The controller writes an operand register (R51). -/
  | ctrlWriteEA (i : Fin 2) (v : Byte)
  /-- The controller reads a register of its port. -/
  | ctrlReadReg (r : CtrlReg)
  /-- The host writes one byte of a memory (R66, R75). -/
  | memWrite (sp : Space) (addr : Nat) (b : Byte)
  /-- The host reads one byte of a memory (R66). -/
  | memRead (sp : Space) (addr : Nat)
  /-- The host writes `LEN[h]` (R75). -/
  | lenWrite (h v : Nat)
  /-- The host reads `LEN[h]`. -/
  | lenRead (h : Nat)
  /-- The host writes `XLEN` (R75). -/
  | xlenWrite (v : Nat)
  /-- The host reads `XLEN`. -/
  | xlenRead
  /-- The host reads a field of `INFO[h]` (R61, R338). -/
  | infoRead (h : Nat) (f : InfoField)
  /-- The host reads a field of `LOG[h]`. -/
  | logRead (h : Nat) (f : LogField)
  /-- The reset input of the block (R430). -/
  | resetInput
deriving DecidableEq, Repr

end Sys2Proof
end

