-- ==== Sys2Proof/WellFormed.lean ====
section
/-! DEFINITION. The checks of form: a command stands on the port that accepts it, an access stays
inside its memory. -/

namespace Sys2Proof

/-- R91: the host port accepts units 0..8, the controller port unit 9 only. -/
def wellFormed (p : Port) (i : Instr) : Bool :=
  i.port == p

/-- Capacity of a byte memory in bytes (R27, R32, R33, R34). -/
def Space.cap : Space → Nat
  | .trk _ => Config.trackCapBytes
  | .xtrk => Config.xtrkCapBytes
  | .dmem => Config.dmemCapBytes
  | .errtab => Config.errtabCap

/-- R66: the `n` bytes from `addr` lie inside the memory. -/
def Space.inBounds (sp : Space) (addr n : Nat) : Bool :=
  decide (addr + n ≤ sp.cap)

/-- The memory a view's buffer is (R61). -/
def BufSel.space : BufSel → Space
  | .trk h => .trk h
  | .xtrk => .xtrk
  | .dmem => .dmem

/-- The buffer select code (R25). -/
def BufSel.code : BufSel → Nat
  | .trk h => h.val
  | .xtrk => 84
  | .dmem => 85

/-- The buffer a code selects; codes 86..127 are illegal (R25). -/
def BufSel.ofCode (c : Nat) : Option BufSel :=
  if h : c < 84 then some (.trk ⟨c, h⟩)
  else if c = 84 then some .xtrk
  else if c = 85 then some .dmem
  else none

/-- `CapBits(buf)` (R25): 63424, 131072 or 2097152. -/
def BufSel.capBits (b : BufSel) : Nat :=
  8 * b.space.cap

/-- R75: the values the host may store in `LEN[h]`. -/
def lenLegal (h v : Nat) : Bool :=
  decide (h < Config.numHt ∧ v ≤ Config.trackCapBits)

/-- R75: the values the host may store in `XLEN`. -/
def xlenLegal (v : Nat) : Bool :=
  decide (v ≤ Config.xtrkCapBits)

end Sys2Proof
end

