-- ==== Sys2Proof/Decode.lean ====
section
/-! DEFINITION. Command decoding (30_encoding.md R90-R94): total on any bytes, rejecting by name;
then the encoder, written from the same table. -/

namespace Sys2Proof

/-- Why a decode gives no operation. -/
inductive DecodeError where
  /-- There is no byte to decode. -/
  | noByte
  /-- The byte is no operation of the port it was written to (R94). -/
  | illegal (p : Port) (b : Byte)
deriving DecidableEq, Repr

/-- `unit`, bits 7:4 of a command byte (R90). -/
def cmdUnit (b : Byte) : Nat := (b.extractLsb' 4 4).toNat

/-- `func`, bits 3:0 of a command byte (R90). -/
def cmdFunc (b : Byte) : Nat := (b.extractLsb' 0 4).toNat

/-- Rows of unit 0 of rule R93: System. -/
def opRows0 : List (Byte × Instr) :=
  [(0x00, .nop), (0x01, .reset)]

/-- Rows of unit 1 of rule R93: BitView unit. -/
def opRows1 : List (Byte × Instr) :=
  [(0x10, .bvDef), (0x11, .bvSlice), (0x12, .bvSize), (0x13, .bvGet),
   (0x14, .bvSet), (0x15, .bvGetbyte), (0x16, .bvSetbyte), (0x17, .bvGetbits),
   (0x18, .bvSetbits), (0x19, .bvFwd), (0x1A, .byGet), (0x1B, .bySet)]

/-- Rows of unit 2 of rule R93: GCR unit. -/
def opRows2 : List (Byte × Instr) :=
  [(0x20, .gcrB2g), (0x21, .gcrG2b), (0x22, .gcrEnc), (0x23, .gcrDec)]

/-- Rows of unit 3 of rule R93: MFM unit. -/
def opRows3 : List (Byte × Instr) :=
  [(0x30, .mfmEnc), (0x31, .mfmDec), (0x32, .mfmOeenc), (0x33, .mfmOedec),
   (0x34, .mfmClk), (0x35, .mfmClkbuf)]

/-- Rows of unit 4 of rule R93: C64 sector codec. -/
def opRows4 : List (Byte × Instr) :=
  [(0x40, .c64Encsec), (0x41, .c64Enctrk), (0x42, .c64Decsec), (0x43, .c64Dectrk),
   (0x44, .c64Seek), (0x45, .c64Seekall)]

/-- Rows of unit 5 of rule R93: Amiga sector codec. -/
def opRows5 : List (Byte × Instr) :=
  [(0x50, .amiEncsec), (0x51, .amiEnctrk), (0x52, .amiDecsec), (0x53, .amiDectrk),
   (0x54, .amiSeek), (0x55, .amiSeekall)]

/-- Rows of unit 6 of rule R93: IBM/DOS sector codec. -/
def opRows6 : List (Byte × Instr) :=
  [(0x60, .dosEncsec), (0x61, .dosEnctrk), (0x62, .dosDecsec), (0x63, .dosDectrk),
   (0x64, .dosSeek), (0x65, .dosSeekall)]

/-- Rows of unit 7 of rule R93: Disk model. -/
def opRows7 : List (Byte × Instr) :=
  [(0x70, .dskClear), (0x71, .dskEncode), (0x72, .dskRdblk), (0x73, .dskWrblk),
   (0x74, .dskNumblk), (0x75, .dskLenht), (0x76, .dskLentrk), (0x77, .dskDefaults),
   (0x78, .dskSetwp), (0x79, .dskInsert), (0x7A, .dskEject), (0x7B, .dskFlags)]

/-- Rows of unit 8 of rule R93: Disk analyzer. -/
def opRows8 : List (Byte × Instr) :=
  [(0x80, .anaRun), (0x81, .anaLayout), (0x82, .anaLog), (0x83, .anaXrun)]

/-- Rows of unit 9 of rule R93: Drive bit engine (controller port). -/
def opRows9 : List (Byte × Instr) :=
  [(0x90, .engTick), (0x91, .engRdbit), (0x92, .engWrbit), (0x93, .engRot),
   (0x94, .engSync), (0x95, .engLatch), (0x96, .engSetht), (0x97, .engPos)]

/-- The opcode map of rule R93: 66 operations. -/
def opTable : List (Byte × Instr) :=
  opRows0 ++ opRows1 ++ opRows2 ++ opRows3 ++ opRows4 ++ opRows5 ++ opRows6 ++ opRows7 ++
    opRows8 ++ opRows9

/-- The operation a byte names on the port that accepts it (R93; the mask is 0xFF everywhere). -/
def lookupByte (b : Byte) : Option Instr :=
  (opTable.find? fun row => row.1 == b).map Prod.snd

/-- Decode the command at the head of a byte string written to port `p` (R91, R94). The rest of
the bytes is returned. -/
def decode (p : Port) : List Byte → Except DecodeError (Instr × List Byte)
  | [] => .error .noByte
  | b :: rest =>
    match lookupByte b with
    | some i => if wellFormed p i then .ok (i, rest) else .error (.illegal p b)
    | none => .error (.illegal p b)

/-- The port whose units hold the byte (R91): unit 9 is the controller's. Log 3. -/
def portOfByte (b : Byte) : Port :=
  if cmdUnit b = 9 then .controller else .host

/-- The bytes of an instruction given as a number, least significant byte first, at least one. -/
def bytesOfWord : Nat → Nat → List Byte
  | 0, w => [BitVec.ofNat 8 w]
  | 1, w => [BitVec.ofNat 8 w]
  | n + 1, w => BitVec.ofNat 8 w :: bytesOfWord n (w / 256)

/-- The first byte of an instruction word. -/
def firstByte (nbits w : Nat) : Byte :=
  (bytesOfWord (nbits / 8) w).headD 0

/-- The instruction the decoder reads from an instruction word of `nbits` bits. -/
def decodeTableWord (nbits w : Nat) : Option Instr :=
  match decode (portOfByte (firstByte nbits w)) (bytesOfWord (nbits / 8) w) with
  | .ok (i, _) => some i
  | .error _ => none

/-- The command byte of an operation (R93). -/
def encodeByte : Instr → Byte
  | .nop => 0x00#8
  | .reset => 0x01#8
  | .bvDef => 0x10#8
  | .bvSlice => 0x11#8
  | .bvSize => 0x12#8
  | .bvGet => 0x13#8
  | .bvSet => 0x14#8
  | .bvGetbyte => 0x15#8
  | .bvSetbyte => 0x16#8
  | .bvGetbits => 0x17#8
  | .bvSetbits => 0x18#8
  | .bvFwd => 0x19#8
  | .byGet => 0x1A#8
  | .bySet => 0x1B#8
  | .gcrB2g => 0x20#8
  | .gcrG2b => 0x21#8
  | .gcrEnc => 0x22#8
  | .gcrDec => 0x23#8
  | .mfmEnc => 0x30#8
  | .mfmDec => 0x31#8
  | .mfmOeenc => 0x32#8
  | .mfmOedec => 0x33#8
  | .mfmClk => 0x34#8
  | .mfmClkbuf => 0x35#8
  | .c64Encsec => 0x40#8
  | .c64Enctrk => 0x41#8
  | .c64Decsec => 0x42#8
  | .c64Dectrk => 0x43#8
  | .c64Seek => 0x44#8
  | .c64Seekall => 0x45#8
  | .amiEncsec => 0x50#8
  | .amiEnctrk => 0x51#8
  | .amiDecsec => 0x52#8
  | .amiDectrk => 0x53#8
  | .amiSeek => 0x54#8
  | .amiSeekall => 0x55#8
  | .dosEncsec => 0x60#8
  | .dosEnctrk => 0x61#8
  | .dosDecsec => 0x62#8
  | .dosDectrk => 0x63#8
  | .dosSeek => 0x64#8
  | .dosSeekall => 0x65#8
  | .dskClear => 0x70#8
  | .dskEncode => 0x71#8
  | .dskRdblk => 0x72#8
  | .dskWrblk => 0x73#8
  | .dskNumblk => 0x74#8
  | .dskLenht => 0x75#8
  | .dskLentrk => 0x76#8
  | .dskDefaults => 0x77#8
  | .dskSetwp => 0x78#8
  | .dskInsert => 0x79#8
  | .dskEject => 0x7A#8
  | .dskFlags => 0x7B#8
  | .anaRun => 0x80#8
  | .anaLayout => 0x81#8
  | .anaLog => 0x82#8
  | .anaXrun => 0x83#8
  | .engTick => 0x90#8
  | .engRdbit => 0x91#8
  | .engWrbit => 0x92#8
  | .engRot => 0x93#8
  | .engSync => 0x94#8
  | .engLatch => 0x95#8
  | .engSetht => 0x96#8
  | .engPos => 0x97#8

/-- The words of an operation: one command byte (R90). -/
def encode (i : Instr) : List Byte :=
  [encodeByte i]

end Sys2Proof
end

