-- ==== Sys2Proof/Machine/Geometry.lean ====
section
/-! DEFINITION. The C64 track geometry (46_disk_model.md R300-R303) and the block numbering
(R307). -/

namespace Sys2Proof.Machine

/-- `TrackOf(h)`: the full track a halftrack belongs to (R31, R302). -/
def trackOf (h : Nat) : Nat := h / 2

/-- `Zone(t)` (R301). -/
def zone (t : Nat) : Fin 4 :=
  if t < 17 then 3 else if t < 24 then 2 else if t < 30 then 1 else 0

/-- `SectorCount(t)` (R301). -/
def sectorCount (t : Nat) : Nat :=
  if t < 17 then 21 else if t < 24 then 19 else if t < 30 then 18 else 17

/-- `NominalBytes(t)` (R301). -/
def nominalBytes (t : Nat) : Nat :=
  if t < 17 then 7692 else if t < 24 then 7142 else if t < 30 then 6666 else 6250

/-- `NominalBits(t)` = 8 × `NominalBytes(t)` (R301). -/
def nominalBits (t : Nat) : Nat := 8 * nominalBytes t

/-- `FirstBlock(t)`, t = 0..42 (R301). -/
def firstBlock (t : Nat) : Nat :=
  if t < 17 then 21 * t
  else if t < 24 then 357 + 19 * (t - 17)
  else if t < 30 then 490 + 18 * (t - 24)
  else 598 + 17 * (t - 30)

/-- `BlockTS(b)`: the track and sector of a linear block number (R307). -/
def blockTS (b : Nat) : Nat × Nat :=
  let t := ((List.range Config.numTracks).find? fun t =>
    decide (firstBlock t ≤ b ∧ b < firstBlock (t + 1))).getD 0
  (t, b - firstBlock t)

/-- `TAILGAP[Zone(t)]` (R301). -/
def tailGapOf (cfg : ModelArgs) (t : Nat) : Nat := cfg.tailGap[zone t]

/-- `SectorBits(t)` (R200). -/
def sectorBits (cfg : ModelArgs) (t : Nat) : Nat := 2832 + 8 * tailGapOf cfg t

/-- `STAGGER_Q16[t]` (R303). -/
def staggerOf (cfg : ModelArgs) (t : Nat) : Nat := (bankGet cfg.staggerQ16 t 0).toNat

/-- `StartOffset(t)` (R303): the stagger as a bit offset, floored. -/
def startOffset (cfg : ModelArgs) (t : Nat) : Nat := (staggerOf cfg t * nominalBits t) >>> 16

/-- `NumBlocks()` (R307). -/
def numBlocks (cfg : ModelArgs) : Nat := firstBlock cfg.fsTracks.val

/-- The halftrack buffer number `h` of the disk. -/
def halftrack (h : Nat) : Fin 84 := Fin.ofNat 84 h

end Sys2Proof.Machine
end

