-- ==== Sys2Proof/Machine/State.lean ====
section
/-! DEFINITION. The state of the DBC (10_state.md) as plain data, and the state after reset (R50). -/

namespace Sys2Proof.Machine

/-- The contents of one byte memory: the bytes that differ from what an unlisted address reads as,
in rising address order. -/
abbrev Memory := List Host.Cell

/-- Result codes of a host-port operation, `STATUS.ERR` (60_exceptions.md R402). -/
inductive ErrCode where
  /-- 0: completed. -/
  | ok
  /-- 1: the byte written to `CMD` is no host-port operation (R94). -/
  | illegalCmd
  /-- 2: `FAULT` is set and the command is not `RESET` (R404). -/
  | faulted
  /-- 3: an operand or an access out of range; Fatal. -/
  | badOperand
  /-- 4: no disk is inserted (R69). -/
  | noDisk
  /-- 5: the view has size 0 (R152). -/
  | emptyView
  /-- 6: a search found nothing. -/
  | notFound
  /-- 7: the sector cannot be located. -/
  | seekErr
  /-- 8: an invalid GCR codeword in a decoded sector. -/
  | gcrErr
  /-- 9: header checksum mismatch. -/
  | hdrCksum
  /-- 10: data checksum mismatch. -/
  | dataCksum
  /-- 11: unsupported sector count. -/
  | formatErr
  /-- 12: more bits than the destination has; Fatal. -/
  | capacity
deriving DecidableEq, Repr

/-- The number of a result code (R402). -/
def ErrCode.code : ErrCode → Nat
  | .ok => 0 | .illegalCmd => 1 | .faulted => 2 | .badOperand => 3 | .noDisk => 4
  | .emptyView => 5 | .notFound => 6 | .seekErr => 7 | .gcrErr => 8 | .hdrCksum => 9
  | .dataCksum => 10 | .formatErr => 11 | .capacity => 12

/-- The fields of `STATUS` (R23); bits 31:16 have no storage and read 0. -/
structure Status where
  /-- `ERR`, bits 3:0: result of the last host-port operation. -/
  err : ErrCode
  /-- `FOUND`, bit 4. -/
  found : Bool
  /-- `GCRINV`, bit 5. -/
  gcrInv : Bool
  /-- `FAULT`, bit 6: the sticky Fatal flag (R403). -/
  fault : Bool
  /-- `LOGOVF`, bit 7: the sticky log overflow flag (R343). -/
  logOvf : Bool
  /-- `FCODE`, bits 15:8: cause of the first Fatal since reset. -/
  fcode : Byte
deriving DecidableEq, Repr

/-- Registers of the host port (R20, R21, R23). -/
structure HostPort where
  /-- `A0`. -/
  a0 : Word
  /-- `A1`. -/
  a1 : Word
  /-- `A2`. -/
  a2 : Word
  /-- `A3`. -/
  a3 : Word
  /-- `A4`. -/
  a4 : Word
  /-- `A5`. -/
  a5 : Word
  /-- `R0`. -/
  r0 : Word
  /-- `R1`. -/
  r1 : Word
  /-- `R2`. -/
  r2 : Word
  /-- `R3`. -/
  r3 : Word
  /-- `STATUS`. -/
  status : Status
deriving DecidableEq, Repr

/-- Registers of the controller port (R51). -/
structure CtrlPort where
  /-- `EA0`. -/
  ea0 : Byte
  /-- `EA1`. -/
  ea1 : Byte
  /-- `ER0`. -/
  er0 : Word
  /-- `ER1`. -/
  er1 : Word
  /-- `ER2`. -/
  er2 : Word
  /-- `ER3`. -/
  er3 : Word
deriving DecidableEq, Repr

/-- A BitView descriptor (R25). -/
structure View where
  /-- The buffer it selects. -/
  buf : BufSel
  /-- Absolute bit index of the view's bit 0. -/
  first : BitVec 32
  /-- Absolute bit index one past the view's last bit. -/
  last : BitVec 32
deriving DecidableEq, Repr

/-- The disk (R26-R30). -/
structure Disk where
  /-- `PRESENT`. -/
  present : Bool
  /-- `WP`, write-protected. -/
  wp : Bool
  /-- `MOD`, modified. -/
  modified : Bool
  /-- `TRK[0..83]`: unlisted bytes read 0x55. -/
  trk : Vector Memory 84
  /-- `LEN[0..83]`: valid bit lengths. -/
  len : Vector (BitVec 17) 84
deriving DecidableEq, Repr

/-- Extents of one sector found by the analyzer (R35); equal begin and end mean "not found". -/
structure SectorInfo where
  /-- First bit of the header block. -/
  headerBegin : BitVec 19
  /-- One past the header block. -/
  headerEnd : BitVec 19
  /-- First bit of the data block. -/
  dataBegin : BitVec 19
  /-- One past the data block. -/
  dataEnd : BitVec 19
deriving DecidableEq, Repr

/-- The analyzer's record of one track (R35). -/
structure TrackInfo where
  /-- The bit length at the last analysis. -/
  len : BitVec 18
  /-- The sectors. -/
  sec : Vector SectorInfo 21
deriving DecidableEq, Repr

/-- Codes of the error log (47_analyzer.md R337). -/
inductive LogCode where
  /-- 0x01: an expected sector has no header. -/
  | hdrMissing
  /-- 0x02: an expected sector has no data block. -/
  | dataMissing
  /-- 0x03: header checksum mismatch. -/
  | hdrCksum
  /-- 0x04: data checksum mismatch. -/
  | dataCksum
  /-- 0x05: invalid codeword in the header. -/
  | hdrGcr
  /-- 0x06: invalid codeword in payload or checksum. -/
  | dataGcr
  /-- 0x07: a header whose sector byte is invalid or too large. -/
  | badSectorNr
  /-- 0x08: a data block that follows no accepted header. -/
  | dataNoHeader
deriving DecidableEq, Repr

/-- The number of a log code (R337). -/
def LogCode.code : LogCode → Nat
  | .hdrMissing => 1 | .dataMissing => 2 | .hdrCksum => 3 | .dataCksum => 4
  | .hdrGcr => 5 | .dataGcr => 6 | .badSectorNr => 7 | .dataNoHeader => 8

/-- One entry of the error log (R36). -/
structure LogEntry where
  /-- What is wrong. -/
  code : LogCode
  /-- The sector, 0xFF when the entry is not about one sector number. -/
  sector : Byte
  /-- First bit of the place. -/
  startBit : BitVec 19
  /-- One past its last bit. -/
  endBit : BitVec 19
deriving DecidableEq, Repr

/-- The analyzer's report (R35, R36): entries 0..83 for the halftracks, 84 for `XTRK`. -/
structure Report where
  /-- `INFO[0..84]`. -/
  info : Vector TrackInfo 85
  /-- `LOG[0..84]`. -/
  log : Vector (List LogEntry) 85
deriving DecidableEq, Repr

/-- The drive bit engine (R37-R45). -/
structure Engine where
  /-- `phase`: the phase the next tick executes. -/
  phase : BitVec 2
  /-- `rsr`: the read shift register. -/
  rsr : BitVec 10
  /-- `wsr`: the write shift register. -/
  wsr : Byte
  /-- `brc`: the byte-ready counter. -/
  brc : BitVec 3
  /-- `sync`: false means a sync mark is under the head. -/
  sync : Bool
  /-- `byteReady`. -/
  byteReady : Bool
  /-- `dataLatch`. -/
  dataLatch : Byte
  /-- `ht`: the halftrack under the head. -/
  ht : BitVec 7
  /-- `offset`: the head's bit offset within the halftrack. -/
  offset : BitVec 16
deriving DecidableEq, Repr

/-- Everything the spec gives the machine, and the model's own `cfg`, `inputs`, `busData` and
`epoch` (log 1, 4, 6, 10). -/
structure State where
  /-- The host port. -/
  host : HostPort
  /-- `VIEW[0..3]`. -/
  views : Vector View 4
  /-- The disk. -/
  disk : Disk
  /-- `XTRK`. -/
  xtrk : Memory
  /-- `XLEN`. -/
  xlen : BitVec 18
  /-- `DMEM`. -/
  dmem : Memory
  /-- `ERRTAB`. -/
  errtab : Memory
  /-- `INFO` and `LOG`. -/
  report : Report
  /-- The controller port. -/
  ctrl : CtrlPort
  /-- The drive bit engine. -/
  engine : Engine
  /-- MODEL: the model arguments, never changed by a step. -/
  cfg : ModelArgs
  /-- MODEL: the environment's events that are not delivered yet, first one next. -/
  inputs : List Event
  /-- MODEL: what the last register or memory read returned to its agent. -/
  busData : Word
  /-- MODEL: how many resets have happened; selects the free contents of `XTRK`, `DMEM` and
  `ERRTAB`. -/
  epoch : Nat
deriving DecidableEq, Repr

/-- Reasons a step could stop the machine. The spec has none: every error is a result code and the
machine goes on (R400-R404), so this type has no constructor and no step can raise one. -/
inductive Fault where
deriving DecidableEq, Repr

/-- Reasons a step could have no meaning. -/
inductive Refusal where
  /-- Raised by `exec` for an instruction that has no meaning yet; no arm of this model raises it.
  Safe: the machine stops instead of doing something wrong. -/
  | notModelled (mnemonic : String)
deriving DecidableEq, Repr

/-- `STATUS` after reset: 0 (R50). -/
def Status.reset : Status where
  err := .ok
  found := false
  gcrInv := false
  fault := false
  logOvf := false
  fcode := 0

/-- The empty view every descriptor holds after reset (R25). -/
def View.reset : View := ⟨.dmem, 0, 0⟩

/-- `LEN[0..83]` at the nominal length of each halftrack's zone (R50, R304). -/
def nominalLens : Vector (BitVec 17) 84 :=
  ⟨((List.range 84).map fun h => BitVec.ofNat 17 (nominalBits (trackOf h))).toArray, by simp⟩

/-- Every halftrack buffer filled with 0x55 (R50, R304): nothing listed. -/
def blankTracks : Vector Memory 84 := Vector.replicate 84 []

/-- A sector that was not found (R35). -/
def SectorInfo.none : SectorInfo := ⟨0, 0, 0, 0⟩

/-- A track of which nothing is recorded (R35). -/
def TrackInfo.zero : TrackInfo := ⟨0, Vector.replicate 21 SectorInfo.none⟩

/-- The machine right after reset: the table of rule R50. -/
def State.reset : State where
  host := ⟨0, 0, 0, 0, 0, 0, 0, 0, 0, 0, Status.reset⟩
  views := Vector.replicate 4 View.reset
  disk := ⟨false, false, false, blankTracks, nominalLens⟩
  xtrk := []
  xlen := 0
  dmem := []
  errtab := []
  report := ⟨Vector.replicate 85 TrackInfo.zero, Vector.replicate 85 []⟩
  ctrl := ⟨0, 0, 0, 0, 0, 0⟩
  engine := ⟨0, 0, 0, 0, true, false, 0, 0, 0⟩
  cfg := ModelArgs.default
  inputs := []
  busData := 0
  epoch := 0

end Sys2Proof.Machine
end

