-- ==== Sys2Proof/Machine/Flags.lean ====
section
/-! DEFINITION. Every computation of a `STATUS` value (R23, R400-R404) and of the signal levels the
controller polls (R365, R370, R371). -/

namespace Sys2Proof.Machine

/-- One flag as a number. -/
def flagBit (b : Bool) : Nat := if b then 1 else 0

/-- The 32 bits of `STATUS` (R23). -/
def Status.word (st : Status) : BitVec 32 :=
  BitVec.ofNat 32 (st.err.code + 16 * flagBit st.found + 32 * flagBit st.gcrInv
    + 64 * flagBit st.fault + 128 * flagBit st.logOvf + 256 * st.fcode.toNat)

/-- The one write of `STATUS` that ends an operation (R400): `ERR`, `FOUND`, `GCRINV` take the
operation's values, `LOGOVF`, `FAULT`, `FCODE` are kept. -/
def Status.finish (st : Status) (e : ErrCode) (found gcrInv : Bool) : Status :=
  { st with err := e, found := found, gcrInv := gcrInv }

/-- `STATUS` after `raise Fatal(code)` (R403): the first cause wins. -/
def Status.fatal (st : Status) (code : ErrCode) : Status :=
  { st with
    err := code
    found := false
    gcrInv := false
    fault := true
    fcode := if st.fault then st.fcode else BitVec.ofNat 8 code.code }

/-- `LOGOVF` as an analysis leaves it (R343, R400). -/
def Status.withLogOvf (st : Status) (ovf : Bool) : Status :=
  { st with logOvf := ovf }

/-- `LEN[h]`; 0 for a number that is no halftrack (log 13). -/
def State.lenOf (s : State) (h : Nat) : Nat := (bankGet s.disk.len h 0).toNat

/-- `noTrack` (R370): no bit is under the head. -/
def State.noTrack (s : State) : Bool :=
  !s.disk.present || s.lenOf s.engine.ht.toNat == 0

/-- `lightBarrier` (R371). -/
def State.lightBarrier (s : State) : Bool := s.disk.present && s.disk.wp

/-- `sig()`, the signals word (R365). -/
def State.sig (s : State) : Word :=
  BitVec.ofNat 64 (flagBit s.engine.sync + 2 * flagBit s.engine.byteReady
    + 4 * flagBit s.noTrack + 8 * flagBit s.lightBarrier + 256 * s.engine.dataLatch.toNat)

end Sys2Proof.Machine
end

