-- ==== Sys2Proof/Machine/Ops.lean ====
section
/-! DEFINITION. The named operations over memories, bits, views, ports and the report; how an
operation ends; raising Fatal and the reset that alone leaves it. -/

namespace Sys2Proof.Machine

/-! ## Byte memories (20_memory.md R61, R66) -/

/-- The byte listed at an address, if one is. -/
def Memory.lookup : Memory → Nat → Option Byte
  | [], _ => none
  | (k, v) :: m, a => if k = a then some v else Memory.lookup m a

/-- The memory with a byte listed at an address, in address order. -/
def Memory.put : Memory → Nat → Byte → Memory
  | [], a, b => [(a, b)]
  | (k, v) :: m, a, b =>
    if a < k then (a, b) :: (k, v) :: m
    else if a = k then (a, b) :: m
    else (k, v) :: Memory.put m a b

/-- The memory with nothing listed at an address. -/
def Memory.remove (m : Memory) (a : Nat) : Memory :=
  m.filter fun c => c.1 != a

/-- What an unlisted address reads as, where the spec states it (R50): 0x55 on the disk; nowhere
else is a value stated, so there every written byte is listed (log 6). -/
def Space.unlisted : Space → Option Byte
  | .trk _ => some Config.fill
  | .xtrk | .dmem | .errtab => none

/-- The byte at an unlisted address: the stated one, or the free value of R430 (log 6). -/
def Space.initial (epoch : Nat) : Space → Nat → Byte
  | .trk _, _ => Config.fill
  | .xtrk, a => Config.freeXtrk epoch a
  | .dmem, a => Config.freeDmem epoch a
  | .errtab, a => Config.freeErrtab epoch a

/-- One byte of a memory. -/
def Memory.byte (sp : Space) (epoch : Nat) (m : Memory) (a : Nat) : Byte :=
  (Memory.lookup m a).getD (Space.initial epoch sp a)

/-- The memory with one byte stored, in canonical form. -/
def Memory.store (sp : Space) (m : Memory) (a : Nat) (b : Byte) : Memory :=
  if Space.unlisted sp = some b then Memory.remove m a else Memory.put m a b

/-- The memory with a run of bytes stored from an address on. -/
def Memory.storeBytes (sp : Space) : Memory → Nat → List Byte → Memory
  | m, _, [] => m
  | m, a, b :: bs => Memory.storeBytes sp (Memory.store sp m a b) (a + 1) bs

/-- The canonical form: addresses strictly rising and inside the memory, and no entry equal to
what an unlisted address is stated to read as. -/
abbrev Memory.wf (sp : Space) (m : Memory) : Prop :=
  m.Pairwise (fun c d => c.1 < d.1) ∧
    ∀ c ∈ m, c.1 < sp.cap ∧ Space.unlisted sp ≠ some c.2

/-- The contents of a memory. -/
def State.mem (s : State) : Space → Memory
  | .trk h => s.disk.trk[h]
  | .xtrk => s.xtrk
  | .dmem => s.dmem
  | .errtab => s.errtab

/-- The state with the contents of a memory replaced. -/
def State.setMem (s : State) : Space → Memory → State
  | .trk h, m => { s with disk.trk := s.disk.trk.set h m }
  | .xtrk, m => { s with xtrk := m }
  | .dmem, m => { s with dmem := m }
  | .errtab, m => { s with errtab := m }

/-- One byte of a memory. -/
def State.byteAt (s : State) (sp : Space) (a : Nat) : Byte :=
  Memory.byte sp s.epoch (s.mem sp) a

/-- `MemRead(space, addr, n)` (R66) of a range inside the memory. -/
def State.readBytes (s : State) (sp : Space) (addr n : Nat) : List Byte :=
  (List.range n).map fun k => s.byteAt sp (addr + k)

/-- `MemWrite(space, addr, n, v)` (R66) of a range inside the memory. -/
def State.writeBytes (s : State) (sp : Space) (addr : Nat) (bs : List Byte) : State :=
  s.setMem sp (Memory.storeBytes sp (s.mem sp) addr bs)

/-! ## Bits of a buffer (R60) -/

/-- The bit at absolute index `j`, taken from the byte it lives in: value bit `7 - j mod 8`. -/
def byteBit (b : Byte) (j : Nat) : Bool := b.getLsbD (7 - j % 8)

/-- The byte with the bit at absolute index `j` replaced. -/
def setByteBit (x : Byte) (j : Nat) (b : Bool) : Byte :=
  (x &&& ~~~(0x80#8 >>> (j % 8))) ||| (if b then 0x80#8 >>> (j % 8) else 0)

/-- `BufBit(B, j)` (R60). -/
def State.bufBit (s : State) (sp : Space) (j : Nat) : Bool :=
  byteBit (s.byteAt sp (j / 8)) j

/-- `SetBufBit(B, j, b)` (R60). -/
def Memory.storeBit (sp : Space) (epoch : Nat) (m : Memory) (j : Nat) (b : Bool) : Memory :=
  Memory.store sp m (j / 8) (setByteBit (Memory.byte sp epoch m (j / 8)) j b)

/-- A run of bits stored in the circular window of `n` bits that begins at absolute bit `first`,
from window index `i` on, each index normalised by itself (R62, R136). -/
def Memory.storeBits (sp : Space) (epoch first n : Nat) : Memory → Int → List Bool → Memory
  | m, _, [] => m
  | m, i, b :: bs =>
    Memory.storeBits sp epoch first n
      (Memory.storeBit sp epoch m (first + (i % n).toNat) b) (i + 1) bs

/-! ## Circular bit streams (40_bitview.md R130-R138) -/

/-- The bits seen through a view: how many, and bit `k` for `k` below that. -/
structure BitStream where
  /-- `size(V)`. -/
  size : Nat
  /-- The bit at a normalised index. -/
  bit : Nat → Bool

/-- `get(V, i)` (R132): the index is any integer and is normalised by the floored remainder. -/
def BitStream.get (b : BitStream) (i : Int) : Bool := b.bit (i % b.size).toNat

/-- `getBits(V, i, c)` (R134): the first bit read is the most significant one. -/
def BitStream.getBits (b : BitStream) (i : Int) : Nat → Nat
  | 0 => 0
  | c + 1 => 2 * BitStream.getBits b i c + (b.get (i + c)).toNat

/-- `getByte(V, i)` (R135). -/
def BitStream.getByte (b : BitStream) (i : Int) : Byte := BitVec.ofNat 8 (b.getBits i 8)

/-- The scan of `forward` (R138): the first of the `left` start positions from `it + k` on whose
`n` bits are the value `p`. -/
def BitStream.scan (b : BitStream) (it : Int) (p n : Nat) : Nat → Nat → Option Nat
  | 0, _ => none
  | left + 1, k => if b.getBits (it + k) n = p then some k else BitStream.scan b it p n left (k + 1)

/-- `forward(V, it, pat, n)` (R138): the unreduced index just after the first match within one
revolution; `none` when the pattern does not occur (the iterator then stays). -/
def BitStream.forward (b : BitStream) (it : Int) (pat n : Nat) : Option Int :=
  (b.scan it (pat % 2 ^ n) n b.size 0).map fun k => it + k + n

/-- The `c` low bits of a value, most significant first: what `setBits` writes (R136). -/
def msbBits (v : Nat) : Nat → List Bool
  | 0 => []
  | c + 1 => v.testBit c :: msbBits v c

/-- The bits of a byte string in stream order. -/
def bytesBits (bs : List Byte) : List Bool := bs.flatMap fun b => msbBits b.toNat 8

/-- `size(V)` (R131). -/
def View.size (v : View) : Nat := v.last.toNat - v.first.toNat

/-- The invariant of a descriptor (R25). -/
abbrev View.wf (v : View) : Prop :=
  v.first.toNat ≤ v.last.toNat ∧ v.last.toNat ≤ v.buf.capBits

/-- The view of the first `n` bits of a buffer. -/
def View.whole (buf : BufSel) (n : Nat) : View := ⟨buf, 0, BitVec.ofNat 32 n⟩

/-- `slice(V, from, to)` (R139). -/
def View.slice (v : View) (lo hi : Nat) : View :=
  ⟨v.buf, BitVec.ofNat 32 (v.first.toNat + lo), BitVec.ofNat 32 (v.first.toNat + hi)⟩

/-- The bits of a view as they are in this state (R62, R132): `BufBit` at `Abs(V, i)`. -/
def State.stream (s : State) (v : View) : BitStream where
  size := v.size
  bit := fun k => s.bufBit v.buf.space (v.first.toNat + k)

/-- `set(V, i, b)` for a run of bits from index `i` on (R133, R136). -/
def State.setBits (s : State) (v : View) (i : Int) (bits : List Bool) : State :=
  s.setMem v.buf.space
    (Memory.storeBits v.buf.space s.epoch v.first.toNat v.size (s.mem v.buf.space) i bits)

/-- `TV(h)`, the track view (R77). -/
def State.trackView (s : State) (h : Nat) : View := View.whole (.trk (halftrack h)) (s.lenOf h)

/-- R69, R152: the code an operation on the bits of a view fails with, `NO_DISK` before
`EMPTY_VIEW` (R405). -/
def State.viewError (s : State) (v : View) : Option ErrCode :=
  match v.buf with
  | .trk _ =>
    if s.disk.present then (if v.size = 0 then some .emptyView else none) else some .noDisk
  | .xtrk | .dmem => if v.size = 0 then some .emptyView else none

/-! ## Registers, views, lengths -/

/-- `R0 <- v`. -/
def State.setR0 (s : State) (v : Word) : State := { s with host.r0 := v }

/-- `R1 <- v`. -/
def State.setR1 (s : State) (v : Word) : State := { s with host.r1 := v }

/-- `R2 <- v`. -/
def State.setR2 (s : State) (v : Word) : State := { s with host.r2 := v }

/-- `R3 <- v`. -/
def State.setR3 (s : State) (v : Word) : State := { s with host.r3 := v }

/-- `STATUS` replaced. -/
def State.setStatus (s : State) (st : Status) : State := { s with host.status := st }

/-- `VIEW[v] <- d`. -/
def State.setView (s : State) (v : Fin 4) (d : View) : State :=
  { s with views := s.views.set v d }

/-- `LEN[h] <- n`. -/
def State.setLen (s : State) (h n : Nat) : State :=
  { s with disk.len := bankSet s.disk.len h (BitVec.ofNat 17 n) }

/-- `MOD <- b`. -/
def State.setModified (s : State) (b : Bool) : State := { s with disk.modified := b }

/-- The report replaced. -/
def State.setReport (s : State) (r : Report) : State := { s with report := r }

/-- The engine replaced. -/
def State.setEngine (s : State) (e : Engine) : State := { s with engine := e }

/-- `ER0 <- v`. -/
def State.setER0 (s : State) (v : Word) : State := { s with ctrl.er0 := v }

/-- `ER1 <- v`. -/
def State.setER1 (s : State) (v : Word) : State := { s with ctrl.er1 := v }

/-- `ER2 <- v`. -/
def State.setER2 (s : State) (v : Word) : State := { s with ctrl.er2 := v }

/-- `ER3 <- v`. -/
def State.setER3 (s : State) (v : Word) : State := { s with ctrl.er3 := v }

/-- A number in a result register. -/
def wordOfNat (n : Nat) : Word := BitVec.ofNat 64 n

/-- An integer in a result register, two's complement (R14). -/
def wordOfInt (i : Int) : Word := BitVec.ofInt 64 i

/-- A 64-bit integer as the 8 bytes a table holds, most significant first (R63). -/
def be64 (i : Int) : List Byte :=
  (List.range 8).map fun k => (wordOfInt i).extractLsb' (56 - 8 * k) 8

/-! ## How a host-port operation ends (60_exceptions.md) -/

/-- The operation ends with `ERR = OK` and the given flags (R400). -/
def State.okWith (s : State) (found gcrInv : Bool) : State :=
  s.setStatus (s.host.status.finish .ok found gcrInv)

/-- The operation ends with `ERR = OK`, `FOUND` and `GCRINV` 0 (R400). -/
def State.ok (s : State) : State := s.okWith false false

/-- `fail E` (R401): `GCRINV` is 1 exactly when the failure is `GCR_ERR`. -/
def State.fail (s : State) (e : ErrCode) : State :=
  s.setStatus (s.host.status.finish e false (e == .gcrErr))

/-- `raise Fatal(code)` (R403): nothing but `STATUS` is written. -/
def State.raiseFatal (s : State) (code : ErrCode) : State :=
  s.setStatus (s.host.status.fatal code)

/-- What every command but `RESET` does while `FAULT` is set (R404). -/
def State.refuseFaulted (s : State) : State :=
  s.setStatus (s.host.status.finish .faulted false false)

/-- What an illegal byte written to `CMD` does while `FAULT` is 0 (R94). -/
def State.illegalCommand (s : State) : State :=
  s.setStatus (s.host.status.finish .illegalCmd false false)

/-- Reset (R430), the only way out of Fatal: every element takes its reset value and the memories
whose contents are then unspecified get new free contents. The environment's pending events, the
model arguments and the data last returned by a read are not the DBC's state (log 12). -/
def State.resetDbc (s : State) : State :=
  { State.reset with
    cfg := s.cfg
    inputs := s.inputs
    busData := s.busData
    epoch := s.epoch + 1 }

/-- Every host-port operation but `RESET`: refused with `FAULTED` while `FAULT` is set (R404),
else it runs to completion. -/
def hostOp (s : State) (run : State → State) : Host.Outcome State Fault Refusal :=
  .next (if s.host.status.fault then s.refuseFaulted else run s)

/-- Every controller-port operation: it always runs (R360). -/
def ctrlOp (s : State) (run : State → State) : Host.Outcome State Fault Refusal :=
  .next (run s)

end Sys2Proof.Machine
end

