-- ==== Sys2Proof/Machine/Operands.lean ====
section
/-! DEFINITION. Every operand kind of rule R92: which bits of which register, how they are read, and
their legal range. -/

namespace Sys2Proof.Machine

/-- The unsigned field of `len` bits at bit `lo`; the other bits of the register are ignored. -/
def field (w : Word) (lo len : Nat) : Nat := (w.extractLsb' lo len).toNat

/-- One bit of a register. -/
def flag (w : Word) (k : Nat) : Bool := w.getLsbD k

/-- A byte operand. -/
def byteField (w : Word) (lo : Nat) : Byte := w.extractLsb' lo 8

/-- A view index, bits 1:0. -/
def viewIndex (w : Word) : Fin 4 := ⟨field w 0 2, (w.extractLsb' 0 2).isLt⟩

/-- An iterator or bit offset: all 64 bits, two's complement (R14). -/
abbrev iter (w : Word) : Int := w.toInt

/-- R14: an iterator of magnitude 2^62 or more is a bad operand. -/
def iterLegal (w : Word) : Bool := decide ((iter w).natAbs < 2 ^ 62)

/-- `A0[1:0]` as a view index `v` (or `vd` where an operation names it so). -/
def State.opV (s : State) : Fin 4 := viewIndex s.host.a0

/-- The view `V = VIEW[A0[1:0]]`. -/
def State.view (s : State) : View := s.views[s.opV]

/-- The stream of the view `V`. -/
def State.viewStream (s : State) : BitStream := s.stream s.view

/-- `A1` as an iterator: `i`, `it`, `pos`, `start`, `k`. -/
def State.opIter (s : State) : Int := iter s.host.a1

/-- The range check of that iterator. -/
def State.iterOk (s : State) : Bool := iterLegal s.host.a1

/-- Track `t = A2[7:0]`. -/
def State.opT (s : State) : Nat := field s.host.a2 0 8

/-- Sector `s = A2[15:8]`. -/
def State.opS (s : State) : Nat := field s.host.a2 8 8

/-- `A3[31:0]`: the `DMEM` address `src` or `dst` of the sector, track and block operations. -/
def State.opAddr (s : State) : Nat := field s.host.a3 0 32

/-- `id1 = A4[7:0]`. -/
def State.opId1 (s : State) : Byte := byteField s.host.a4 0

/-- `id2 = A4[15:8]`. -/
def State.opId2 (s : State) : Byte := byteField s.host.a4 8

/-- `align = A4[16]`. -/
def State.opAlign (s : State) : Bool := flag s.host.a4 16

/-- `useErr = A4[17]`. -/
def State.opUseErr (s : State) : Bool := flag s.host.a4 17

/-- `srcLen = A5[31:0]`. -/
def State.opSrcLen (s : State) : Nat := field s.host.a5 0 32

/-- R66: the `n` bytes of `DMEM` from `addr` are inside the memory. -/
def dmemOk (addr n : Nat) : Bool := Space.inBounds .dmem addr n

/-- A C64 track number (R92). -/
def c64TrackOk (t : Nat) : Bool := decide (t < Config.numTracks)

/-- An Amiga or DOS track number (R92). -/
def mfmTrackOk (t : Nat) : Bool := decide (t < 160)

end Sys2Proof.Machine
end

