-- ==== Sys2Proof/Machine/Mfm.lean ====
section
/-! DEFINITION. The MFM unit (42_mfm.md): bit spreading, odd/even planes, clock bits, and the
operations on byte runs in `DMEM`. -/

namespace Sys2Proof.Machine

/-- `mfmSpread(d)` (R180): data bit `k` at word bit `2k`, clock positions 0. -/
def mfmSpread (d : Byte) : BitVec 16 :=
  (List.range 8).foldl (fun w k => w ||| (if d.getLsbD k then 1#16 <<< (2 * k) else 0)) 0

/-- `mfmGather(w)` (R180): the data positions; clock positions are ignored. -/
def mfmGather (w : BitVec 16) : Byte :=
  (List.range 8).foldl (fun d k => d ||| (if w.getLsbD (2 * k) then 1#8 <<< k else 0)) 0

/-- The two MFM bytes of a data byte, high byte first (R181). -/
def mfmPair (d : Byte) : List Byte :=
  [(mfmSpread d).extractLsb' 8 8, (mfmSpread d).extractLsb' 0 8]

/-- `mfmBytes(D)` (R277); the loop of `MFM.ENC` (R181). -/
def mfmBytes (ds : List Byte) : List Byte := ds.flatMap mfmPair

/-- The loop of `MFM.DEC` (R182): two MFM bytes a data byte. -/
def mfmDecode : List Byte → List Byte
  | hi :: lo :: rest => mfmGather (hi ++ lo) :: mfmDecode rest
  | _ => []

/-- `oddPlane(b)` (R187). -/
def oddPlane (b : Byte) : Byte := (b >>> 1) &&& 0x55

/-- `evenPlane(b)` (R187). -/
def evenPlane (b : Byte) : Byte := b &&& 0x55

/-- `mergePlanes(o, e)` (R187). -/
def mergePlanes (o e : Byte) : Byte := ((o &&& 0x55) <<< 1) ||| (e &&& 0x55)

/-- `oeEncode(src)` (R188): the whole odd plane, then the whole even plane. -/
def oeEncode (src : List Byte) : List Byte := src.map oddPlane ++ src.map evenPlane

/-- `oeDecode(M)` (R188). -/
def oeDecode (m : List Byte) : List Byte :=
  List.zipWith mergePlanes (m.take (m.length / 2)) (m.drop (m.length / 2))

/-- `AddClock(value, prev)` (R185). -/
def addClock (value prev : Byte) : Byte :=
  let v := value &&& 0x55
  let l := v <<< 1
  let r := (v >>> 1) ||| ((prev &&& 1) <<< 7)
  v ||| (((l ||| r) ^^^ 0xAA) &&& 0xAA)

/-- `addClockRun(M, prev)` (R189). -/
def addClockRun : List Byte → Byte → List Byte
  | [], _ => []
  | x :: xs, prev => addClock x prev :: addClockRun xs (addClock x prev)

/-- The clocking pass with the bytes at some indices left as they are (R246, R248); `i` is the
index of the first byte. Only bit 0 of the byte before matters, and clocking keeps it (R189). -/
def addClockRunSkipping (skip : Nat → Bool) : Nat → List Byte → Byte → List Byte
  | _, [], _ => []
  | i, x :: xs, prev =>
    let y := if skip i then x else addClock x prev
    y :: addClockRunSkipping skip (i + 1) xs y

/-- What `MFM.ENC`, `MFM.DEC`, `MFM.OEENC`, `MFM.OEDEC` share: `n` bytes read at `A0[31:0]`, the
whole source before anything is written, `m` bytes written at `A1[31:0]`, `R0 <- m`. -/
def convertRun (s : State) (n m : Nat) (f : List Byte → List Byte) : State :=
  let src := field s.host.a0 0 32
  let dst := field s.host.a1 0 32
  if dmemOk src n && dmemOk dst m then
    ((s.writeBytes .dmem dst (f (s.readBytes .dmem src n))).setR0 (wordOfNat m)).ok
  else s.raiseFatal .badOperand

/-- `count = A2[31:0]` of the conversions. -/
def State.opCount (s : State) : Nat := field s.host.a2 0 32

/-- `MFM.ENC` (R181). -/
def execMfmEnc (s : State) : Host.Outcome State Fault Refusal :=
  hostOp s fun s => convertRun s s.opCount (2 * s.opCount) mfmBytes

/-- `MFM.DEC` (R182). -/
def execMfmDec (s : State) : Host.Outcome State Fault Refusal :=
  hostOp s fun s => convertRun s (2 * s.opCount) s.opCount mfmDecode

/-- `MFM.OEENC` (R183). -/
def execMfmOeenc (s : State) : Host.Outcome State Fault Refusal :=
  hostOp s fun s => convertRun s s.opCount (2 * s.opCount) oeEncode

/-- `MFM.OEDEC` (R184). -/
def execMfmOedec (s : State) : Host.Outcome State Fault Refusal :=
  hostOp s fun s => convertRun s (2 * s.opCount) s.opCount oeDecode

/-- `MFM.CLK` (R185): `value = A0[7:0]`, `prev = A1[7:0]`. -/
def execMfmClk (s : State) : Host.Outcome State Fault Refusal :=
  hostOp s fun s =>
    (s.setR0 (wordOfNat (addClock (byteField s.host.a0 0) (byteField s.host.a1 0)).toNat)).ok

/-- `MFM.CLKBUF` (R186): `addr = A0[31:0]`, `count = A1[31:0]`, `prev = A2[7:0]`; `R0` is the last
byte written, or `prev` when there is none. -/
def runMfmClkbuf (s : State) : State :=
  let addr := field s.host.a0 0 32
  let count := field s.host.a1 0 32
  let prev := byteField s.host.a2 0
  if dmemOk addr count then
    let out := addClockRun (s.readBytes .dmem addr count) prev
    ((s.writeBytes .dmem addr out).setR0 (wordOfNat (out.getLastD prev).toNat)).ok
  else s.raiseFatal .badOperand

/-- `MFM.CLKBUF` (R186). -/
def execMfmClkbuf (s : State) : Host.Outcome State Fault Refusal :=
  hostOp s runMfmClkbuf

end Sys2Proof.Machine
end

