-- ==== Sys2Proof/Machine/Sectors.lean ====
section
/-! DEFINITION. What the three sector codecs share: results of a seek and of a decode, and the shapes
of the operations SEEK, SEEKALL, DECSEC and DECTRK (43_c64_sector.md R218-R222 and their MFM
counterparts). -/

namespace Sys2Proof.Machine

/-- What a seek returns: the position of the sector's first header bit and the payload range, all
unreduced (R213). -/
structure SectorRange where
  /-- First bit of the header block id (C64), of the info field (Amiga), of the header mark (DOS). -/
  mark : Int
  /-- First bit of the payload. -/
  first : Int
  /-- One past the payload. -/
  last : Int
deriving DecidableEq, Repr

/-- One entry of the map a SEEKALL scan returns (R214). -/
structure SeekEntry where
  /-- The sector number. -/
  sec : Nat
  /-- First bit of the payload. -/
  first : Int
  /-- One past the payload. -/
  last : Int
  /-- Place in the order of discovery. -/
  order : Nat
deriving DecidableEq, Repr

/-- A decoded sector (R215): payload, header bytes as read, position of the header. -/
structure Decoded where
  /-- The payload bytes. -/
  payload : List Byte
  /-- The header bytes. -/
  header : List Byte
  /-- As in `SectorRange`. -/
  mark : Int
deriving DecidableEq, Repr

/-- XOR of a run of bytes. -/
def xorBytes (bs : List Byte) : Byte := bs.foldl (· ^^^ ·) 0

/-- Bytes `size*k .. size*k + size - 1` of a track image. -/
def imageChunk (image : List Byte) (size k : Nat) : List Byte := (image.drop (size * k)).take size

/-- The rounds a scan may need: every round moves the iterator on and a scan ends at the first mark
one revolution after its start, so they never run out (R18, R223; log 18). -/
def scanFuel (b : BitStream) : Nat := b.size + 2

/-- SEEK (R221, R254, R284): the empty optional is `NOT_FOUND`. -/
def seekOp (s : State) (seek : BitStream → Option SectorRange) : State :=
  if s.iterOk then
    match s.viewError s.view with
    | some e => s.fail e
    | none =>
      match seek s.viewStream with
      | none => s.fail .notFound
      | some r =>
        (((s.setR0 (wordOfInt r.first)).setR1 (wordOfInt r.last)).setR2
          (wordOfInt r.mark)).okWith true false
  else s.raiseFatal .badOperand

/-- One 24-byte table entry (R222): `begin`, `end`, `order` big-endian, or 24 bytes 0xFF. -/
def seekEntryBytes : Option SeekEntry → List Byte
  | none => List.replicate 24 0xFF
  | some e => be64 e.first ++ be64 e.last ++ be64 e.order

/-- The table of `n` entries (R222). -/
def seekTable (n : Nat) (found : List SeekEntry) : List Byte :=
  (List.range n).flatMap fun k => seekEntryBytes (found.find? fun e => e.sec == k)

/-- SEEKALL (R222, R255, R285): `OK` also when nothing was found. -/
def seekAllOp (s : State) (n : Nat) (seek : BitStream → List SeekEntry) : State :=
  if s.iterOk && dmemOk s.opAddr (24 * n) then
    match s.viewError s.view with
    | some e => s.fail e
    | none =>
      let found := seek s.viewStream
      ((s.writeBytes .dmem s.opAddr (seekTable n found)).setR0
        (wordOfNat found.length)).okWith (decide (0 < found.length)) false
  else s.raiseFatal .badOperand

/-- DECSEC (R218, R252, R282) up to the result registers: nothing is written on an error. -/
def decodeSectorOp (s : State) (legal : Bool) (size : Nat)
    (decode : BitStream → Except ErrCode Decoded) (results : State → Decoded → State) : State :=
  if s.iterOk && legal && dmemOk s.opAddr size then
    match s.viewError s.view with
    | some e => s.fail e
    | none =>
      match decode s.viewStream with
      | .error e => s.fail e
      | .ok d =>
        (results (((s.writeBytes .dmem s.opAddr d.payload).setR0 (wordOfNat size)).setR1
          (wordOfInt d.mark)) d).ok
  else s.raiseFatal .badOperand

/-- The loop of DECTRK (R219): sectors `k`, `k + 1`, ... of `left` more, each decoded from the view
as it then is; a failure leaves the payloads written so far. -/
def decodeTrackLoop (size : Nat) (decode : BitStream → Nat → Except ErrCode Decoded) :
    Nat → Nat → State → State
  | 0, k, s => ((s.setR0 (wordOfNat (size * k))).setR1 (wordOfNat k)).ok
  | left + 1, k, s =>
    match decode s.viewStream k with
    | .error e => ((s.setR0 (wordOfNat (size * k))).setR1 (wordOfNat k)).fail e
    | .ok d =>
      decodeTrackLoop size decode left (k + 1)
        (s.writeBytes .dmem (s.opAddr + size * k) d.payload)

/-- DECTRK (R219, R253, R283): `n` sectors of `size` bytes. -/
def decodeTrackOp (s : State) (legal : Bool) (n size : Nat)
    (decode : BitStream → Nat → Except ErrCode Decoded) : State :=
  if s.iterOk && legal && dmemOk s.opAddr (size * n) then
    match s.viewError s.view with
    | some e => s.fail e
    | none => decodeTrackLoop size decode n 0 s
  else s.raiseFatal .badOperand

/-- ENCSEC (R210, R248, R278): `bits` are written at `pos` when the view can hold them. -/
def encodeSectorOp (s : State) (legal : Bool) (payload size : Nat)
    (bits : List Byte → List Bool) : State :=
  if s.iterOk && legal && dmemOk s.opAddr payload then
    match s.viewError s.view with
    | some e => s.fail e
    | none =>
      if size > s.view.size then s.raiseFatal .capacity
      else
        (((s.setBits s.view s.opIter (bits (s.readBytes .dmem s.opAddr payload))).setR0
          (wordOfNat size)).setR1 (wordOfInt (s.opIter + size))).ok
  else s.raiseFatal .badOperand

end Sys2Proof.Machine
end

