-- ==== Sys2Proof/Machine/Amiga.lean ====
section
/-! DEFINITION. The Amiga MFM sector codec (44_amiga_sector.md). -/

namespace Sys2Proof.Machine

/-- The sync of an Amiga sector as a 32-bit pattern (R105, R241). -/
def amiSync : Nat := 0x44894489

/-- The same as MFM bytes. -/
def amiSyncBytes : List Byte := [0x44, 0x89, 0x44, 0x89]

/-- Bits of one Amiga sector: 1088 MFM bytes (R240). -/
def amiSectorBits : Nat := 8704

/-- `xor4` of a run whose length is a multiple of 4 (R245): clock bits masked off. -/
def xor4 : List Byte → List Byte
  | a :: b :: c :: d :: rest =>
    List.zipWith (· ^^^ ·) [a &&& 0x55, b &&& 0x55, c &&& 0x55, d &&& 0x55] (xor4 rest)
  | _ => [0, 0, 0, 0]

/-- The four info bytes (R242). -/
def amiInfo (t k : Nat) : List Byte :=
  [0xFF, BitVec.ofNat 8 t, BitVec.ofNat 8 k, BitVec.ofNat 8 (11 - k)]

/-- Info and label, odd/even encoded: what the header checksum covers (R241, R245). -/
def amiHeader (t k : Nat) : List Byte := oeEncode (amiInfo t k) ++ List.replicate 32 0

/-- `amiSectorBytes(t, s, P)` (R247): the 1088 MFM bytes before clocking. -/
def amiSectorBytes (t k : Nat) (p : List Byte) : List Byte :=
  List.replicate 4 0 ++ amiSyncBytes ++ amiHeader t k ++ oeEncode (xor4 (amiHeader t k)) ++
    oeEncode (xor4 (oeEncode p)) ++ oeEncode p

/-- The sync bytes of a sector, which are not clocked (R246, R248). -/
def amiIsSync (i : Nat) : Bool := decide (4 ≤ i ∧ i < 8)

/-- The sync bytes of a track of 11 sectors and a gap (R246, R249). -/
def amiIsTrackSync (i : Nat) : Bool := decide (i < 11968) && amiIsSync (i % 1088)

/-- The 12668 bytes of an encoded track (R246, R249): 11 sectors, the gap, one cyclic clocking pass. -/
def amiTrackBytes (t : Nat) (image : List Byte) : List Byte :=
  let p := ((List.range Config.amigaSectors).flatMap fun k =>
    amiSectorBytes t k (imageChunk image Config.mfmPayload k)) ++ List.replicate 700 0
  addClockRunSkipping amiIsTrackSync 0 p (p.getLastD 0)

/-- `n` bytes of a stream from a position on. -/
def BitStream.bytesAt (b : BitStream) (pos : Int) (n : Nat) : List Byte :=
  (List.range n).map fun (k : Nat) => b.getByte (pos + 8 * k)

/-- The four info bytes of the sector whose info field begins at `p` (R250). -/
def BitStream.amiInfoAt (b : BitStream) (p : Int) : List Byte := oeDecode (b.bytesAt p 8)

/-- The loop of `amiSeekSector` (R250). -/
def BitStream.amiSeekLoop (b : BitStream) (sec : Byte) (start : Int) :
    Nat → Int → List Byte → Option SectorRange
  | 0, _, _ => none
  | fuel + 1, it, seen =>
    match b.forward it amiSync 32 with
    | none => none
    | some p =>
      if p - 32 - start ≥ b.size then none
      else
        let x := (b.amiInfoAt p).getD 2 0
        if x ∈ seen then none
        else if x = sec then some ⟨p, p + 448, p + 448 + 8192⟩
        else BitStream.amiSeekLoop b sec start fuel p (x :: seen)

/-- `amiSeekSector(V, s, start)` (R250). -/
def BitStream.amiSeekSector (b : BitStream) (sec : Byte) (start : Int) : Option SectorRange :=
  b.amiSeekLoop sec start (scanFuel b) start []

/-- The loop of `amiSeekSectors` (R256): `order` counts every newly seen number. -/
def BitStream.amiSeekAllLoop (b : BitStream) (start : Int) :
    Nat → Int → List Byte → List SeekEntry → List SeekEntry
  | 0, _, _, found => found
  | fuel + 1, it, seen, found =>
    match b.forward it amiSync 32 with
    | none => found
    | some p =>
      if p - 32 - start ≥ b.size then found
      else
        let x := (b.amiInfoAt p).getD 2 0
        if x ∈ seen then found
        else
          BitStream.amiSeekAllLoop b start fuel p (x :: seen)
            (if x.toNat < Config.amigaSectors then
              found ++ [⟨x.toNat, p + 448, p + 448 + 8192, seen.length⟩]
            else found)

/-- `amiSeekSectors(V, start)` (R256). -/
def BitStream.amiSeekSectors (b : BitStream) (start : Int) : List SeekEntry :=
  b.amiSeekAllLoop start (scanFuel b) start [] []

/-- The header check on sector bytes 8..1087 (R251). -/
def amiHeaderOk (m : List Byte) : Bool :=
  xor4 (m.take 40) == oeDecode ((m.drop 40).take 8)

/-- The data check on sector bytes 8..1087 (R251). -/
def amiDataOk (m : List Byte) : Bool :=
  xor4 (m.drop 56) == oeDecode ((m.drop 48).take 8)

/-- `amiDecodeSector(V, s, start)` (R251); the descending count is not looked at (R243). -/
def BitStream.amiDecodeSector (b : BitStream) (sec : Byte) (start : Int) :
    Except ErrCode Decoded :=
  match b.amiSeekSector sec start with
  | none => .error .seekErr
  | some r =>
    let m := b.bytesAt r.mark 1080
    if !amiHeaderOk m then .error .hdrCksum
    else if !amiDataOk m then .error .dataCksum
    else .ok ⟨oeDecode (m.drop 56), oeDecode (m.take 8), r.mark⟩

/-- `t` and `s` of an Amiga sector operation are in range (R92). -/
def State.amiSectorOk (s : State) : Bool :=
  mfmTrackOk s.opT && decide (s.opS < Config.amigaSectors)

/-- `AMI.ENCSEC` (R248): the first byte is clocked against the byte just before `pos`. -/
def execAmiEncsec (s : State) : Host.Outcome State Fault Refusal :=
  hostOp s fun s =>
    encodeSectorOp s s.amiSectorOk Config.mfmPayload amiSectorBits fun p =>
      bytesBits (addClockRunSkipping amiIsSync 0 (amiSectorBytes s.opT s.opS p)
        (s.viewStream.getByte (s.opIter - 8)))

/-- What `AMI.ENCTRK` and `DOS.ENCTRK` do with the encoded bytes: they replace the beginning of
`XTRK`, and `XLEN` and the view cover them (R249, R279). -/
def storeXtrack (s : State) (bytes : List Byte) (bits : Nat) : State :=
  (((({ s.writeBytes .xtrk 0 bytes with xlen := BitVec.ofNat 18 bits }).setView s.opV
    (View.whole .xtrk bits)).setR0 (wordOfNat bits)).setR1 0).ok

/-- `AMI.ENCTRK` and `DOS.ENCTRK` share their checks (R249, R279). -/
def encodeXtrackOp (s : State) (sectors bits : Nat) (encode : List Byte → List Byte) : State :=
  let bytes := sectors * Config.mfmPayload
  if !mfmTrackOk s.opT then s.raiseFatal .badOperand
  else if s.opSrcLen ≠ bytes then s.fail .formatErr
  else if !dmemOk s.opAddr bytes then s.raiseFatal .badOperand
  else storeXtrack s (encode (s.readBytes .dmem s.opAddr bytes)) bits

/-- `AMI.ENCTRK` (R249). -/
def execAmiEnctrk (s : State) : Host.Outcome State Fault Refusal :=
  hostOp s fun s => encodeXtrackOp s Config.amigaSectors 101344 (amiTrackBytes s.opT)

/-- `R2` of `AMI.DECSEC` and `DOS.DECSEC`: four header bytes as read, the first most significant
(R252, R282). -/
def headerLong (s : State) (d : Decoded) : State :=
  s.setR2 (wordOfNat ((d.header.getD 0 0).toNat * 2 ^ 24 + (d.header.getD 1 0).toNat * 2 ^ 16
    + (d.header.getD 2 0).toNat * 2 ^ 8 + (d.header.getD 3 0).toNat))

/-- `AMI.DECSEC` (R252). -/
def execAmiDecsec (s : State) : Host.Outcome State Fault Refusal :=
  hostOp s fun s =>
    decodeSectorOp s s.amiSectorOk Config.mfmPayload
      (fun b => b.amiDecodeSector (BitVec.ofNat 8 s.opS) s.opIter) headerLong

/-- `AMI.DECTRK` (R253). -/
def execAmiDectrk (s : State) : Host.Outcome State Fault Refusal :=
  hostOp s fun s =>
    decodeTrackOp s (mfmTrackOk s.opT) Config.amigaSectors Config.mfmPayload fun b k =>
      b.amiDecodeSector (BitVec.ofNat 8 k) s.opIter

/-- `AMI.SEEK` (R254): any sector number. -/
def execAmiSeek (s : State) : Host.Outcome State Fault Refusal :=
  hostOp s fun s => seekOp s fun b => b.amiSeekSector (BitVec.ofNat 8 s.opS) s.opIter

/-- `AMI.SEEKALL` (R255): 11 entries. -/
def execAmiSeekall (s : State) : Host.Outcome State Fault Refusal :=
  hostOp s fun s => seekAllOp s Config.amigaSectors fun b => b.amiSeekSectors s.opIter

end Sys2Proof.Machine
end

