-- ==== Sys2Proof/Machine/Gcr.lean ====
section
/-! DEFINITION. The GCR unit (41_gcr.md): the 4-to-5 code, its functions on bit streams, its
operations. -/

namespace Sys2Proof.Machine

/-- The table `G` (30_encoding.md R100). -/
def gcrTable : List (BitVec 5) :=
  [0x0A, 0x0B, 0x12, 0x13, 0x0E, 0x0F, 0x16, 0x17, 0x09, 0x19, 0x1A, 0x1B, 0x0D, 0x1D, 0x1E, 0x15]

/-- The inverse table `IG` (R101); 0xFF is `GCR_INVALID`. -/
def gcrInverse : List Byte :=
  [0xFF, 0xFF, 0xFF, 0xFF, 0xFF, 0xFF, 0xFF, 0xFF, 0xFF, 0x08, 0x00, 0x01, 0xFF, 0x0C, 0x04, 0x05,
   0xFF, 0xFF, 0x02, 0x03, 0xFF, 0x0F, 0x06, 0x07, 0xFF, 0x09, 0x0A, 0x0B, 0xFF, 0x0D, 0x0E, 0xFF]

/-- `GCR_INVALID` (R101). -/
def gcrInvalid : Byte := 0xFF

/-- `bin2gcr(n)` (R160). -/
def bin2gcr (n : BitVec 4) : BitVec 5 := gcrTable.getD n.toNat 0

/-- `gcr2bin(c)` (R160): a nibble, or `GCR_INVALID`. -/
def gcr2bin (c : BitVec 5) : Byte := gcrInverse.getD c.toNat gcrInvalid

/-- The nibble of a valid codeword. -/
def gcrNibble (c : BitVec 5) : Option (BitVec 4) :=
  if gcr2bin c = gcrInvalid then none else some ((gcr2bin c).extractLsb' 0 4)

/-- The ten bits of a GCR-encoded byte, high nibble first (R165). -/
def gcrByteBits (b : Byte) : List Bool :=
  msbBits (bin2gcr (b.extractLsb' 4 4)).toNat 5 ++ msbBits (bin2gcr (b.extractLsb' 0 4)).toNat 5

/-- The bits of a run of GCR-encoded bytes (R166). -/
def gcrBits (bs : List Byte) : List Bool := bs.flatMap gcrByteBits

/-- The codeword at a stream position. -/
def BitStream.codeword (b : BitStream) (pos : Int) : BitVec 5 := BitVec.ofNat 5 (b.getBits pos 5)

/-- `decodeGcrNibbles(V, pos)` (R167): `none` stands for `GCR_INVALID`. -/
def BitStream.gcrNibbles (b : BitStream) (pos : Int) : Option (BitVec 4) × Option (BitVec 4) :=
  (gcrNibble (b.codeword pos), gcrNibble (b.codeword (pos + 5)))

/-- `decodeGcr(V, pos)` (R167): a byte when both codewords are valid. -/
def BitStream.decodeGcr (b : BitStream) (pos : Int) : Option Byte :=
  match b.gcrNibbles pos with
  | (some hi, some lo) => some (hi ++ lo)
  | _ => none

/-- `decodeGcrBytes(V, pos, m)` (R168); `none` when `gcrValid(V, pos, m)` does not hold. -/
def BitStream.decodeGcrBytes (b : BitStream) (pos : Int) : Nat → Option (List Byte)
  | 0 => some []
  | m + 1 =>
    match b.decodeGcr pos with
    | none => none
    | some x => (BitStream.decodeGcrBytes b (pos + 10) m).map (x :: ·)

/-- `GCR.B2G` (R161): `n = A0[3:0]`. -/
def execGcrB2g (s : State) : Host.Outcome State Fault Refusal :=
  hostOp s fun s =>
    (s.setR0 (wordOfNat (bin2gcr (s.host.a0.extractLsb' 0 4)).toNat)).ok

/-- `GCR.G2B` (R162): `c = A0[4:0]`; the sentinel reads 0xFF and sets `GCRINV`, `ERR = OK`. -/
def runGcrG2b (s : State) : State :=
  let b := gcr2bin (s.host.a0.extractLsb' 0 5)
  (s.setR0 (wordOfNat b.toNat)).okWith false (b == gcrInvalid)

/-- `GCR.G2B` (R162). -/
def execGcrG2b (s : State) : Host.Outcome State Fault Refusal :=
  hostOp s runGcrG2b

/-- `GCR.ENC` (R163): `byte = A2[7:0]`; `R0` is the unreduced position after the group. -/
def runGcrEnc (s : State) : State :=
  if s.iterOk then
    match s.viewError s.view with
    | some e => s.fail e
    | none =>
      ((s.setBits s.view s.opIter (gcrByteBits (byteField s.host.a2 0))).setR0
        (wordOfInt (s.opIter + 10))).ok
  else s.raiseFatal .badOperand

/-- `GCR.ENC` (R163). -/
def execGcrEnc (s : State) : Host.Outcome State Fault Refusal :=
  hostOp s runGcrEnc

/-- What a free nibble of `GCR.DEC` may depend on (R68, log 7): the view and position it is asked for and the
bytes of the view's buffer as they read. -/
def State.gcrDraw (s : State) (low : Bool) : Config.GcrDraw where
  buf := s.view.buf.code
  first := s.view.first.toNat
  last := s.view.last.toNat
  pos := s.opIter
  contents := s.readBytes s.view.buf.space 0 s.view.buf.space.cap
  low := low

/-- A decoded nibble, or the free value where the codeword is invalid (R164, U1). -/
def State.nibbleOr (s : State) (n : Option (BitVec 4)) (low : Bool) : BitVec 4 :=
  n.getD (Config.freeNibble (s.gcrDraw low))

/-- `GCR.DEC` (R164): `R1` is the exact validity mask, `GCRINV` says whether it is not 0; the
operation does not fail. -/
def runGcrDec (s : State) : State :=
  if s.iterOk then
    match s.viewError s.view with
    | some e => s.fail e
    | none =>
      let hi := (s.viewStream.gcrNibbles s.opIter).1
      let lo := (s.viewStream.gcrNibbles s.opIter).2
      let mask := 2 * flagBit hi.isNone + flagBit lo.isNone
      ((s.setR0 (wordOfNat (16 * (s.nibbleOr hi false).toNat + (s.nibbleOr lo true).toNat))).setR1
        (wordOfNat mask)).okWith false (mask != 0)
  else s.raiseFatal .badOperand

/-- `GCR.DEC` (R164). -/
def execGcrDec (s : State) : Host.Outcome State Fault Refusal :=
  hostOp s runGcrDec

end Sys2Proof.Machine
end

