-- ==== Sys2Proof/Machine/C64.lean ====
section
/-! DEFINITION. The C64 GCR sector codec (43_c64_sector.md). -/

namespace Sys2Proof.Machine

/-- The 40 bits of a sync mark (R201), or of the omitted mark of error code 0x03 (R207). -/
def c64SyncBits (e : Byte) : List Bool := List.replicate 40 (e != 0x03)

/-- A run of plain gap bytes 0x55 (R201). -/
def c64GapBits (n : Nat) : List Bool := bytesBits (List.replicate n 0x55)

/-- The eight header bytes (R202, R205) with the effect of the error code (R207, R209). -/
def c64Header (t k : Nat) (id1 id2 e : Byte) : List Byte :=
  let track := BitVec.ofNat 8 (t + 1)
  let sec := BitVec.ofNat 8 k
  let hck := id1 ^^^ id2 ^^^ track ^^^ sec
  [if e = 0x02 then 0x00 else 0x08,
   if e = 0x09 then hck ^^^ 0xFF else hck,
   sec, track,
   if e = 0x0B then id2 ^^^ 0xFF else id2,
   if e = 0x0B then id1 ^^^ 0xFF else id1,
   0x0F, 0x0F]

/-- The 260 bytes of the data block (R206) with the effect of the error code (R207, R209). -/
def c64Data (p : List Byte) (e : Byte) : List Byte :=
  let dck := xorBytes p
  [if e = 0x04 then 0x00 else 0x07] ++ p ++ [if e = 0x05 then dck ^^^ 0xFF else dck, 0x00, 0x00]

/-- The bits `c64EncodeSector` writes, in stream order (R200, R209). -/
def c64SectorBits (cfg : ModelArgs) (t k : Nat) (p : List Byte) (id1 id2 e : Byte) : List Bool :=
  c64SyncBits e ++ gcrBits (c64Header t k id1 id2 e) ++ c64GapBits 9 ++
    c64SyncBits e ++ gcrBits (c64Data p e) ++ c64GapBits (tailGapOf cfg t)

/-- The error code of sector `k` of track `t` (R207). -/
def State.errorCode (s : State) (useErr : Bool) (t k : Nat) : Byte :=
  if useErr then s.byteAt .errtab (firstBlock t + k) else 0x01

/-- The bits of all sectors of a track, ascending and back to back (R211). -/
def State.c64TrackBits (s : State) (t : Nat) (image : List Byte) (id1 id2 : Byte)
    (useErr : Bool) : List Bool :=
  (List.range (sectorCount t)).flatMap fun k =>
    c64SectorBits s.cfg t k (imageChunk image Config.c64Payload k) id1 id2
      (s.errorCode useErr t k)

/-- Where `c64EncodeTrack` starts (R211). -/
def State.c64Start (s : State) (t : Nat) (align : Bool) : Nat :=
  if align then 0 else startOffset s.cfg t

/-- R211: the sectors of the track do not fit its nominal length. -/
def c64TooLong (cfg : ModelArgs) (t : Nat) : Bool :=
  decide (sectorCount t * sectorBits cfg t > nominalBits t)

/-- `c64EncodeTrack` (R211): the buffer filled with 0x55, the length nominal, the sectors written. -/
def State.c64EncodeTrack (s : State) (t : Nat) (image : List Byte) (id1 id2 : Byte)
    (align useErr : Bool) : State :=
  let h := halftrack (2 * t)
  ((s.setMem (.trk h) []).setLen (2 * t) (nominalBits t)).setBits
    (View.whole (.trk h) (nominalBits t)) (s.c64Start t align)
    (s.c64TrackBits t image id1 id2 useErr)

/-- The loop of R208 that skips the ones of a sync mark; `none` after a whole revolution of ones. -/
def BitStream.skipOnes (b : BitStream) : Nat → Int → Option Int
  | 0, _ => none
  | left + 1, p => if b.get p then BitStream.skipOnes b left (p + 1) else some p

/-- `c64NextBlock(V, it)` (R208): the position after the first ten ones of the next sync mark, and
the position of the zero bit that ends it. -/
def BitStream.c64NextBlock (b : BitStream) (it : Int) : Option (Int × Int) :=
  match b.forward it 0x3FF 10 with
  | none => none
  | some p0 => (b.skipOnes b.size p0).map fun p => (p0, p)

/-- The loop of R213 up to the header of the wanted sector: the position of its block id. -/
def BitStream.c64FindHeader (b : BitStream) (sec : Byte) (start : Int) :
    Nat → Int → List Byte → Option Int
  | 0, _, _ => none
  | fuel + 1, it, seen =>
    match b.c64NextBlock it with
    | none => none
    | some (p0, p) =>
      if p0 - 10 - start ≥ b.size then none
      else if b.decodeGcr p = some 0x08 then
        match b.decodeGcr (p + 20) with
        | none => BitStream.c64FindHeader b sec start fuel (p + 80) seen
        | some x =>
          if x ∈ seen then none
          else if x = sec then some p
          else BitStream.c64FindHeader b sec start fuel (p + 80) (x :: seen)
      else BitStream.c64FindHeader b sec start fuel (p + 10) seen

/-- `c64SeekSector(V, s, start)` (R213): the data block must be the very next marked block. -/
def BitStream.c64SeekSector (b : BitStream) (sec : Byte) (start : Int) : Option SectorRange :=
  match b.c64FindHeader sec start (scanFuel b) start [] with
  | none => none
  | some p =>
    match b.c64NextBlock (p + 80) with
    | none => none
    | some (_, q) =>
      if b.decodeGcr q = some 0x07 then some ⟨p, q + 10, q + 10 + 2560⟩ else none

/-- The loop of R214: iterator, numbers seen, map so far, order counter, pending header. -/
def BitStream.c64SeekLoop (b : BitStream) (start : Int) :
    Nat → Int → List Byte → List SeekEntry → Nat → Option Nat → List SeekEntry
  | 0, _, _, found, _, _ => found
  | fuel + 1, it, seen, found, order, cur =>
    match b.c64NextBlock it with
    | none => found
    | some (p0, p) =>
      let id := b.decodeGcr p
      let entry := fun k => found ++ [⟨k, p + 10, p + 10 + 2560, order⟩]
      if p0 - 10 - start ≥ b.size then
        match cur with
        | none => found
        | some k => if id = some 0x07 then entry k else found
      else if id = some 0x08 then
        match b.decodeGcr (p + 20) with
        | none => BitStream.c64SeekLoop b start fuel (p + 80) seen found order none
        | some x =>
          if x ∈ seen then found
          else
            BitStream.c64SeekLoop b start fuel (p + 80) (x :: seen) found order
              (if x.toNat < Config.c64MaxSectors then some x.toNat else none)
      else
        match cur with
        | some k =>
          if id = some 0x07 then
            BitStream.c64SeekLoop b start fuel (p + 10) seen (entry k) (order + 1) none
          else BitStream.c64SeekLoop b start fuel (p + 10) seen found order none
        | none => BitStream.c64SeekLoop b start fuel (p + 10) seen found order none

/-- `c64SeekSectors(V, start)` (R214). -/
def BitStream.c64SeekSectors (b : BitStream) (start : Int) : List SeekEntry :=
  b.c64SeekLoop start (scanFuel b) start [] [] 0 none

/-- The header check of R205 on the six decoded bytes. -/
def c64HeaderOk : List Byte → Bool
  | [_, ck, sec, track, id2, id1] => ck == sec ^^^ track ^^^ id2 ^^^ id1
  | _ => false

/-- The data check of R206 on the 257 decoded bytes after the id. -/
def c64DataOk (d : List Byte) : Bool :=
  d.getD Config.c64Payload 0 == xorBytes (d.take Config.c64Payload)

/-- `c64DecodeSector(V, s, start)` (R215): the first failing check is reported. -/
def BitStream.c64DecodeSector (b : BitStream) (sec : Byte) (start : Int) :
    Except ErrCode Decoded :=
  match b.c64SeekSector sec start with
  | none => .error .seekErr
  | some r =>
    match b.decodeGcrBytes r.mark 6 with
    | none => .error .gcrErr
    | some h =>
      if c64HeaderOk h then
        match b.decodeGcrBytes r.first 257 with
        | none => .error .gcrErr
        | some d =>
          if c64DataOk d then .ok ⟨d.take Config.c64Payload, h, r.mark⟩ else .error .dataCksum
      else .error .hdrCksum

/-- `t` and `s` of a C64 sector operation are in range (R92). -/
def State.c64SectorOk (s : State) : Bool :=
  c64TrackOk s.opT && decide (s.opS < sectorCount s.opT)

/-- `C64.ENCSEC` (R210). -/
def execC64Encsec (s : State) : Host.Outcome State Fault Refusal :=
  hostOp s fun s =>
    encodeSectorOp s s.c64SectorOk Config.c64Payload (sectorBits s.cfg s.opT) fun p =>
      c64SectorBits s.cfg s.opT s.opS p s.opId1 s.opId2 (s.errorCode s.opUseErr s.opT s.opS)

/-- `C64.ENCTRK` (R212): its own order of checks (log 9). -/
def runC64Enctrk (s : State) : State :=
  let t := s.opT
  let bytes := Config.c64Payload * sectorCount t
  if !c64TrackOk t then s.raiseFatal .badOperand
  else if !s.disk.present then s.fail .noDisk
  else if s.opSrcLen ≠ bytes then s.fail .formatErr
  else if !dmemOk s.opAddr bytes then s.raiseFatal .badOperand
  else if c64TooLong s.cfg t then s.raiseFatal .capacity
  else
    ((((s.c64EncodeTrack t (s.readBytes .dmem s.opAddr bytes) s.opId1 s.opId2 s.opAlign
      s.opUseErr).setView s.opV (View.whole (.trk (halftrack (2 * t))) (nominalBits t))).setR0
      (wordOfNat (sectorCount t * sectorBits s.cfg t))).setR1
      (wordOfNat (s.c64Start t s.opAlign))).ok

/-- `C64.ENCTRK` (R212). -/
def execC64Enctrk (s : State) : Host.Outcome State Fault Refusal :=
  hostOp s runC64Enctrk

/-- The result registers of `C64.DECSEC`: the header's track byte and ids as read (R218). -/
def c64DecsecResults (s : State) (d : Decoded) : State :=
  (s.setR2 (wordOfNat (d.header.getD 3 0).toNat)).setR3
    (wordOfNat ((d.header.getD 4 0).toNat * 256 + (d.header.getD 5 0).toNat))

/-- `C64.DECSEC` (R218). -/
def execC64Decsec (s : State) : Host.Outcome State Fault Refusal :=
  hostOp s fun s =>
    decodeSectorOp s s.c64SectorOk Config.c64Payload
      (fun b => b.c64DecodeSector (BitVec.ofNat 8 s.opS) s.opIter) c64DecsecResults

/-- `C64.DECTRK` (R219, R216). -/
def execC64Dectrk (s : State) : Host.Outcome State Fault Refusal :=
  hostOp s fun s =>
    decodeTrackOp s (c64TrackOk s.opT) (sectorCount s.opT) Config.c64Payload fun b k =>
      b.c64DecodeSector (BitVec.ofNat 8 k) s.opIter

/-- `C64.SEEK` (R221): any sector number, `A2[7:0]` is ignored. -/
def execC64Seek (s : State) : Host.Outcome State Fault Refusal :=
  hostOp s fun s => seekOp s fun b => b.c64SeekSector (BitVec.ofNat 8 s.opS) s.opIter

/-- `C64.SEEKALL` (R222): 21 entries. -/
def execC64Seekall (s : State) : Host.Outcome State Fault Refusal :=
  hostOp s fun s => seekAllOp s Config.c64MaxSectors fun b => b.c64SeekSectors s.opIter

end Sys2Proof.Machine
end

