-- ==== Sys2Proof/Machine/Dos.lean ====
section
/-! DEFINITION. The IBM/DOS MFM sector codec (45_ibm_sector.md). -/

namespace Sys2Proof.Machine

/-- The 48-bit pattern of three sync words (R105, R274). -/
def dosSync : Nat := 0x448944894489

/-- Bits of one DOS sector: 1316 MFM bytes (R270). -/
def dosSectorBits : Nat := 10528

/-- One shift of the CRC register (R273). -/
def crcShift (crc : BitVec 16) : BitVec 16 :=
  if crc.getLsbD 15 then (crc <<< 1) ^^^ 0x1021 else crc <<< 1

/-- One byte of the CRC, most significant bit first (R273). -/
def crcByte (crc : BitVec 16) (b : Byte) : BitVec 16 :=
  Nat.repeat crcShift 8 (crc ^^^ (b.zeroExtend 16 <<< 8))

/-- `crc16(bytes)` (R273). -/
def crc16 (bs : List Byte) : BitVec 16 := bs.foldl crcByte 0xFFFF

/-- A CRC as the two bytes that are stored, high byte first (R273). -/
def crcBytes (bs : List Byte) : List Byte :=
  [(crc16 bs).extractLsb' 8 8, (crc16 bs).extractLsb' 0 8]

/-- The three mark bytes (R271). -/
def dosMarks : List Byte := [0xA1, 0xA1, 0xA1]

/-- Mark, `C`, `H`, `R`, `N` of a header (R271). -/
def dosHeader (t k : Nat) : List Byte :=
  [0xFE, BitVec.ofNat 8 (t / 2), BitVec.ofNat 8 (t % 2), BitVec.ofNat 8 (k + 1), 2]

/-- `dosSectorData(t, s, P)` (R271, R277): 658 data-level bytes. -/
def dosSectorData (t k : Nat) (p : List Byte) : List Byte :=
  List.replicate 12 0x00 ++ dosMarks ++ dosHeader t k ++ crcBytes (dosMarks ++ dosHeader t k) ++
    List.replicate 22 0x4E ++ List.replicate 12 0x00 ++ dosMarks ++ [0xFB] ++ p ++
    crcBytes (dosMarks ++ [0xFB] ++ p) ++ List.replicate 84 0x4E

/-- The MFM byte indices of a sector whose clock bit 5 is removed: the low bytes of the words at
the data-level offsets 12, 13, 14, 56, 57, 58 (R274, R277). -/
def dosIsMark (i : Nat) : Bool := [25, 27, 29, 113, 115, 117].contains i

/-- The same in a track of 9 sectors (R276, R279). -/
def dosIsTrackMark (i : Nat) : Bool := decide (i < 11844) && dosIsMark (i % 1316)

/-- The bytes with the marked ones ANDed with 0xDF; `i` is the index of the first (R274). -/
def dosPatch (mark : Nat → Bool) : Nat → List Byte → List Byte
  | _, [] => []
  | i, x :: xs => (if mark i then x &&& 0xDF else x) :: dosPatch mark (i + 1) xs

/-- The 12500 bytes of an encoded track (R276, R279): 9 sectors, filler, one cyclic clocking pass,
the mark words patched. -/
def dosTrackBytes (t : Nat) (image : List Byte) : List Byte :=
  let m := mfmBytes (((List.range Config.dosSectors).flatMap fun k =>
    dosSectorData t k (imageChunk image Config.mfmPayload k)) ++ List.replicate 328 0x4E)
  dosPatch dosIsTrackMark 0 (addClockRun m (m.getLastD 0))

/-- `rdMfm(V, pos)` (R270): one data-level byte. -/
def BitStream.rdMfm (b : BitStream) (pos : Int) : Byte :=
  mfmGather (BitVec.ofNat 16 (b.getBits pos 16))

/-- `n` data-level bytes from a position on. -/
def BitStream.rdMfmRun (b : BitStream) (pos : Int) (n : Nat) : List Byte :=
  (List.range n).map fun (k : Nat) => b.rdMfm (pos + 16 * k)

/-- The loop of `dosFindHeader` (R342), which is that of `dosSeekSector` up to the wanted header
(R280): the position of its 0xFE mark. -/
def BitStream.dosFindLoop (b : BitStream) (sec : Byte) (start : Int) :
    Nat → Int → List Byte → Option Int
  | 0, _, _ => none
  | fuel + 1, it, seen =>
    match b.forward it dosSync 48 with
    | none => none
    | some p =>
      if p - 48 - start ≥ b.size then none
      else if b.rdMfm p = 0xFE then
        let x := b.rdMfm (p + 48) - 1
        if x ∈ seen then none
        else if x = sec then some p
        else BitStream.dosFindLoop b sec start fuel (p + 112) (x :: seen)
      else BitStream.dosFindLoop b sec start fuel (p + 16) seen

/-- `dosFindHeader(V, s, start)` (R342). -/
def BitStream.dosFindHeader (b : BitStream) (sec : Byte) (start : Int) : Option Int :=
  b.dosFindLoop sec start (scanFuel b) start []

/-- `dosSeekSector(V, s, start)` (R280): the next marked block must be a data block. -/
def BitStream.dosSeekSector (b : BitStream) (sec : Byte) (start : Int) : Option SectorRange :=
  match b.dosFindHeader sec start with
  | none => none
  | some p =>
    match b.forward (p + 112) dosSync 48 with
    | none => none
    | some q => if b.rdMfm q = 0xFB then some ⟨p, q + 16, q + 16 + 8192⟩ else none

/-- The loop of `dosSeekSectors` (R286): iterator, numbers seen, map, order counter, pending header. -/
def BitStream.dosSeekLoop (b : BitStream) (start : Int) :
    Nat → Int → List Byte → List SeekEntry → Nat → Option Nat → List SeekEntry
  | 0, _, _, found, _, _ => found
  | fuel + 1, it, seen, found, order, cur =>
    match b.forward it dosSync 48 with
    | none => found
    | some p =>
      let mark := b.rdMfm p
      let entry := fun k => found ++ [⟨k, p + 16, p + 16 + 8192, order⟩]
      if p - 48 - start ≥ b.size then
        match cur with
        | none => found
        | some k => if mark = 0xFB then entry k else found
      else if mark = 0xFE then
        let x := b.rdMfm (p + 48) - 1
        if x ∈ seen then found
        else
          BitStream.dosSeekLoop b start fuel (p + 112) (x :: seen) found order
            (if x.toNat < Config.dosSectors then some x.toNat else none)
      else
        match cur with
        | some k =>
          if mark = 0xFB then
            BitStream.dosSeekLoop b start fuel (p + 16) seen (entry k) (order + 1) none
          else BitStream.dosSeekLoop b start fuel (p + 16) seen found order none
        | none => BitStream.dosSeekLoop b start fuel (p + 16) seen found order none

/-- `dosSeekSectors(V, start)` (R286). -/
def BitStream.dosSeekSectors (b : BitStream) (start : Int) : List SeekEntry :=
  b.dosSeekLoop start (scanFuel b) start [] [] 0 none

/-- The header check on the seven bytes `FE C H R N crcHi crcLo` (R281). -/
def dosHeaderOk (f : List Byte) : Bool := crcBytes (dosMarks ++ f.take 5) == f.drop 5

/-- The data check on 512 payload bytes and two CRC bytes (R281). -/
def dosDataOk (d : List Byte) : Bool :=
  crcBytes (dosMarks ++ [0xFB] ++ d.take Config.mfmPayload) == d.drop Config.mfmPayload

/-- `dosDecodeSector(V, s, start)` (R281). -/
def BitStream.dosDecodeSector (b : BitStream) (sec : Byte) (start : Int) :
    Except ErrCode Decoded :=
  match b.dosSeekSector sec start with
  | none => .error .seekErr
  | some r =>
    let f := b.rdMfmRun r.mark 7
    if !dosHeaderOk f then .error .hdrCksum
    else
      let d := b.rdMfmRun r.first 514
      if !dosDataOk d then .error .dataCksum
      else .ok ⟨d.take Config.mfmPayload, (f.drop 1).take 4, r.mark⟩

/-- `t` and `s` of a DOS sector operation are in range (R92). -/
def State.dosSectorOk (s : State) : Bool :=
  mfmTrackOk s.opT && decide (s.opS < Config.dosSectors)

/-- `DOS.ENCSEC` (R278): the first byte is clocked against the byte just before `pos`. -/
def execDosEncsec (s : State) : Host.Outcome State Fault Refusal :=
  hostOp s fun s =>
    encodeSectorOp s s.dosSectorOk Config.mfmPayload dosSectorBits fun p =>
      bytesBits (dosPatch dosIsMark 0 (addClockRun (mfmBytes (dosSectorData s.opT s.opS p))
        (s.viewStream.getByte (s.opIter - 8))))

/-- `DOS.ENCTRK` (R279). -/
def execDosEnctrk (s : State) : Host.Outcome State Fault Refusal :=
  hostOp s fun s => encodeXtrackOp s Config.dosSectors 100000 (dosTrackBytes s.opT)

/-- `DOS.DECSEC` (R282): `R2` holds `C`, `H`, `R`, `N` as read. -/
def execDosDecsec (s : State) : Host.Outcome State Fault Refusal :=
  hostOp s fun s =>
    decodeSectorOp s s.dosSectorOk Config.mfmPayload
      (fun b => b.dosDecodeSector (BitVec.ofNat 8 s.opS) s.opIter) headerLong

/-- `DOS.DECTRK` (R283). -/
def execDosDectrk (s : State) : Host.Outcome State Fault Refusal :=
  hostOp s fun s =>
    decodeTrackOp s (mfmTrackOk s.opT) Config.dosSectors Config.mfmPayload fun b k =>
      b.dosDecodeSector (BitVec.ofNat 8 k) s.opIter

/-- `DOS.SEEK` (R284): any sector number. -/
def execDosSeek (s : State) : Host.Outcome State Fault Refusal :=
  hostOp s fun s => seekOp s fun b => b.dosSeekSector (BitVec.ofNat 8 s.opS) s.opIter

/-- `DOS.SEEKALL` (R285): 9 entries. -/
def execDosSeekall (s : State) : Host.Outcome State Fault Refusal :=
  hostOp s fun s => seekAllOp s Config.dosSectors fun b => b.dosSeekSectors s.opIter

end Sys2Proof.Machine
end

