-- ==== Sys2Proof/Machine/Analyzer.lean ====
section
/-! DEFINITION. The disk analyzer (47_analyzer.md). -/

namespace Sys2Proof.Machine

/-- What one analysis collects about a track: the sectors, the log, whether an entry was dropped. -/
structure Scan where
  /-- `sec[0..20]`. -/
  sec : Vector SectorInfo 21
  /-- `LOG[h]`. -/
  log : List LogEntry
  /-- An entry was dropped because the log was full (R343). -/
  ovf : Bool
deriving DecidableEq, Repr

/-- Nothing found, nothing logged. -/
def Scan.start : Scan := ⟨Vector.replicate 21 SectorInfo.none, [], false⟩

/-- A bit position as the report holds it, 19 bits (R35), not reduced modulo the length of the track: so
R330, R335 and the table of R344, where D25 of 92_eei_decisions.md says "reduced mod length" (DEDUCED,
log 24). -/
def extent (i : Int) : BitVec 19 := BitVec.ofInt 19 i

/-- The sector field of an entry that is not about one sector number (R337). -/
def noSector : Byte := 0xFF

/-- `logAppend` (R343). -/
def Scan.append (sc : Scan) (cap : Nat) (code : LogCode) (sector : Byte) (lo hi : Int) : Scan :=
  if sc.log.length < cap then
    { sc with log := sc.log ++ [⟨code, sector, extent lo, extent hi⟩] }
  else { sc with ovf := true }

/-- Entry `k` of the sector table. -/
def Scan.at (sc : Scan) (k : Nat) : SectorInfo := bankGet sc.sec k SectorInfo.none

/-- The scan with entry `k` of the sector table replaced. -/
def Scan.put (sc : Scan) (k : Nat) (i : SectorInfo) : Scan :=
  { sc with sec := bankSet sc.sec k i }

/-- A header is recorded (R35). -/
def SectorInfo.hasHeader (i : SectorInfo) : Bool := i.headerBegin != i.headerEnd

/-- A data block is recorded (R35). -/
def SectorInfo.hasData (i : SectorInfo) : Bool := i.dataBegin != i.dataEnd

/-- `isCand(V, i)` (R333): the zero bit that ends a run of ten ones. -/
def BitStream.isCand (b : BitStream) (i : Int) : Bool :=
  !b.get i && b.getBits (i - 10) 10 == 0x3FF

/-- `candId(V, i)` (R333): no candidate, or its id, where `none` inside stands for `INVALID`. -/
def BitStream.candId (b : BitStream) (i : Int) : Option (Option Byte) :=
  if b.isCand i then some (b.decodeGcr i) else none

/-- The first header start of one revolution (R334, R335). -/
def BitStream.firstHeader (b : BitStream) : Option Nat :=
  (List.range b.size).find? fun i => b.candId i == some (some 0x08)

/-- The loop of `walk` (R335) over `left` more positions from `i` on; `cur` is the pending header. The
positions recorded are unreduced (R330; log 24). -/
def BitStream.walkLoop (b : BitStream) (cap nsec : Nat) :
    Nat → Int → Option Nat → Scan → Scan
  | 0, _, _, sc => sc
  | left + 1, i, cur, sc =>
    match b.candId i with
    | none => BitStream.walkLoop b cap nsec left (i + 1) cur sc
    | some id =>
      if id = some 0x08 then
        match b.decodeGcr (i + 20) with
        | none =>
          BitStream.walkLoop b cap nsec left (i + 1) none
            (sc.append cap .badSectorNr noSector i (i + 80))
        | some x =>
          if x.toNat < nsec then
            if (sc.at x.toNat).hasHeader then sc
            else
              BitStream.walkLoop b cap nsec left (i + 1) (some x.toNat)
                (sc.put x.toNat
                  { sc.at x.toNat with headerBegin := extent i, headerEnd := extent (i + 80) })
          else
            BitStream.walkLoop b cap nsec left (i + 1) none
              (sc.append cap .badSectorNr noSector i (i + 80))
      else if id = some 0x07 then
        match cur with
        | some k =>
          BitStream.walkLoop b cap nsec left (i + 1) none
            (sc.put k { sc.at k with dataBegin := extent i, dataEnd := extent (i + 2600) })
        | none =>
          BitStream.walkLoop b cap nsec left (i + 1) none
            (sc.append cap .dataNoHeader noSector i (i + 2600))
      else BitStream.walkLoop b cap nsec left (i + 1) none sc

/-- `walk(V, nsec)` (R335). -/
def BitStream.walk (b : BitStream) (cap nsec : Nat) : Scan :=
  match b.firstHeader with
  | none => Scan.start
  | some s0 => b.walkLoop cap nsec b.size s0 none Scan.start

/-- The header part of `validate` (R336). -/
def BitStream.validateHeader (b : BitStream) (cap : Nat) (expect : Bool) (k : Nat)
    (sc : Scan) : Scan :=
  let i := sc.at k
  let sec := BitVec.ofNat 8 k
  if i.hasHeader then
    match b.decodeGcrBytes i.headerBegin.toNat 6 with
    | none => sc.append cap .hdrGcr sec i.headerBegin.toNat i.headerEnd.toNat
    | some h =>
      if c64HeaderOk h then sc
      else sc.append cap .hdrCksum sec i.headerBegin.toNat i.headerEnd.toNat
  else if expect then sc.append cap .hdrMissing sec 0 0
  else sc

/-- The data part of `validate` (R336). -/
def BitStream.validateData (b : BitStream) (cap : Nat) (expect : Bool) (k : Nat)
    (sc : Scan) : Scan :=
  let i := sc.at k
  let sec := BitVec.ofNat 8 k
  if i.hasData then
    match b.decodeGcrBytes (i.dataBegin.toNat + 10) 257 with
    | none => sc.append cap .dataGcr sec i.dataBegin.toNat i.dataEnd.toNat
    | some d =>
      if c64DataOk d then sc
      else sc.append cap .dataCksum sec i.dataBegin.toNat i.dataEnd.toNat
  else if expect then sc.append cap .dataMissing sec 0 0
  else sc

/-- `validate(V, h, s, expect)` (R336): the header entry, then the data entry. -/
def BitStream.validate (b : BitStream) (cap : Nat) (expect : Bool) (sc : Scan) (k : Nat) : Scan :=
  b.validateData cap expect k (b.validateHeader cap expect k sc)

/-- The analysis of halftrack `h` (R331, R332). -/
def State.analyzeHalftrack (s : State) (ntracks h : Nat) : Scan :=
  let b := s.stream (s.trackView h)
  let nsec := sectorCount (trackOf h)
  let expect := decide (h % 2 = 0 ∧ trackOf h < ntracks)
  let sc := if s.lenOf h = 0 then Scan.start else b.walk s.cfg.logCap nsec
  (List.range nsec).foldl (b.validate s.cfg.logCap expect) sc

/-- A report with the entries of one track replaced. -/
def Report.record (r : Report) (h len : Nat) (sc : Scan) : Report where
  info := bankSet r.info h ⟨BitVec.ofNat 18 len, sc.sec⟩
  log := bankSet r.log h sc.log

/-- `LOG[h]`. -/
def Report.logOf (r : Report) (h : Nat) : List LogEntry := bankGet r.log h []

/-- `INFO[h]`. -/
def Report.infoOf (r : Report) (h : Nat) : TrackInfo := bankGet r.info h TrackInfo.zero

/-- `INFO[h].sec[k]`. -/
def Report.sectorOf (r : Report) (h k : Nat) : SectorInfo :=
  bankGet (r.infoOf h).sec k SectorInfo.none

/-- How many sectors of track `h` have a recorded header or data block. -/
def Report.recorded (r : Report) (h : Nat) : Nat :=
  ((List.range Config.c64MaxSectors).filter fun k =>
    (r.sectorOf h k).hasHeader || (r.sectorOf h k).hasData).length

/-- The analysis of the whole disk (R331): the new report, and whether a log overflowed. -/
def State.analyzeDisk (s : State) (ntracks : Nat) : Report × Bool :=
  (List.range Config.numHt).foldl (fun acc h =>
    let sc := s.analyzeHalftrack ntracks h
    (acc.1.record h (s.lenOf h) sc, acc.2 || sc.ovf)) (s.report, false)

/-- The result registers and flags of an analysis: `R0` entries kept, `R1` sectors recorded,
`LOGOVF` (R331, R340, R400). -/
def State.finishAnalysis (s : State) (r : Report × Bool) (tracks : List Nat) : State :=
  let s1 := s.setReport r.1
  let s2 := (s1.setR0 (wordOfNat (tracks.map fun h => (r.1.logOf h).length).sum)).setR1
    (wordOfNat (tracks.map r.1.recorded).sum)
  (s2.setStatus (s2.host.status.withLogOvf r.2)).ok

/-- `ANA.RUN` (R331): `ntracks = A0[7:0]`, at most 42. -/
def execAnaRun (s : State) : Host.Outcome State Fault Refusal :=
  hostOp s fun s =>
    let n := field s.host.a0 0 8
    if n ≤ Config.numTracks then
      if s.disk.present then s.finishAnalysis (s.analyzeDisk n) (List.range Config.numHt)
      else s.fail .noDisk
    else s.raiseFatal .badOperand

/-- `ANA.LAYOUT` (R338): `h = A0[7:0]`, `s = A1[7:0]`; the stored report is read. -/
def runAnaLayout (s : State) : State :=
  let h := field s.host.a0 0 8
  let k := field s.host.a1 0 8
  if h ≤ 84 ∧ k < Config.c64MaxSectors then
    let i := s.report.sectorOf h k
    ((((s.setR0 (wordOfNat i.headerBegin.toNat)).setR1 (wordOfNat i.headerEnd.toNat)).setR2
      (wordOfNat i.dataBegin.toNat)).setR3 (wordOfNat i.dataEnd.toNat)).okWith
      (i.hasHeader || i.hasData) false
  else s.raiseFatal .badOperand

/-- `ANA.LAYOUT` (R338). -/
def execAnaLayout (s : State) : Host.Outcome State Fault Refusal :=
  hostOp s runAnaLayout

/-- `ANA.LOG` (R339): `h = A0[7:0]`, `idx = A1[7:0]`. -/
def runAnaLog (s : State) : State :=
  let h := field s.host.a0 0 8
  if h ≤ 84 then
    let log := s.report.logOf h
    match log[field s.host.a1 0 8]? with
    | some e =>
      ((((s.setR0 (wordOfNat (e.code.code + 256 * e.sector.toNat))).setR1
        (wordOfNat e.startBit.toNat)).setR2 (wordOfNat e.endBit.toNat)).setR3
        (wordOfNat log.length)).okWith true false
    | none =>
      ((((s.setR0 0).setR1 0).setR2 0).setR3 (wordOfNat log.length)).ok
  else s.raiseFatal .badOperand

/-- `ANA.LOG` (R339). -/
def execAnaLog (s : State) : Host.Outcome State Fault Refusal :=
  hostOp s runAnaLog

/-- The two entries for a sector that is wholly missing (R341, R342). -/
def Scan.missing (sc : Scan) (cap : Nat) (expect : Bool) (k : Nat) : Scan :=
  if expect then
    (sc.append cap .hdrMissing (BitVec.ofNat 8 k) 0 0).append cap .dataMissing (BitVec.ofNat 8 k) 0 0
  else sc

/-- A checksum entry when a check fails. -/
def Scan.check (sc : Scan) (cap : Nat) (good : Bool) (code : LogCode) (k : Nat)
    (lo hi : Int) : Scan :=
  if good then sc else sc.append cap code (BitVec.ofNat 8 k) lo hi

/-- `xAmiga(V, s, expect)` (R341). -/
def BitStream.xAmiga (b : BitStream) (cap : Nat) (expect : Bool) (sc : Scan) (k : Nat) : Scan :=
  match (if b.size = 0 then none else b.amiSeekSector (BitVec.ofNat 8 k) 0) with
  | none => sc.missing cap expect k
  | some r =>
    let ip := r.mark
    let m := b.bytesAt ip 1080
    ((sc.put k ⟨extent ip, extent (ip + 384), extent (ip + 384), extent (ip + 8640)⟩).check cap
      (amiHeaderOk m) .hdrCksum k ip (ip + 384)).check cap
      (amiDataOk m) .dataCksum k (ip + 384) (ip + 8640)

/-- `xDos(V, s, expect)` (R342). -/
def BitStream.xDos (b : BitStream) (cap : Nat) (expect : Bool) (sc : Scan) (k : Nat) : Scan :=
  match (if b.size = 0 then none else b.dosFindHeader (BitVec.ofNat 8 k) 0) with
  | none => sc.missing cap expect k
  | some p =>
    let sc1 := (sc.put k
      { sc.at k with headerBegin := extent p, headerEnd := extent (p + 112) }).check cap
      (dosHeaderOk (b.rdMfmRun p 7)) .hdrCksum k p (p + 112)
    let noData := if expect then sc1.append cap .dataMissing (BitVec.ofNat 8 k) 0 0 else sc1
    match b.forward (p + 112) dosSync 48 with
    | none => noData
    | some q =>
      if b.rdMfm q = 0xFB then
        (sc1.put k { sc1.at k with dataBegin := extent q, dataEnd := extent (q + 8240) }).check cap
          (dosDataOk (b.rdMfmRun (q + 16) 514)) .dataCksum k q (q + 8240)
      else noData

/-- The analysis of the external track (R340). -/
def State.analyzeXtrack (s : State) (plat : Nat) (expect : Bool) : Scan :=
  let b := s.stream (View.whole .xtrk s.xlen.toNat)
  if plat = 1 then
    (List.range Config.amigaSectors).foldl (b.xAmiga s.cfg.logCap expect) Scan.start
  else (List.range Config.dosSectors).foldl (b.xDos s.cfg.logCap expect) Scan.start

/-- `ANA.XRUN` (R340): `plat = A0[1:0]`, 1 Amiga, 2 IBM/DOS; `expect = A1[0]`; no disk needed. -/
def execAnaXrun (s : State) : Host.Outcome State Fault Refusal :=
  hostOp s fun s =>
    let plat := field s.host.a0 0 2
    if plat = 1 ∨ plat = 2 then
      let sc := s.analyzeXtrack plat (flag s.host.a1 0)
      s.finishAnalysis (s.report.record 84 s.xlen.toNat sc, sc.ovf) [84]
    else s.raiseFatal .badOperand

end Sys2Proof.Machine
end

