-- ==== Sys2Proof/Machine/BitView.lean ====
section
/-! DEFINITION. The BitView unit (40_bitview.md R140-R152). Every operation checks in the order of
R405: operand ranges, `NO_DISK`, `EMPTY_VIEW`, then its semantics. -/

namespace Sys2Proof.Machine

/-- What the reading operations share: an index, a view that can be read, a value for `R0`. -/
def readThroughView (s : State) (legal : Bool) (value : BitStream → Word) : State :=
  if legal then
    match s.viewError s.view with
    | some e => s.fail e
    | none => (s.setR0 (value s.viewStream)).ok
  else s.raiseFatal .badOperand

/-- What the writing operations share: an index, a view that can be written, a run of bits. -/
def writeThroughView (s : State) (legal : Bool) (i : Int) (bits : List Bool) : State :=
  if legal then
    match s.viewError s.view with
    | some e => s.fail e
    | none => (s.setBits s.view i bits).ok
  else s.raiseFatal .badOperand

/-- `buf = A1[6:0]`, `first = A2`, `last = A3` as a descriptor, if they are one (R140). -/
def State.opDescriptor (s : State) : Option View :=
  let first := iter s.host.a2
  let last := iter s.host.a3
  match BufSel.ofCode (field s.host.a1 0 7) with
  | none => none
  | some buf =>
    if 0 ≤ first ∧ first ≤ last ∧ last ≤ buf.capBits then
      some ⟨buf, BitVec.ofInt 32 first, BitVec.ofInt 32 last⟩
    else none

/-- `BV.DEF` (R140). -/
def runBvDef (s : State) : State :=
  match s.opDescriptor with
  | none => s.raiseFatal .badOperand
  | some d => (s.setView s.opV d).ok

/-- `BV.DEF` (R140). -/
def execBvDef (s : State) : Host.Outcome State Fault Refusal :=
  hostOp s runBvDef

/-- `BV.SLICE` (R141): `vd = A1[1:0]`, `from = A2`, `to = A3`. -/
def runBvSlice (s : State) : State :=
  let lo := iter s.host.a2
  let hi := iter s.host.a3
  if 0 ≤ lo ∧ lo ≤ hi ∧ hi ≤ s.view.size then
    (s.setView (viewIndex s.host.a1) (s.view.slice lo.toNat hi.toNat)).ok
  else s.raiseFatal .badOperand

/-- `BV.SLICE` (R141). -/
def execBvSlice (s : State) : Host.Outcome State Fault Refusal :=
  hostOp s runBvSlice

/-- `BV.SIZE` (R142): no check of `PRESENT`, an empty view has size 0. -/
def execBvSize (s : State) : Host.Outcome State Fault Refusal :=
  hostOp s fun s => (s.setR0 (wordOfNat s.view.size)).ok

/-- `BV.GET` (R143). -/
def execBvGet (s : State) : Host.Outcome State Fault Refusal :=
  hostOp s fun s =>
    readThroughView s s.iterOk fun b => wordOfNat (flagBit (b.get s.opIter))

/-- `BV.SET` (R144): `b = A2[0]`. -/
def execBvSet (s : State) : Host.Outcome State Fault Refusal :=
  hostOp s fun s => writeThroughView s s.iterOk s.opIter [flag s.host.a2 0]

/-- `BV.GETBYTE` (R145). -/
def execBvGetbyte (s : State) : Host.Outcome State Fault Refusal :=
  hostOp s fun s =>
    readThroughView s s.iterOk fun b => wordOfNat (b.getByte s.opIter).toNat

/-- `BV.SETBYTE` (R146): `value = A2[7:0]`. -/
def execBvSetbyte (s : State) : Host.Outcome State Fault Refusal :=
  hostOp s fun s =>
    writeThroughView s s.iterOk s.opIter (msbBits (field s.host.a2 0 8) 8)

/-- `BV.GETBITS` (R147): `c = A2[6:0]`, at most 64. -/
def execBvGetbits (s : State) : Host.Outcome State Fault Refusal :=
  hostOp s fun s =>
    readThroughView s (s.iterOk && decide (field s.host.a2 0 7 ≤ Config.maxPatternBits))
      fun b => wordOfNat (b.getBits s.opIter (field s.host.a2 0 7))

/-- `BV.SETBITS` (R148): `c = A2[6:0]`, at most 64, `value = A3`. -/
def execBvSetbits (s : State) : Host.Outcome State Fault Refusal :=
  hostOp s fun s =>
    writeThroughView s (s.iterOk && decide (field s.host.a2 0 7 ≤ Config.maxPatternBits))
      s.opIter (msbBits s.host.a3.toNat (field s.host.a2 0 7))

/-- `BV.FWD` (R149): `pat = A2`, `n = A3[6:0]`, 1..64. `R0` is written in both cases. -/
def runBvFwd (s : State) : State :=
  let n := field s.host.a3 0 7
  if s.iterOk && decide (1 ≤ n ∧ n ≤ Config.maxPatternBits) then
    match s.viewError s.view with
    | some e => s.fail e
    | none =>
      match s.viewStream.forward s.opIter s.host.a2.toNat n with
      | some it => (s.setR0 (wordOfInt it)).okWith true false
      | none => (s.setR0 (wordOfInt s.opIter)).fail .notFound
  else s.raiseFatal .badOperand

/-- `BV.FWD` (R149). -/
def execBvFwd (s : State) : Host.Outcome State Fault Refusal :=
  hostOp s runBvFwd

/-- `BY.GET` (R150): byte `k` of the view. -/
def execByGet (s : State) : Host.Outcome State Fault Refusal :=
  hostOp s fun s =>
    readThroughView s s.iterOk fun b => wordOfNat (b.getByte (8 * s.opIter)).toNat

/-- `BY.SET` (R151): `value = A2[7:0]` to byte `k` of the view. -/
def execBySet (s : State) : Host.Outcome State Fault Refusal :=
  hostOp s fun s =>
    writeThroughView s s.iterOk (8 * s.opIter) (msbBits (field s.host.a2 0 8) 8)

end Sys2Proof.Machine
end

