-- ==== Sys2Proof/Machine/DiskModel.lean ====
section
/-! DEFINITION. The disk data model (46_disk_model.md). -/

namespace Sys2Proof.Machine

/-- `clearDisk()` (R304): every halftrack unformatted at its nominal length, both flags cleared. -/
def State.clearDisk (s : State) : State :=
  { s with
    disk.trk := blankTracks
    disk.len := nominalLens
    disk.wp := false
    disk.modified := false }

/-- An operation on the inserted disk: `NO_DISK` without one (R69, R405). -/
def withDisk (s : State) (run : State → State) : State :=
  if s.disk.present then run s else s.fail .noDisk

/-- `readBlock(b)` (R316): the sector decoded from bit 0 of its track. -/
def State.readBlock (s : State) (b : Nat) : Except ErrCode Decoded :=
  (s.stream (s.trackView (2 * (blockTS b).1))).c64DecodeSector (BitVec.ofNat 8 (blockTS b).2) 0

/-- `writeBlock(b, P)` (R316): payload and checksum rewritten in place; `none` is `SEEK_ERR`. -/
def State.writeBlock (s : State) (b : Nat) (p : List Byte) : Option State :=
  let v := s.trackView (2 * (blockTS b).1)
  match (s.stream v).c64SeekSector (BitVec.ofNat 8 (blockTS b).2) 0 with
  | none => none
  | some r => some ((s.setBits v r.first (gcrBits (p ++ [xorBytes p]))).setModified true)

/-- `R0 <- 256; R1 <- t + s*2^8` of the block operations (R317, R318). -/
def State.blockResults (s : State) (b : Nat) : State :=
  (s.setR0 (wordOfNat 256)).setR1 (wordOfNat ((blockTS b).1 + (blockTS b).2 * 256))

/-- `blk = A0[15:0]`. -/
def State.opBlk (s : State) : Nat := field s.host.a0 0 16

/-- The operand checks of the block operations (R317, R318, R405). -/
def State.blockOk (s : State) : Bool :=
  decide (s.opBlk < numBlocks s.cfg) && dmemOk s.opAddr Config.c64Payload

/-- `DSK.CLEAR` (R305). -/
def execDskClear (s : State) : Host.Outcome State Fault Refusal :=
  hostOp s fun s => withDisk s fun s => s.clearDisk.ok

/-- `ntracks = A5[7:0]`. -/
def State.opEncodeTracks (s : State) : Nat := field s.host.a5 0 8

/-- The tracks `0 .. n-1` of an image encoded one after the other (R306). -/
def State.encodeTracks (s : State) (n : Nat) (image : List Byte) : State :=
  (List.range n).foldl (fun s t =>
    s.c64EncodeTrack t
      ((image.drop (Config.c64Payload * firstBlock t)).take (Config.c64Payload * sectorCount t))
      s.opId1 s.opId2 s.opAlign s.opUseErr) s

/-- `DSK.ENCODE` (R306): every check is made before anything is written, `ntracks` and the range of the
image (R405 item 3) before `NO_DISK` (item 4) and `CAPACITY` (item 6; log 9). -/
def runDskEncode (s : State) : State :=
  let n := s.opEncodeTracks
  let bytes := Config.c64Payload * firstBlock n
  if n = 0 ∨ n > Config.numTracks then s.fail .formatErr
  else if !dmemOk s.opAddr bytes then s.raiseFatal .badOperand
  else if !s.disk.present then s.fail .noDisk
  else if (List.range n).any (c64TooLong s.cfg) then s.raiseFatal .capacity
  else
    ((s.clearDisk.encodeTracks n (s.readBytes .dmem s.opAddr bytes)).setR0
      (wordOfNat (firstBlock n))).ok

/-- `DSK.ENCODE` (R306). -/
def execDskEncode (s : State) : Host.Outcome State Fault Refusal :=
  hostOp s runDskEncode

/-- `DSK.RDBLK` (R317): an empty halftrack is `SEEK_ERR`. -/
def runDskRdblk (s : State) : State :=
  if s.lenOf (2 * (blockTS s.opBlk).1) = 0 then s.fail .seekErr
  else
    match s.readBlock s.opBlk with
    | .error e => s.fail e
    | .ok d => ((s.writeBytes .dmem s.opAddr d.payload).blockResults s.opBlk).ok

/-- `DSK.RDBLK` (R317). -/
def execDskRdblk (s : State) : Host.Outcome State Fault Refusal :=
  hostOp s fun s => if s.blockOk then withDisk s runDskRdblk else s.raiseFatal .badOperand

/-- `DSK.WRBLK` (R318). -/
def runDskWrblk (s : State) : State :=
  if s.lenOf (2 * (blockTS s.opBlk).1) = 0 then s.fail .seekErr
  else
    match s.writeBlock s.opBlk (s.readBytes .dmem s.opAddr Config.c64Payload) with
    | none => s.fail .seekErr
    | some s' => (s'.blockResults s.opBlk).ok

/-- `DSK.WRBLK` (R318). -/
def execDskWrblk (s : State) : Host.Outcome State Fault Refusal :=
  hostOp s fun s => if s.blockOk then withDisk s runDskWrblk else s.raiseFatal .badOperand

/-- `DSK.NUMBLK` (R308): needs no disk. -/
def execDskNumblk (s : State) : Host.Outcome State Fault Refusal :=
  hostOp s fun s => (s.setR0 (wordOfNat (numBlocks s.cfg))).ok

/-- `DSK.LENHT` (R309): `h = A0[6:0]`. -/
def execDskLenht (s : State) : Host.Outcome State Fault Refusal :=
  hostOp s fun s =>
    let h := field s.host.a0 0 7
    if h < Config.numHt then withDisk s fun s => (s.setR0 (wordOfNat (s.lenOf h))).ok
    else s.raiseFatal .badOperand

/-- `DSK.LENTRK` (R310): `t = A0[7:0]`. -/
def execDskLentrk (s : State) : Host.Outcome State Fault Refusal :=
  hostOp s fun s =>
    let t := field s.host.a0 0 8
    if c64TrackOk t then withDisk s fun s => (s.setR0 (wordOfNat (s.lenOf (2 * t)))).ok
    else s.raiseFatal .badOperand

/-- `DSK.DEFAULTS` (R311): needs no disk. -/
def execDskDefaults (s : State) : Host.Outcome State Fault Refusal :=
  hostOp s fun s =>
    let t := field s.host.a0 0 8
    if c64TrackOk t then
      ((((s.setR0 (wordOfNat (sectorCount t + (zone t).val * 2 ^ 8 + tailGapOf s.cfg t * 2 ^ 16
        + firstBlock t * 2 ^ 32))).setR1 (wordOfNat (nominalBytes t))).setR2
        (wordOfNat (nominalBits t))).setR3 (wordOfNat (staggerOf s.cfg t))).ok
    else s.raiseFatal .badOperand

/-- `DSK.SETWP` (R313): `wp = A0[0]`. -/
def execDskSetwp (s : State) : Host.Outcome State Fault Refusal :=
  hostOp s fun s => withDisk s fun s => ({ s with disk.wp := flag s.host.a0 0 } : State).ok

/-- `DSK.INSERT` (R312): `fresh = A0[0]`; without it the buffers are taken as they are. -/
def runDskInsert (s : State) : State :=
  let s1 : State := { s with disk.present := true }
  (if flag s.host.a0 0 then s1.clearDisk
   else { s1 with disk.wp := false, disk.modified := false }).ok

/-- `DSK.INSERT` (R312). -/
def execDskInsert (s : State) : Host.Outcome State Fault Refusal :=
  hostOp s runDskInsert

/-- `DSK.EJECT` (R314): buffers, lengths and flags keep their values. -/
def execDskEject (s : State) : Host.Outcome State Fault Refusal :=
  hostOp s fun s => withDisk s fun s => ({ s with disk.present := false } : State).ok

/-- `DSK.FLAGS` (R315): needs no disk. -/
def execDskFlags (s : State) : Host.Outcome State Fault Refusal :=
  hostOp s fun s =>
    (s.setR0 (wordOfNat (flagBit s.disk.present + 2 * flagBit s.disk.wp
      + 4 * flagBit s.disk.modified))).ok

end Sys2Proof.Machine
end

