-- ==== Sys2Proof/Machine/DriveEngine.lean ====
section
/-! DEFINITION. The drive bit engine (48_bit_engine.md). No operation of this file reads or writes
the host port (R360). -/

namespace Sys2Proof.Machine

/-- `LEN[ht]`: the valid length of the halftrack under the head. -/
def State.headLen (s : State) : Nat := s.lenOf s.engine.ht.toNat

/-- `pos()` (R366): only used when `noTrack` does not hold. -/
def State.headPos (s : State) : Nat := s.engine.offset.toNat % s.headLen

/-- The buffer under the head. -/
def State.headSpace (s : State) : Space := .trk (halftrack s.engine.ht.toNat)

/-- The bit under the head (R374): 0 when there is none. -/
def State.headBit (s : State) : Bool :=
  if s.noTrack then false else s.bufBit s.headSpace s.headPos

/-- The bit under the head replaced and `MOD` set (R369, R375); suppressed when there is none. -/
def State.writeHeadBit (s : State) (b : Bool) : State :=
  if s.noTrack then s
  else
    (s.setMem s.headSpace
      (Memory.storeBit s.headSpace s.epoch (s.mem s.headSpace) s.headPos b)).setModified true

/-- The offset one bit further (R362, R376); 0 when there is no track. -/
def State.nextOffset (s : State) : BitVec 16 :=
  if s.noTrack then 0 else BitVec.ofNat 16 ((s.headPos + 1) % s.headLen)

/-- Phase 0 (R362): shift the read register, take in a bit in read mode, advance the head. -/
def State.phase0 (s : State) (write : Bool) : State :=
  let bit : BitVec 10 := if !write && s.headBit then 1 else 0
  s.setEngine { s.engine with
    byteReady := false
    offset := s.nextOffset
    rsr := (s.engine.rsr <<< 1) ||| bit }

/-- Phase 1 (R367): recompute `sync`; the byte counter is held at 0 while a mark is present. -/
def State.phase1 (s : State) : State :=
  let sync := s.engine.rsr != 0x3FF
  s.setEngine { s.engine with
    sync := sync
    brc := if sync then s.engine.brc else 0 }

/-- The counting part of phase 2 (R364): every eighth bit latches a byte. -/
def State.countBit (s : State) : State :=
  if s.engine.sync then
    let brc := s.engine.brc + 1
    if brc = 0 then
      s.setEngine { s.engine with
        brc := brc
        dataLatch := s.engine.rsr.extractLsb' 0 8
        byteReady := true }
    else s.setEngine { s.engine with brc := brc }
  else s

/-- `writeCell()` (R369): the high bit of `wsr` goes to the track, `wsr` shifts. -/
def State.writeCell (s : State) : State :=
  let s1 := s.writeHeadBit (s.engine.wsr.getLsbD 7)
  s1.setEngine { s1.engine with wsr := s1.engine.wsr <<< 1 }

/-- Phase 2 (R364, R369). -/
def State.phase2 (s : State) (write : Bool) : State :=
  if write then s.countBit.writeCell else s.countBit

/-- Phase 3 (R363): reload `wsr` in a byte-ready cell. -/
def State.phase3 (s : State) (wdata : Byte) : State :=
  if s.engine.byteReady then s.setEngine { s.engine with wsr := wdata } else s

/-- The phase a tick executes (R361). -/
def State.runPhase (s : State) (write : Bool) (wdata : Byte) : State :=
  if s.engine.phase = 0 then s.phase0 write
  else if s.engine.phase = 1 then s.phase1
  else if s.engine.phase = 2 then s.phase2 write
  else s.phase3 wdata

/-- `ENG.TICK` (R361): `mode = EA0[0]`, `wdata = EA1[7:0]`. -/
def runEngTick (s : State) : State :=
  let s1 := s.runPhase (s.ctrl.ea0.getLsbD 0) s.ctrl.ea1
  let s2 := s1.setEngine { s1.engine with phase := s.engine.phase + 1 }
  (s2.setER0 s2.sig).setER1 (wordOfNat s.engine.phase.toNat)

/-- `ENG.TICK` (R361). -/
def execEngTick (s : State) : Host.Outcome State Fault Refusal :=
  ctrlOp s runEngTick

/-- `ENG.RDBIT` (R374). -/
def execEngRdbit (s : State) : Host.Outcome State Fault Refusal :=
  ctrlOp s fun s => s.setER0 (wordOfNat (flagBit s.headBit))

/-- `ENG.WRBIT` (R375): `bit = EA0[0]`; `ER0` says whether it was written. -/
def execEngWrbit (s : State) : Host.Outcome State Fault Refusal :=
  ctrlOp s fun s =>
    (s.writeHeadBit (s.ctrl.ea0.getLsbD 0)).setER0 (wordOfNat (flagBit (!s.noTrack)))

/-- `ENG.ROT` (R376). -/
def execEngRot (s : State) : Host.Outcome State Fault Refusal :=
  ctrlOp s fun s =>
    (s.setEngine { s.engine with offset := s.nextOffset }).setER0 (wordOfNat s.nextOffset.toNat)

/-- `ENG.SYNC` (R372): the stored bit, not recomputed. -/
def execEngSync (s : State) : Host.Outcome State Fault Refusal :=
  ctrlOp s fun s => s.setER0 (wordOfNat (flagBit s.engine.sync))

/-- `ENG.LATCH` (R377): reading clears nothing. -/
def execEngLatch (s : State) : Host.Outcome State Fault Refusal :=
  ctrlOp s fun s =>
    (((s.setER0 (wordOfNat s.engine.dataLatch.toNat)).setER1
      (wordOfNat (flagBit s.engine.byteReady))).setER2 (wordOfNat s.engine.rsr.toNat)).setER3
      (wordOfNat s.engine.wsr.toNat)

/-- The offset after a move to halftrack `h` (R378): the same angular position. -/
def State.movedOffset (s : State) (h : Nat) : BitVec 16 :=
  if s.disk.present ∧ 0 < s.headLen ∧ 0 < s.lenOf h then
    BitVec.ofNat 16 (s.headPos * s.lenOf h / s.headLen)
  else 0

/-- `ENG.SETHT` (R378): `h' = EA0[6:0]`; above 83 it is refused. -/
def runEngSetht (s : State) : State :=
  let h := s.ctrl.ea0.extractLsb' 0 7
  if h.toNat < Config.numHt then
    (s.setEngine { s.engine with ht := h, offset := s.movedOffset h.toNat }).setER0 0
  else s.setER0 1

/-- `ENG.SETHT` (R378). -/
def execEngSetht (s : State) : Host.Outcome State Fault Refusal :=
  ctrlOp s runEngSetht

/-- `ENG.POS` (R379): the stored offset, not normalised. -/
def execEngPos (s : State) : Host.Outcome State Fault Refusal :=
  ctrlOp s fun s =>
    (((s.setER0 (wordOfNat s.engine.ht.toNat)).setER1 (wordOfNat s.engine.offset.toNat)).setER2
      (wordOfNat s.engine.phase.toNat)).setER3
      (wordOfNat (s.engine.brc.toNat + s.engine.rsr.toNat * 2 ^ 8 + s.engine.wsr.toNat * 2 ^ 24))

end Sys2Proof.Machine
end

