-- ==== Sys2Proof/Machine/System.lean ====
section
/-! DEFINITION. The system operations (30_encoding.md R95, R96). -/

namespace Sys2Proof.Machine

/-- `NOP` (R95). -/
def execNop (s : State) : Host.Outcome State Fault Refusal :=
  hostOp s fun s => s.ok

/-- `RESET` (R96): accepted also while `FAULT` is set. -/
def execReset (s : State) : Host.Outcome State Fault Refusal :=
  .next s.resetDbc

end Sys2Proof.Machine
end

