-- ==== Sys2Proof/Machine/Dispatch.lean ====
section
/-! DEFINITION. One arm per operation of rule R93. -/

namespace Sys2Proof.Machine

def exec (i : Instr) (s : State) : Host.Outcome State Fault Refusal :=
  match i with
  | .nop => Sys2Proof.Machine.execNop s
  | .reset => Sys2Proof.Machine.execReset s
  | .bvDef => Sys2Proof.Machine.execBvDef s
  | .bvSlice => Sys2Proof.Machine.execBvSlice s
  | .bvSize => Sys2Proof.Machine.execBvSize s
  | .bvGet => Sys2Proof.Machine.execBvGet s
  | .bvSet => Sys2Proof.Machine.execBvSet s
  | .bvGetbyte => Sys2Proof.Machine.execBvGetbyte s
  | .bvSetbyte => Sys2Proof.Machine.execBvSetbyte s
  | .bvGetbits => Sys2Proof.Machine.execBvGetbits s
  | .bvSetbits => Sys2Proof.Machine.execBvSetbits s
  | .bvFwd => Sys2Proof.Machine.execBvFwd s
  | .byGet => Sys2Proof.Machine.execByGet s
  | .bySet => Sys2Proof.Machine.execBySet s
  | .gcrB2g => Sys2Proof.Machine.execGcrB2g s
  | .gcrG2b => Sys2Proof.Machine.execGcrG2b s
  | .gcrEnc => Sys2Proof.Machine.execGcrEnc s
  | .gcrDec => Sys2Proof.Machine.execGcrDec s
  | .mfmEnc => Sys2Proof.Machine.execMfmEnc s
  | .mfmDec => Sys2Proof.Machine.execMfmDec s
  | .mfmOeenc => Sys2Proof.Machine.execMfmOeenc s
  | .mfmOedec => Sys2Proof.Machine.execMfmOedec s
  | .mfmClk => Sys2Proof.Machine.execMfmClk s
  | .mfmClkbuf => Sys2Proof.Machine.execMfmClkbuf s
  | .c64Encsec => Sys2Proof.Machine.execC64Encsec s
  | .c64Enctrk => Sys2Proof.Machine.execC64Enctrk s
  | .c64Decsec => Sys2Proof.Machine.execC64Decsec s
  | .c64Dectrk => Sys2Proof.Machine.execC64Dectrk s
  | .c64Seek => Sys2Proof.Machine.execC64Seek s
  | .c64Seekall => Sys2Proof.Machine.execC64Seekall s
  | .amiEncsec => Sys2Proof.Machine.execAmiEncsec s
  | .amiEnctrk => Sys2Proof.Machine.execAmiEnctrk s
  | .amiDecsec => Sys2Proof.Machine.execAmiDecsec s
  | .amiDectrk => Sys2Proof.Machine.execAmiDectrk s
  | .amiSeek => Sys2Proof.Machine.execAmiSeek s
  | .amiSeekall => Sys2Proof.Machine.execAmiSeekall s
  | .dosEncsec => Sys2Proof.Machine.execDosEncsec s
  | .dosEnctrk => Sys2Proof.Machine.execDosEnctrk s
  | .dosDecsec => Sys2Proof.Machine.execDosDecsec s
  | .dosDectrk => Sys2Proof.Machine.execDosDectrk s
  | .dosSeek => Sys2Proof.Machine.execDosSeek s
  | .dosSeekall => Sys2Proof.Machine.execDosSeekall s
  | .dskClear => Sys2Proof.Machine.execDskClear s
  | .dskEncode => Sys2Proof.Machine.execDskEncode s
  | .dskRdblk => Sys2Proof.Machine.execDskRdblk s
  | .dskWrblk => Sys2Proof.Machine.execDskWrblk s
  | .dskNumblk => Sys2Proof.Machine.execDskNumblk s
  | .dskLenht => Sys2Proof.Machine.execDskLenht s
  | .dskLentrk => Sys2Proof.Machine.execDskLentrk s
  | .dskDefaults => Sys2Proof.Machine.execDskDefaults s
  | .dskSetwp => Sys2Proof.Machine.execDskSetwp s
  | .dskInsert => Sys2Proof.Machine.execDskInsert s
  | .dskEject => Sys2Proof.Machine.execDskEject s
  | .dskFlags => Sys2Proof.Machine.execDskFlags s
  | .anaRun => Sys2Proof.Machine.execAnaRun s
  | .anaLayout => Sys2Proof.Machine.execAnaLayout s
  | .anaLog => Sys2Proof.Machine.execAnaLog s
  | .anaXrun => Sys2Proof.Machine.execAnaXrun s
  | .engTick => Sys2Proof.Machine.execEngTick s
  | .engRdbit => Sys2Proof.Machine.execEngRdbit s
  | .engWrbit => Sys2Proof.Machine.execEngWrbit s
  | .engRot => Sys2Proof.Machine.execEngRot s
  | .engSync => Sys2Proof.Machine.execEngSync s
  | .engLatch => Sys2Proof.Machine.execEngLatch s
  | .engSetht => Sys2Proof.Machine.execEngSetht s
  | .engPos => Sys2Proof.Machine.execEngPos s

end Sys2Proof.Machine
end

