-- ==== Sys2Proof/Machine/Events.lean ====
section
/-! DEFINITION. The external events (00_scope.md R16): commands, register accesses (20_memory.md
R74), host memory accesses (R66, R75), the reset input (R430). -/

namespace Sys2Proof.Machine

/-- A byte written to `CMD` (R22, R94, R404, R405): `FAULTED` comes before `ILLEGAL_CMD`. -/
def hostCommand (s : State) (b : Byte) : Host.Outcome State Fault Refusal :=
  match decode .host [b] with
  | .ok (i, _) => exec i s
  | .error _ => .next (if s.host.status.fault then s.refuseFaulted else s.illegalCommand)

/-- A byte written to `ECMD` (R51): an illegal byte does nothing at all (R94). -/
def ctrlCommand (s : State) (b : Byte) : Host.Outcome State Fault Refusal :=
  match decode .controller [b] with
  | .ok (i, _) => exec i s
  | .error _ => .next s

/-- `Ai <- v` by the host (R20). -/
def State.writeA (s : State) (i : Fin 6) (v : Word) : State :=
  match i with
  | 0 => { s with host.a0 := v }
  | 1 => { s with host.a1 := v }
  | 2 => { s with host.a2 := v }
  | 3 => { s with host.a3 := v }
  | 4 => { s with host.a4 := v }
  | 5 => { s with host.a5 := v }

/-- `EAi <- v` by the controller (R51). -/
def State.writeEA (s : State) (i : Fin 2) (v : Byte) : State :=
  match i with
  | 0 => { s with ctrl.ea0 := v }
  | 1 => { s with ctrl.ea1 := v }

/-- What a host register reads as (R20-R23); `CMD` reads 0. `STATUS` fills bits 31:0 of its 64-bit
place (R74), and R23 and U6 speak of bits 31:16 only. DESIGN CHOICE (log 25): bits 63:32 of a read of
`STATUS` are 0. -/
def State.readHostReg (s : State) : HostReg → Word
  | .cmd => 0
  | .status => s.host.status.word.zeroExtend 64
  | .a 0 => s.host.a0
  | .a 1 => s.host.a1
  | .a 2 => s.host.a2
  | .a 3 => s.host.a3
  | .a 4 => s.host.a4
  | .a 5 => s.host.a5
  | .r 0 => s.host.r0
  | .r 1 => s.host.r1
  | .r 2 => s.host.r2
  | .r 3 => s.host.r3

/-- What a controller register reads as. R51 gives `ER0..ER3` for reading and says of `EA0` and `EA1`
only that the controller writes them; R74 has no access column for this port. DESIGN CHOICE (log 23): the
controller can read `EA0` and `EA1` back and gets the stored byte, zero-extended to 64 bits. `ECMD` reads
0 as `CMD` does (log 11). -/
def State.readCtrlReg (s : State) : CtrlReg → Word
  | .ecmd => 0
  | .ea 0 => s.ctrl.ea0.zeroExtend 64
  | .ea 1 => s.ctrl.ea1.zeroExtend 64
  | .er 0 => s.ctrl.er0
  | .er 1 => s.ctrl.er1
  | .er 2 => s.ctrl.er2
  | .er 3 => s.ctrl.er3

/-- Byte offset of a host register from the port's base (R74). -/
def hostRegOffset : HostReg → Nat
  | .cmd => 0x00
  | .status => 0x08
  | .a i => 0x10 + 8 * i.val
  | .r i => 0x40 + 8 * i.val

/-- Byte offset of a controller register from the port's base (R74). -/
def ctrlRegOffset : CtrlReg → Nat
  | .ecmd => 0x00
  | .ea i => 0x10 + 8 * i.val
  | .er i => 0x40 + 8 * i.val

/-- The read data delivered to the agent that asked (log 10). -/
def State.setBusData (s : State) (v : Word) : State := { s with busData := v }

/-- One byte a host reads: 0 outside the memory (R66). -/
def State.hostReadByte (s : State) (sp : Space) (addr : Nat) : Byte :=
  if sp.inBounds addr 1 then s.byteAt sp addr else 0

/-- One byte a host writes: not performed outside the memory (R66); `MOD` is not set (R75). -/
def State.hostWriteByte (s : State) (sp : Space) (addr : Nat) (b : Byte) : State :=
  if sp.inBounds addr 1 then s.writeBytes sp addr [b] else s

/-- A host write of `LEN[h]`: an illegal length or halftrack is not performed (R75, U10). -/
def State.hostWriteLen (s : State) (h v : Nat) : State :=
  if lenLegal h v then s.setLen h v else s

/-- A host write of `XLEN` (R75). -/
def State.hostWriteXlen (s : State) (v : Nat) : State :=
  if xlenLegal v then { s with xlen := BitVec.ofNat 18 v } else s

/-- A field of `INFO[h]` (R35); 0 outside the report (log 14). -/
def Report.readInfo (r : Report) (h : Nat) : InfoField → Nat
  | .len => (r.infoOf h).len.toNat
  | .headerBegin k => (r.sectorOf h k).headerBegin.toNat
  | .headerEnd k => (r.sectorOf h k).headerEnd.toNat
  | .dataBegin k => (r.sectorOf h k).dataBegin.toNat
  | .dataEnd k => (r.sectorOf h k).dataEnd.toNat

/-- A field of `LOG[h]` (R36); 0 for an entry it does not hold (log 14). -/
def Report.readLog (r : Report) (h : Nat) : LogField → Nat
  | .count => (r.logOf h).length
  | .code i => ((r.logOf h)[i]?.map fun e => e.code.code).getD 0
  | .sector i => ((r.logOf h)[i]?.map fun e => e.sector.toNat).getD 0
  | .startBit i => ((r.logOf h)[i]?.map fun e => e.startBit.toNat).getD 0
  | .endBit i => ((r.logOf h)[i]?.map fun e => e.endBit.toNat).getD 0

/-- One event delivered to the DBC (R16). -/
def deliver (e : Event) (s : State) : Host.Outcome State Fault Refusal :=
  match e with
  | .hostCmd b => hostCommand s b
  | .hostWriteA i v => .next (s.writeA i v)
  | .hostReadReg r => .next (s.setBusData (s.readHostReg r))
  | .ctrlCmd b => ctrlCommand s b
  | .ctrlWriteEA i v => .next (s.writeEA i v)
  | .ctrlReadReg r => .next (s.setBusData (s.readCtrlReg r))
  | .memWrite sp addr b => .next (s.hostWriteByte sp addr b)
  | .memRead sp addr => .next (s.setBusData ((s.hostReadByte sp addr).zeroExtend 64))
  | .lenWrite h v => .next (s.hostWriteLen h v)
  | .lenRead h => .next (s.setBusData (wordOfNat (s.lenOf h)))
  | .xlenWrite v => .next (s.hostWriteXlen v)
  | .xlenRead => .next (s.setBusData (wordOfNat s.xlen.toNat))
  | .infoRead h f => .next (s.setBusData (wordOfNat (s.report.readInfo h f)))
  | .logRead h f => .next (s.setBusData (wordOfNat (s.report.readLog h f)))
  | .resetInput => .next s.resetDbc

/-- The command event of a byte on the port whose units hold it (R91). -/
def commandEvent (b : Byte) : Event :=
  match portOfByte b with
  | .host => .hostCmd b
  | .controller => .ctrlCmd b

/-- The disk image of rule R76: what a host obtains by reading `TRK[0..83]` and then `LEN[0..83]`,
each length as 4 bytes, most significant first. No operation produces or consumes it. -/
def State.diskImage (s : State) : List Byte :=
  ((List.range Config.numHt).flatMap fun h =>
    s.readBytes (.trk (halftrack h)) 0 Config.trackCapBytes) ++
  ((List.range Config.numHt).flatMap fun h =>
    (List.range 4).map fun k => (BitVec.ofNat 32 (s.lenOf h)).extractLsb' (24 - 8 * k) 8)

/-! ## Pseudo-operations (30_encoding.md R98) as the events they expand to -/

/-- `BV.DEF v, buf, first, last` as a host performs it (R97, R140). -/
def bvDefEvents (v : Fin 4) (buf : BufSel) (first last : Nat) : List Event :=
  [.hostWriteA 0 (wordOfNat v.val), .hostWriteA 1 (wordOfNat buf.code),
   .hostWriteA 2 (wordOfNat first), .hostWriteA 3 (wordOfNat last), .hostCmd 0x10]

/-- `DV v, addr, nbytes` (R98). -/
def dvEvents (v : Fin 4) (addr nbytes : Nat) : List Event :=
  bvDefEvents v .dmem (8 * addr) (8 * (addr + nbytes))

/-- `XV v` (R98), the host having read `XLEN`. -/
def xvEvents (v : Fin 4) (xlen : Nat) : List Event := bvDefEvents v .xtrk 0 xlen

/-- `TV v, h` (R98): `DSK.LENHT h`, whose `R0` the host passes on as `last`. -/
def tvEvents (v : Fin 4) (h : Fin 84) (r0 : Nat) : List Event :=
  [.hostWriteA 0 (wordOfNat h.val), .hostCmd 0x75] ++ bvDefEvents v (.trk h) 0 r0

/-- `CELL mode, wdata` (R98): four ticks. -/
def cellEvents (mode : Bool) (wdata : Byte) : List Event :=
  [.ctrlWriteEA 0 (if mode then 1 else 0), .ctrlWriteEA 1 wdata,
   .ctrlCmd 0x90, .ctrlCmd 0x90, .ctrlCmd 0x90, .ctrlCmd 0x90]

/-- `CELLS n, mode, wdata` (R98). -/
def cellsEvents (n : Nat) (mode : Bool) (wdata : Byte) : List Event :=
  (List.replicate n (cellEvents mode wdata)).flatten

end Sys2Proof.Machine
end

