-- ==== Sys2Proof/Machine/Step.lean ====
section
/-! DEFINITION. One step of the machine: the next external event (R16, R17). -/

namespace Sys2Proof.Machine

/-- One step: the first pending event is delivered; with none pending nothing changes (R17). -/
def step (s : State) : Host.Outcome State Fault Refusal :=
  match s.inputs with
  | [] => .next s
  | e :: rest => deliver e { s with inputs := rest }

/-- The state in which the next event is the write of this command byte to the command register of
the port that accepts its unit (log 1, log 3). -/
def State.withFetchWord (s : State) (nbits w : Nat) : State :=
  { s with inputs := commandEvent (firstByte nbits w) :: s.inputs }

end Sys2Proof.Machine
end

