-- ==== Sys2Proof/Safety.lean ====
section
/-! DEFINITION. What a safe run and a sound state are, and the words the statements use: when an
operation may run, what a state looks like after a result, which bits and bytes were written. -/

namespace Sys2Proof.Machine

/-- A machine is safe in a state when its next step ends in a state (R400-R408: no error stops the
DBC). -/
def State.Safe (s : State) : Prop := ∃ t, step s = .next t

/-- What every step keeps: descriptors inside their buffers (R25), lengths in range (R28, R32), the
head on a halftrack (R44), memories in canonical form, logs within `LOG_CAP` (R36), `FCODE` 0 while
`FAULT` is 0 and the code of a Fatal cause while it is 1 (R23, R403). -/
structure State.Inv (s : State) : Prop where
  /-- R25. -/
  views : ∀ v : Fin 4, (s.views[v]).wf
  /-- R28. -/
  lens : ∀ h : Fin 84, (s.disk.len[h]).toNat ≤ Config.trackCapBits
  /-- R32. -/
  xlen : s.xlen.toNat ≤ Config.xtrkCapBits
  /-- R44. -/
  ht : s.engine.ht.toNat < Config.numHt
  /-- Every memory is in canonical form and inside its capacity (R27, R32-R34). -/
  mems : ∀ sp : Space, Memory.wf sp (s.mem sp)
  /-- R36. -/
  logs : ∀ h : Fin 85, (s.report.log[h]).length ≤ s.cfg.logCap
  /-- R23. -/
  noFault : s.host.status.fault = false → s.host.status.fcode = 0
  /-- R403. -/
  fault : s.host.status.fault = true → s.host.status.fcode = 3 ∨ s.host.status.fcode = 12

/-- The position of the head as rules R45 and R384(b) state it. -/
def State.HeadInRange (s : State) : Prop :=
  s.engine.offset.toNat < s.headLen ∨ (s.noTrack = true ∧ s.engine.offset = 0)

/-! ## When an operation may run -/

/-- R404: host-port operations run while `FAULT` is 0. -/
abbrev State.Running (s : State) : Prop := s.host.status.fault = false

/-- R14, R92: a bit index, iterator or offset is legal. -/
abbrev LegalIter (w : Word) : Prop := w.toInt.natAbs < 2 ^ 62

/-- R69, R152: the bits of a view can be used: a disk is present if the view looks at one, and the
view is not empty. -/
abbrev State.Usable (s : State) (v : View) : Prop :=
  (∀ h, v.buf = .trk h → s.disk.present = true) ∧ 0 < v.size

/-- R66: `n` bytes of `DMEM` from `addr` lie inside it. -/
abbrev InDmem (addr n : Nat) : Prop := addr + n ≤ Config.dmemCapBytes

/-! ## The operands of the operations on the bits of a view -/

/-- Every operation that reads or writes bits through `VIEW[A0[1:0]]`, with what R405 item 3 checks
first: the ranges of its operands (R14, R92) and the runs of `DMEM` they name (R66). -/
def State.viewOperations (s : State) : List (Instr × Prop) :=
  let it := LegalIter s.host.a1
  let count := field s.host.a2 0 7
  let pattern := field s.host.a3 0 7
  let t := field s.host.a2 0 8
  let k := field s.host.a2 8 8
  let addr := field s.host.a3 0 32
  [(.bvGet, it), (.bvSet, it), (.bvGetbyte, it), (.bvSetbyte, it), (.byGet, it), (.bySet, it),
   (.bvGetbits, it ∧ count ≤ 64), (.bvSetbits, it ∧ count ≤ 64),
   (.bvFwd, it ∧ 1 ≤ pattern ∧ pattern ≤ 64), (.gcrEnc, it), (.gcrDec, it),
   (.c64Encsec, it ∧ t < 42 ∧ k < sectorCount t ∧ InDmem addr 256),
   (.amiEncsec, it ∧ t < 160 ∧ k < 11 ∧ InDmem addr 512),
   (.dosEncsec, it ∧ t < 160 ∧ k < 9 ∧ InDmem addr 512),
   (.c64Decsec, it ∧ t < 42 ∧ k < sectorCount t ∧ InDmem addr 256),
   (.amiDecsec, it ∧ t < 160 ∧ k < 11 ∧ InDmem addr 512),
   (.dosDecsec, it ∧ t < 160 ∧ k < 9 ∧ InDmem addr 512),
   (.c64Dectrk, it ∧ t < 42 ∧ InDmem addr (256 * sectorCount t)),
   (.amiDectrk, it ∧ t < 160 ∧ InDmem addr (512 * 11)),
   (.dosDectrk, it ∧ t < 160 ∧ InDmem addr (512 * 9)),
   (.c64Seek, it), (.amiSeek, it), (.dosSeek, it),
   (.c64Seekall, it ∧ InDmem addr (24 * 21)), (.amiSeekall, it ∧ InDmem addr (24 * 11)),
   (.dosSeekall, it ∧ InDmem addr (24 * 9))]

/-! ## What a state looks like after a result -/

/-- `s` after an operation that ends with `ERR = OK` and writes the host result registers given as
`some` (R21, R400). -/
def State.answered (s : State) (found gcrInv : Bool)
    (r0 r1 r2 r3 : Option Word) : State :=
  { s with host := { s.host with
      r0 := r0.getD s.host.r0
      r1 := r1.getD s.host.r1
      r2 := r2.getD s.host.r2
      r3 := r3.getD s.host.r3
      status := { s.host.status with err := .ok, found := found, gcrInv := gcrInv } } }

/-- `s` after `fail e` (R401): only `STATUS` changes. -/
def State.failed (s : State) (e : ErrCode) : State :=
  { s with host.status :=
      { s.host.status with err := e, found := false, gcrInv := decide (e = .gcrErr) } }

/-- `s` after a first `raise Fatal(e)` (R403). -/
def State.faulted (s : State) (e : ErrCode) : State :=
  { s with host.status :=
      { s.host.status with
        err := e, found := false, gcrInv := false, fault := true,
        fcode := BitVec.ofNat 8 e.code } }

/-- `t` with the contents of all byte memories as they are in `s`. Where this is `s`, nothing but
bytes of memory differs. -/
def State.withMemoriesOf (t s : State) : State :=
  { t with disk.trk := s.disk.trk, xtrk := s.xtrk, dmem := s.dmem, errtab := s.errtab }

/-! ## What was written -/

/-- From `s` to `t` the bytes `bs` were stored at `addr` in `sp`, and every other byte of every
memory reads as before. -/
def WroteBytes (s t : State) (sp : Space) (addr : Nat) (bs : List Byte) : Prop :=
  (∀ k (h : k < bs.length), t.byteAt sp (addr + k) = bs[k]) ∧
  ∀ sp' a, sp' ≠ sp ∨ a < addr ∨ addr + bs.length ≤ a → t.byteAt sp' a = s.byteAt sp' a

/-- `Abs(V, i)` (R62). -/
def View.abs (v : View) (i : Int) : Nat := v.first.toNat + (i % v.size).toNat

/-- From `s` to `t` the bits `bits` were written through the view `v` from index `i` on, in order
(a later bit overwrites an earlier one, R136); every other bit, and so every byte that holds no
written bit, of every memory reads as before. -/
def WroteBits (s t : State) (v : View) (i : Int) (bits : List Bool) : Prop :=
  (∀ k (h : k < bits.length),
    (∀ k', k < k' → k' < bits.length → v.abs (i + k') ≠ v.abs (i + k)) →
      t.bufBit v.buf.space (v.abs (i + k)) = bits[k]) ∧
  (∀ sp j, sp ≠ v.buf.space ∨ (∀ k, k < bits.length → j ≠ v.abs (i + (k : Nat))) →
    t.bufBit sp j = s.bufBit sp j) ∧
  ∀ sp a, sp ≠ v.buf.space ∨ (∀ k, k < bits.length → a ≠ v.abs (i + (k : Nat)) / 8) →
    t.byteAt sp a = s.byteAt sp a

/-- The `c` low bits of `x`, most significant first (R134, R136). -/
def lowBits (x c : Nat) : List Bool := (List.range c).map fun k => x.testBit (c - 1 - k)

/-- `x` is the number whose `c` bits are `bit 0` (most significant) to `bit (c - 1)` (R134). -/
def IsNumber (x c : Nat) (bit : Nat → Bool) : Prop :=
  x < 2 ^ c ∧ ∀ k < c, x.testBit (c - 1 - k) = bit k

/-- Halftrack `2u` holds the bits `bits` from bit `start` of its nominal length on, cyclically, and
the fill byte 0x55 everywhere else (R211). -/
def State.TrackHolds (t : State) (u start : Nat) (bits : List Bool) : Prop :=
  (∀ k (h : k < bits.length),
    t.bufBit (.trk (halftrack (2 * u))) ((start + k) % nominalBits u) = bits[k]) ∧
  ∀ j, (∀ k, k < bits.length → j ≠ (start + k) % nominalBits u) →
    t.bufBit (.trk (halftrack (2 * u))) j = byteBit 0x55 j

/-- Byte `j` (0 most significant) of a 64-bit big-endian table field (R63). -/
def beByte (i : Int) (j : Nat) : Byte := (wordOfInt i >>> (8 * (7 - j))).setWidth 8

/-! ## The scans for sectors -/

/-- A codec's scan for sectors, as rules R213, R250 and R280 run it. -/
structure SectorScan where
  /-- The first mark at or after an iterator: where it begins, and the first bit of its block. -/
  next : Int → Option (Int × Int)
  /-- The sector number of the block, if the block is a header whose number can be read. -/
  number : Int → Option Byte
  /-- Where the scan goes on behind the block. -/
  after : Int → Int

/-- R208, R213: the scan of a C64 track. -/
def BitStream.c64Scan (b : BitStream) : SectorScan where
  next it := (b.c64NextBlock it).map fun r => (r.1 - 10, r.2)
  number p := if b.decodeGcr p = some 0x08 then b.decodeGcr (p + 20) else none
  after p := if b.decodeGcr p = some 0x08 then p + 80 else p + 10

/-- R250: the scan of an Amiga track, on which every block is a header. -/
def BitStream.amiScan (b : BitStream) : SectorScan where
  next it := (b.forward it 0x44894489 32).map fun p => (p - 32, p)
  number p := (oeDecode (b.bytesAt p 8)).getD 2 0
  after p := p

/-- R280: the scan of a DOS track. -/
def BitStream.dosScan (b : BitStream) : SectorScan where
  next it := (b.forward it 0x448944894489 48).map fun p => (p - 48, p)
  number p := if b.rdMfm p = 0xFE then some (b.rdMfm (p + 48) - 1) else none
  after p := if b.rdMfm p = 0xFE then p + 112 else p + 16

/-- From `start` on, the scan passes exactly the blocks `ps`, in this order, and goes on at `it`: each
mark begins less than one revolution behind `start`, and no header repeats a number. -/
inductive SectorScan.Passes (f : SectorScan) (size : Nat) (start : Int) : List Int → Int → Prop
  /-- It begins at `start`. -/
  | begin : Passes f size start [] start
  /-- It passes the next block. -/
  | block {ps : List Int} {it q p : Int} : Passes f size start ps it → f.next it = some (q, p) →
      q < start + size → (∀ x, f.number p = some x → x ∉ ps.filterMap f.number) →
      Passes f size start (ps ++ [p]) (f.after p)

/-- At `it`, behind the blocks `ps`, the scan is over: there is no further mark, or it begins one
revolution behind `start`, or its header repeats a number. -/
def SectorScan.Over (f : SectorScan) (size : Nat) (start : Int) (ps : List Int) (it : Int) : Prop :=
  match f.next it with
  | none => True
  | some (q, p) => start + size ≤ q ∨ ∃ x, f.number p = some x ∧ x ∈ ps.filterMap f.number

/-- What the search for the sector `sec` finds: the header that is the last block it passes, or nothing
when it is over without having passed one. -/
def SectorScan.Finds (f : SectorScan) (size : Nat) (start : Int) (sec : Byte) : Option Int → Prop
  | some p => f.number p = some sec ∧ ∃ ps, f.Passes size start (ps ++ [p]) (f.after p)
  | none => ∃ ps it, f.Passes size start ps it ∧ f.Over size start ps it ∧
      sec ∉ ps.filterMap f.number

/-! ## Clocked runs, marks, reports -/

/-- The bytes `out` are the MFM bytes `raw` after a clocking pass (R189, R246, R276): a byte of a sync
word is 0x44 at an even index and 0x89 at an odd one, every other byte is clocked against the byte before
it, the first one against `prev`. -/
def ClockedRun (sync : Nat → Bool) (raw : List Byte) (prev : Byte) (out : List Byte) : Prop :=
  out.length = raw.length ∧ ∀ i < raw.length, out.getD i 0 =
    if sync i then (if i % 2 = 0 then 0x44 else 0x89)
    else addClock (raw.getD i 0) (if i = 0 then prev else out.getD (i - 1) 0)

/-- `isCand(V, i)` (R333): the zero bit that ends a run of ten ones. -/
def BitStream.MarkAt (b : BitStream) (i : Int) : Prop :=
  b.getBits (i - 10) 10 = 0x3FF ∧ b.get i = false

/-- A header start (R334). -/
def BitStream.HeaderAt (b : BitStream) (i : Int) : Prop := b.MarkAt i ∧ b.decodeGcr i = some 0x08

/-- A data start (R334). -/
def BitStream.DataAt (b : BitStream) (i : Int) : Prop := b.MarkAt i ∧ b.decodeGcr i = some 0x07

/-- A header start whose sector byte is the number `k` of a sector the track has (R335). -/
def BitStream.HeaderOf (b : BitStream) (nsec k : Nat) (i : Int) : Prop :=
  b.HeaderAt i ∧ k < nsec ∧ ∃ x, b.decodeGcr (i + 20) = some x ∧ x.toNat = k

/-- A data start at `q` that is the first mark after the header start `p` (R335). -/
def BitStream.DataOf (b : BitStream) (p q : Nat) : Prop :=
  b.DataAt q ∧ p < q ∧ ∀ m : Nat, p < m → m < q → ¬b.MarkAt m

/-- A number as a position of the report (R35). -/
def reportPos (p : Nat) : BitVec 19 := BitVec.ofNat 19 p

/-- What the walk of R335 has recorded and logged when it has passed the positions `s0 .. stop - 1`: each
header with a legal number, which is the only one of its sector, and the data block directly after it;
nothing for the other sectors; a log entry for each header start without a legal number and each data
start not directly after a recorded header, in rising order. -/
structure BitStream.WalkedTo (b : BitStream) (nsec : Nat) (sec : Nat → SectorInfo)
    (log : List LogEntry) (s0 stop : Nat) : Prop where
  /-- No number repeats. -/
  once : ∀ k p q : Nat, s0 ≤ p → p < stop → s0 ≤ q → q < stop →
    b.HeaderOf nsec k p → b.HeaderOf nsec k q → p = q
  /-- A recorded header. -/
  header : ∀ k p : Nat, s0 ≤ p → p < stop → b.HeaderOf nsec k p →
    (sec k).headerBegin = reportPos p ∧ (sec k).headerEnd = reportPos (p + 80)
  /-- A recorded data block. -/
  data : ∀ k p q : Nat, s0 ≤ p → b.HeaderOf nsec k p → q < stop → b.DataOf p q →
    (sec k).dataBegin = reportPos q ∧ (sec k).dataEnd = reportPos (q + 2600)
  /-- A sector whose header no data block follows. -/
  noData : ∀ k < 21, (∀ p q : Nat, s0 ≤ p → b.HeaderOf nsec k p → q < stop → ¬b.DataOf p q) →
    (sec k).dataBegin = 0 ∧ (sec k).dataEnd = 0
  /-- A sector without a header. -/
  noHeader : ∀ k < 21, (∀ p : Nat, s0 ≤ p → p < stop → ¬b.HeaderOf nsec k p) →
    sec k = ⟨0, 0, 0, 0⟩
  /-- The log entries. -/
  logged : ∃ ps : List Nat, ps.Pairwise (· < ·) ∧
    (∀ i, i ∈ ps ↔ s0 ≤ i ∧ i < stop ∧
      ((b.HeaderAt i ∧ ∀ k, ¬b.HeaderOf nsec k i) ∨
        (b.DataAt i ∧ ∀ k p : Nat, s0 ≤ p → b.HeaderOf nsec k p → ¬b.DataOf p i))) ∧
    log = ps.map fun i : Nat =>
      if b.decodeGcr i = some 0x08 then ⟨.badSectorNr, 0xFF, reportPos i, reportPos (i + 80)⟩
      else ⟨.dataNoHeader, 0xFF, reportPos i, reportPos (i + 2600)⟩

/-- The whole walk of R335: from the first header start to the position one revolution later, or to the
first header that repeats a number. -/
structure BitStream.Walked (b : BitStream) (nsec : Nat) (sec : Nat → SectorInfo)
    (log : List LogEntry) (s0 stop : Nat) : Prop extends b.WalkedTo nsec sec log s0 stop where
  /-- Where it begins. -/
  first : s0 < b.size ∧ b.HeaderAt s0 ∧ ∀ i < s0, ¬b.HeaderAt i
  /-- Where it ends. -/
  stops : s0 < stop ∧ stop ≤ s0 + b.size ∧ (stop < s0 + b.size →
    ∃ k p : Nat, s0 ≤ p ∧ p < stop ∧ b.HeaderOf nsec k p ∧ b.HeaderOf nsec k stop)

/-- The entries of one sector that `validate` of R336 gives: its header entry, then its data entry. -/
def BitStream.validation (b : BitStream) (expect : Bool) (k : Nat) (i : SectorInfo) :
    List LogEntry :=
  let sec := BitVec.ofNat 8 k
  let missing := fun code : LogCode => if expect then [(⟨code, sec, 0, 0⟩ : LogEntry)] else []
  (if i.headerBegin = i.headerEnd then missing .hdrMissing
   else match b.decodeGcrBytes i.headerBegin.toNat 6 with
    | none => [⟨.hdrGcr, sec, i.headerBegin, i.headerEnd⟩]
    | some h =>
      if h.getD 1 0 = h.getD 2 0 ^^^ h.getD 3 0 ^^^ h.getD 4 0 ^^^ h.getD 5 0 then []
      else [⟨.hdrCksum, sec, i.headerBegin, i.headerEnd⟩]) ++
  (if i.dataBegin = i.dataEnd then missing .dataMissing
   else match b.decodeGcrBytes (i.dataBegin.toNat + 10) 257 with
    | none => [⟨.dataGcr, sec, i.dataBegin, i.dataEnd⟩]
    | some d =>
      if d.getD 256 0 = (d.take 256).foldl (· ^^^ ·) 0 then []
      else [⟨.dataCksum, sec, i.dataBegin, i.dataEnd⟩])

/-- A log that receives these entries one after the other (R343): the first `cap` of them, and whether
one was dropped. -/
def Scan.Logs (sc : Scan) (cap : Nat) (entries : List LogEntry) : Prop :=
  sc.log = entries.take cap ∧ sc.ovf = decide (cap < entries.length)

/-- The table of rule R50; the contents of `XTRK`, `DMEM` and `ERRTAB` are unspecified there. -/
structure State.IsAfterReset (t : State) : Prop where
  /-- `A0..A5`. -/
  operands : t.host.a0 = 0 ∧ t.host.a1 = 0 ∧ t.host.a2 = 0 ∧ t.host.a3 = 0 ∧ t.host.a4 = 0 ∧
    t.host.a5 = 0
  /-- `R0..R3`. -/
  results : t.host.r0 = 0 ∧ t.host.r1 = 0 ∧ t.host.r2 = 0 ∧ t.host.r3 = 0
  /-- `EA0`, `EA1`, `ER0..ER3`. -/
  ctrl : t.ctrl = ⟨0, 0, 0, 0, 0, 0⟩
  /-- `STATUS`. -/
  status : t.host.status.word = 0
  /-- `VIEW[0..3]`. -/
  views : ∀ v : Fin 4, t.views[v] = ⟨.dmem, 0, 0⟩
  /-- `PRESENT`, `WP`, `MOD`. -/
  flags : t.disk.present = false ∧ t.disk.wp = false ∧ t.disk.modified = false
  /-- `TRK[h][i]`. -/
  tracks : ∀ (h : Fin 84) (i : Nat), i < Config.trackCapBytes → t.byteAt (.trk h) i = 0x55
  /-- `LEN[h]`. -/
  lens : ∀ h < 84, t.lenOf h = 8 * nominalBytes (trackOf h) ∧
    t.lenOf h = if h < 34 then 61536 else if h < 48 then 57136 else if h < 60 then 53328 else 50000
  /-- `XLEN`. -/
  xlen : t.xlen = 0
  /-- `INFO[h]`. -/
  info : ∀ h < 85, (t.report.infoOf h).len = 0 ∧ ∀ k < 21, t.report.sectorOf h k = ⟨0, 0, 0, 0⟩
  /-- `LOG[h]`. -/
  log : ∀ h < 85, t.report.logOf h = []
  /-- The engine. -/
  engine : t.engine.phase = 0 ∧ t.engine.rsr = 0 ∧ t.engine.wsr = 0 ∧ t.engine.brc = 0 ∧
    t.engine.byteReady = false ∧ t.engine.dataLatch = 0 ∧ t.engine.ht = 0 ∧ t.engine.offset = 0 ∧
    t.engine.sync = true

end Sys2Proof.Machine
end

