-- ==== Sys2Proof/Certificates/Slice0/Obligations.lean ====
section
/-! DEFINITION. The statements for the provers, in the order of `OBLIGATIONS.json`. -/

open Sys2Proof Sys2Proof.Machine

/-! ## Reset, commands, errors -/

/-- R50: after `RESET` (R96) and after the reset input (R430) every element has its tabled value. -/
def Obligations.ResetTakesTheTabledValues : Prop :=
  ∀ s : State, ∃ t, exec .reset s = .next t ∧ deliver .resetInput s = .next t ∧ t.IsAfterReset

/-- R95: `NOP` ends with `OK` and changes nothing but `STATUS`; while `FAULT` is 1 it fails. -/
def Obligations.NopOnlyReports : Prop :=
  ∀ s : State, (s.Running → exec .nop s = .next (s.answered false false none none none none)) ∧
    (s.host.status.fault = true → exec .nop s = .next (s.failed .faulted))

/-- R404: while `FAULT` is 1 every byte but 0x01 written to `CMD`, legal or not, only answers
`FAULTED`. -/
def Obligations.FaultedMachineRunsNoCommand : Prop :=
  ∀ (s : State) (b : Byte), s.host.status.fault = true → b ≠ 0x01 →
    deliver (.hostCmd b) s = .next (s.failed .faulted)

/-- R94: every byte has an effect; an illegal byte written to `CMD` only answers `ILLEGAL_CMD`, an
illegal byte written to `ECMD` does nothing. -/
def Obligations.IllegalBytesOnlyReport : Prop :=
  (∀ (s : State) (b : Byte), (∃ t, deliver (.hostCmd b) s = .next t) ∧
    ∃ t, deliver (.ctrlCmd b) s = .next t) ∧
  (∀ (s : State) (b : Byte), s.Running →
    (0x02 ≤ b ∧ b ≤ 0x0F ∨ 0x1C ≤ b ∧ b ≤ 0x1F ∨ 0x24 ≤ b ∧ b ≤ 0x2F ∨ 0x36 ≤ b ∧ b ≤ 0x3F ∨
      0x46 ≤ b ∧ b ≤ 0x4F ∨ 0x56 ≤ b ∧ b ≤ 0x5F ∨ 0x66 ≤ b ∧ b ≤ 0x6F ∨ 0x7C ≤ b ∧ b ≤ 0x7F ∨
      0x84 ≤ b ∧ b ≤ 0x8F ∨ 0x90 ≤ b) →
    deliver (.hostCmd b) s = .next (s.failed .illegalCmd)) ∧
  ∀ (s : State) (b : Byte), (b < 0x90 ∨ 0x97 < b) → deliver (.ctrlCmd b) s = .next s

/-- R16, R17, R22, R51: a step delivers the first pending event; a command byte that decodes on its
port runs exactly that operation; without an event nothing changes. That pending events are a list in
the state is the model's choice (log 1, log 2). -/
def Obligations.StepRunsTheDecodedCommand : Prop :=
  (∀ (s : State) (b : Byte) (i : Instr) (tail : List Byte) (rest : List Event),
    (s.inputs = .hostCmd b :: rest → decode .host [b] = .ok (i, tail) →
      step s = exec i { s with inputs := rest }) ∧
    (s.inputs = .ctrlCmd b :: rest → decode .controller [b] = .ok (i, tail) →
      step s = exec i { s with inputs := rest }) ∧
    (s.inputs = [] → step s = .next s)) ∧
  ∀ (s : State) (w : Nat) (i : Instr), decodeTableWord 8 w = some i →
    step (s.withFetchWord 8 w) = exec i s

/-- R93: a few rows of the opcode map, one of each unit, with the port that accepts them (R91). -/
def Obligations.OpcodeMapRows : Prop :=
  decode .host [0x00] = .ok (.nop, []) ∧ decode .host [0x17] = .ok (.bvGetbits, []) ∧
  decode .host [0x22] = .ok (.gcrEnc, []) ∧ decode .host [0x35] = .ok (.mfmClkbuf, []) ∧
  decode .host [0x41] = .ok (.c64Enctrk, []) ∧ decode .host [0x52] = .ok (.amiDecsec, []) ∧
  decode .host [0x65] = .ok (.dosSeekall, []) ∧ decode .host [0x79] = .ok (.dskInsert, []) ∧
  decode .host [0x83] = .ok (.anaXrun, []) ∧ decode .controller [0x96] = .ok (.engSetht, []) ∧
  decode .host [0x96] = .error (.illegal .host 0x96) ∧
  decode .controller [0x00] = .error (.illegal .controller 0x00)

/-- R90, R91, R93: decoding and encoding agree on both ports. A byte decodes to an operation exactly
when it is that operation's encoding and the port is the one that accepts it; the bytes after it are
handed back; every other byte is illegal by name. -/
def Obligations.DecodeAndEncodeAgree : Prop :=
  (∀ (p : Port) (i : Instr) (bs rest : List Byte),
    decode p bs = .ok (i, rest) ↔ bs = encode i ++ rest ∧ wellFormed p i = true) ∧
  ∀ (p : Port) (b : Byte) (rest : List Byte),
    (∀ i, encode i = [b] → i.port ≠ p) → decode p (b :: rest) = .error (.illegal p b)

/-- R14, R92: an index, iterator or offset of magnitude 2^62 or more is Fatal `BAD_OPERAND` in every
operation that has one in `A1`. -/
def Obligations.FarIteratorIsFatal : Prop :=
  ∀ (s : State) (i : Instr), s.Running → ¬LegalIter s.host.a1 →
    i ∈ [Instr.bvGet, .bvSet, .bvGetbyte, .bvSetbyte, .bvGetbits, .bvSetbits, .bvFwd, .byGet, .bySet,
      .gcrEnc, .gcrDec, .c64Encsec, .c64Decsec, .c64Dectrk, .c64Seek, .c64Seekall, .amiEncsec,
      .amiDecsec, .amiDectrk, .amiSeek, .amiSeekall, .dosEncsec, .dosDecsec, .dosDectrk, .dosSeek,
      .dosSeekall] →
    exec i s = .next (s.faulted .badOperand)

/-- R405, R66, R69, R92, R152: every operation on the bits of a view checks its operands and its runs of
`DMEM` first (Fatal `BAD_OPERAND`), then that a disk is there for a view on one (`NO_DISK`), then that the
view is not empty (`EMPTY_VIEW`). That the `DMEM` runs come before the view's checks is the order of R405
(log 8). -/
def Obligations.ViewChecksComeInOrder : Prop :=
  ∀ s : State, s.Running → ∀ op ∈ s.viewOperations,
    (¬op.2 → exec op.1 s = .next (s.faulted .badOperand)) ∧
    (op.2 → (∃ h, s.view.buf = .trk h) → s.disk.present = false →
      exec op.1 s = .next (s.failed .noDisk)) ∧
    (op.2 → (∀ h, s.view.buf = .trk h → s.disk.present = true) → s.view.size = 0 →
      exec op.1 s = .next (s.failed .emptyView))

/-- R147, R148, R149: a bit count above 64, or 0 for `BV.FWD`, is Fatal `BAD_OPERAND`, whatever the
view. -/
def Obligations.BitCountOutOfRangeIsFatal : Prop :=
  ∀ s : State, s.Running →
    (64 < field s.host.a2 0 7 →
      exec .bvGetbits s = .next (s.faulted .badOperand) ∧
      exec .bvSetbits s = .next (s.faulted .badOperand)) ∧
    (field s.host.a3 0 7 = 0 ∨ 64 < field s.host.a3 0 7 →
      exec .bvFwd s = .next (s.faulted .badOperand))

/-! ## BitView -/

/-- R140: `BV.DEF` writes the descriptor when it is one, and is Fatal otherwise. -/
def Obligations.BvDefWritesADescriptor : Prop :=
  ∀ s : State, s.Running →
    (∀ buf, BufSel.ofCode (field s.host.a1 0 7) = some buf →
      0 ≤ s.host.a2.toInt → s.host.a2.toInt ≤ s.host.a3.toInt → s.host.a3.toInt ≤ buf.capBits →
      exec .bvDef s = .next
        { s.answered false false none none none none with
          views := s.views.set s.opV ⟨buf, s.host.a2.setWidth 32, s.host.a3.setWidth 32⟩ }) ∧
    ((85 < field s.host.a1 0 7 ∨ s.host.a2.toInt < 0 ∨ s.host.a3.toInt < s.host.a2.toInt ∨
        ∃ buf, BufSel.ofCode (field s.host.a1 0 7) = some buf ∧ buf.capBits < s.host.a3.toInt) →
      exec .bvDef s = .next (s.faulted .badOperand))

/-- R141, R142: `BV.SLICE` narrows a view (in place too), or is Fatal; `BV.SIZE` returns the size,
also of an empty view and without a disk. The view read is a sound descriptor (R25). -/
def Obligations.BvSliceAndSize : Prop :=
  ∀ s : State, s.Running → s.view.wf →
    (if 0 ≤ s.host.a2.toInt ∧ s.host.a2.toInt ≤ s.host.a3.toInt ∧
        s.host.a3.toInt ≤ s.view.last.toNat - s.view.first.toNat then
      ∃ d : View, d.buf = s.view.buf ∧ (d.first.toNat : Int) = s.view.first.toNat + s.host.a2.toInt ∧
        (d.last.toNat : Int) = s.view.first.toNat + s.host.a3.toInt ∧
        exec .bvSlice s = .next
          { s.answered false false none none none none with
            views := s.views.set (viewIndex s.host.a1) d }
    else exec .bvSlice s = .next (s.faulted .badOperand)) ∧
    exec .bvSize s = .next (s.answered false false
      (some (BitVec.ofNat 64 (s.view.last.toNat - s.view.first.toNat))) none none none)

/-- R143, R145, R147, R150: the reading operations return the view's bits, the first one most
significant, each index wrapping by itself, and change nothing but `R0` and `STATUS`. -/
def Obligations.ViewReadsReturnTheBits : Prop :=
  ∀ s : State, s.Running → LegalIter s.host.a1 → s.Usable s.view →
    let bit := fun i : Int => s.bufBit s.view.buf.space (s.view.abs i)
    let i := s.host.a1.toInt
    let answers := fun (x : Nat) =>
      Host.Outcome.next (s.answered false false (some (BitVec.ofNat 64 x)) none none none)
    exec .bvGet s = answers (bit i).toNat ∧
    (∃ x, IsNumber x 8 (fun k => bit (i + k)) ∧ exec .bvGetbyte s = answers x) ∧
    (∃ x, IsNumber x 8 (fun k => bit (8 * i + k)) ∧ exec .byGet s = answers x) ∧
    (field s.host.a2 0 7 ≤ 64 →
      ∃ x, IsNumber x (field s.host.a2 0 7) (fun k => bit (i + k)) ∧ exec .bvGetbits s = answers x)

/-- R144, R146, R148, R151: the writing operations write exactly the bits their rules name, the last
one written staying where indices meet, and change nothing else but `STATUS` (not `MOD`, R30). -/
def Obligations.ViewWritesStoreTheBits : Prop :=
  ∀ s : State, s.Running → LegalIter s.host.a1 → s.Usable s.view →
    let i := s.host.a1.toInt
    let stores := fun (op : Instr) (at_ : Int) (bits : List Bool) =>
      ∃ t, exec op s = .next t ∧ WroteBits s t s.view at_ bits ∧
        t.withMemoriesOf s = s.answered false false none none none none
    stores .bvSet i [s.host.a2.getLsbD 0] ∧
    stores .bvSetbyte i (lowBits s.host.a2.toNat 8) ∧
    stores .bySet (8 * i) (lowBits s.host.a2.toNat 8) ∧
    (field s.host.a2 0 7 ≤ 64 →
      stores .bvSetbits i (lowBits s.host.a3.toNat (field s.host.a2 0 7)))

/-- R149, R138: `BV.FWD` answers the first of the `size` start positions at which the pattern stands
(unreduced, just after it), or `NOT_FOUND` with the iterator unchanged. -/
def Obligations.ForwardFindsTheFirstMatch : Prop :=
  ∀ s : State, s.Running → LegalIter s.host.a1 → s.Usable s.view →
    let n := field s.host.a3 0 7
    let it := s.host.a1.toInt
    let stands := fun k : Nat => ∀ j < n,
      s.bufBit s.view.buf.space (s.view.abs (it + k + j)) = s.host.a2.getLsbD (n - 1 - j)
    1 ≤ n → n ≤ 64 →
      (∀ k < s.view.size, stands k → (∀ k' < k, ¬stands k') →
        exec .bvFwd s = .next (s.answered true false
          (some (BitVec.ofInt 64 (it + k + n))) none none none)) ∧
      ((∀ k < s.view.size, ¬stands k) →
        exec .bvFwd s = .next
          { s.failed .notFound with host := { (s.failed .notFound).host with r0 := s.host.a1 } })

/-- R153(a), (b), (c): cyclic addressing, splitting a read, reading back a write. -/
def Obligations.CyclicReadsAndWrites : Prop :=
  (∀ (b : BitStream) (i k : Int), b.get (i + k * b.size) = b.get i) ∧
  (∀ (b : BitStream) (i : Int) (c d : Nat), c + d ≤ 64 →
    b.getBits i (c + d) = b.getBits i c * 2 ^ d + b.getBits (i + c) d) ∧
  ∀ (s : State) (v : View) (i : Int) (c x : Nat), 0 < v.size → c ≤ v.size → c ≤ 64 →
    ((s.setBits v i (msbBits x c)).stream v).getBits i c = x % 2 ^ c

/-! ## GCR -/

/-- R161, R162, R100, R101: the table and its inverse. -/
def Obligations.GcrTableOperations : Prop :=
  ∀ s : State, s.Running →
    exec .gcrB2g s = .next (s.answered false false (some (BitVec.ofNat 64
      (([0x0A, 0x0B, 0x12, 0x13, 0x0E, 0x0F, 0x16, 0x17, 0x09, 0x19, 0x1A, 0x1B, 0x0D, 0x1D, 0x1E,
        0x15] : List Nat).getD (field s.host.a0 0 4) 0))) none none none) ∧
    let b := ([0xFF, 0xFF, 0xFF, 0xFF, 0xFF, 0xFF, 0xFF, 0xFF, 0xFF, 0x08, 0x00, 0x01, 0xFF, 0x0C,
      0x04, 0x05, 0xFF, 0xFF, 0x02, 0x03, 0xFF, 0x0F, 0x06, 0x07, 0xFF, 0x09, 0x0A, 0x0B, 0xFF, 0x0D,
      0x0E, 0xFF] : List Nat).getD (field s.host.a0 0 5) 0
    exec .gcrG2b s = .next (s.answered false (decide (b = 0xFF)) (some (BitVec.ofNat 64 b))
      none none none)

/-- R163: `GCR.ENC` writes the high nibble's codeword, then the low nibble's, and advances `pos`. -/
def Obligations.GcrEncWritesTwoCodewords : Prop :=
  ∀ s : State, s.Running → LegalIter s.host.a1 → s.Usable s.view →
    ∃ t, exec .gcrEnc s = .next t ∧
      t.withMemoriesOf s = s.answered false false
        (some (BitVec.ofInt 64 (s.host.a1.toInt + 10))) none none none ∧
      WroteBits s t s.view s.host.a1.toInt
        (lowBits (gcrTable.getD (field s.host.a2 4 4) 0).toNat 5 ++
          lowBits (gcrTable.getD (field s.host.a2 0 4) 0).toNat 5)

/-- R164: `GCR.DEC` returns the nibbles of valid codewords, the exact validity mask, and says nothing
about the nibble of an invalid codeword. R68: repeated with the same operands, through the same view, which
lies inside its buffer (R25), while every byte of every memory reads the same, it gives the same result, the
nibbles of invalid codewords included. -/
def Obligations.GcrDecReturnsValidNibbles : Prop :=
  (∀ s t : State, s.Running → t.Running → LegalIter s.host.a1 → s.Usable s.view → t.Usable t.view →
    field t.host.a0 0 2 = field s.host.a0 0 2 → t.view = s.view → t.host.a1 = s.host.a1 →
    s.view.wf →
    (∀ (sp : Space) (a : Nat), a < sp.cap → t.byteAt sp a = s.byteAt sp a) →
    ∃ (bad : Bool) (r0 r1 : Word),
      exec .gcrDec s = .next (s.answered false bad (some r0) (some r1) none none) ∧
      exec .gcrDec t = .next (t.answered false bad (some r0) (some r1) none none)) ∧
  ∀ s : State, s.Running → LegalIter s.host.a1 → s.Usable s.view →
    let bit := fun i : Int => s.bufBit s.view.buf.space (s.view.abs i)
    ∃ (cHi cLo : Nat) (hi lo : BitVec 4),
      IsNumber cHi 5 (fun k => bit (s.host.a1.toInt + k)) ∧
      IsNumber cLo 5 (fun k => bit (s.host.a1.toInt + 5 + k)) ∧
      (∀ n : BitVec 4, (bin2gcr n).toNat = cHi → hi = n) ∧
      (∀ n : BitVec 4, (bin2gcr n).toNat = cLo → lo = n) ∧
      ∃ badHi badLo : Bool,
        (badHi = true ↔ ∀ n : BitVec 4, (bin2gcr n).toNat ≠ cHi) ∧
        (badLo = true ↔ ∀ n : BitVec 4, (bin2gcr n).toNat ≠ cLo) ∧
        exec .gcrDec s = .next (s.answered false (badHi || badLo)
          (some (BitVec.ofNat 64 (16 * hi.toNat + lo.toNat)))
          (some (BitVec.ofNat 64 (2 * badHi.toNat + badLo.toNat))) none none)

/-- R169(a), R166, R168: a run of GCR-encoded bytes written anywhere in a view that holds it decodes
to the same bytes. -/
def Obligations.GcrRunRoundTrip : Prop :=
  ∀ (s : State) (v : View) (pos : Int) (bs : List Byte), 0 < v.size → 10 * bs.length ≤ v.size →
    ((s.setBits v pos (gcrBits bs)).stream v).decodeGcrBytes pos bs.length = some bs

/-- R169(d): a run of GCR-encoded bytes contains no ten consecutive one bits, so no sync mark. -/
def Obligations.GcrRunsHoldNoSyncMark : Prop :=
  ∀ (bs : List Byte) (k : Nat), ¬∀ j < 10, (gcrBits bs)[k + j]? = some true

/-! ## MFM -/

/-- R181, R182, R183, R184: the four conversions. The source is read before the destination is
written; everything but the destination bytes, `R0` and `STATUS` is kept. -/
def Obligations.MfmConversions : Prop :=
  ∀ s : State, s.Running →
    let src := field s.host.a0 0 32
    let dst := field s.host.a1 0 32
    let c := field s.host.a2 0 32
    let b := fun k => s.byteAt .dmem (src + k)
    let writes := fun (op : Instr) (out : List Byte) =>
      ∃ t, exec op s = .next t ∧ WroteBytes s t .dmem dst out ∧
        t.withMemoriesOf s =
          s.answered false false (some (BitVec.ofNat 64 out.length)) none none none
    (InDmem src c → InDmem dst (2 * c) →
      (∃ out, out.length = 2 * c ∧ writes .mfmEnc out ∧ ∀ k < c, ∀ j < 8,
        ((out.getD (2 * k) 0) ++ (out.getD (2 * k + 1) 0)).getLsbD (2 * j) = (b k).getLsbD j ∧
        ((out.getD (2 * k) 0) ++ (out.getD (2 * k + 1) 0)).getLsbD (2 * j + 1) = false) ∧
      ∃ out, out.length = 2 * c ∧ writes .mfmOeenc out ∧ ∀ k < c, ∀ j < 4,
        (out.getD k 0).getLsbD (2 * j) = (b k).getLsbD (2 * j + 1) ∧
        (out.getD k 0).getLsbD (2 * j + 1) = false ∧
        (out.getD (c + k) 0).getLsbD (2 * j) = (b k).getLsbD (2 * j) ∧
        (out.getD (c + k) 0).getLsbD (2 * j + 1) = false) ∧
    (InDmem src (2 * c) → InDmem dst c →
      (∃ out, out.length = c ∧ writes .mfmDec out ∧ ∀ k < c, ∀ j < 8,
        (out.getD k 0).getLsbD j = (b (2 * k) ++ b (2 * k + 1)).getLsbD (2 * j)) ∧
      ∃ out, out.length = c ∧ writes .mfmOedec out ∧ ∀ k < c, ∀ j < 4,
        (out.getD k 0).getLsbD (2 * j + 1) = (b k).getLsbD (2 * j) ∧
        (out.getD k 0).getLsbD (2 * j) = (b (c + k)).getLsbD (2 * j))

/-- A run of `DMEM` bytes that does not lie inside it is Fatal `BAD_OPERAND`, before anything is written
(R66). For a run of 0 bytes, which the clauses include, that is the model's reading (log 21): it is Fatal
exactly when its address is above the capacity. -/
def Obligations.DmemRunOutOfBoundsIsFatal : Prop :=
  ∀ s : State, s.Running →
    let src := field s.host.a0 0 32
    let dst := field s.host.a1 0 32
    let c := field s.host.a2 0 32
    (¬(InDmem src c ∧ InDmem dst (2 * c)) →
      exec .mfmEnc s = .next (s.faulted .badOperand) ∧
      exec .mfmOeenc s = .next (s.faulted .badOperand)) ∧
    (¬(InDmem src (2 * c) ∧ InDmem dst c) →
      exec .mfmDec s = .next (s.faulted .badOperand) ∧
      exec .mfmOedec s = .next (s.faulted .badOperand)) ∧
    (¬InDmem src (field s.host.a1 0 32) → exec .mfmClkbuf s = .next (s.faulted .badOperand))

/-- R185: `MFM.CLK` keeps the four data bits and sets a clock bit exactly where both neighbouring
data bits are 0. -/
def Obligations.MfmClkSetsTheClockBits : Prop :=
  ∀ s : State, s.Running →
    ∃ x : Byte,
      (∀ k < 4, x.getLsbD (2 * k) = s.host.a0.getLsbD (2 * k)) ∧
      (∀ k < 3, x.getLsbD (2 * k + 1) =
        !(s.host.a0.getLsbD (2 * k + 2) || s.host.a0.getLsbD (2 * k))) ∧
      x.getLsbD 7 = !(s.host.a1.getLsbD 0 || s.host.a0.getLsbD 6) ∧
      exec .mfmClk s = .next (s.answered false false (some (x.zeroExtend 64)) none none none)

/-- R186, R189: `MFM.CLKBUF` clocks a run of bytes in place, each against the one before it, and
returns the last byte written (or `prev`). -/
def Obligations.MfmClkbufClocksARun : Prop :=
  ∀ s : State, s.Running →
    let addr := field s.host.a0 0 32
    let c := field s.host.a1 0 32
    let prev : Byte := s.host.a2.setWidth 8
    InDmem addr c →
      ∃ (t : State) (out : List Byte), exec .mfmClkbuf s = .next t ∧ out.length = c ∧
        WroteBytes s t .dmem addr out ∧
        t.withMemoriesOf s =
          s.answered false false (some ((out.getLastD prev).zeroExtend 64)) none none none ∧
        ∀ k < c,
          let v := s.byteAt .dmem (addr + k)
          let p := if k = 0 then prev else out.getD (k - 1) 0
          out.getD k 0 = addClock v p

/-- R191: the MFM and odd/even round trips, with clock bits in between or not; clock synthesis never
changes a data position. -/
def Obligations.MfmRoundTrips : Prop :=
  (∀ d : Byte, mfmGather (mfmSpread d) = d) ∧
  (∀ (ds : List Byte) (p : Byte), mfmDecode (mfmBytes ds) = ds ∧
    mfmDecode (addClockRun (mfmBytes ds) p) = ds ∧ oeDecode (oeEncode ds) = ds ∧
    oeDecode (addClockRun (oeEncode ds) p) = ds) ∧
  ∀ x p : Byte, addClock x p &&& 0x55 = x &&& 0x55

/-- R190: in a clocked run no two adjacent bits are 1 and no four consecutive bits are 0. Stated of
every run of bytes, so of what `MFM.ENC` and `MFM.OEENC` produce. -/
def Obligations.MfmLaw : Prop :=
  ∀ (m : List Byte) (prev : Byte) (k : Nat),
    ¬((bytesBits (addClockRun m prev))[k]? = some true ∧
      (bytesBits (addClockRun m prev))[k + 1]? = some true) ∧
    ¬∀ j < 4, (bytesBits (addClockRun m prev))[k + j]? = some false

/-! ## Sector encoders -/

/-- R210: `C64.ENCSEC` writes exactly the bits of the sector at `pos`, cyclically; a view that cannot
hold them is Fatal `CAPACITY`. -/
def Obligations.C64EncsecWritesTheSector : Prop :=
  ∀ s : State, s.Running → LegalIter s.host.a1 → s.Usable s.view →
    let t := field s.host.a2 0 8
    let k := field s.host.a2 8 8
    let src := field s.host.a3 0 32
    let n := 2832 + 8 * tailGapOf s.cfg t
    t < 42 → k < sectorCount t → InDmem src 256 →
      (s.view.size < n → exec .c64Encsec s = .next (s.faulted .capacity)) ∧
      (n ≤ s.view.size → ∃ s', exec .c64Encsec s = .next s' ∧
        s'.withMemoriesOf s = s.answered false false (some (BitVec.ofNat 64 n))
          (some (BitVec.ofInt 64 (s.host.a1.toInt + n))) none none ∧
        WroteBits s s' s.view s.host.a1.toInt
          (c64SectorBits s.cfg t k (s.readBytes .dmem src 256) (s.host.a4.setWidth 8)
            ((s.host.a4 >>> 8).setWidth 8)
            (if s.host.a4.getLsbD 17 then s.byteAt .errtab (firstBlock t + k) else 1)))

/-- R248, R278: `AMI.ENCSEC` and `DOS.ENCSEC` write the bytes of the sector at `pos`, each clocked against
the one before it, the first one against the byte just before `pos`, and the sync words 0x4489 at their
places; a view that cannot hold them is Fatal `CAPACITY`. -/
def Obligations.MfmEncsecWritesTheSector : Prop :=
  ∀ s : State, s.Running → LegalIter s.host.a1 → s.Usable s.view →
    let t := field s.host.a2 0 8
    let k := field s.host.a2 8 8
    let src := field s.host.a3 0 32
    let p := s.readBytes .dmem src 512
    let before := (s.stream s.view).getByte (s.host.a1.toInt - 8)
    let writes := fun (op : Instr) (n : Nat) (sync : Nat → Bool) (raw : List Byte) =>
      ∃ (s' : State) (bytes : List Byte), exec op s = .next s' ∧
        s'.withMemoriesOf s = s.answered false false (some (BitVec.ofNat 64 n))
          (some (BitVec.ofInt 64 (s.host.a1.toInt + n))) none none ∧
        WroteBits s s' s.view s.host.a1.toInt (bytesBits bytes) ∧ 8 * bytes.length = n ∧
        ClockedRun sync raw before bytes
    t < 160 → InDmem src 512 →
      (k < 11 → s.view.size < 8704 → exec .amiEncsec s = .next (s.faulted .capacity)) ∧
      (k < 9 → s.view.size < 10528 → exec .dosEncsec s = .next (s.faulted .capacity)) ∧
      (k < 11 → 8704 ≤ s.view.size →
        writes .amiEncsec 8704 (fun i => decide (4 ≤ i ∧ i < 8)) (amiSectorBytes t k p)) ∧
      (k < 9 → 10528 ≤ s.view.size →
        writes .dosEncsec 10528 (fun i => decide (i / 2 ∈ [12, 13, 14, 56, 57, 58]))
          (mfmBytes (dosSectorData t k p)))

/-- R200-R202, R205-R207, R209: the parts of a C64 sector, at their offsets, with the effect of every
error code. -/
def Obligations.C64SectorLayout : Prop :=
  ∀ (cfg : ModelArgs) (t k : Nat) (p : List Byte) (id1 id2 e : Byte), p.length = 256 →
    let bits := c64SectorBits cfg t k p id1 id2 e
    let trk := BitVec.ofNat 8 (t + 1)
    let sec := BitVec.ofNat 8 k
    let hck := id1 ^^^ id2 ^^^ trk ^^^ sec
    let dck := p.foldl (· ^^^ ·) 0
    let flip := fun (code x : Byte) => if e = code then x ^^^ 0xFF else x
    bits.length = 2832 + 8 * tailGapOf cfg t ∧
    bits.take 40 = List.replicate 40 (decide (e ≠ 0x03)) ∧
    (bits.drop 40).take 80 = gcrBits [if e = 0x02 then 0x00 else 0x08, flip 0x09 hck, sec, trk,
      flip 0x0B id2, flip 0x0B id1, 0x0F, 0x0F] ∧
    (bits.drop 120).take 72 = (List.range 72).map (fun j => decide (j % 2 = 1)) ∧
    (bits.drop 192).take 40 = List.replicate 40 (decide (e ≠ 0x03)) ∧
    (bits.drop 232).take 2600 = gcrBits ([if e = 0x04 then 0x00 else 0x07] ++ p ++
      [flip 0x05 dck, 0x00, 0x00]) ∧
    bits.drop 2832 = (List.range (8 * tailGapOf cfg t)).map (fun j => decide (j % 2 = 1))

/-- R241, R242, R245, R271, R273: the parts of an Amiga sector before clocking and of a DOS sector at
the data level, at their offsets. -/
def Obligations.MfmSectorLayouts : Prop :=
  ∀ (t k : Nat) (p : List Byte), p.length = 512 →
    let a := amiSectorBytes t k p
    let d := dosSectorData t k p
    let hdr : List Byte :=
      [0xFE, BitVec.ofNat 8 (t / 2), BitVec.ofNat 8 (t % 2), BitVec.ofNat 8 (k + 1), 0x02]
    (a.length = 1088 ∧ a.take 8 = [0, 0, 0, 0, 0x44, 0x89, 0x44, 0x89] ∧
      oeDecode ((a.drop 8).take 8) =
        [0xFF, BitVec.ofNat 8 t, BitVec.ofNat 8 k, BitVec.ofNat 8 (11 - k)] ∧
      (a.drop 16).take 32 = List.replicate 32 0 ∧
      oeDecode ((a.drop 48).take 8) = xor4 ((a.drop 8).take 40) ∧
      oeDecode ((a.drop 56).take 8) = xor4 (a.drop 64) ∧
      a.drop 64 = p.map oddPlane ++ p.map evenPlane) ∧
    d.length = 658 ∧ d.take 12 = List.replicate 12 0x00 ∧ (d.drop 12).take 3 = [0xA1, 0xA1, 0xA1] ∧
      (d.drop 15).take 5 = hdr ∧
      (d.drop 20).take 2 = crcBytes ([0xA1, 0xA1, 0xA1] ++ hdr) ∧
      (d.drop 22).take 22 = List.replicate 22 0x4E ∧ (d.drop 44).take 12 = List.replicate 12 0x00 ∧
      (d.drop 56).take 4 = [0xA1, 0xA1, 0xA1, 0xFB] ∧ (d.drop 60).take 512 = p ∧
      (d.drop 572).take 2 = crcBytes ([0xA1, 0xA1, 0xA1, 0xFB] ++ p) ∧
      d.drop 574 = List.replicate 84 0x4E

/-- R212, R211: `C64.ENCTRK` fills the halftrack, writes its sectors back to back in ascending order,
sets its length, and leaves a view of it; `MOD` and `WP` and every other memory are kept. -/
def Obligations.C64EnctrkWritesTheTrack : Prop :=
  ∀ s : State, s.Running → s.disk.present = true →
    let u := field s.host.a2 0 8
    let src := field s.host.a3 0 32
    let n := sectorCount u
    let size := 2832 + 8 * tailGapOf s.cfg u
    let h : Fin 84 := halftrack (2 * u)
    let start := if s.host.a4.getLsbD 16 then 0 else startOffset s.cfg u
    u < 42 → field s.host.a5 0 32 = 256 * n → InDmem src (256 * n) → n * size ≤ nominalBits u →
      ∃ t, exec .c64Enctrk s = .next t ∧
        { t with disk := s.disk } =
          { s.answered false false (some (BitVec.ofNat 64 (n * size)))
              (some (BitVec.ofNat 64 start)) none none with
            views := s.views.set s.opV ⟨.trk h, 0, BitVec.ofNat 32 (nominalBits u)⟩ } ∧
        { t.disk with trk := s.disk.trk } =
          { s.disk with len := s.disk.len.set h (BitVec.ofNat 17 (nominalBits u)) } ∧
        (∀ h' : Fin 84, h' ≠ h → ∀ a, t.byteAt (.trk h') a = s.byteAt (.trk h') a) ∧
        t.TrackHolds u start ((List.range n).flatMap fun k =>
          c64SectorBits s.cfg u k (s.readBytes .dmem (src + 256 * k) 256)
            (s.host.a4.setWidth 8) ((s.host.a4 >>> 8).setWidth 8)
            (if s.host.a4.getLsbD 17 then s.byteAt .errtab (firstBlock u + k) else 1))

/-- R212, R211: the checks of `C64.ENCTRK` in the order of its pseudocode; nothing is written. The
place of the track's range check before them and of the `DMEM` range after them is the model's
reading of R405 (log 9). -/
def Obligations.C64EnctrkChecksComeInOrder : Prop :=
  ∀ s : State, s.Running →
    let u := field s.host.a2 0 8
    let n := sectorCount u
    let size := 2832 + 8 * tailGapOf s.cfg u
    (42 ≤ u → exec .c64Enctrk s = .next (s.faulted .badOperand)) ∧
    (u < 42 → s.disk.present = false → exec .c64Enctrk s = .next (s.failed .noDisk)) ∧
    (u < 42 → s.disk.present = true → field s.host.a5 0 32 ≠ 256 * n →
      exec .c64Enctrk s = .next (s.failed .formatErr)) ∧
    (u < 42 → s.disk.present = true → field s.host.a5 0 32 = 256 * n →
      ¬InDmem (field s.host.a3 0 32) (256 * n) →
      exec .c64Enctrk s = .next (s.faulted .badOperand)) ∧
    (u < 42 → s.disk.present = true → field s.host.a5 0 32 = 256 * n →
      InDmem (field s.host.a3 0 32) (256 * n) → nominalBits u < n * size →
      exec .c64Enctrk s = .next (s.faulted .capacity))

/-- R249, R279, R246, R276: `AMI.ENCTRK` and `DOS.ENCTRK` write their whole track to the beginning of
`XTRK`: the sectors in ascending order and the gap, clocked in one cyclic pass but for the sync words
0x4489; they set `XLEN` and leave a view of the track. The checks come as their pseudocode shows them, that
of the track operand first (log 9). -/
def Obligations.MfmEnctrkWritesTheTrack : Prop :=
  ∀ s : State, s.Running →
    let u := field s.host.a2 0 8
    let src := field s.host.a3 0 32
    let srcLen := field s.host.a5 0 32
    let chunk := fun k => s.readBytes .dmem (src + 512 * k) 512
    let writes := fun (op : Instr) (bits : Nat) (sync : Nat → Bool) (raw : List Byte) =>
      ∃ (t : State) (out : List Byte), exec op s = .next t ∧ WroteBytes s t .xtrk 0 out ∧
        8 * out.length = bits ∧ ClockedRun sync raw (raw.getLastD 0) out ∧
        t.withMemoriesOf s =
          { s.answered false false (some (BitVec.ofNat 64 bits)) (some 0) none none with
            xlen := BitVec.ofNat 18 bits
            views := s.views.set s.opV ⟨.xtrk, 0, BitVec.ofNat 32 bits⟩ }
    (160 ≤ u → exec .amiEnctrk s = .next (s.faulted .badOperand) ∧
      exec .dosEnctrk s = .next (s.faulted .badOperand)) ∧
    (u < 160 →
      (srcLen ≠ 11 * 512 → exec .amiEnctrk s = .next (s.failed .formatErr)) ∧
      (srcLen ≠ 9 * 512 → exec .dosEnctrk s = .next (s.failed .formatErr)) ∧
      (srcLen = 11 * 512 → ¬InDmem src srcLen →
        exec .amiEnctrk s = .next (s.faulted .badOperand)) ∧
      (srcLen = 9 * 512 → ¬InDmem src srcLen →
        exec .dosEnctrk s = .next (s.faulted .badOperand)) ∧
      (srcLen = 11 * 512 → InDmem src srcLen →
        writes .amiEnctrk 101344 (fun i => decide (i < 11968 ∧ 4 ≤ i % 1088 ∧ i % 1088 < 8))
          ((List.range 11).flatMap (fun k => amiSectorBytes u k (chunk k)) ++
            List.replicate 700 0)) ∧
      (srcLen = 9 * 512 → InDmem src srcLen →
        writes .dosEnctrk 100000
          (fun i => decide (i < 11844 ∧ i % 1316 / 2 ∈ [12, 13, 14, 56, 57, 58]))
          (mfmBytes ((List.range 9).flatMap (fun k => dosSectorData u k (chunk k)) ++
            List.replicate 328 0x4E))))

/-! ## Sector decoders -/

/-- R218, R252, R282: the three DECSEC operations store the payload of a sector that decodes, with its
header in the result registers, and on an error change nothing but `STATUS`. -/
def Obligations.DecsecStoresThePayload : Prop :=
  ∀ s : State, s.Running → LegalIter s.host.a1 → s.Usable s.view →
    let t := field s.host.a2 0 8
    let k := field s.host.a2 8 8
    let dst := field s.host.a3 0 32
    let b := s.stream s.view
    let start := s.host.a1.toInt
    let answers := fun (op : Instr) (size : Nat) (d : Decoded) (r2 : Nat) (r3 : Option Word) =>
      ∃ s', exec op s = .next s' ∧ d.payload.length = size ∧
        WroteBytes s s' .dmem dst d.payload ∧
        s'.withMemoriesOf s = s.answered false false (some (BitVec.ofNat 64 size))
          (some (BitVec.ofInt 64 d.mark)) (some (BitVec.ofNat 64 r2)) r3
    let long := fun d : Decoded =>
      (d.header.getD 0 0).toNat * 2 ^ 24 + (d.header.getD 1 0).toNat * 2 ^ 16 +
        (d.header.getD 2 0).toNat * 2 ^ 8 + (d.header.getD 3 0).toNat
    (t < 42 → k < sectorCount t → InDmem dst 256 →
      (∀ d, b.c64DecodeSector (BitVec.ofNat 8 k) start = .ok d →
        answers .c64Decsec 256 d (d.header.getD 3 0).toNat (some (BitVec.ofNat 64
          ((d.header.getD 4 0).toNat * 256 + (d.header.getD 5 0).toNat)))) ∧
      (∀ e, b.c64DecodeSector (BitVec.ofNat 8 k) start = .error e →
        exec .c64Decsec s = .next (s.failed e))) ∧
    (t < 160 → k < 11 → InDmem dst 512 →
      (∀ d, b.amiDecodeSector (BitVec.ofNat 8 k) start = .ok d →
        answers .amiDecsec 512 d (long d) none) ∧
      (∀ e, b.amiDecodeSector (BitVec.ofNat 8 k) start = .error e →
        exec .amiDecsec s = .next (s.failed e))) ∧
    (t < 160 → k < 9 → InDmem dst 512 →
      (∀ d, b.dosDecodeSector (BitVec.ofNat 8 k) start = .ok d →
        answers .dosDecsec 512 d (long d) none) ∧
      (∀ e, b.dosDecodeSector (BitVec.ofNat 8 k) start = .error e →
        exec .dosDecsec s = .next (s.failed e)))

/-- R213, R215, R250, R251, R280, R281: a sector that a codec decodes was found at or after `start`
with its number in the header, its marks in place, and both checks hold on the bytes read. Conversely, a
sector that the seek finds decodes when its codewords are valid and its checks hold; else the first check that
fails, in the order of the rule, gives the error, and a sector that is not found is `SEEK_ERR`. -/
def Obligations.DecodedSectorIsWhatTheTrackHolds : Prop :=
  ∀ (b : BitStream) (sec : Byte) (start : Int),
    (∀ d, b.c64DecodeSector sec start = .ok d → ∃ first ck : Int,
      start ≤ d.mark ∧ d.mark + 80 ≤ first - 10 ∧ b.getBits (d.mark - 10) 10 = 0x3FF ∧
      b.get d.mark = false ∧ b.decodeGcr d.mark = some 0x08 ∧ b.decodeGcr (d.mark + 20) = some sec ∧
      b.getBits (first - 20) 10 = 0x3FF ∧ b.get (first - 10) = false ∧
      b.decodeGcr (first - 10) = some 0x07 ∧ b.decodeGcrBytes d.mark 6 = some d.header ∧
      ck = first + 2560 ∧ b.decodeGcrBytes first 256 = some d.payload ∧
      b.decodeGcr ck = some (d.payload.foldl (· ^^^ ·) 0) ∧
      d.header.getD 1 0 = d.header.getD 2 0 ^^^ d.header.getD 3 0 ^^^ d.header.getD 4 0 ^^^
        d.header.getD 5 0) ∧
    (∀ d, b.amiDecodeSector sec start = .ok d →
      start + 32 ≤ d.mark ∧ b.getBits (d.mark - 32) 32 = 0x44894489 ∧
      d.header = oeDecode (b.bytesAt d.mark 8) ∧ d.header.getD 2 0 = sec ∧
      d.payload = oeDecode (b.bytesAt (d.mark + 448) 1024) ∧
      xor4 (b.bytesAt d.mark 40) = oeDecode (b.bytesAt (d.mark + 320) 8) ∧
      xor4 (b.bytesAt (d.mark + 448) 1024) = oeDecode (b.bytesAt (d.mark + 384) 8)) ∧
    (∀ d, b.dosDecodeSector sec start = .ok d → ∃ first : Int,
      start + 48 ≤ d.mark ∧ d.mark + 112 + 48 ≤ first - 16 ∧
      b.getBits (d.mark - 48) 48 = 0x448944894489 ∧ b.rdMfm d.mark = 0xFE ∧
      b.getBits (first - 64) 48 = 0x448944894489 ∧ b.rdMfm (first - 16) = 0xFB ∧
      d.header = b.rdMfmRun (d.mark + 16) 4 ∧ d.header.getD 2 0 - 1 = sec ∧
      d.payload = b.rdMfmRun first 512 ∧
      crcBytes ([0xA1, 0xA1, 0xA1] ++ b.rdMfmRun d.mark 5) = b.rdMfmRun (d.mark + 80) 2 ∧
      crcBytes ([0xA1, 0xA1, 0xA1, 0xFB] ++ d.payload) = b.rdMfmRun (first + 8192) 2) ∧
    b.c64DecodeSector sec start = (match b.c64SeekSector sec start with
      | none => .error .seekErr
      | some r => match b.decodeGcrBytes r.mark 6 with
        | none => .error .gcrErr
        | some h =>
          if h.getD 1 0 ≠ h.getD 2 0 ^^^ h.getD 3 0 ^^^ h.getD 4 0 ^^^ h.getD 5 0 then
            .error .hdrCksum
          else match b.decodeGcrBytes r.first 257 with
            | none => .error .gcrErr
            | some d =>
              if d.getD 256 0 ≠ (d.take 256).foldl (· ^^^ ·) 0 then .error .dataCksum
              else .ok ⟨d.take 256, h, r.mark⟩) ∧
    b.amiDecodeSector sec start = (match b.amiSeekSector sec start with
      | none => .error .seekErr
      | some r =>
        if xor4 (b.bytesAt r.mark 40) ≠ oeDecode (b.bytesAt (r.mark + 320) 8) then
          .error .hdrCksum
        else if xor4 (b.bytesAt r.first 1024) ≠ oeDecode (b.bytesAt (r.mark + 384) 8) then
          .error .dataCksum
        else .ok ⟨oeDecode (b.bytesAt r.first 1024), oeDecode (b.bytesAt r.mark 8), r.mark⟩) ∧
    b.dosDecodeSector sec start = (match b.dosSeekSector sec start with
      | none => .error .seekErr
      | some r =>
        if crcBytes ([0xA1, 0xA1, 0xA1] ++ b.rdMfmRun r.mark 5) ≠ b.rdMfmRun (r.mark + 80) 2 then
          .error .hdrCksum
        else if crcBytes ([0xA1, 0xA1, 0xA1, 0xFB] ++ b.rdMfmRun r.first 512) ≠
            b.rdMfmRun (r.first + 8192) 2 then
          .error .dataCksum
        else .ok ⟨b.rdMfmRun r.first 512, b.rdMfmRun (r.mark + 16) 4, r.mark⟩)

/-- R219, R253, R283: the DECTRK operations decode the sectors in ascending order from the same
`start`, each payload stored before the next sector is read; they end `OK` when all decode, else with
the failing sector's code and number, and the payloads before it stay. -/
def Obligations.DectrkDecodesInOrder : Prop :=
  ∀ s : State, s.Running → LegalIter s.host.a1 → s.Usable s.view →
    let t := field s.host.a2 0 8
    let dst := field s.host.a3 0 32
    let start := s.host.a1.toInt
    let decodes := fun (op : Instr) (n size : Nat)
        (decode : BitStream → Byte → Int → Except ErrCode Decoded) =>
      let reads := fun ds : List Decoded =>
        ((s.writeBytes .dmem dst (ds.flatMap Decoded.payload)).stream s.view)
      ∃ (ds : List Decoded) (s' : State), exec op s = .next s' ∧ ds.length ≤ n ∧
        (∀ d ∈ ds, d.payload.length = size) ∧
        (∀ k (h : k < ds.length), decode (reads (ds.take k)) (BitVec.ofNat 8 k) start = .ok ds[k]) ∧
        WroteBytes s s' .dmem dst (ds.flatMap Decoded.payload) ∧
        ∃ e : ErrCode,
          (if ds.length = n then e = .ok
            else decode (reads ds) (BitVec.ofNat 8 ds.length) start = .error e) ∧
          s'.withMemoriesOf s =
            { s with host := { s.host with
                r0 := BitVec.ofNat 64 (size * ds.length)
                r1 := BitVec.ofNat 64 ds.length
                status := { s.host.status with
                  err := e, found := false, gcrInv := decide (e = .gcrErr) } } }
    (t < 42 → InDmem dst (256 * sectorCount t) →
      decodes .c64Dectrk (sectorCount t) 256 BitStream.c64DecodeSector) ∧
    (t < 160 → InDmem dst (512 * 11) → decodes .amiDectrk 11 512 BitStream.amiDecodeSector) ∧
    (t < 160 → InDmem dst (512 * 9) → decodes .dosDectrk 9 512 BitStream.dosDecodeSector)

/-- R221, R254, R284: the SEEK operations return the payload range and the header's position of the
wanted sector, or `NOT_FOUND` with every result register kept; any sector number, any track byte. R213,
R250, R280: the header is the one that the scan reaches past blocks and headers of other sectors, each
number once, before a mark begins one revolution after the start, and on C64 and DOS tracks the next marked
block must be a data block. A sector whose header is the first block from the start on, and whose data block
is the next one, is found. R208: a C64 mark is ten ones or more and ends with the first zero. -/
def Obligations.SeekReturnsTheRange : Prop :=
  ∀ s : State, s.Running → LegalIter s.host.a1 → s.Usable s.view →
    let sec : Byte := (s.host.a2 >>> 8).setWidth 8
    let answers := fun (op : Instr) (r : Option SectorRange) =>
      exec op s = .next (match r with
        | some r => s.answered true false (some (BitVec.ofInt 64 r.first))
            (some (BitVec.ofInt 64 r.last)) (some (BitVec.ofInt 64 r.mark)) none
        | none => s.failed .notFound)
    let b := s.stream s.view
    let start := s.host.a1.toInt
    answers .c64Seek (b.c64SeekSector sec start) ∧
    answers .amiSeek (b.amiSeekSector sec start) ∧
    answers .dosSeek (b.dosSeekSector sec start) ∧
    (∃ found, b.c64Scan.Finds b.size start sec found ∧ answers .c64Seek (found.bind fun p =>
      match b.c64NextBlock (p + 80) with
      | some (_, q) => if b.decodeGcr q = some 0x07 then some ⟨p, q + 10, q + 2570⟩ else none
      | none => none)) ∧
    (∃ found, b.amiScan.Finds b.size start sec found ∧
      answers .amiSeek (found.map fun p => ⟨p, p + 448, p + 8640⟩)) ∧
    (∃ found, b.dosScan.Finds b.size start sec found ∧ answers .dosSeek (found.bind fun p =>
      match b.forward (p + 112) 0x448944894489 48 with
      | some q => if b.rdMfm q = 0xFB then some ⟨p, q + 16, q + 8208⟩ else none
      | none => none)) ∧
    (∀ it, match b.c64NextBlock it with
      | some (p0, p) => b.forward it 0x3FF 10 = some p0 ∧ p0 ≤ p ∧ p < p0 + b.size ∧
          b.get p = false ∧ ∀ m, p0 ≤ m → m < p → b.get m = true
      | none => ∀ p0, b.forward it 0x3FF 10 = some p0 →
          ∀ m, p0 ≤ m → m < p0 + b.size → b.get m = true) ∧
    (∀ p0 p q0 q, b.c64NextBlock start = some (p0, p) → b.decodeGcr p = some 0x08 →
      b.decodeGcr (p + 20) = some sec → b.c64NextBlock (p + 80) = some (q0, q) →
      b.decodeGcr q = some 0x07 → answers .c64Seek (some ⟨p, q + 10, q + 2570⟩)) ∧
    (∀ p, b.forward start 0x44894489 32 = some p → (oeDecode (b.bytesAt p 8)).getD 2 0 = sec →
      answers .amiSeek (some ⟨p, p + 448, p + 8640⟩)) ∧
    ∀ p q, b.forward start 0x448944894489 48 = some p → b.rdMfm p = 0xFE →
      b.rdMfm (p + 48) = sec + 1 → b.forward (p + 112) 0x448944894489 48 = some q →
      b.rdMfm q = 0xFB → answers .dosSeek (some ⟨p, q + 16, q + 8208⟩)

/-- R222, R255, R285: the SEEKALL operations write one entry of three big-endian integers for each
sector of the map, 24 bytes 0xFF for the others, and end `OK` also when the map is empty. R214, R256, R286:
the map holds the sectors that the SEEK operations find, with their ranges, each one behind a header with
its number and, on C64 and DOS tracks, as the very next marked block, in the order of discovery; the Amiga
map counts every header that the scan passes until it is over. -/
def Obligations.SeekallWritesTheTable : Prop :=
  ∀ s : State, s.Running → LegalIter s.host.a1 → s.Usable s.view →
    let dst := field s.host.a3 0 32
    let b := s.stream s.view
    let start := s.host.a1.toInt
    let writes := fun (op : Instr) (n : Nat) (found : List SeekEntry) =>
      ∃ (t : State) (out : List Byte), exec op s = .next t ∧ out.length = 24 * n ∧
        WroteBytes s t .dmem dst out ∧
        t.withMemoriesOf s = s.answered (decide (0 < found.length)) false
          (some (BitVec.ofNat 64 found.length)) none none none ∧
        ∀ k < n, ∀ j < 8,
          match found.find? (fun e => e.sec == k) with
          | some e => out.getD (24 * k + j) 0 = beByte e.first j ∧
              out.getD (24 * k + 8 + j) 0 = beByte e.last j ∧
              out.getD (24 * k + 16 + j) 0 = beByte e.order j
          | none => out.getD (24 * k + j) 0 = 0xFF ∧ out.getD (24 * k + 8 + j) 0 = 0xFF ∧
              out.getD (24 * k + 16 + j) 0 = 0xFF
    let agrees := fun (n : Nat) (found : List SeekEntry) (seek : Byte → Option SectorRange) =>
      (∀ e ∈ found, e.sec < n) ∧
      found.Pairwise (fun e f => e.sec ≠ f.sec ∧ e.first < f.first) ∧
      ∀ k < n, (found.find? (fun e => e.sec == k)).map (fun e => (e.first, e.last)) =
        (seek (BitVec.ofNat 8 k)).map fun r => (r.first, r.last)
    let c64 := b.c64SeekSectors start
    let ami := b.amiSeekSectors start
    let dos := b.dosSeekSectors start
    (InDmem dst 504 → writes .c64Seekall 21 c64) ∧
    (InDmem dst 264 → writes .amiSeekall 11 ami) ∧
    (InDmem dst 216 → writes .dosSeekall 9 dos) ∧
    agrees 21 c64 (fun k => b.c64SeekSector k start) ∧
    agrees 11 ami (fun k => b.amiSeekSector k start) ∧
    agrees 9 dos (fun k => b.dosSeekSector k start) ∧
    (∀ j (h : j < c64.length), c64[j].order = j ∧ c64[j].last = c64[j].first + 2560 ∧
      ∃ p : Int, start + 10 ≤ p ∧ p + 100 ≤ c64[j].first ∧ b.HeaderAt p ∧
        b.decodeGcr (p + 20) = some (BitVec.ofNat 8 c64[j].sec) ∧ b.DataAt (c64[j].first - 10) ∧
        ∀ m, p + 90 ≤ m → m < c64[j].first - 10 → ¬b.MarkAt m) ∧
    (∃ ps it, b.amiScan.Passes b.size start ps it ∧ b.amiScan.Over b.size start ps it ∧
      ami = ps.zipIdx.filterMap fun pj =>
        let k := ((oeDecode (b.bytesAt pj.1 8)).getD 2 0).toNat
        if k < 11 then some ⟨k, pj.1 + 448, pj.1 + 8640, pj.2⟩ else none) ∧
    ∀ j (h : j < dos.length), dos[j].order = j ∧ dos[j].last = dos[j].first + 8192 ∧
      ∃ p : Int, start + 48 ≤ p ∧ b.getBits (p - 48) 48 = 0x448944894489 ∧ b.rdMfm p = 0xFE ∧
        b.rdMfm (p + 48) = BitVec.ofNat 8 (dos[j].sec + 1) ∧
        b.forward (p + 112) 0x448944894489 48 = some (dos[j].first - 16) ∧
        b.rdMfm (dos[j].first - 16) = 0xFB

/-! ## Disk model -/

/-- R305, R312, R313, R314: a disk's life: inserted fresh or as loaded, cleared, protected, ejected. -/
def Obligations.DiskLifecycle : Prop :=
  ∀ s : State, s.Running →
    let cleared := fun (t : State) =>
      { t with disk := s.disk } = s.answered false false none none none none ∧
      t.disk.present = true ∧ t.disk.wp = false ∧ t.disk.modified = false ∧
      (∀ h a, t.byteAt (.trk h) a = 0x55) ∧ ∀ h < 84, t.lenOf h = nominalBits (h / 2)
    (s.host.a0.getLsbD 0 = true → ∃ t, exec .dskInsert s = .next t ∧ cleared t) ∧
    (s.host.a0.getLsbD 0 = false → exec .dskInsert s = .next
      { s.answered false false none none none none with
        disk := { s.disk with present := true, wp := false, modified := false } }) ∧
    (s.disk.present = true →
      (∃ t, exec .dskClear s = .next t ∧ cleared t) ∧
      exec .dskSetwp s = .next
        { s.answered false false none none none none with
          disk := { s.disk with wp := s.host.a0.getLsbD 0 } } ∧
      exec .dskEject s = .next
        { s.answered false false none none none none with
          disk := { s.disk with present := false } }) ∧
    (s.disk.present = false →
      exec .dskClear s = .next (s.failed .noDisk) ∧ exec .dskSetwp s = .next (s.failed .noDisk) ∧
      exec .dskEject s = .next (s.failed .noDisk))

/-- R308, R309, R310, R311, R315: what the disk model reports, with the geometry of R301. -/
def Obligations.DiskQueries : Prop :=
  ∀ s : State, s.Running →
    let h := field s.host.a0 0 7
    let u := field s.host.a0 0 8
    let one := fun x : Nat =>
      Host.Outcome.next (s.answered false false (some (BitVec.ofNat 64 x)) none none none)
    exec .dskNumblk s = one (firstBlock s.cfg.fsTracks.val) ∧
    exec .dskFlags s =
      one (s.disk.present.toNat + 2 * s.disk.wp.toNat + 4 * s.disk.modified.toNat) ∧
    (h < 84 → s.disk.present = true → exec .dskLenht s = one (s.lenOf h)) ∧
    (h < 84 → s.disk.present = false → exec .dskLenht s = .next (s.failed .noDisk)) ∧
    (84 ≤ h → exec .dskLenht s = .next (s.faulted .badOperand)) ∧
    (u < 42 → s.disk.present = true → exec .dskLentrk s = one (s.lenOf (2 * u))) ∧
    (u < 42 → s.disk.present = false → exec .dskLentrk s = .next (s.failed .noDisk)) ∧
    (42 ≤ u → exec .dskLentrk s = .next (s.faulted .badOperand)) ∧
    (u < 42 → exec .dskDefaults s = .next (s.answered false false
      (some (BitVec.ofNat 64 (sectorCount u + (zone u).val * 2 ^ 8 +
        s.cfg.tailGap[zone u] * 2 ^ 16 + firstBlock u * 2 ^ 32)))
      (some (BitVec.ofNat 64 (nominalBytes u))) (some (BitVec.ofNat 64 (8 * nominalBytes u)))
      (some (BitVec.ofNat 64 (staggerOf s.cfg u))))) ∧
    (42 ≤ u → exec .dskDefaults s = .next (s.faulted .badOperand))

/-- R306: `DSK.ENCODE` writes the first `ntracks` tracks of the image, leaves every other halftrack
unformatted, and ends with `WP` and `MOD` 0. Its checks come in the order of R405, all of them before
anything is written: `ntracks`, the range of the image, the disk, the lengths of the tracks (log 9). -/
def Obligations.DskEncodeWritesTheDisk : Prop :=
  ∀ s : State, s.Running →
    let n := field s.host.a5 0 8
    let src := field s.host.a3 0 32
    let size := fun u => sectorCount u * (2832 + 8 * tailGapOf s.cfg u)
    (n = 0 ∨ 42 < n → exec .dskEncode s = .next (s.failed .formatErr)) ∧
    (1 ≤ n → n ≤ 42 → ¬InDmem src (256 * firstBlock n) →
      exec .dskEncode s = .next (s.faulted .badOperand)) ∧
    (1 ≤ n → n ≤ 42 → InDmem src (256 * firstBlock n) → s.disk.present = false →
      exec .dskEncode s = .next (s.failed .noDisk)) ∧
    (1 ≤ n → n ≤ 42 → InDmem src (256 * firstBlock n) → s.disk.present = true →
      ∀ u < n, nominalBits u < size u → exec .dskEncode s = .next (s.faulted .capacity)) ∧
    (1 ≤ n → n ≤ 42 → InDmem src (256 * firstBlock n) → s.disk.present = true →
      (∀ u < n, size u ≤ nominalBits u) →
      ∃ t, exec .dskEncode s = .next t ∧
        { t with disk := s.disk } =
          s.answered false false (some (BitVec.ofNat 64 (firstBlock n))) none none none ∧
        t.disk.present = true ∧ t.disk.wp = false ∧ t.disk.modified = false ∧
        (∀ h < 84, t.lenOf h = nominalBits (h / 2)) ∧
        (∀ h : Fin 84, (h.val % 2 = 1 ∨ 2 * n ≤ h.val) → ∀ a, t.byteAt (.trk h) a = 0x55) ∧
        ∀ u < n, t.TrackHolds u (if s.host.a4.getLsbD 16 then 0 else startOffset s.cfg u)
          ((List.range (sectorCount u)).flatMap fun k =>
            c64SectorBits s.cfg u k (s.readBytes .dmem (src + 256 * (firstBlock u + k)) 256)
              (s.host.a4.setWidth 8) ((s.host.a4 >>> 8).setWidth 8)
              (if s.host.a4.getLsbD 17 then s.byteAt .errtab (firstBlock u + k) else 1)))

/-- R317, R307, R316: `DSK.RDBLK` decodes the block's sector from bit 0 of its track, or fails with
the decoder's code (`SEEK_ERR` for an empty halftrack), changing nothing but `STATUS`; before that, a number
that is no block and a destination outside `DMEM` are Fatal, and then no disk is `NO_DISK`. That the
destination is checked before `NO_DISK`, so that one outside `DMEM` is Fatal also without a disk, is the
model's reading of R405 item 3 (log 8): the text of R317 shows `MemWrite` last. -/
def Obligations.DskRdblkReadsTheBlock : Prop :=
  ∀ s : State, s.Running →
    (firstBlock s.cfg.fsTracks.val ≤ field s.host.a0 0 16 ∨ ¬InDmem (field s.host.a3 0 32) 256 →
      exec .dskRdblk s = .next (s.faulted .badOperand)) ∧
    (field s.host.a0 0 16 < firstBlock s.cfg.fsTracks.val → InDmem (field s.host.a3 0 32) 256 →
      s.disk.present = false → exec .dskRdblk s = .next (s.failed .noDisk)) ∧
    ∀ u k : Nat, s.disk.present = true → u < 42 → k < sectorCount u →
      field s.host.a0 0 16 = firstBlock u + k → firstBlock u + k < firstBlock s.cfg.fsTracks.val →
      InDmem (field s.host.a3 0 32) 256 →
      let v : View := ⟨.trk (halftrack (2 * u)), 0, BitVec.ofNat 32 (s.lenOf (2 * u))⟩
      (s.lenOf (2 * u) = 0 → exec .dskRdblk s = .next (s.failed .seekErr)) ∧
      (0 < s.lenOf (2 * u) →
        (∀ e, (s.stream v).c64DecodeSector (BitVec.ofNat 8 k) 0 = .error e →
          exec .dskRdblk s = .next (s.failed e)) ∧
        ∀ d, (s.stream v).c64DecodeSector (BitVec.ofNat 8 k) 0 = .ok d →
          ∃ t, exec .dskRdblk s = .next t ∧ d.payload.length = 256 ∧
            WroteBytes s t .dmem (field s.host.a3 0 32) d.payload ∧
            t.withMemoriesOf s = s.answered false false (some 256)
              (some (BitVec.ofNat 64 (u + 256 * k))) none none)

/-- R318, R316: `DSK.WRBLK` rewrites payload and checksum of the located sector in place and sets
`MOD`; a sector that cannot be located is `SEEK_ERR` and nothing is written; before that, a number that is
no block and a source outside `DMEM` are Fatal, and then no disk is `NO_DISK`. That the source is checked
before `NO_DISK`, so that one outside `DMEM` is Fatal also without a disk, is the model's reading of R405
item 3 (log 8). -/
def Obligations.DskWrblkRewritesInPlace : Prop :=
  ∀ s : State, s.Running →
    (firstBlock s.cfg.fsTracks.val ≤ field s.host.a0 0 16 ∨ ¬InDmem (field s.host.a3 0 32) 256 →
      exec .dskWrblk s = .next (s.faulted .badOperand)) ∧
    (field s.host.a0 0 16 < firstBlock s.cfg.fsTracks.val → InDmem (field s.host.a3 0 32) 256 →
      s.disk.present = false → exec .dskWrblk s = .next (s.failed .noDisk)) ∧
    ∀ u k : Nat, s.disk.present = true → u < 42 → k < sectorCount u →
      field s.host.a0 0 16 = firstBlock u + k → firstBlock u + k < firstBlock s.cfg.fsTracks.val →
      InDmem (field s.host.a3 0 32) 256 →
      let v : View := ⟨.trk (halftrack (2 * u)), 0, BitVec.ofNat 32 (s.lenOf (2 * u))⟩
      let p := s.readBytes .dmem (field s.host.a3 0 32) 256
      (s.lenOf (2 * u) = 0 → exec .dskWrblk s = .next (s.failed .seekErr)) ∧
      (0 < s.lenOf (2 * u) →
        ((s.stream v).c64SeekSector (BitVec.ofNat 8 k) 0 = none →
          exec .dskWrblk s = .next (s.failed .seekErr)) ∧
        ∀ r, (s.stream v).c64SeekSector (BitVec.ofNat 8 k) 0 = some r →
          ∃ t, exec .dskWrblk s = .next t ∧
            WroteBits s t v r.first (gcrBits (p ++ [p.foldl (· ^^^ ·) 0])) ∧
            t.withMemoriesOf s =
              { s.answered false false (some 256) (some (BitVec.ofNat 64 (u + 256 * k))) none none with
                disk := { s.disk with modified := true } })

/-! ## Analyzer -/

/-- R331, R346(a): `ANA.RUN` replaces the report of the 84 halftracks by what each halftrack's
analysis gives and changes nothing else but `R0`, `R1` and `STATUS`. R330, R332 to R337, R343: that analysis
is the walk over the halftrack's headers and data blocks followed by the validation of each sector, logged
up to `LOG_CAP`. A parameter above 42 is Fatal, then no disk is `NO_DISK`; that these two leave `LOGOVF` as it
is, is the model's reading (log 15), as is that the positions are recorded unreduced (log 24). -/
def Obligations.AnaRunOnlyReports : Prop :=
  ∀ s : State, s.Running →
    let n := field s.host.a0 0 8
    (42 < n → exec .anaRun s = .next (s.faulted .badOperand)) ∧
    (n ≤ 42 → s.disk.present = false → exec .anaRun s = .next (s.failed .noDisk)) ∧
    (n ≤ 42 → s.disk.present = true → ∃ t, exec .anaRun s = .next t ∧
      { t with report := s.report, host := s.host } = s ∧
      (∀ h < 84, t.report.infoOf h =
          ⟨BitVec.ofNat 18 (s.lenOf h), (s.analyzeHalftrack n h).sec⟩ ∧
        t.report.logOf h = (s.analyzeHalftrack n h).log) ∧
      t.report.infoOf 84 = s.report.infoOf 84 ∧ t.report.logOf 84 = s.report.logOf 84 ∧
      t.host = { s.host with
        r0 := BitVec.ofNat 64 (((List.range 84).map fun h => (t.report.logOf h).length).sum)
        r1 := BitVec.ofNat 64 (((List.range 84).map t.report.recorded).sum)
        status := { s.host.status with
          err := .ok, found := false, gcrInv := false
          logOvf := (List.range 84).any fun h => (s.analyzeHalftrack n h).ovf } }) ∧
    ∀ h < 84,
      let sc := s.analyzeHalftrack n h
      let b := s.stream ⟨.trk (halftrack h), 0, BitVec.ofNat 32 (s.lenOf h)⟩
      let nsec := sectorCount (h / 2)
      let expect := decide (h % 2 = 0 ∧ h / 2 < n)
      ∃ walk : List LogEntry,
        (((∀ i < b.size, ¬b.HeaderAt i) ∧ walk = [] ∧ ∀ k < 21, sc.at k = ⟨0, 0, 0, 0⟩) ∨
          ∃ s0 stop, b.Walked nsec sc.at walk s0 stop) ∧
        sc.Logs s.cfg.logCap
          (walk ++ (List.range nsec).flatMap fun k => b.validation expect k (sc.at k))

/-- R338, R339: `ANA.LAYOUT` and `ANA.LOG` read the stored report, not the disk. -/
def Obligations.AnaReadsTheStoredReport : Prop :=
  ∀ s : State, s.Running →
    let h := field s.host.a0 0 8
    let k := field s.host.a1 0 8
    let num := fun x : Nat => some (BitVec.ofNat 64 x)
    (if h ≤ 84 ∧ k ≤ 20 then
      let i := s.report.sectorOf h k
      exec .anaLayout s = .next (s.answered
        (decide (i.headerBegin ≠ i.headerEnd ∨ i.dataBegin ≠ i.dataEnd)) false
        (num i.headerBegin.toNat) (num i.headerEnd.toNat) (num i.dataBegin.toNat)
        (num i.dataEnd.toNat))
    else exec .anaLayout s = .next (s.faulted .badOperand)) ∧
    (if h ≤ 84 then
      let log := s.report.logOf h
      exec .anaLog s = .next (match log[k]? with
        | some e => s.answered true false (num (e.code.code + 256 * e.sector.toNat))
            (num e.startBit.toNat) (num e.endBit.toNat) (num log.length)
        | none => s.answered false false (num 0) (num 0) (num 0) (num log.length))
    else exec .anaLog s = .next (s.faulted .badOperand))

/-- R340: `ANA.XRUN` replaces entry 84 of the report by the analysis of `XTRK` and changes nothing
else but `R0`, `R1` and `STATUS`; platforms 0 and 3 are Fatal, which leaves `LOGOVF` as it is: the model's
reading (log 15). No disk is needed. R341, R342, R343: each sector that the seek finds is recorded with its
extents, behind the sync and the header with its number, and its two checks are logged; a missing one is
logged when expected. That the positions are recorded and logged unreduced, where D25 says reduced, is the
model's reading too (log 24). -/
def Obligations.AnaXrunReportsTheExternalTrack : Prop :=
  ∀ s : State, s.Running →
    let plat := field s.host.a0 0 2
    let expect := s.host.a1.getLsbD 0
    let sc := s.analyzeXtrack plat expect
    let b := s.stream ⟨.xtrk, 0, BitVec.ofNat 32 s.xlen.toNat⟩
    let pos := fun i : Int => BitVec.ofInt 19 i
    let entry := fun (code : LogCode) (k : Nat) (lo hi : Int) =>
      (⟨code, BitVec.ofNat 8 k, pos lo, pos hi⟩ : LogEntry)
    let missing := fun (code : LogCode) (k : Nat) => if expect then [entry code k 0 0] else []
    let nothing : SectorInfo := ⟨0, 0, 0, 0⟩
    (plat = 1 ∨ plat = 2 → ∃ t, exec .anaXrun s = .next t ∧
      { t with report := s.report, host := s.host } = s ∧
      t.report.infoOf 84 = ⟨s.xlen, sc.sec⟩ ∧ t.report.logOf 84 = sc.log ∧
      (∀ h < 84, t.report.infoOf h = s.report.infoOf h ∧ t.report.logOf h = s.report.logOf h) ∧
      t.host = { s.host with
        r0 := BitVec.ofNat 64 sc.log.length
        r1 := BitVec.ofNat 64 (t.report.recorded 84)
        status := { s.host.status with
          err := .ok, found := false, gcrInv := false, logOvf := sc.ovf } }) ∧
    (plat = 0 ∨ plat = 3 → exec .anaXrun s = .next (s.faulted .badOperand)) ∧
    (plat = 1 → ∃ logs : Nat → List LogEntry,
      sc.Logs s.cfg.logCap ((List.range 11).flatMap logs) ∧
      (∀ k, 11 ≤ k → k < 21 → sc.at k = nothing) ∧
      ∀ k < 11,
        match if s.xlen = 0 then none else b.amiSeekSector (BitVec.ofNat 8 k) 0 with
        | none => sc.at k = nothing ∧ logs k = missing .hdrMissing k ++ missing .dataMissing k
        | some r =>
          let ip := r.mark
          0 ≤ ip - 32 ∧ ip - 32 < b.size ∧ b.getBits (ip - 32) 32 = 0x44894489 ∧
          (oeDecode (b.bytesAt ip 8)).getD 2 0 = BitVec.ofNat 8 k ∧
          sc.at k = ⟨pos ip, pos (ip + 384), pos (ip + 384), pos (ip + 8640)⟩ ∧
          logs k =
            (if xor4 (b.bytesAt ip 40) = oeDecode (b.bytesAt (ip + 320) 8) then []
              else [entry .hdrCksum k ip (ip + 384)]) ++
            (if xor4 (b.bytesAt (ip + 448) 1024) = oeDecode (b.bytesAt (ip + 384) 8) then []
              else [entry .dataCksum k (ip + 384) (ip + 8640)])) ∧
    (plat = 2 → ∃ logs : Nat → List LogEntry,
      sc.Logs s.cfg.logCap ((List.range 9).flatMap logs) ∧
      (∀ k, 9 ≤ k → k < 21 → sc.at k = nothing) ∧
      ∀ k < 9,
        match if s.xlen = 0 then none else b.dosFindHeader (BitVec.ofNat 8 k) 0 with
        | none => sc.at k = nothing ∧ logs k = missing .hdrMissing k ++ missing .dataMissing k
        | some p =>
          let hdr := if crcBytes ([0xA1, 0xA1, 0xA1] ++ b.rdMfmRun p 5) = b.rdMfmRun (p + 80) 2
            then [] else [entry .hdrCksum k p (p + 112)]
          0 ≤ p - 48 ∧ p - 48 < b.size ∧ b.getBits (p - 48) 48 = 0x448944894489 ∧
          b.rdMfm p = 0xFE ∧ b.rdMfm (p + 48) = BitVec.ofNat 8 (k + 1) ∧
          match (b.forward (p + 112) 0x448944894489 48).filter fun q => b.rdMfm q == 0xFB with
          | none => sc.at k = ⟨pos p, pos (p + 112), 0, 0⟩ ∧
            logs k = hdr ++ missing .dataMissing k
          | some q => sc.at k = ⟨pos p, pos (p + 112), pos q, pos (q + 8240)⟩ ∧
            logs k = hdr ++
              (if crcBytes ([0xA1, 0xA1, 0xA1, 0xFB] ++ b.rdMfmRun (q + 16) 512) =
                  b.rdMfmRun (q + 8208) 2 then []
                else [entry .dataCksum k q (q + 8240)]))

/-! ## Drive bit engine -/

/-- R361, R362, R367, R364, R369, R363, R365: one tick executes the phase `phase` selects, advances it, and
returns the signals; only a write-mode tick in phase 2 touches memory, and only the bit under the
head. -/
def Obligations.TickExecutesOnePhase : Prop :=
  ∀ s : State,
    let e := s.engine
    let write := s.ctrl.ea0.getLsbD 0
    let len := s.lenOf e.ht.toNat
    let pos := e.offset.toNat % len
    let sp : Space := .trk (halftrack e.ht.toNat)
    let noTrack := s.disk.present = false ∨ len = 0
    ∃ t, exec .engTick s = .next t ∧
      { t with disk := s.disk, engine := s.engine, ctrl := s.ctrl } = s ∧
      t.ctrl = { s.ctrl with
        er0 := BitVec.ofNat 64 (t.engine.sync.toNat + 2 * t.engine.byteReady.toNat +
          4 * (decide noTrack).toNat + 8 * (s.disk.present && s.disk.wp).toNat +
          256 * t.engine.dataLatch.toNat)
        er1 := BitVec.ofNat 64 e.phase.toNat } ∧
      (e.phase ≠ 2 ∨ write = false → t.disk = s.disk) ∧
      (e.phase = 0 → t.engine = { e with
        phase := 1
        byteReady := false
        offset := if noTrack then 0 else BitVec.ofNat 16 ((pos + 1) % len)
        rsr := (e.rsr <<< 1) |||
          (if ¬noTrack ∧ write = false ∧ s.bufBit sp pos = true then 1 else 0) }) ∧
      (e.phase = 1 → t.engine = { e with
        phase := 2
        sync := decide (e.rsr ≠ 0x3FF)
        brc := if e.rsr = 0x3FF then 0 else e.brc }) ∧
      (e.phase = 2 →
        t.engine = { e with
          phase := 3
          brc := if e.sync then e.brc + 1 else e.brc
          dataLatch := if e.sync ∧ e.brc = 7 then e.rsr.setWidth 8 else e.dataLatch
          byteReady := e.byteReady || (e.sync && decide (e.brc = 7))
          wsr := if write then e.wsr <<< 1 else e.wsr } ∧
        (write = true → noTrack → t.disk = s.disk) ∧
        (write = true → ¬noTrack →
          { t.disk with trk := s.disk.trk } = { s.disk with modified := true } ∧
          ∀ sp' j, t.bufBit sp' j =
            if sp' = sp ∧ j = pos then e.wsr.getLsbD 7 else s.bufBit sp' j)) ∧
      (e.phase = 3 → t.engine = { e with
        phase := 0
        wsr := if e.byteReady then s.ctrl.ea1 else e.wsr })

/-- R374, R375, R376: reading and writing the bit under the head, and rotating the disk by one bit. -/
def Obligations.HeadBitOperations : Prop :=
  ∀ s : State,
    let len := s.lenOf s.engine.ht.toNat
    let pos := s.engine.offset.toNat % len
    let sp : Space := .trk (halftrack s.engine.ht.toNat)
    let er0 := fun x : Nat => { s.ctrl with er0 := BitVec.ofNat 64 x }
    (s.disk.present = false ∨ len = 0 →
      exec .engRdbit s = .next { s with ctrl := er0 0 } ∧
      exec .engWrbit s = .next { s with ctrl := er0 0 } ∧
      exec .engRot s = .next { s with ctrl := er0 0, engine.offset := 0 }) ∧
    (s.disk.present = true → 0 < len →
      exec .engRdbit s = .next { s with ctrl := er0 (s.bufBit sp pos).toNat } ∧
      (∃ t, exec .engWrbit s = .next t ∧
        t.withMemoriesOf s = { s with ctrl := er0 1, disk.modified := true } ∧
        ∀ sp' j, t.bufBit sp' j =
          if sp' = sp ∧ j = pos then s.ctrl.ea0.getLsbD 0 else s.bufBit sp' j) ∧
      exec .engRot s = .next
        { s with
          ctrl := er0 (BitVec.ofNat 16 ((pos + 1) % len)).toNat
          engine.offset := BitVec.ofNat 16 ((pos + 1) % len) })

/-- R372, R377, R379: the engine's registers are read as they are stored; nothing changes but `ER`. -/
def Obligations.EngineRegisterReads : Prop :=
  ∀ s : State,
    let e := s.engine
    let num := fun x : Nat => BitVec.ofNat 64 x
    exec .engSync s = .next { s with ctrl.er0 := num e.sync.toNat } ∧
    exec .engLatch s = .next { s with ctrl := { s.ctrl with
      er0 := num e.dataLatch.toNat, er1 := num e.byteReady.toNat,
      er2 := num e.rsr.toNat, er3 := num e.wsr.toNat } } ∧
    exec .engPos s = .next { s with ctrl := { s.ctrl with
      er0 := num e.ht.toNat, er1 := num e.offset.toNat, er2 := num e.phase.toNat,
      er3 := num (e.brc.toNat + e.rsr.toNat * 2 ^ 8 + e.wsr.toNat * 2 ^ 24) } }

/-- R378: `ENG.SETHT` moves the head to the same angular position of the new halftrack, or refuses a
halftrack above 83. -/
def Obligations.SethtKeepsTheAngle : Prop :=
  ∀ s : State,
    let h := field (s.ctrl.ea0.zeroExtend 64) 0 7
    let len := s.lenOf s.engine.ht.toNat
    let pos := s.engine.offset.toNat % len
    (83 < h → exec .engSetht s = .next { s with ctrl.er0 := 1 }) ∧
    (h ≤ 83 → exec .engSetht s = .next
      { s with
        ctrl.er0 := 0
        engine := { s.engine with
          ht := BitVec.ofNat 7 h
          offset :=
            if s.disk.present = true ∧ 0 < len ∧ 0 < s.lenOf h then
              BitVec.ofNat 16 (pos * s.lenOf h / len)
            else 0 } })

/-- R45, R384(b): every engine operation keeps the head inside the track (or at 0 without one), as long
as the lengths are legal and the head is on a halftrack. -/
def Obligations.EngineKeepsTheHeadInRange : Prop :=
  ∀ (s t : State) (i : Instr), i.port = .controller →
    (∀ h < 84, s.lenOf h ≤ 63424) → s.engine.ht.toNat < 84 → s.HeadInRange →
    exec i s = .next t → t.HeadInRange

/-! ## The whole machine -/

/-- The invariant holds after reset. -/
def Obligations.InvariantHoldsAtReset : Prop := State.reset.Inv

/-- R25, R28, R32, R35, R36, R44, R23, R403 and the canonical form of the memories: every step of the
machine, whatever the event, keeps the invariant. -/
def Obligations.InvariantIsKeptByEveryStep : Prop :=
  ∀ s t : State, s.Inv → step s = .next t → t.Inv

/-- R403, R404, R96, R430: `FAULT` and `FCODE`, once set, survive every event but a reset. -/
def Obligations.FatalStaysUntilReset : Prop :=
  ∀ (s t : State) (e : Event), s.host.status.fault = true → e ≠ .resetInput → e ≠ .hostCmd 0x01 →
    deliver e s = .next t →
    t.host.status.fault = true ∧ t.host.status.fcode = s.host.status.fcode

/-- R20, R44, R51: no host-port operation but `RESET` changes an operand register, the engine (R37 to R45
name who writes it) or the controller port (`EA` by no operation, `ER` by engine operations only), as the
"State changed" lists of the operations say too (R305); no operation at all changes the model arguments (log 4) or the pending events
(log 1) or the last result read (log 10), and none but `RESET` the reset counter (log 6). -/
def Obligations.HostOperationsLeaveTheEngineAlone : Prop :=
  ∀ (s t : State) (i : Instr), exec i s = .next t →
    t.cfg = s.cfg ∧ t.inputs = s.inputs ∧ t.busData = s.busData ∧
    (i.port = .host → i ≠ .reset →
      t.engine = s.engine ∧ t.ctrl = s.ctrl ∧ t.epoch = s.epoch ∧
      t.host.a0 = s.host.a0 ∧ t.host.a1 = s.host.a1 ∧ t.host.a2 = s.host.a2 ∧
      t.host.a3 = s.host.a3 ∧ t.host.a4 = s.host.a4 ∧ t.host.a5 = s.host.a5)

/-- R51, R360, R384(g): an engine operation neither reads nor writes the host port (so it runs while
`FAULT` is 1), the views, the report, `XTRK`, `XLEN`, `DMEM` or `ERRTAB`: with other values there it
does the same to the rest and leaves those as they are. It leaves `EA0` and `EA1`. -/
def Obligations.EngineOperationsIgnoreTheHostPort : Prop :=
  ∀ (s : State) (i : Instr) (h : HostPort) (vs : Vector View 4) (r : Report)
      (x d e : Memory) (xl : BitVec 18), i.port = .controller →
    let other := fun u : State =>
      { u with host := h, views := vs, report := r, xtrk := x, dmem := d, errtab := e, xlen := xl }
    ∃ t, exec i s = .next t ∧ exec i (other s) = .next (other t) ∧
      t.host = s.host ∧ t.views = s.views ∧ t.report = s.report ∧ t.xtrk = s.xtrk ∧
      t.dmem = s.dmem ∧ t.errtab = s.errtab ∧ t.xlen = s.xlen ∧
      t.ctrl.ea0 = s.ctrl.ea0 ∧ t.ctrl.ea1 = s.ctrl.ea1 ∧
      t.disk.len = s.disk.len ∧ t.disk.wp = s.disk.wp ∧ t.disk.present = s.disk.present

/-- R30: only `DSK.WRBLK` and the engine's track writes set `MOD`; only `DSK.CLEAR`, `DSK.INSERT`,
`DSK.ENCODE` and a reset clear it. -/
def Obligations.OnlyTheWritePathSetsMod : Prop :=
  ∀ (s t : State) (i : Instr), exec i s = .next t →
    (s.disk.modified = false → t.disk.modified = true →
      i ∈ [Instr.dskWrblk, .engTick, .engWrbit]) ∧
    (s.disk.modified = true → t.disk.modified = false →
      i ∈ [Instr.dskClear, .dskInsert, .dskEncode, .reset])

/-- R401, R403: a host-port operation that does not end `OK` has changed nothing but `STATUS`; the
exceptions are those the rules list: the DECTRK operations (R219) and `R0` of `BV.FWD` (R149). -/
def Obligations.ErrorsChangeOnlyStatus : Prop :=
  ∀ (s t : State) (i : Instr), i.port = .host →
    i ∉ [Instr.c64Dectrk, .amiDectrk, .dosDectrk, .bvFwd, .reset] →
    exec i s = .next t → t.host.status.err ≠ .ok →
    t = { s with host.status := t.host.status }

/-- R16, R20 to R23, R51, R66, R74, R75: the accesses that are no commands. An operand write changes that
register alone. A byte or a length written inside its memory changes exactly that (`MOD` is not set), a
write outside does nothing; a read returns the register, field, byte or length, 0 outside (U10), and changes
nothing in the DBC: the value is delivered in the model's own `busData` (log 10). The fields of `STATUS`
stand at their places and bits 31:16 read 0; that bits 63:32 of a read of `STATUS` are 0 too is the model's
choice (log 25). What reading `ECMD`, `EA0`, `EA1` and report entries that do not
exist returns is the model's (log 11, log 14, log 23) and left out here. -/
def Obligations.HostAndControllerAccesses : Prop :=
  ∀ s : State,
    let reads := fun (e : Event) (w : Word) => deliver e s = .next { s with busData := w }
    let num := fun x : Nat => BitVec.ofNat 64 x
    (∀ v, deliver (.hostWriteA 0 v) s = .next { s with host.a0 := v } ∧
      deliver (.hostWriteA 1 v) s = .next { s with host.a1 := v } ∧
      deliver (.hostWriteA 2 v) s = .next { s with host.a2 := v } ∧
      deliver (.hostWriteA 3 v) s = .next { s with host.a3 := v } ∧
      deliver (.hostWriteA 4 v) s = .next { s with host.a4 := v } ∧
      deliver (.hostWriteA 5 v) s = .next { s with host.a5 := v }) ∧
    (∀ v, deliver (.ctrlWriteEA 0 v) s = .next { s with ctrl.ea0 := v } ∧
      deliver (.ctrlWriteEA 1 v) s = .next { s with ctrl.ea1 := v }) ∧
    reads (.hostReadReg .cmd) 0 ∧
    (reads (.hostReadReg (.a 0)) s.host.a0 ∧ reads (.hostReadReg (.a 1)) s.host.a1 ∧
      reads (.hostReadReg (.a 2)) s.host.a2 ∧ reads (.hostReadReg (.a 3)) s.host.a3 ∧
      reads (.hostReadReg (.a 4)) s.host.a4 ∧ reads (.hostReadReg (.a 5)) s.host.a5) ∧
    (reads (.hostReadReg (.r 0)) s.host.r0 ∧ reads (.hostReadReg (.r 1)) s.host.r1 ∧
      reads (.hostReadReg (.r 2)) s.host.r2 ∧ reads (.hostReadReg (.r 3)) s.host.r3) ∧
    (reads (.ctrlReadReg (.er 0)) s.ctrl.er0 ∧ reads (.ctrlReadReg (.er 1)) s.ctrl.er1 ∧
      reads (.ctrlReadReg (.er 2)) s.ctrl.er2 ∧ reads (.ctrlReadReg (.er 3)) s.ctrl.er3) ∧
    (∃ w : Word, reads (.hostReadReg .status) w ∧
      w.extractLsb' 0 4 = BitVec.ofNat 4 s.host.status.err.code ∧
      w.getLsbD 4 = s.host.status.found ∧ w.getLsbD 5 = s.host.status.gcrInv ∧
      w.getLsbD 6 = s.host.status.fault ∧ w.getLsbD 7 = s.host.status.logOvf ∧
      w.extractLsb' 8 8 = s.host.status.fcode ∧ ∀ j, 16 ≤ j → w.getLsbD j = false) ∧
    (∀ sp a b,
      (a < sp.cap → ∃ t, deliver (.memWrite sp a b) s = .next t ∧ WroteBytes s t sp a [b] ∧
        t.withMemoriesOf s = s) ∧
      (sp.cap ≤ a → deliver (.memWrite sp a b) s = .next s)) ∧
    (∀ sp a, (a < sp.cap → reads (.memRead sp a) ((s.byteAt sp a).zeroExtend 64)) ∧
      (sp.cap ≤ a → reads (.memRead sp a) 0)) ∧
    (∀ (h : Fin 84) (v : Nat), v ≤ 63424 → deliver (.lenWrite h v) s =
      .next { s with disk.len := s.disk.len.set h (BitVec.ofNat 17 v) }) ∧
    (∀ h v, 84 ≤ h ∨ 63424 < v → deliver (.lenWrite h v) s = .next s) ∧
    (∀ h : Fin 84, reads (.lenRead h) (num (s.disk.len[h]).toNat)) ∧
    (∀ h, 84 ≤ h → reads (.lenRead h) 0) ∧
    (∀ v, (v ≤ 131072 → deliver (.xlenWrite v) s = .next { s with xlen := BitVec.ofNat 18 v }) ∧
      (131072 < v → deliver (.xlenWrite v) s = .next s)) ∧
    reads .xlenRead (num s.xlen.toNat) ∧
    (∀ h : Fin 85, reads (.infoRead h .len) (num (s.report.info[h]).len.toNat) ∧
      ∀ k : Fin 21,
        let i := (s.report.info[h]).sec[k]
        reads (.infoRead h (.headerBegin k)) (num i.headerBegin.toNat) ∧
        reads (.infoRead h (.headerEnd k)) (num i.headerEnd.toNat) ∧
        reads (.infoRead h (.dataBegin k)) (num i.dataBegin.toNat) ∧
        reads (.infoRead h (.dataEnd k)) (num i.dataEnd.toNat)) ∧
    ∀ h : Fin 85, reads (.logRead h .count) (num (s.report.log[h]).length) ∧
      ∀ j (hj : j < (s.report.log[h]).length),
        let e := (s.report.log[h])[j]
        reads (.logRead h (.code j)) (num e.code.code) ∧
        reads (.logRead h (.sector j)) (num e.sector.toNat) ∧
        reads (.logRead h (.startBit j)) (num e.startBit.toNat) ∧
        reads (.logRead h (.endBit j)) (num e.endBit.toNat)
end

