-- ==== Sys2Proof/Laws/State.lean ====
section
/-! SUPPORT. What each named update of the state does to each field, so that no proof unfolds a
record update. -/

namespace Sys2Proof.Machine

variable (s : State)

/-! ### `setR0` -/

@[simp] theorem State.setR0_host (v : Word) : (s.setR0 v).host = { s.host with r0 := v } := rfl
@[simp] theorem State.setR0_views (v : Word) : (s.setR0 v).views = s.views := rfl
@[simp] theorem State.setR0_disk (v : Word) : (s.setR0 v).disk = s.disk := rfl
@[simp] theorem State.setR0_xtrk (v : Word) : (s.setR0 v).xtrk = s.xtrk := rfl
@[simp] theorem State.setR0_xlen (v : Word) : (s.setR0 v).xlen = s.xlen := rfl
@[simp] theorem State.setR0_dmem (v : Word) : (s.setR0 v).dmem = s.dmem := rfl
@[simp] theorem State.setR0_errtab (v : Word) : (s.setR0 v).errtab = s.errtab := rfl
@[simp] theorem State.setR0_report (v : Word) : (s.setR0 v).report = s.report := rfl
@[simp] theorem State.setR0_ctrl (v : Word) : (s.setR0 v).ctrl = s.ctrl := rfl
@[simp] theorem State.setR0_engine (v : Word) : (s.setR0 v).engine = s.engine := rfl
@[simp] theorem State.setR0_cfg (v : Word) : (s.setR0 v).cfg = s.cfg := rfl
@[simp] theorem State.setR0_inputs (v : Word) : (s.setR0 v).inputs = s.inputs := rfl
@[simp] theorem State.setR0_busData (v : Word) : (s.setR0 v).busData = s.busData := rfl
@[simp] theorem State.setR0_epoch (v : Word) : (s.setR0 v).epoch = s.epoch := rfl

/-! ### `setR1` -/

@[simp] theorem State.setR1_host (v : Word) : (s.setR1 v).host = { s.host with r1 := v } := rfl
@[simp] theorem State.setR1_views (v : Word) : (s.setR1 v).views = s.views := rfl
@[simp] theorem State.setR1_disk (v : Word) : (s.setR1 v).disk = s.disk := rfl
@[simp] theorem State.setR1_xtrk (v : Word) : (s.setR1 v).xtrk = s.xtrk := rfl
@[simp] theorem State.setR1_xlen (v : Word) : (s.setR1 v).xlen = s.xlen := rfl
@[simp] theorem State.setR1_dmem (v : Word) : (s.setR1 v).dmem = s.dmem := rfl
@[simp] theorem State.setR1_errtab (v : Word) : (s.setR1 v).errtab = s.errtab := rfl
@[simp] theorem State.setR1_report (v : Word) : (s.setR1 v).report = s.report := rfl
@[simp] theorem State.setR1_ctrl (v : Word) : (s.setR1 v).ctrl = s.ctrl := rfl
@[simp] theorem State.setR1_engine (v : Word) : (s.setR1 v).engine = s.engine := rfl
@[simp] theorem State.setR1_cfg (v : Word) : (s.setR1 v).cfg = s.cfg := rfl
@[simp] theorem State.setR1_inputs (v : Word) : (s.setR1 v).inputs = s.inputs := rfl
@[simp] theorem State.setR1_busData (v : Word) : (s.setR1 v).busData = s.busData := rfl
@[simp] theorem State.setR1_epoch (v : Word) : (s.setR1 v).epoch = s.epoch := rfl

/-! ### `setR2` -/

@[simp] theorem State.setR2_host (v : Word) : (s.setR2 v).host = { s.host with r2 := v } := rfl
@[simp] theorem State.setR2_views (v : Word) : (s.setR2 v).views = s.views := rfl
@[simp] theorem State.setR2_disk (v : Word) : (s.setR2 v).disk = s.disk := rfl
@[simp] theorem State.setR2_xtrk (v : Word) : (s.setR2 v).xtrk = s.xtrk := rfl
@[simp] theorem State.setR2_xlen (v : Word) : (s.setR2 v).xlen = s.xlen := rfl
@[simp] theorem State.setR2_dmem (v : Word) : (s.setR2 v).dmem = s.dmem := rfl
@[simp] theorem State.setR2_errtab (v : Word) : (s.setR2 v).errtab = s.errtab := rfl
@[simp] theorem State.setR2_report (v : Word) : (s.setR2 v).report = s.report := rfl
@[simp] theorem State.setR2_ctrl (v : Word) : (s.setR2 v).ctrl = s.ctrl := rfl
@[simp] theorem State.setR2_engine (v : Word) : (s.setR2 v).engine = s.engine := rfl
@[simp] theorem State.setR2_cfg (v : Word) : (s.setR2 v).cfg = s.cfg := rfl
@[simp] theorem State.setR2_inputs (v : Word) : (s.setR2 v).inputs = s.inputs := rfl
@[simp] theorem State.setR2_busData (v : Word) : (s.setR2 v).busData = s.busData := rfl
@[simp] theorem State.setR2_epoch (v : Word) : (s.setR2 v).epoch = s.epoch := rfl

/-! ### `setR3` -/

@[simp] theorem State.setR3_host (v : Word) : (s.setR3 v).host = { s.host with r3 := v } := rfl
@[simp] theorem State.setR3_views (v : Word) : (s.setR3 v).views = s.views := rfl
@[simp] theorem State.setR3_disk (v : Word) : (s.setR3 v).disk = s.disk := rfl
@[simp] theorem State.setR3_xtrk (v : Word) : (s.setR3 v).xtrk = s.xtrk := rfl
@[simp] theorem State.setR3_xlen (v : Word) : (s.setR3 v).xlen = s.xlen := rfl
@[simp] theorem State.setR3_dmem (v : Word) : (s.setR3 v).dmem = s.dmem := rfl
@[simp] theorem State.setR3_errtab (v : Word) : (s.setR3 v).errtab = s.errtab := rfl
@[simp] theorem State.setR3_report (v : Word) : (s.setR3 v).report = s.report := rfl
@[simp] theorem State.setR3_ctrl (v : Word) : (s.setR3 v).ctrl = s.ctrl := rfl
@[simp] theorem State.setR3_engine (v : Word) : (s.setR3 v).engine = s.engine := rfl
@[simp] theorem State.setR3_cfg (v : Word) : (s.setR3 v).cfg = s.cfg := rfl
@[simp] theorem State.setR3_inputs (v : Word) : (s.setR3 v).inputs = s.inputs := rfl
@[simp] theorem State.setR3_busData (v : Word) : (s.setR3 v).busData = s.busData := rfl
@[simp] theorem State.setR3_epoch (v : Word) : (s.setR3 v).epoch = s.epoch := rfl

/-! ### `setStatus` -/

@[simp] theorem State.setStatus_host (v : Status) : (s.setStatus v).host = { s.host with status := v } := rfl
@[simp] theorem State.setStatus_views (v : Status) : (s.setStatus v).views = s.views := rfl
@[simp] theorem State.setStatus_disk (v : Status) : (s.setStatus v).disk = s.disk := rfl
@[simp] theorem State.setStatus_xtrk (v : Status) : (s.setStatus v).xtrk = s.xtrk := rfl
@[simp] theorem State.setStatus_xlen (v : Status) : (s.setStatus v).xlen = s.xlen := rfl
@[simp] theorem State.setStatus_dmem (v : Status) : (s.setStatus v).dmem = s.dmem := rfl
@[simp] theorem State.setStatus_errtab (v : Status) : (s.setStatus v).errtab = s.errtab := rfl
@[simp] theorem State.setStatus_report (v : Status) : (s.setStatus v).report = s.report := rfl
@[simp] theorem State.setStatus_ctrl (v : Status) : (s.setStatus v).ctrl = s.ctrl := rfl
@[simp] theorem State.setStatus_engine (v : Status) : (s.setStatus v).engine = s.engine := rfl
@[simp] theorem State.setStatus_cfg (v : Status) : (s.setStatus v).cfg = s.cfg := rfl
@[simp] theorem State.setStatus_inputs (v : Status) : (s.setStatus v).inputs = s.inputs := rfl
@[simp] theorem State.setStatus_busData (v : Status) : (s.setStatus v).busData = s.busData := rfl
@[simp] theorem State.setStatus_epoch (v : Status) : (s.setStatus v).epoch = s.epoch := rfl

/-! ### `setView` -/

@[simp] theorem State.setView_host (k : Fin 4) (v : View) : (s.setView k v).host = s.host := rfl
@[simp] theorem State.setView_views (k : Fin 4) (v : View) : (s.setView k v).views = s.views.set k v := rfl
@[simp] theorem State.setView_disk (k : Fin 4) (v : View) : (s.setView k v).disk = s.disk := rfl
@[simp] theorem State.setView_xtrk (k : Fin 4) (v : View) : (s.setView k v).xtrk = s.xtrk := rfl
@[simp] theorem State.setView_xlen (k : Fin 4) (v : View) : (s.setView k v).xlen = s.xlen := rfl
@[simp] theorem State.setView_dmem (k : Fin 4) (v : View) : (s.setView k v).dmem = s.dmem := rfl
@[simp] theorem State.setView_errtab (k : Fin 4) (v : View) : (s.setView k v).errtab = s.errtab := rfl
@[simp] theorem State.setView_report (k : Fin 4) (v : View) : (s.setView k v).report = s.report := rfl
@[simp] theorem State.setView_ctrl (k : Fin 4) (v : View) : (s.setView k v).ctrl = s.ctrl := rfl
@[simp] theorem State.setView_engine (k : Fin 4) (v : View) : (s.setView k v).engine = s.engine := rfl
@[simp] theorem State.setView_cfg (k : Fin 4) (v : View) : (s.setView k v).cfg = s.cfg := rfl
@[simp] theorem State.setView_inputs (k : Fin 4) (v : View) : (s.setView k v).inputs = s.inputs := rfl
@[simp] theorem State.setView_busData (k : Fin 4) (v : View) : (s.setView k v).busData = s.busData := rfl
@[simp] theorem State.setView_epoch (k : Fin 4) (v : View) : (s.setView k v).epoch = s.epoch := rfl

/-! ### `setLen` -/

@[simp] theorem State.setLen_host (h n : Nat) : (s.setLen h n).host = s.host := rfl
@[simp] theorem State.setLen_views (h n : Nat) : (s.setLen h n).views = s.views := rfl
@[simp] theorem State.setLen_disk (h n : Nat) : (s.setLen h n).disk = { s.disk with len := bankSet s.disk.len h (BitVec.ofNat 17 n) } := rfl
@[simp] theorem State.setLen_xtrk (h n : Nat) : (s.setLen h n).xtrk = s.xtrk := rfl
@[simp] theorem State.setLen_xlen (h n : Nat) : (s.setLen h n).xlen = s.xlen := rfl
@[simp] theorem State.setLen_dmem (h n : Nat) : (s.setLen h n).dmem = s.dmem := rfl
@[simp] theorem State.setLen_errtab (h n : Nat) : (s.setLen h n).errtab = s.errtab := rfl
@[simp] theorem State.setLen_report (h n : Nat) : (s.setLen h n).report = s.report := rfl
@[simp] theorem State.setLen_ctrl (h n : Nat) : (s.setLen h n).ctrl = s.ctrl := rfl
@[simp] theorem State.setLen_engine (h n : Nat) : (s.setLen h n).engine = s.engine := rfl
@[simp] theorem State.setLen_cfg (h n : Nat) : (s.setLen h n).cfg = s.cfg := rfl
@[simp] theorem State.setLen_inputs (h n : Nat) : (s.setLen h n).inputs = s.inputs := rfl
@[simp] theorem State.setLen_busData (h n : Nat) : (s.setLen h n).busData = s.busData := rfl
@[simp] theorem State.setLen_epoch (h n : Nat) : (s.setLen h n).epoch = s.epoch := rfl

/-! ### `setModified` -/

@[simp] theorem State.setModified_host (v : Bool) : (s.setModified v).host = s.host := rfl
@[simp] theorem State.setModified_views (v : Bool) : (s.setModified v).views = s.views := rfl
@[simp] theorem State.setModified_disk (v : Bool) : (s.setModified v).disk = { s.disk with modified := v } := rfl
@[simp] theorem State.setModified_xtrk (v : Bool) : (s.setModified v).xtrk = s.xtrk := rfl
@[simp] theorem State.setModified_xlen (v : Bool) : (s.setModified v).xlen = s.xlen := rfl
@[simp] theorem State.setModified_dmem (v : Bool) : (s.setModified v).dmem = s.dmem := rfl
@[simp] theorem State.setModified_errtab (v : Bool) : (s.setModified v).errtab = s.errtab := rfl
@[simp] theorem State.setModified_report (v : Bool) : (s.setModified v).report = s.report := rfl
@[simp] theorem State.setModified_ctrl (v : Bool) : (s.setModified v).ctrl = s.ctrl := rfl
@[simp] theorem State.setModified_engine (v : Bool) : (s.setModified v).engine = s.engine := rfl
@[simp] theorem State.setModified_cfg (v : Bool) : (s.setModified v).cfg = s.cfg := rfl
@[simp] theorem State.setModified_inputs (v : Bool) : (s.setModified v).inputs = s.inputs := rfl
@[simp] theorem State.setModified_busData (v : Bool) : (s.setModified v).busData = s.busData := rfl
@[simp] theorem State.setModified_epoch (v : Bool) : (s.setModified v).epoch = s.epoch := rfl

/-! ### `setReport` -/

@[simp] theorem State.setReport_host (v : Report) : (s.setReport v).host = s.host := rfl
@[simp] theorem State.setReport_views (v : Report) : (s.setReport v).views = s.views := rfl
@[simp] theorem State.setReport_disk (v : Report) : (s.setReport v).disk = s.disk := rfl
@[simp] theorem State.setReport_xtrk (v : Report) : (s.setReport v).xtrk = s.xtrk := rfl
@[simp] theorem State.setReport_xlen (v : Report) : (s.setReport v).xlen = s.xlen := rfl
@[simp] theorem State.setReport_dmem (v : Report) : (s.setReport v).dmem = s.dmem := rfl
@[simp] theorem State.setReport_errtab (v : Report) : (s.setReport v).errtab = s.errtab := rfl
@[simp] theorem State.setReport_report (v : Report) : (s.setReport v).report = v := rfl
@[simp] theorem State.setReport_ctrl (v : Report) : (s.setReport v).ctrl = s.ctrl := rfl
@[simp] theorem State.setReport_engine (v : Report) : (s.setReport v).engine = s.engine := rfl
@[simp] theorem State.setReport_cfg (v : Report) : (s.setReport v).cfg = s.cfg := rfl
@[simp] theorem State.setReport_inputs (v : Report) : (s.setReport v).inputs = s.inputs := rfl
@[simp] theorem State.setReport_busData (v : Report) : (s.setReport v).busData = s.busData := rfl
@[simp] theorem State.setReport_epoch (v : Report) : (s.setReport v).epoch = s.epoch := rfl

/-! ### `setEngine` -/

@[simp] theorem State.setEngine_host (v : Engine) : (s.setEngine v).host = s.host := rfl
@[simp] theorem State.setEngine_views (v : Engine) : (s.setEngine v).views = s.views := rfl
@[simp] theorem State.setEngine_disk (v : Engine) : (s.setEngine v).disk = s.disk := rfl
@[simp] theorem State.setEngine_xtrk (v : Engine) : (s.setEngine v).xtrk = s.xtrk := rfl
@[simp] theorem State.setEngine_xlen (v : Engine) : (s.setEngine v).xlen = s.xlen := rfl
@[simp] theorem State.setEngine_dmem (v : Engine) : (s.setEngine v).dmem = s.dmem := rfl
@[simp] theorem State.setEngine_errtab (v : Engine) : (s.setEngine v).errtab = s.errtab := rfl
@[simp] theorem State.setEngine_report (v : Engine) : (s.setEngine v).report = s.report := rfl
@[simp] theorem State.setEngine_ctrl (v : Engine) : (s.setEngine v).ctrl = s.ctrl := rfl
@[simp] theorem State.setEngine_engine (v : Engine) : (s.setEngine v).engine = v := rfl
@[simp] theorem State.setEngine_cfg (v : Engine) : (s.setEngine v).cfg = s.cfg := rfl
@[simp] theorem State.setEngine_inputs (v : Engine) : (s.setEngine v).inputs = s.inputs := rfl
@[simp] theorem State.setEngine_busData (v : Engine) : (s.setEngine v).busData = s.busData := rfl
@[simp] theorem State.setEngine_epoch (v : Engine) : (s.setEngine v).epoch = s.epoch := rfl

/-! ### `setER0` -/

@[simp] theorem State.setER0_host (v : Word) : (s.setER0 v).host = s.host := rfl
@[simp] theorem State.setER0_views (v : Word) : (s.setER0 v).views = s.views := rfl
@[simp] theorem State.setER0_disk (v : Word) : (s.setER0 v).disk = s.disk := rfl
@[simp] theorem State.setER0_xtrk (v : Word) : (s.setER0 v).xtrk = s.xtrk := rfl
@[simp] theorem State.setER0_xlen (v : Word) : (s.setER0 v).xlen = s.xlen := rfl
@[simp] theorem State.setER0_dmem (v : Word) : (s.setER0 v).dmem = s.dmem := rfl
@[simp] theorem State.setER0_errtab (v : Word) : (s.setER0 v).errtab = s.errtab := rfl
@[simp] theorem State.setER0_report (v : Word) : (s.setER0 v).report = s.report := rfl
@[simp] theorem State.setER0_ctrl (v : Word) : (s.setER0 v).ctrl = { s.ctrl with er0 := v } := rfl
@[simp] theorem State.setER0_engine (v : Word) : (s.setER0 v).engine = s.engine := rfl
@[simp] theorem State.setER0_cfg (v : Word) : (s.setER0 v).cfg = s.cfg := rfl
@[simp] theorem State.setER0_inputs (v : Word) : (s.setER0 v).inputs = s.inputs := rfl
@[simp] theorem State.setER0_busData (v : Word) : (s.setER0 v).busData = s.busData := rfl
@[simp] theorem State.setER0_epoch (v : Word) : (s.setER0 v).epoch = s.epoch := rfl

/-! ### `setER1` -/

@[simp] theorem State.setER1_host (v : Word) : (s.setER1 v).host = s.host := rfl
@[simp] theorem State.setER1_views (v : Word) : (s.setER1 v).views = s.views := rfl
@[simp] theorem State.setER1_disk (v : Word) : (s.setER1 v).disk = s.disk := rfl
@[simp] theorem State.setER1_xtrk (v : Word) : (s.setER1 v).xtrk = s.xtrk := rfl
@[simp] theorem State.setER1_xlen (v : Word) : (s.setER1 v).xlen = s.xlen := rfl
@[simp] theorem State.setER1_dmem (v : Word) : (s.setER1 v).dmem = s.dmem := rfl
@[simp] theorem State.setER1_errtab (v : Word) : (s.setER1 v).errtab = s.errtab := rfl
@[simp] theorem State.setER1_report (v : Word) : (s.setER1 v).report = s.report := rfl
@[simp] theorem State.setER1_ctrl (v : Word) : (s.setER1 v).ctrl = { s.ctrl with er1 := v } := rfl
@[simp] theorem State.setER1_engine (v : Word) : (s.setER1 v).engine = s.engine := rfl
@[simp] theorem State.setER1_cfg (v : Word) : (s.setER1 v).cfg = s.cfg := rfl
@[simp] theorem State.setER1_inputs (v : Word) : (s.setER1 v).inputs = s.inputs := rfl
@[simp] theorem State.setER1_busData (v : Word) : (s.setER1 v).busData = s.busData := rfl
@[simp] theorem State.setER1_epoch (v : Word) : (s.setER1 v).epoch = s.epoch := rfl

/-! ### `setER2` -/

@[simp] theorem State.setER2_host (v : Word) : (s.setER2 v).host = s.host := rfl
@[simp] theorem State.setER2_views (v : Word) : (s.setER2 v).views = s.views := rfl
@[simp] theorem State.setER2_disk (v : Word) : (s.setER2 v).disk = s.disk := rfl
@[simp] theorem State.setER2_xtrk (v : Word) : (s.setER2 v).xtrk = s.xtrk := rfl
@[simp] theorem State.setER2_xlen (v : Word) : (s.setER2 v).xlen = s.xlen := rfl
@[simp] theorem State.setER2_dmem (v : Word) : (s.setER2 v).dmem = s.dmem := rfl
@[simp] theorem State.setER2_errtab (v : Word) : (s.setER2 v).errtab = s.errtab := rfl
@[simp] theorem State.setER2_report (v : Word) : (s.setER2 v).report = s.report := rfl
@[simp] theorem State.setER2_ctrl (v : Word) : (s.setER2 v).ctrl = { s.ctrl with er2 := v } := rfl
@[simp] theorem State.setER2_engine (v : Word) : (s.setER2 v).engine = s.engine := rfl
@[simp] theorem State.setER2_cfg (v : Word) : (s.setER2 v).cfg = s.cfg := rfl
@[simp] theorem State.setER2_inputs (v : Word) : (s.setER2 v).inputs = s.inputs := rfl
@[simp] theorem State.setER2_busData (v : Word) : (s.setER2 v).busData = s.busData := rfl
@[simp] theorem State.setER2_epoch (v : Word) : (s.setER2 v).epoch = s.epoch := rfl

/-! ### `setER3` -/

@[simp] theorem State.setER3_host (v : Word) : (s.setER3 v).host = s.host := rfl
@[simp] theorem State.setER3_views (v : Word) : (s.setER3 v).views = s.views := rfl
@[simp] theorem State.setER3_disk (v : Word) : (s.setER3 v).disk = s.disk := rfl
@[simp] theorem State.setER3_xtrk (v : Word) : (s.setER3 v).xtrk = s.xtrk := rfl
@[simp] theorem State.setER3_xlen (v : Word) : (s.setER3 v).xlen = s.xlen := rfl
@[simp] theorem State.setER3_dmem (v : Word) : (s.setER3 v).dmem = s.dmem := rfl
@[simp] theorem State.setER3_errtab (v : Word) : (s.setER3 v).errtab = s.errtab := rfl
@[simp] theorem State.setER3_report (v : Word) : (s.setER3 v).report = s.report := rfl
@[simp] theorem State.setER3_ctrl (v : Word) : (s.setER3 v).ctrl = { s.ctrl with er3 := v } := rfl
@[simp] theorem State.setER3_engine (v : Word) : (s.setER3 v).engine = s.engine := rfl
@[simp] theorem State.setER3_cfg (v : Word) : (s.setER3 v).cfg = s.cfg := rfl
@[simp] theorem State.setER3_inputs (v : Word) : (s.setER3 v).inputs = s.inputs := rfl
@[simp] theorem State.setER3_busData (v : Word) : (s.setER3 v).busData = s.busData := rfl
@[simp] theorem State.setER3_epoch (v : Word) : (s.setER3 v).epoch = s.epoch := rfl

/-! ### `setBusData` -/

@[simp] theorem State.setBusData_host (v : Word) : (s.setBusData v).host = s.host := rfl
@[simp] theorem State.setBusData_views (v : Word) : (s.setBusData v).views = s.views := rfl
@[simp] theorem State.setBusData_disk (v : Word) : (s.setBusData v).disk = s.disk := rfl
@[simp] theorem State.setBusData_xtrk (v : Word) : (s.setBusData v).xtrk = s.xtrk := rfl
@[simp] theorem State.setBusData_xlen (v : Word) : (s.setBusData v).xlen = s.xlen := rfl
@[simp] theorem State.setBusData_dmem (v : Word) : (s.setBusData v).dmem = s.dmem := rfl
@[simp] theorem State.setBusData_errtab (v : Word) : (s.setBusData v).errtab = s.errtab := rfl
@[simp] theorem State.setBusData_report (v : Word) : (s.setBusData v).report = s.report := rfl
@[simp] theorem State.setBusData_ctrl (v : Word) : (s.setBusData v).ctrl = s.ctrl := rfl
@[simp] theorem State.setBusData_engine (v : Word) : (s.setBusData v).engine = s.engine := rfl
@[simp] theorem State.setBusData_cfg (v : Word) : (s.setBusData v).cfg = s.cfg := rfl
@[simp] theorem State.setBusData_inputs (v : Word) : (s.setBusData v).inputs = s.inputs := rfl
@[simp] theorem State.setBusData_busData (v : Word) : (s.setBusData v).busData = v := rfl
@[simp] theorem State.setBusData_epoch (v : Word) : (s.setBusData v).epoch = s.epoch := rfl

/-! ### `setMem`: the byte memories -/

@[simp] theorem State.setMem_host (sp : Space) (m : Memory) : (s.setMem sp m).host = s.host := by
  cases sp <;> rfl
@[simp] theorem State.setMem_views (sp : Space) (m : Memory) : (s.setMem sp m).views = s.views := by
  cases sp <;> rfl
@[simp] theorem State.setMem_xlen (sp : Space) (m : Memory) : (s.setMem sp m).xlen = s.xlen := by
  cases sp <;> rfl
@[simp] theorem State.setMem_report (sp : Space) (m : Memory) : (s.setMem sp m).report = s.report := by
  cases sp <;> rfl
@[simp] theorem State.setMem_ctrl (sp : Space) (m : Memory) : (s.setMem sp m).ctrl = s.ctrl := by
  cases sp <;> rfl
@[simp] theorem State.setMem_engine (sp : Space) (m : Memory) : (s.setMem sp m).engine = s.engine := by
  cases sp <;> rfl
@[simp] theorem State.setMem_cfg (sp : Space) (m : Memory) : (s.setMem sp m).cfg = s.cfg := by
  cases sp <;> rfl
@[simp] theorem State.setMem_inputs (sp : Space) (m : Memory) : (s.setMem sp m).inputs = s.inputs := by
  cases sp <;> rfl
@[simp] theorem State.setMem_busData (sp : Space) (m : Memory) : (s.setMem sp m).busData = s.busData := by
  cases sp <;> rfl
@[simp] theorem State.setMem_epoch (sp : Space) (m : Memory) : (s.setMem sp m).epoch = s.epoch := by
  cases sp <;> rfl
@[simp] theorem State.setMem_present (sp : Space) (m : Memory) :
    (s.setMem sp m).disk.present = s.disk.present := by
  cases sp <;> rfl
@[simp] theorem State.setMem_wp (sp : Space) (m : Memory) :
    (s.setMem sp m).disk.wp = s.disk.wp := by
  cases sp <;> rfl
@[simp] theorem State.setMem_modified (sp : Space) (m : Memory) :
    (s.setMem sp m).disk.modified = s.disk.modified := by
  cases sp <;> rfl
@[simp] theorem State.setMem_len (sp : Space) (m : Memory) :
    (s.setMem sp m).disk.len = s.disk.len := by
  cases sp <;> rfl

end Sys2Proof.Machine
end

