-- ==== Sys2Proof/Laws/Memory.lean ====
section
/-! SUPPORT. The byte memories: what a read after a write gives, and that every memory operation
keeps the canonical form. -/

namespace Sys2Proof.Machine

/-! ## Read after write -/

theorem Memory.lookup_put (m : Memory) (a a' : Nat) (b : Byte) :
    Memory.lookup (Memory.put m a b) a' = if a' = a then some b else Memory.lookup m a' := by
  induction m with
  | nil => simp [Memory.put, Memory.lookup, eq_comm]
  | cons c m ih =>
    obtain ⟨k, v⟩ := c
    simp only [Memory.put]
    split
    · simp [Memory.lookup, eq_comm]
    · split
      · subst_vars; simp only [Memory.lookup, eq_comm]; split <;> simp_all
      · simp only [Memory.lookup, ih]
        split
        · rename_i h; subst h; rw [if_neg (by omega)]
        · rfl

theorem Memory.lookup_remove (m : Memory) (a a' : Nat) :
    Memory.lookup (Memory.remove m a) a' = if a' = a then none else Memory.lookup m a' := by
  induction m with
  | nil => simp [Memory.remove, Memory.lookup]
  | cons c m ih =>
    obtain ⟨k, v⟩ := c
    simp only [Memory.remove] at ih
    by_cases hk : k = a
    · simp only [Memory.remove, List.filter, hk, bne_self_eq_false, Memory.lookup, ih]
      split <;> simp_all [eq_comm]
    · have : (k != a) = true := by simpa using hk
      simp only [Memory.remove, List.filter, this, Memory.lookup, ih]
      split <;> simp_all

/-- A byte read after a byte was stored. -/
theorem Memory.byte_store (sp : Space) (e : Nat) (m : Memory) (a a' : Nat) (b : Byte) :
    Memory.byte sp e (Memory.store sp m a b) a' = if a' = a then b else Memory.byte sp e m a' := by
  unfold Memory.byte Memory.store
  split
  · rename_i h
    rw [Memory.lookup_remove]
    split
    · cases sp <;> simp_all [Space.unlisted, Space.initial]
    · rfl
  · rw [Memory.lookup_put]; split <;> rfl

/-- A byte read after a run of bytes was stored. -/
theorem Memory.byte_storeBytes (sp : Space) (e : Nat) (bs : List Byte) :
    ∀ (m : Memory) (a a' : Nat),
      Memory.byte sp e (Memory.storeBytes sp m a bs) a' =
        if a ≤ a' then bs.getD (a' - a) (Memory.byte sp e m a') else Memory.byte sp e m a' := by
  induction bs with
  | nil => simp [Memory.storeBytes]
  | cons b bs ih =>
    intro m a a'
    rw [Memory.storeBytes, ih, Memory.byte_store]
    rcases Nat.lt_trichotomy a' a with h | h | h
    · rw [if_neg (by omega), if_neg (by omega), if_neg (by omega)]
    · subst h; simp
    · rw [if_pos (show a + 1 ≤ a' by omega), if_neg (show ¬a' = a by omega),
        if_pos (show a ≤ a' by omega)]
      have : a' - a = (a' - (a + 1)) + 1 := by omega
      rw [this, List.getD_cons_succ]

theorem Memory.byte_storeBytes_get (sp : Space) (e : Nat) (bs : List Byte) (m : Memory) (a k : Nat)
    (h : k < bs.length) :
    Memory.byte sp e (Memory.storeBytes sp m a bs) (a + k) = bs[k] := by
  rw [Memory.byte_storeBytes, if_pos (by omega)]
  simp [h]

theorem Memory.byte_storeBytes_out (sp : Space) (e : Nat) (bs : List Byte) (m : Memory) (a a' : Nat)
    (h : a' < a ∨ a + bs.length ≤ a') :
    Memory.byte sp e (Memory.storeBytes sp m a bs) a' = Memory.byte sp e m a' := by
  rw [Memory.byte_storeBytes]
  split
  · rw [List.getD_eq_default]; omega
  · rfl

/-! ## Bits of a byte (R60) -/

/-- Replacing one bit of a byte: that bit has the new value, the other seven are kept (R133). -/
theorem byteBit_setByteBit (x : Byte) (j j' : Nat) (b : Bool) :
    byteBit (setByteBit x j b) j' = if j' % 8 = j % 8 then b else byteBit x j' := by
  have h1 : j % 8 < 8 := Nat.mod_lt _ (by omega)
  have h2 : j' % 8 < 8 := Nat.mod_lt _ (by omega)
  unfold byteBit setByteBit
  generalize j % 8 = m at *
  generalize j' % 8 = n at *
  interval_cases m <;> interval_cases n <;> cases b <;> simp

/-- One bit read after one bit was stored. -/
theorem Memory.bit_storeBit (sp : Space) (e : Nat) (m : Memory) (j j' : Nat) (b : Bool) :
    byteBit (Memory.byte sp e (Memory.storeBit sp e m j b) (j' / 8)) j' =
      if j' = j then b else byteBit (Memory.byte sp e m (j' / 8)) j' := by
  unfold Memory.storeBit
  rw [Memory.byte_store]
  by_cases h : j' / 8 = j / 8
  · rw [if_pos h, byteBit_setByteBit, h]
    by_cases h' : j' = j
    · simp [h']
    · rw [if_neg h', if_neg (by omega)]
  · rw [if_neg h, if_neg (by rintro rfl; exact h rfl)]

/-- A byte that holds no stored bit reads as before. -/
theorem Memory.byte_storeBit_out (sp : Space) (e : Nat) (m : Memory) (j a : Nat) (b : Bool)
    (h : a ≠ j / 8) :
    Memory.byte sp e (Memory.storeBit sp e m j b) a = Memory.byte sp e m a := by
  unfold Memory.storeBit
  rw [Memory.byte_store, if_neg h]

/-- Bits outside a run of stored bits read as before. -/
theorem Memory.bit_storeBits_out (sp : Space) (e first n : Nat) (bits : List Bool) :
    ∀ (m : Memory) (i : Int) (j : Nat),
      (∀ k, k < bits.length → j ≠ first + ((i + (k : Nat)) % n).toNat) →
      byteBit (Memory.byte sp e (Memory.storeBits sp e first n m i bits) (j / 8)) j =
        byteBit (Memory.byte sp e m (j / 8)) j := by
  induction bits with
  | nil => intros; rfl
  | cons b bits ih =>
    intro m i j h
    rw [Memory.storeBits, ih, Memory.bit_storeBit, if_neg]
    · simpa using h 0 (by simp)
    · intro k hk
      have := h (k + 1) (by simpa using hk)
      rwa [show i + ((k + 1 : Nat) : Int) = i + 1 + (k : Nat) by push_cast; omega] at this

/-- Bytes that hold no bit of a run of stored bits read as before. -/
theorem Memory.byte_storeBits_out (sp : Space) (e first n : Nat) (bits : List Bool) :
    ∀ (m : Memory) (i : Int) (a : Nat),
      (∀ k, k < bits.length → a ≠ (first + ((i + (k : Nat)) % n).toNat) / 8) →
      Memory.byte sp e (Memory.storeBits sp e first n m i bits) a = Memory.byte sp e m a := by
  induction bits with
  | nil => intros; rfl
  | cons b bits ih =>
    intro m i a h
    rw [Memory.storeBits, ih, Memory.byte_storeBit_out]
    · simpa using h 0 (by simp)
    · intro k hk
      have := h (k + 1) (by simpa using hk)
      rwa [show i + ((k + 1 : Nat) : Int) = i + 1 + (k : Nat) by push_cast; omega] at this

/-- The last bit of a run stored at a place is the one found there. -/
theorem Memory.bit_storeBits_get (sp : Space) (e first n : Nat) (bits : List Bool) :
    ∀ (m : Memory) (i : Int) (k : Nat) (h : k < bits.length),
      (∀ k', k < k' → k' < bits.length →
        first + ((i + (k' : Nat)) % n).toNat ≠ first + ((i + (k : Nat)) % n).toNat) →
      byteBit (Memory.byte sp e (Memory.storeBits sp e first n m i bits)
        ((first + ((i + (k : Nat)) % n).toNat) / 8)) (first + ((i + (k : Nat)) % n).toNat) =
        bits[k] := by
  induction bits with
  | nil => intro _ _ _ h; simp at h
  | cons b bits ih =>
    intro m i k hk hlast
    rw [Memory.storeBits]
    have shift (k : Nat) : i + ((k + 1 : Nat) : Int) = i + 1 + (k : Nat) := by push_cast; omega
    cases k with
    | zero =>
      rw [Memory.bit_storeBits_out, Memory.bit_storeBit]
      · simp
      · intro k' hk'
        have := hlast (k' + 1) (by omega) (by simpa using hk')
        rw [shift] at this
        exact this.symm
    | succ k =>
      rw [shift]
      have := ih (Memory.storeBit sp e m (first + (i % n).toNat) b) (i + 1) k (by simpa using hk) ?_
      · simpa using this
      · intro k' h1 h2
        have := hlast (k' + 1) (by omega) (by simpa using h2)
        rwa [shift, shift] at this

/-! ## The canonical form -/

theorem Memory.wf_nil (sp : Space) : Memory.wf sp [] := by simp [Memory.wf]

theorem Memory.mem_put (m : Memory) (a : Nat) (b : Byte) (c : Host.Cell) :
    c ∈ Memory.put m a b → c = (a, b) ∨ c ∈ m := by
  induction m with
  | nil => simp [Memory.put]
  | cons d m ih =>
    obtain ⟨k, v⟩ := d
    simp only [Memory.put]
    split
    · simp
    · split
      · simp only [List.mem_cons]; tauto
      · simp only [List.mem_cons]; tauto

theorem Memory.put_rising (m : Memory) (a : Nat) (b : Byte)
    (h : m.Pairwise (fun c d => c.1 < d.1)) :
    (Memory.put m a b).Pairwise (fun c d => c.1 < d.1) := by
  induction m with
  | nil => simp [Memory.put]
  | cons d m ih =>
    obtain ⟨k, v⟩ := d
    rw [List.pairwise_cons] at h
    simp only [Memory.put]
    split
    · rename_i hk
      refine List.pairwise_cons.2 ⟨?_, List.pairwise_cons.2 h⟩
      intro c hc
      rcases List.mem_cons.1 hc with rfl | hc
      · exact hk
      · exact Nat.lt_trans hk (h.1 c hc)
    · split
      · subst_vars; exact List.pairwise_cons.2 h
      · refine List.pairwise_cons.2 ⟨?_, ih h.2⟩
        intro c hc
        rcases Memory.mem_put _ _ _ _ hc with rfl | hc
        · simp only; omega
        · exact h.1 c hc

/-- Storing a byte keeps the canonical form. -/
theorem Memory.wf_store (sp : Space) (m : Memory) (a : Nat) (b : Byte) (h : Memory.wf sp m)
    (ha : a < sp.cap) : Memory.wf sp (Memory.store sp m a b) := by
  unfold Memory.store
  split
  · refine ⟨h.1.filter _, fun c hc => h.2 c ?_⟩
    exact (List.mem_filter.1 hc).1
  · rename_i hb
    refine ⟨Memory.put_rising _ _ _ h.1, fun c hc => ?_⟩
    rcases Memory.mem_put _ _ _ _ hc with rfl | hc
    · exact ⟨ha, hb⟩
    · exact h.2 c hc

/-- Storing a run of bytes inside the memory keeps the canonical form. -/
theorem Memory.wf_storeBytes (sp : Space) (bs : List Byte) :
    ∀ (m : Memory) (a : Nat), Memory.wf sp m → a + bs.length ≤ sp.cap →
      Memory.wf sp (Memory.storeBytes sp m a bs) := by
  induction bs with
  | nil => intro m a h _; exact h
  | cons b bs ih =>
    intro m a h ha
    simp only [List.length_cons] at ha
    exact ih _ _ (Memory.wf_store sp m a b h (by omega)) (by omega)

/-- Storing a bit inside the memory keeps the canonical form. -/
theorem Memory.wf_storeBit (sp : Space) (e : Nat) (m : Memory) (j : Nat) (b : Bool)
    (h : Memory.wf sp m) (hj : j < 8 * sp.cap) : Memory.wf sp (Memory.storeBit sp e m j b) :=
  Memory.wf_store sp m _ _ h (by omega)

/-- Storing a run of bits through a window inside the memory keeps the canonical form. -/
theorem Memory.wf_storeBits (sp : Space) (e first n : Nat) (hn : 0 < n)
    (hw : first + n ≤ 8 * sp.cap) (bits : List Bool) :
    ∀ (m : Memory) (i : Int), Memory.wf sp m →
      Memory.wf sp (Memory.storeBits sp e first n m i bits) := by
  induction bits with
  | nil => intro m i h; exact h
  | cons b bits ih =>
    intro m i h
    refine ih _ _ (Memory.wf_storeBit sp e m _ b h ?_)
    have h1 : 0 ≤ i % (n : Int) := Int.emod_nonneg _ (by omega)
    have h2 : i % (n : Int) < n := Int.emod_lt_of_pos _ (by omega)
    omega

theorem State.mem_reset_wf (sp : Space) : Memory.wf sp (State.reset.mem sp) := by
  have h (i : Fin 84) : (Vector.replicate 84 ([] : Memory))[i] = [] := by simp
  cases sp <;> simp [State.reset, State.mem, blankTracks, Memory.wf]

/-! ## Memories of a state -/

theorem State.mem_setMem (s : State) (sp sp' : Space) (m : Memory) :
    (s.setMem sp m).mem sp' = if sp' = sp then m else s.mem sp' := by
  cases sp <;> cases sp' <;> simp [State.setMem, State.mem, Vector.getElem_set]
  · rename_i h h'
    by_cases he : h = h'
    · subst he; simp
    · rw [if_neg (fun hv => he (Fin.ext hv)), if_neg (fun hv => he hv.symm)]

@[simp] theorem State.mem_setMem_same (s : State) (sp : Space) (m : Memory) :
    (s.setMem sp m).mem sp = m := by
  simp [State.mem_setMem]

theorem State.mem_setMem_ne (s : State) (sp sp' : Space) (m : Memory) (h : sp' ≠ sp) :
    (s.setMem sp m).mem sp' = s.mem sp' := by
  simp [State.mem_setMem, h]

/-- A byte after a memory was replaced. -/
theorem State.byteAt_setMem (s : State) (sp sp' : Space) (m : Memory) (a : Nat) :
    (s.setMem sp m).byteAt sp' a =
      if sp' = sp then Memory.byte sp s.epoch m a else s.byteAt sp' a := by
  unfold State.byteAt
  rw [State.setMem_epoch, State.mem_setMem]
  split
  · subst_vars; rfl
  · rfl

@[simp] theorem State.length_readBytes (s : State) (sp : Space) (a n : Nat) :
    (s.readBytes sp a n).length = n := by
  simp [State.readBytes]

@[simp] theorem State.getElem_readBytes (s : State) (sp : Space) (a n k : Nat)
    (h : k < (s.readBytes sp a n).length) : (s.readBytes sp a n)[k] = s.byteAt sp (a + k) := by
  simp [State.readBytes]

/-- Memories whose bytes read the same answer the same run. -/
theorem State.readBytes_congr {s t : State} {sp : Space} {a n : Nat}
    (h : ∀ k < n, t.byteAt sp (a + k) = s.byteAt sp (a + k)) :
    t.readBytes sp a n = s.readBytes sp a n :=
  List.map_congr_left fun k hk => h k (List.mem_range.1 hk)

end Sys2Proof.Machine
end

