-- ==== Sys2Proof/Laws/Stream.lean ====
section
/-! SUPPORT. Circular bit streams: single bits of a read, what a scan answers, what a write through a
view leaves. -/

namespace Sys2Proof.Machine

/-- R132: a bit of a view is the buffer's bit at `Abs(V, i)`. -/
theorem State.get_stream (s : State) (v : View) (i : Int) :
    (s.stream v).get i = s.bufBit v.buf.space (v.abs i) := rfl

@[simp] theorem State.size_stream (s : State) (v : View) : (s.stream v).size = v.size := rfl

/-- R62: an index of a view inside its buffer is a bit of one of the buffer's bytes. -/
theorem View.abs_div_lt {v : View} (hv : v.wf) (h : 0 < v.size) (i : Int) :
    v.abs i / 8 < v.buf.space.cap := by
  have h1 := Int.emod_nonneg i (b := v.size) (by omega)
  have h2 := Int.emod_lt_of_pos i (b := v.size) (by omega)
  have h3 : v.buf.capBits = 8 * v.buf.space.cap := rfl
  have := hv.2
  unfold View.abs View.size at *
  omega

/-- A view of a buffer whose bytes read the same shows the same bits. -/
theorem State.get_stream_congr {s t : State} {v : View} (hv : v.wf) (h : 0 < v.size)
    (hm : ∀ a < v.buf.space.cap, t.byteAt v.buf.space a = s.byteAt v.buf.space a) (i : Int) :
    (t.stream v).get i = (s.stream v).get i := by
  rw [State.get_stream, State.get_stream, State.bufBit, State.bufBit,
    hm _ (View.abs_div_lt hv h i)]

/-- R134: equal bits are read as equal numbers. -/
theorem BitStream.getBits_congr {b c : BitStream} (h : ∀ i, c.get i = b.get i) (i : Int) (n : Nat) :
    c.getBits i n = b.getBits i n := by
  induction n with
  | zero => rfl
  | succ n ih => rw [BitStream.getBits, BitStream.getBits, ih, h]

theorem BitStream.getBits_lt (b : BitStream) (i : Int) (c : Nat) : b.getBits i c < 2 ^ c := by
  induction c with
  | zero => simp [BitStream.getBits]
  | succ c ih =>
    have : (b.get (i + c)).toNat < 2 := Bool.toNat_lt _
    rw [BitStream.getBits, Nat.pow_succ]; omega

/-- R134: the bit read at `i + k` is bit `c - 1 - k` of the number. -/
theorem BitStream.testBit_getBits (b : BitStream) (i : Int) (c : Nat) :
    ∀ k < c, (b.getBits i c).testBit (c - 1 - k) = b.get (i + (k : Nat)) := by
  induction c with
  | zero => intro k h; omega
  | succ c ih =>
    intro k hk
    rw [BitStream.getBits]
    rcases Nat.lt_or_ge k c with h | h
    · rw [show c + 1 - 1 - k = (c - 1 - k) + 1 by omega, Nat.testBit_succ]
      have : (2 * b.getBits i c + (b.get (i + c)).toNat) / 2 = b.getBits i c := by
        have := Bool.toNat_lt (b.get (i + c)); omega
      rw [this, ih k h]
    · obtain rfl : k = c := by omega
      rw [show k + 1 - 1 - k = 0 by omega]
      cases b.get (i + (k : Nat)) <;> simp [Nat.testBit_zero]

/-- R134 as a property of the number read. -/
theorem BitStream.isNumber_getBits (b : BitStream) (i : Int) (c : Nat) :
    IsNumber (b.getBits i c) c (fun k => b.get (i + (k : Nat))) :=
  ⟨b.getBits_lt i c, b.testBit_getBits i c⟩

/-- Two numbers made of the same bits are equal. -/
theorem IsNumber.unique {x y c : Nat} {f g : Nat → Bool} (hx : IsNumber x c f)
    (hy : IsNumber y c g) (h : ∀ k < c, f k = g k) : x = y := by
  refine Nat.eq_of_testBit_eq fun j => ?_
  rcases Nat.lt_or_ge j c with hj | hj
  · have := hx.2 (c - 1 - j) (by omega)
    have h2 := hy.2 (c - 1 - j) (by omega)
    rw [show c - 1 - (c - 1 - j) = j by omega] at this h2
    rw [this, h2, h _ (by omega)]
  · rw [Nat.testBit_eq_false_of_lt (Nat.lt_of_lt_of_le hx.1 (Nat.pow_le_pow_right (by omega) hj)),
      Nat.testBit_eq_false_of_lt (Nat.lt_of_lt_of_le hy.1 (Nat.pow_le_pow_right (by omega) hj))]

/-- What a successful scan says (R138): the first of the start positions that matches. -/
theorem BitStream.scan_some (b : BitStream) (it : Int) (p n left : Nat) :
    ∀ k0 k, b.scan it p n left k0 = some k →
      k0 ≤ k ∧ k < k0 + left ∧ b.getBits (it + (k : Nat)) n = p ∧
        ∀ j, k0 ≤ j → j < k → b.getBits (it + (j : Nat)) n ≠ p := by
  induction left with
  | zero => intro k0 k h; simp [BitStream.scan] at h
  | succ left ih =>
    intro k0 k h
    rw [BitStream.scan] at h
    split at h
    · obtain rfl : k0 = k := by simpa using h
      exact ⟨le_rfl, by omega, ‹_›, by omega⟩
    · rename_i hne
      obtain ⟨h1, h2, h3, h4⟩ := ih _ _ h
      refine ⟨by omega, by omega, h3, fun j hj hjk => ?_⟩
      rcases Nat.eq_or_lt_of_le hj with rfl | hj
      · exact hne
      · exact h4 j hj hjk

/-- What an unsuccessful scan says: no start position matches. -/
theorem BitStream.scan_none (b : BitStream) (it : Int) (p n left : Nat) :
    ∀ k0, b.scan it p n left k0 = none →
      ∀ j, k0 ≤ j → j < k0 + left → b.getBits (it + (j : Nat)) n ≠ p := by
  induction left with
  | zero => intros; omega
  | succ left ih =>
    intro k0 h j hj hj'
    rw [BitStream.scan] at h
    split at h
    · simp at h
    · rename_i hne
      rcases Nat.eq_or_lt_of_le hj with rfl | hj
      · exact hne
      · exact ih _ h j hj (by omega)

/-! ## Writes -/

@[simp] theorem State.withMemoriesOf_setMem (s : State) (sp : Space) (m : Memory) :
    (s.setMem sp m).withMemoriesOf s = s := by
  cases sp <;> rfl

@[simp] theorem State.withMemoriesOf_writeBytes (s : State) (sp : Space) (a : Nat)
    (bs : List Byte) : (s.writeBytes sp a bs).withMemoriesOf s = s :=
  s.withMemoriesOf_setMem sp _

@[simp] theorem State.withMemoriesOf_setBits (s : State) (v : View) (i : Int)
    (bits : List Bool) : (s.setBits v i bits).withMemoriesOf s = s :=
  s.withMemoriesOf_setMem _ _

/-- Once for all what a run of bytes stored in a memory leaves. -/
theorem State.wroteBytes_writeBytes (s : State) (sp : Space) (a : Nat) (bs : List Byte) :
    WroteBytes s (s.writeBytes sp a bs) sp a bs := by
  constructor
  · intro k h
    rw [State.writeBytes, State.byteAt_setMem, if_pos rfl]
    exact Memory.byte_storeBytes_get sp s.epoch bs _ a k h
  · intro sp' a' h
    rw [State.writeBytes, State.byteAt_setMem]
    split
    · subst_vars
      exact Memory.byte_storeBytes_out _ _ _ _ _ _ (h.resolve_left (fun h => h rfl))
    · rfl

/-- Once for all what a run of bits written through a view leaves. -/
theorem State.wroteBits_setBits (s : State) (v : View) (i : Int) (bits : List Bool) :
    WroteBits s (s.setBits v i bits) v i bits := by
  refine ⟨fun k h hlast => ?_, fun sp j h => ?_, fun sp a h => ?_⟩
  · rw [State.bufBit, State.setBits, State.byteAt_setMem, if_pos rfl]
    exact Memory.bit_storeBits_get _ _ _ _ bits _ i k h hlast
  · rw [State.bufBit, State.setBits, State.byteAt_setMem]
    split
    · subst_vars
      exact Memory.bit_storeBits_out _ _ _ _ bits _ i j (h.resolve_left (fun h => h rfl))
    · rfl
  · rw [State.setBits, State.byteAt_setMem]
    split
    · subst_vars
      exact Memory.byte_storeBits_out _ _ _ _ bits _ i a (h.resolve_left (fun h => h rfl))
    · rfl

theorem length_msbBits (x c : Nat) : (msbBits x c).length = c := by
  induction c with
  | zero => rfl
  | succ c ih => simp [msbBits, ih]

/-- The bits `setBits` writes (R136), by their index. -/
theorem msbBits_eq_lowBits (x c : Nat) : msbBits x c = lowBits x c := by
  induction c with
  | zero => rfl
  | succ c ih =>
    rw [msbBits, ih, lowBits, lowBits, List.range_succ_eq_map, List.map_cons, List.map_map]
    congr 1
    refine List.map_congr_left fun k hk => ?_
    simp only [Function.comp]
    congr 1
    omega

end Sys2Proof.Machine
end

