-- ==== Sys2Proof/Laws/Codec.lean ====
section
/-! SUPPORT. The codec functions on bytes and runs of bytes: the bits of each result, and its
length. -/

namespace Sys2Proof.Machine

/-! ## GCR -/

@[simp] theorem length_gcrByteBits (b : Byte) : (gcrByteBits b).length = 10 := by
  simp [gcrByteBits, length_msbBits]

@[simp] theorem length_gcrBits (bs : List Byte) : (gcrBits bs).length = 10 * bs.length := by
  induction bs with
  | nil => rfl
  | cons b bs ih => simp only [gcrBits, List.flatMap_cons, List.length_append] at *; simp [ih]; omega

theorem gcrBits_append (a b : List Byte) : gcrBits (a ++ b) = gcrBits a ++ gcrBits b := by
  simp [gcrBits]

@[simp] theorem length_bytesBits (bs : List Byte) : (bytesBits bs).length = 8 * bs.length := by
  induction bs with
  | nil => rfl
  | cons b bs ih =>
    simp only [bytesBits, List.flatMap_cons, List.length_append] at *
    simp [ih, length_msbBits]; omega

/-- R68: the free nibble of `GCR.DEC` follows from the view, the position and the bytes of the buffer as
they read. -/
theorem State.gcrDraw_congr {s t : State} (hv : t.view = s.view) (hp : t.host.a1 = s.host.a1)
    (hm : ∀ a < s.view.buf.space.cap, t.byteAt s.view.buf.space a = s.byteAt s.view.buf.space a)
    (low : Bool) : t.gcrDraw low = s.gcrDraw low := by
  simp only [State.gcrDraw, State.opIter, hv, hp]
  rw [State.readBytes_congr fun k hk => by simpa using hm k hk]

/-! ## MFM, by bits -/

/-- R180. -/
theorem mfmSpread_getLsbD (d : Byte) (k : Nat) (hk : k < 16) :
    (mfmSpread d).getLsbD k = (decide (k % 2 = 0) && d.getLsbD (k / 2)) := by
  have h : ∀ d : Byte, ∀ k : Fin 16,
      (mfmSpread d).getLsbD k = (decide (k.val % 2 = 0) && d.getLsbD (k / 2)) := by decide +kernel
  exact h d ⟨k, hk⟩

/-- R180. -/
theorem mfmGather_getLsbD (w : BitVec 16) (k : Nat) (hk : k < 8) :
    (mfmGather w).getLsbD k = w.getLsbD (2 * k) := by
  have h : ∀ b0 b1 b2 b3 b4 b5 b6 b7 : Bool, ∀ k : Fin 8,
      ((List.range 8).foldl (fun d k =>
        d ||| (if [b0, b1, b2, b3, b4, b5, b6, b7].getD k false then 1#8 <<< k else 0))
        0).getLsbD k = [b0, b1, b2, b3, b4, b5, b6, b7].getD k false := by decide +kernel
  have e : mfmGather w = (List.range 8).foldl (fun d k => d ||| (if [w.getLsbD 0, w.getLsbD 2,
      w.getLsbD 4, w.getLsbD 6, w.getLsbD 8, w.getLsbD 10, w.getLsbD 12,
      w.getLsbD 14].getD k false then 1#8 <<< k else 0)) 0 := rfl
  rw [e, h _ _ _ _ _ _ _ _ ⟨k, hk⟩]
  interval_cases k <;> rfl

/-- R185. -/
theorem addClock_getLsbD (v p : Byte) (k : Nat) (hk : k < 8) :
    (addClock v p).getLsbD k =
      if k % 2 = 0 then v.getLsbD k
      else !(v.getLsbD (k - 1) || if k = 7 then p.getLsbD 0 else v.getLsbD (k + 1)) := by
  unfold addClock
  interval_cases k <;> simp

/-- R191: clock synthesis keeps the data positions. -/
theorem addClock_and (x p : Byte) : addClock x p &&& 0x55 = x &&& 0x55 := by
  unfold addClock
  ext k hk
  interval_cases k <;> simp

/-! ## Lengths -/

@[simp] theorem length_mfmBytes (ds : List Byte) : (mfmBytes ds).length = 2 * ds.length := by
  induction ds with
  | nil => rfl
  | cons d ds ih => simp [mfmBytes, mfmPair] at *; omega

theorem length_mfmDecode : ∀ m : List Byte, (mfmDecode m).length = m.length / 2
  | [] => rfl
  | [_] => by simp [mfmDecode]
  | _ :: _ :: m => by simp only [mfmDecode, List.length_cons, length_mfmDecode m]; omega

@[simp] theorem length_oeEncode (ds : List Byte) : (oeEncode ds).length = 2 * ds.length := by
  simp [oeEncode]; omega

theorem length_oeDecode (m : List Byte) : (oeDecode m).length = m.length / 2 := by
  simp [oeDecode]; omega

@[simp] theorem length_addClockRun (m : List Byte) :
    ∀ p, (addClockRun m p).length = m.length := by
  induction m with
  | nil => intro; rfl
  | cons x m ih => intro p; simp [addClockRun, ih]

@[simp] theorem length_addClockRunSkipping (skip : Nat → Bool) (m : List Byte) :
    ∀ i p, (addClockRunSkipping skip i m p).length = m.length := by
  induction m with
  | nil => intros; rfl
  | cons x m ih => intro i p; simp [addClockRunSkipping, ih]

@[simp] theorem length_dosPatch (mark : Nat → Bool) (m : List Byte) :
    ∀ i, (dosPatch mark i m).length = m.length := by
  induction m with
  | nil => intros; rfl
  | cons x m ih => intro i; simp [dosPatch, ih]

@[simp] theorem length_xor4 : ∀ m : List Byte, (xor4 m).length = 4
  | [] | [_] | [_, _] | [_, _, _] => rfl
  | _ :: _ :: _ :: _ :: rest => by simp [xor4, length_xor4 rest]

@[simp] theorem length_crcBytes (bs : List Byte) : (crcBytes bs).length = 2 := rfl

@[simp] theorem length_dosHeader (t k : Nat) : (dosHeader t k).length = 5 := rfl

@[simp] theorem length_amiHeader (t k : Nat) : (amiHeader t k).length = 40 := rfl

theorem length_amiSectorBytes (t k : Nat) (p : List Byte) :
    (amiSectorBytes t k p).length = 64 + 2 * p.length := by
  simp [amiSectorBytes, amiSyncBytes]; omega

theorem length_dosSectorData (t k : Nat) (p : List Byte) :
    (dosSectorData t k p).length = 146 + p.length := by
  simp [dosSectorData, dosMarks]; omega

/-- R200: the bits of a C64 sector. -/
theorem length_c64SectorBits (cfg : ModelArgs) (t k : Nat) (p : List Byte) (id1 id2 e : Byte) :
    (c64SectorBits cfg t k p id1 id2 e).length = 272 + 10 * p.length + 8 * tailGapOf cfg t := by
  simp [c64SectorBits, c64SyncBits, c64GapBits, c64Header, c64Data]
  omega

@[simp] theorem length_imageChunk (image : List Byte) (size k : Nat) :
    (imageChunk image size k).length = min size (image.length - size * k) := by
  simp [imageChunk]

/-- A run of equal parts: its length. -/
theorem length_flatMap_range {α : Type} (n c : Nat) (f : Nat → List α)
    (h : ∀ k < n, (f k).length = c) : ((List.range n).flatMap f).length = n * c := by
  induction n with
  | zero => simp
  | succ n ih =>
    rw [List.range_succ, List.flatMap_append, List.length_append, ih fun k hk => h k (by omega)]
    simp [h n (by omega), Nat.succ_mul]

end Sys2Proof.Machine
end

