-- ==== Sys2Proof/Laws/Outcomes.lean ====
section
/-! SUPPORT. For each shared operation one lemma that says everything it can do. -/

namespace Sys2Proof.Machine

/-! ## How an operation starts and ends -/

/-- R404: a host-port operation while `FAULT` is 0. -/
theorem hostOp_running {s : State} (h : s.Running) (run : State → State) :
    hostOp s run = .next (run s) := by
  simp [hostOp, h]

/-- R404: a host-port operation while `FAULT` is 1. -/
theorem hostOp_faulted {s : State} (h : s.host.status.fault = true) (run : State → State) :
    hostOp s run = .next s.refuseFaulted := by
  simp [hostOp, h]

theorem ctrlOp_next (s : State) (run : State → State) : ctrlOp s run = .next (run s) := rfl

theorem State.ok_eq (s : State) : s.ok = s.answered false false none none none none := rfl

theorem State.okWith_eq (s : State) (f g : Bool) :
    s.okWith f g = s.answered f g none none none none := rfl

theorem State.fail_eq (s : State) (e : ErrCode) : s.fail e = s.failed e := by
  cases e <;> rfl

theorem State.refuseFaulted_eq (s : State) : s.refuseFaulted = s.failed .faulted := rfl

theorem State.illegalCommand_eq (s : State) : s.illegalCommand = s.failed .illegalCmd := rfl

/-- R403: the first Fatal. -/
theorem State.raiseFatal_eq {s : State} (h : s.Running) (e : ErrCode) :
    s.raiseFatal e = s.faulted e := by
  simp [State.raiseFatal, State.faulted, Status.fatal, State.setStatus, h]

/-- R403: a Fatal writes nothing but `STATUS`, and the first cause wins. -/
theorem State.raiseFatal_faulted {s : State} (h : s.host.status.fault = true) (e : ErrCode) :
    s.raiseFatal e =
      { s with host.status :=
          { s.host.status with err := e, found := false, gcrInv := false } } := by
  simp [State.raiseFatal, Status.fatal, State.setStatus, h]

/-- Every operation of the host port but `RESET` is one run behind the `FAULT` check (R404). -/
theorem exec_hostOp (i : Instr) (hp : i.port = .host) (hr : i ≠ .reset) :
    ∃ run : State → State, ∀ s, exec i s = hostOp s run := by
  cases i <;> first
    | exact absurd rfl hr
    | exact absurd hp (by decide)
    | (refine ⟨?_, fun s => ?_⟩; rotate_left; exact rfl)

/-- Every operation of the controller port always runs (R360). -/
theorem exec_ctrlOp (i : Instr) (hp : i.port = .controller) :
    ∃ run : State → State, ∀ s, exec i s = ctrlOp s run := by
  cases i <;> first
    | exact absurd hp (by decide)
    | (refine ⟨?_, fun s => ?_⟩; rotate_left; exact rfl)

/-- R96: `RESET` runs also while `FAULT` is 1. -/
theorem exec_reset (s : State) : exec .reset s = .next s.resetDbc := rfl

/-- No operation stops the machine (R400, R408). -/
theorem exec_next (i : Instr) (s : State) : ∃ t, exec i s = .next t := by
  cases i <;> exact ⟨_, rfl⟩

/-! ## The checks -/

/-- R69, R152: a view can be used exactly when no check fails. -/
theorem State.viewError_eq_none (s : State) (v : View) : s.viewError v = none ↔ s.Usable v := by
  unfold State.viewError State.Usable
  split
  · by_cases hp : s.disk.present = true <;> by_cases hz : v.size = 0 <;>
      simp_all [Nat.pos_iff_ne_zero]
  all_goals by_cases hz : v.size = 0 <;> simp_all [Nat.pos_iff_ne_zero]

/-- R405: `NO_DISK` before `EMPTY_VIEW`, and nothing else. -/
theorem State.viewError_eq_some (s : State) (v : View) (e : ErrCode) (h : s.viewError v = some e) :
    (e = .noDisk ∧ s.disk.present = false ∧ ∃ k, v.buf = .trk k) ∨
      (e = .emptyView ∧ v.size = 0 ∧ ∀ k, v.buf = .trk k → s.disk.present = true) := by
  unfold State.viewError at h
  split at h
  · by_cases hp : s.disk.present = true <;> by_cases hz : v.size = 0 <;> simp_all
  all_goals by_cases hz : v.size = 0 <;> simp_all

theorem iterLegal_iff (w : Word) : iterLegal w = true ↔ LegalIter w :=
  decide_eq_true_iff

theorem dmemOk_iff (a n : Nat) : dmemOk a n = true ↔ InDmem a n :=
  decide_eq_true_iff

/-! ## Shapes of operations -/

theorem withDisk_cases (s : State) (run : State → State) :
    (s.disk.present = true ∧ withDisk s run = run s) ∨
      (s.disk.present = false ∧ withDisk s run = s.fail .noDisk) := by
  cases h : s.disk.present <;> simp [withDisk, h]

theorem readThroughView_cases (s : State) (legal : Bool) (f : BitStream → Word) :
    (legal = false ∧ readThroughView s legal f = s.raiseFatal .badOperand) ∨
    (legal = true ∧ ∃ e, s.viewError s.view = some e ∧ readThroughView s legal f = s.fail e) ∨
    (legal = true ∧ s.Usable s.view ∧
      readThroughView s legal f = (s.setR0 (f s.viewStream)).ok) := by
  rw [← State.viewError_eq_none]
  cases legal <;> simp only [readThroughView] <;>
    rcases h : s.viewError s.view with _ | e <;> simp

theorem writeThroughView_cases (s : State) (legal : Bool) (i : Int) (bits : List Bool) :
    (legal = false ∧ writeThroughView s legal i bits = s.raiseFatal .badOperand) ∨
    (legal = true ∧ ∃ e, s.viewError s.view = some e ∧
      writeThroughView s legal i bits = s.fail e) ∨
    (legal = true ∧ s.Usable s.view ∧
      writeThroughView s legal i bits = (s.setBits s.view i bits).ok) := by
  rw [← State.viewError_eq_none]
  cases legal <;> simp only [writeThroughView] <;>
    rcases h : s.viewError s.view with _ | e <;> simp

theorem convertRun_cases (s : State) (n m : Nat) (f : List Byte → List Byte) :
    (¬(InDmem (field s.host.a0 0 32) n ∧ InDmem (field s.host.a1 0 32) m) ∧
      convertRun s n m f = s.raiseFatal .badOperand) ∨
    ((InDmem (field s.host.a0 0 32) n ∧ InDmem (field s.host.a1 0 32) m) ∧
      convertRun s n m f =
        ((s.writeBytes .dmem (field s.host.a1 0 32)
          (f (s.readBytes .dmem (field s.host.a0 0 32) n))).setR0 (wordOfNat m)).ok) := by
  rw [← dmemOk_iff, ← dmemOk_iff]
  by_cases h : dmemOk (field s.host.a0 0 32) n && dmemOk (field s.host.a1 0 32) m
  · exact .inr ⟨by simpa using h, by simp only [convertRun, h, if_true]⟩
  · exact .inl ⟨by simpa using h, by simp only [convertRun, h]; rfl⟩

theorem seekOp_cases (s : State) (seek : BitStream → Option SectorRange) :
    (¬LegalIter s.host.a1 ∧ seekOp s seek = s.raiseFatal .badOperand) ∨
    (LegalIter s.host.a1 ∧ ∃ e, s.viewError s.view = some e ∧ seekOp s seek = s.fail e) ∨
    (LegalIter s.host.a1 ∧ s.Usable s.view ∧ seek s.viewStream = none ∧
      seekOp s seek = s.fail .notFound) ∨
    (LegalIter s.host.a1 ∧ s.Usable s.view ∧ ∃ r, seek s.viewStream = some r ∧
      seekOp s seek =
        s.answered true false (some (wordOfInt r.first)) (some (wordOfInt r.last))
          (some (wordOfInt r.mark)) none) := by
  rw [← State.viewError_eq_none, ← iterLegal_iff]
  simp only [seekOp, State.iterOk]
  by_cases hl : iterLegal s.host.a1 = true
  · rcases h : s.viewError s.view with _ | e
    · rcases h' : seek s.viewStream with _ | r
      · simp [hl]
      · simp [hl]; rfl
    · simp [hl]
  · simp [hl]

theorem seekAllOp_cases (s : State) (n : Nat) (seek : BitStream → List SeekEntry) :
    (¬(LegalIter s.host.a1 ∧ InDmem s.opAddr (24 * n)) ∧
      seekAllOp s n seek = s.raiseFatal .badOperand) ∨
    ((LegalIter s.host.a1 ∧ InDmem s.opAddr (24 * n)) ∧
      ∃ e, s.viewError s.view = some e ∧ seekAllOp s n seek = s.fail e) ∨
    ((LegalIter s.host.a1 ∧ InDmem s.opAddr (24 * n)) ∧ s.Usable s.view ∧
      seekAllOp s n seek =
        (s.writeBytes .dmem s.opAddr (seekTable n (seek s.viewStream))).answered
          (decide (0 < (seek s.viewStream).length)) false
          (some (wordOfNat (seek s.viewStream).length)) none none none) := by
  rw [← State.viewError_eq_none, ← iterLegal_iff, ← dmemOk_iff]
  simp only [seekAllOp, State.iterOk]
  by_cases hl : (iterLegal s.host.a1 && dmemOk s.opAddr (24 * n)) = true
  · rcases h : s.viewError s.view with _ | e
    · simp only [hl, if_true]
      exact .inr (.inr ⟨by simpa using hl, by trivial, rfl⟩)
    · simp only [hl, if_true]
      exact .inr (.inl ⟨by simpa using hl, e, rfl, rfl⟩)
  · simp only [hl]
    exact .inl ⟨by simpa using hl, rfl⟩

theorem decodeSectorOp_cases (s : State) (legal : Bool) (size : Nat)
    (decode : BitStream → Except ErrCode Decoded) (results : State → Decoded → State) :
    (¬(LegalIter s.host.a1 ∧ legal = true ∧ InDmem s.opAddr size) ∧
      decodeSectorOp s legal size decode results = s.raiseFatal .badOperand) ∨
    ((LegalIter s.host.a1 ∧ legal = true ∧ InDmem s.opAddr size) ∧
      ∃ e, s.viewError s.view = some e ∧ decodeSectorOp s legal size decode results = s.fail e) ∨
    ((LegalIter s.host.a1 ∧ legal = true ∧ InDmem s.opAddr size) ∧ s.Usable s.view ∧
      ∃ e, decode s.viewStream = .error e ∧
        decodeSectorOp s legal size decode results = s.fail e) ∨
    ((LegalIter s.host.a1 ∧ legal = true ∧ InDmem s.opAddr size) ∧ s.Usable s.view ∧
      ∃ d, decode s.viewStream = .ok d ∧
        decodeSectorOp s legal size decode results =
          (results (((s.writeBytes .dmem s.opAddr d.payload).setR0 (wordOfNat size)).setR1
            (wordOfInt d.mark)) d).ok) := by
  rw [← State.viewError_eq_none, ← iterLegal_iff, ← dmemOk_iff]
  simp only [decodeSectorOp, State.iterOk]
  by_cases hl : (iterLegal s.host.a1 && legal && dmemOk s.opAddr size) = true
  · have hl' : iterLegal s.host.a1 = true ∧ legal = true ∧ dmemOk s.opAddr size = true := by
      simpa [and_assoc] using hl
    simp only [hl, if_true]
    rcases h : s.viewError s.view with _ | e
    · rcases h' : decode s.viewStream with e | d
      · exact .inr (.inr (.inl ⟨hl', rfl, e, rfl, rfl⟩))
      · exact .inr (.inr (.inr ⟨hl', rfl, d, rfl, rfl⟩))
    · exact .inr (.inl ⟨hl', e, rfl, rfl⟩)
  · simp only [hl]
    exact .inl ⟨by simpa [and_assoc] using hl, rfl⟩

theorem decodeTrackOp_cases (s : State) (legal : Bool) (n size : Nat)
    (decode : BitStream → Nat → Except ErrCode Decoded) :
    (¬(LegalIter s.host.a1 ∧ legal = true ∧ InDmem s.opAddr (size * n)) ∧
      decodeTrackOp s legal n size decode = s.raiseFatal .badOperand) ∨
    ((LegalIter s.host.a1 ∧ legal = true ∧ InDmem s.opAddr (size * n)) ∧
      ∃ e, s.viewError s.view = some e ∧ decodeTrackOp s legal n size decode = s.fail e) ∨
    ((LegalIter s.host.a1 ∧ legal = true ∧ InDmem s.opAddr (size * n)) ∧ s.Usable s.view ∧
      decodeTrackOp s legal n size decode = decodeTrackLoop size decode n 0 s) := by
  rw [← State.viewError_eq_none, ← iterLegal_iff, ← dmemOk_iff]
  simp only [decodeTrackOp, State.iterOk]
  by_cases hl : (iterLegal s.host.a1 && legal && dmemOk s.opAddr (size * n)) = true
  · have hl' : iterLegal s.host.a1 = true ∧ legal = true ∧ dmemOk s.opAddr (size * n) = true := by
      simpa [and_assoc] using hl
    simp only [hl, if_true]
    rcases h : s.viewError s.view with _ | e
    · exact .inr (.inr ⟨hl', rfl, rfl⟩)
    · exact .inr (.inl ⟨hl', e, rfl, rfl⟩)
  · simp only [hl]
    exact .inl ⟨by simpa [and_assoc] using hl, rfl⟩

theorem encodeSectorOp_cases (s : State) (legal : Bool) (payload size : Nat)
    (bits : List Byte → List Bool) :
    (¬(LegalIter s.host.a1 ∧ legal = true ∧ InDmem s.opAddr payload) ∧
      encodeSectorOp s legal payload size bits = s.raiseFatal .badOperand) ∨
    ((LegalIter s.host.a1 ∧ legal = true ∧ InDmem s.opAddr payload) ∧
      ∃ e, s.viewError s.view = some e ∧ encodeSectorOp s legal payload size bits = s.fail e) ∨
    ((LegalIter s.host.a1 ∧ legal = true ∧ InDmem s.opAddr payload) ∧ s.Usable s.view ∧
      s.view.size < size ∧ encodeSectorOp s legal payload size bits = s.raiseFatal .capacity) ∨
    ((LegalIter s.host.a1 ∧ legal = true ∧ InDmem s.opAddr payload) ∧ s.Usable s.view ∧
      size ≤ s.view.size ∧
      encodeSectorOp s legal payload size bits =
        (s.setBits s.view s.opIter (bits (s.readBytes .dmem s.opAddr payload))).answered
          false false (some (wordOfNat size)) (some (wordOfInt (s.opIter + size))) none none) := by
  rw [← State.viewError_eq_none, ← iterLegal_iff, ← dmemOk_iff]
  simp only [encodeSectorOp, State.iterOk]
  by_cases hl : (iterLegal s.host.a1 && legal && dmemOk s.opAddr payload) = true
  · have hl' : iterLegal s.host.a1 = true ∧ legal = true ∧ dmemOk s.opAddr payload = true := by
      simpa [and_assoc] using hl
    simp only [hl, if_true]
    rcases h : s.viewError s.view with _ | e
    · by_cases hs : size > s.view.size
      · exact .inr (.inr (.inl ⟨hl', rfl, hs, by simp [hs]⟩))
      · exact .inr (.inr (.inr ⟨hl', rfl, by omega, by simp only [hs, if_false]; rfl⟩))
    · exact .inr (.inl ⟨hl', e, rfl, rfl⟩)
  · simp only [hl]
    exact .inl ⟨by simpa [and_assoc] using hl, rfl⟩

end Sys2Proof.Machine
end

