-- ==== Sys2Proof/Laws/Tracks.lean ====
section
/-! SUPPORT. Whole tracks: what an encoded track leaves on the disk, what the loop over its sectors
stores, what an unformatted disk and an analysis are. -/

namespace Sys2Proof.Machine

/-! ## Banks -/

theorem bankGet_of_lt {α : Type} {n : Nat} (v : Vector α n) (i : Nat) (d : α) (h : i < n) :
    bankGet v i d = v[i] := by simp [bankGet, h]

theorem bankSet_of_lt {α : Type} {n : Nat} (v : Vector α n) (i : Nat) (x : α) (h : i < n) :
    bankSet v i x = v.set i x := by
  apply Vector.ext
  intro j hj
  rw [bankSet, Vector.getElem_setIfInBounds, Vector.getElem_set]

theorem bankGet_bankSet {α : Type} {n : Nat} (v : Vector α n) (i j : Nat) (x d : α) :
    bankGet (bankSet v i x) j d = if j = i ∧ i < n then x else bankGet v j d := by
  unfold bankGet bankSet
  rw [Vector.getElem?_setIfInBounds]
  by_cases h : i = j
  · subst h
    by_cases hi : i < n <;> simp [hi]
  · rw [if_neg h, if_neg (fun e => h e.1.symm)]

theorem halftrack_val {h : Nat} (hh : h < 84) : (halftrack h).val = h := by
  simp [halftrack, Fin.ofNat, Nat.mod_eq_of_lt hh]

/-! ## One C64 track -/

theorem nominalBits_pos (t : Nat) : 0 < nominalBits t ∧ nominalBits t ≤ 61536 := by
  unfold nominalBits nominalBytes
  split
  · omega
  split
  · omega
  split <;> omega

theorem View.size_whole (buf : BufSel) (n : Nat) (h : n < 2 ^ 32) : (View.whole buf n).size = n := by
  simp only [View.whole, View.size, BitVec.toNat_ofNat]
  rw [Nat.mod_eq_of_lt h]
  simp

theorem View.abs_whole (buf : BufSel) (n k : Nat) (h : n < 2 ^ 32) :
    (View.whole buf n).abs k = k % n := by
  rw [View.abs, View.size_whole buf n h]
  simp [View.whole]
  omega

/-- R211: what `c64EncodeTrack` leaves unchanged. -/
theorem State.c64EncodeTrack_frame (s : State) (t : Nat) (image : List Byte) (id1 id2 : Byte)
    (align useErr : Bool) :
    { s.c64EncodeTrack t image id1 id2 align useErr with disk := s.disk } = s ∧
    { (s.c64EncodeTrack t image id1 id2 align useErr).disk with trk := s.disk.trk } =
      { s.disk with len := bankSet s.disk.len (2 * t) (BitVec.ofNat 17 (nominalBits t)) } ∧
    ∀ sp, sp ≠ .trk (halftrack (2 * t)) → ∀ a,
      (s.c64EncodeTrack t image id1 id2 align useErr).byteAt sp a = s.byteAt sp a := by
  refine ⟨rfl, rfl, fun sp h a => ?_⟩
  rw [State.c64EncodeTrack, State.setBits, State.byteAt_setMem]
  refine (if_neg h).trans ?_
  show ((s.setMem (.trk (halftrack (2 * t))) []).setLen (2 * t) (nominalBits t)).byteAt sp a = _
  have e : ((s.setMem (.trk (halftrack (2 * t))) []).setLen (2 * t) (nominalBits t)).byteAt sp a =
      (s.setMem (.trk (halftrack (2 * t))) []).byteAt sp a := by cases sp <;> rfl
  rw [e, State.byteAt_setMem, if_neg h]

/-- R211: the bits of the sectors from the start offset on, cyclically, and the fill elsewhere. -/
theorem State.c64EncodeTrack_holds (s : State) (t : Nat) (image : List Byte) (id1 id2 : Byte)
    (align useErr : Bool)
    (hl : (s.c64TrackBits t image id1 id2 useErr).length ≤ nominalBits t) :
    (s.c64EncodeTrack t image id1 id2 align useErr).TrackHolds t (s.c64Start t align)
      (s.c64TrackBits t image id1 id2 useErr) := by
  have hn := nominalBits_pos t
  have habs (k : Nat) : (View.whole (.trk (halftrack (2 * t))) (nominalBits t)).abs
      ((s.c64Start t align : Nat) + (k : Nat) : Int) = (s.c64Start t align + k) % nominalBits t := by
    rw [show ((s.c64Start t align : Nat) + (k : Nat) : Int) = ((s.c64Start t align + k : Nat) : Int)
      by push_cast; rfl]
    exact View.abs_whole _ _ _ (by omega)
  have hw := ((s.setMem (.trk (halftrack (2 * t))) []).setLen (2 * t)
    (nominalBits t)).wroteBits_setBits (View.whole (.trk (halftrack (2 * t))) (nominalBits t))
    (s.c64Start t align) (s.c64TrackBits t image id1 id2 useErr)
  refine ⟨fun k hk => ?_, fun j hj => ?_⟩
  · have := hw.1 k hk fun k' h1 h2 => ?_
    · rw [habs] at this; exact this
    · rw [habs, habs]
      intro e
      have h3 : (s.c64Start t align + k' - (s.c64Start t align + k)) % nominalBits t = 0 :=
        Nat.sub_mod_eq_zero_of_mod_eq e
      rw [Nat.mod_eq_of_lt (by omega)] at h3
      omega
  · have := hw.2.1 (.trk (halftrack (2 * t))) j (.inr fun k hk => by rw [habs]; exact hj k hk)
    refine this.trans ?_
    have e : ((s.setMem (.trk (halftrack (2 * t))) []).setLen (2 * t) (nominalBits t)).bufBit
        (.trk (halftrack (2 * t))) j =
        (s.setMem (.trk (halftrack (2 * t))) []).bufBit (.trk (halftrack (2 * t))) j := rfl
    rw [e, State.bufBit, State.byteAt_setMem, if_pos rfl]
    rfl

theorem State.length_c64TrackBits (s : State) (t : Nat) (image : List Byte) (id1 id2 : Byte)
    (useErr : Bool) (h : 256 * sectorCount t ≤ image.length) :
    (s.c64TrackBits t image id1 id2 useErr).length = sectorCount t * sectorBits s.cfg t := by
  rw [State.c64TrackBits]
  refine length_flatMap_range _ _ _ fun k hk => ?_
  have h1 : 256 * (k + 1) ≤ image.length := Nat.le_trans (Nat.mul_le_mul_left _ hk) h
  have h2 : (imageChunk image Config.c64Payload k).length = 256 := by
    simp only [length_imageChunk, Config.c64Payload]; omega
  rw [length_c64SectorBits, h2, sectorBits]

/-- What `C64.ENCTRK` can answer, in the order of its checks (log 9). -/
theorem runC64Enctrk_cases (s : State) :
    (42 ≤ s.opT ∧ runC64Enctrk s = s.raiseFatal .badOperand) ∨
    (s.opT < 42 ∧ s.disk.present = false ∧ runC64Enctrk s = s.fail .noDisk) ∨
    (s.opT < 42 ∧ s.disk.present = true ∧ s.opSrcLen ≠ 256 * sectorCount s.opT ∧
      runC64Enctrk s = s.fail .formatErr) ∨
    (s.opT < 42 ∧ s.disk.present = true ∧ s.opSrcLen = 256 * sectorCount s.opT ∧
      ¬InDmem s.opAddr (256 * sectorCount s.opT) ∧ runC64Enctrk s = s.raiseFatal .badOperand) ∨
    (s.opT < 42 ∧ s.disk.present = true ∧ s.opSrcLen = 256 * sectorCount s.opT ∧
      InDmem s.opAddr (256 * sectorCount s.opT) ∧
      nominalBits s.opT < sectorCount s.opT * sectorBits s.cfg s.opT ∧
      runC64Enctrk s = s.raiseFatal .capacity) ∨
    (s.opT < 42 ∧ s.disk.present = true ∧ s.opSrcLen = 256 * sectorCount s.opT ∧
      InDmem s.opAddr (256 * sectorCount s.opT) ∧
      sectorCount s.opT * sectorBits s.cfg s.opT ≤ nominalBits s.opT ∧
      runC64Enctrk s =
        ((((s.c64EncodeTrack s.opT (s.readBytes .dmem s.opAddr (256 * sectorCount s.opT)) s.opId1
          s.opId2 s.opAlign s.opUseErr).setView s.opV
          (View.whole (.trk (halftrack (2 * s.opT))) (nominalBits s.opT))).setR0
          (wordOfNat (sectorCount s.opT * sectorBits s.cfg s.opT))).setR1
          (wordOfNat (s.c64Start s.opT s.opAlign))).ok) := by
  rw [← dmemOk_iff]
  simp only [runC64Enctrk, c64TrackOk, c64TooLong, Config.c64Payload, Config.numTracks]
  by_cases ht : s.opT < 42
  · by_cases hp : s.disk.present = true
    · by_cases hl : s.opSrcLen = 256 * sectorCount s.opT
      · by_cases hd : dmemOk s.opAddr (256 * sectorCount s.opT) = true
        · by_cases hc : nominalBits s.opT < sectorCount s.opT * sectorBits s.cfg s.opT
          · exact .inr (.inr (.inr (.inr (.inl ⟨ht, hp, hl, hd, hc, by
              simp [ht, hp, hl, hd, hc]⟩))))
          · exact .inr (.inr (.inr (.inr (.inr ⟨ht, hp, hl, hd, Nat.not_lt.1 hc, by
              simp [ht, hp, hl, hd, hc]⟩))))
        · exact .inr (.inr (.inr (.inl ⟨ht, hp, hl, hd, by simp [ht, hp, hl, hd]⟩)))
      · exact .inr (.inr (.inl ⟨ht, hp, hl, by simp [ht, hp, hl]⟩))
    · exact .inr (.inl ⟨ht, by simpa using hp, by simp [ht, hp]⟩)
  · exact .inl ⟨Nat.not_lt.1 ht, by simp [ht]⟩

/-- Sector `k` of an image in `DMEM`. -/
theorem imageChunk_readBytes (s : State) (sp : Space) (src size n k : Nat) (h : k < n) :
    imageChunk (s.readBytes sp src (size * n)) size k = s.readBytes sp (src + size * k) size := by
  have h1 : size * k + size ≤ size * n := by
    rw [← Nat.mul_succ]; exact Nat.mul_le_mul_left _ h
  apply List.ext_getElem
  · rw [length_imageChunk, State.length_readBytes, State.length_readBytes]; omega
  · intro i _ _
    simp only [imageChunk, List.getElem_take, List.getElem_drop, State.getElem_readBytes]
    congr 1; omega

/-! ## The unformatted disk (R304) -/

theorem State.clearDisk_byteAt (s : State) (h : Fin 84) (a : Nat) :
    s.clearDisk.byteAt (.trk h) a = 0x55 := by
  have : s.clearDisk.mem (.trk h) = [] := by simp [State.mem, State.clearDisk, blankTracks]
  rw [State.byteAt, this]; rfl

theorem State.clearDisk_lenOf (s : State) (h : Nat) (hh : h < 84) :
    s.clearDisk.lenOf h = nominalBits (h / 2) := by
  have := nominalBits_pos (h / 2)
  simp [State.lenOf, State.clearDisk, nominalLens, bankGet, hh, trackOf]
  omega

theorem State.clearDisk_byteAt_ne (s : State) (sp : Space) (h : ∀ k, sp ≠ .trk k) (a : Nat) :
    s.clearDisk.byteAt sp a = s.byteAt sp a := by
  cases sp with
  | trk k => exact absurd rfl (h k)
  | xtrk | dmem | errtab => rfl

/-! ## External tracks (R249, R279) -/

/-- What `AMI.ENCTRK` and `DOS.ENCTRK` can answer, in the order of their checks (log 9). -/
theorem encodeXtrackOp_cases (s : State) (n bits : Nat) (encode : List Byte → List Byte) :
    (160 ≤ s.opT ∧ encodeXtrackOp s n bits encode = s.raiseFatal .badOperand) ∨
    (s.opT < 160 ∧ s.opSrcLen ≠ n * Config.mfmPayload ∧
      encodeXtrackOp s n bits encode = s.fail .formatErr) ∨
    (s.opT < 160 ∧ s.opSrcLen = n * Config.mfmPayload ∧
      ¬InDmem s.opAddr (n * Config.mfmPayload) ∧
      encodeXtrackOp s n bits encode = s.raiseFatal .badOperand) ∨
    (s.opT < 160 ∧ s.opSrcLen = n * Config.mfmPayload ∧ InDmem s.opAddr (n * Config.mfmPayload) ∧
      encodeXtrackOp s n bits encode =
        storeXtrack s (encode (s.readBytes .dmem s.opAddr (n * Config.mfmPayload))) bits) := by
  rw [← dmemOk_iff]
  simp only [encodeXtrackOp, mfmTrackOk]
  by_cases ht : s.opT < 160
  · by_cases hl : s.opSrcLen = n * Config.mfmPayload
    · by_cases hd : dmemOk s.opAddr (n * Config.mfmPayload) = true
      · exact .inr (.inr (.inr ⟨ht, hl, hd, by simp [ht, hl, hd]⟩))
      · exact .inr (.inr (.inl ⟨ht, hl, hd, by simp [ht, hl, hd]⟩))
    · exact .inr (.inl ⟨ht, hl, by simp [ht, hl]⟩)
  · exact .inl ⟨Nat.not_lt.1 ht, by simp [ht]⟩

/-- What a stored external track leaves. -/
theorem storeXtrack_spec (s : State) (bytes : List Byte) (bits : Nat) :
    WroteBytes s (storeXtrack s bytes bits) .xtrk 0 bytes ∧
    (storeXtrack s bytes bits).withMemoriesOf s =
      { s.answered false false (some (wordOfNat bits)) (some 0) none none with
        xlen := BitVec.ofNat 18 bits
        views := s.views.set s.opV (View.whole .xtrk bits) } :=
  ⟨s.wroteBytes_writeBytes .xtrk 0 bytes, rfl⟩

/-! ## Decoding the sectors of a track (R219) -/

theorem Memory.storeBytes_append (sp : Space) (bs cs : List Byte) :
    ∀ (m : Memory) (a : Nat), Memory.storeBytes sp m a (bs ++ cs) =
      Memory.storeBytes sp (Memory.storeBytes sp m a bs) (a + bs.length) cs := by
  induction bs with
  | nil => intros; rfl
  | cons b bs ih =>
    intro m a
    simp only [List.cons_append, Memory.storeBytes, ih, List.length_cons]
    congr 1
    omega

theorem State.writeBytes_nil (s : State) (sp : Space) (a : Nat) : s.writeBytes sp a [] = s := by
  cases sp <;> simp [State.writeBytes, Memory.storeBytes, State.setMem, State.mem]

theorem State.writeBytes_append (s : State) (sp : Space) (a : Nat) (bs cs : List Byte) :
    (s.writeBytes sp a bs).writeBytes sp (a + bs.length) cs = s.writeBytes sp a (bs ++ cs) := by
  rw [State.writeBytes, State.writeBytes, State.writeBytes, Memory.storeBytes_append,
    State.mem_setMem_same]
  cases sp <;> simp [State.setMem]

/-- The loop from sector `k` on, where the payloads `done` are stored: the sectors `ds` decode one
after the other, and it ends with all sectors or with the first error. -/
theorem decodeTrackLoop_spec (size : Nat) (decode : BitStream → Nat → Except ErrCode Decoded)
    (hsize : ∀ b k d, decode b k = .ok d → d.payload.length = size) :
    ∀ (left k : Nat) (s : State), ∃ (ds : List Decoded) (e : ErrCode), ds.length ≤ left ∧
      (∀ d ∈ ds, d.payload.length = size) ∧
      (∀ j (h : j < ds.length), decode ((s.writeBytes .dmem (s.opAddr + size * k)
        ((ds.take j).flatMap Decoded.payload)).stream s.view) (k + j) = .ok ds[j]) ∧
      (if ds.length = left then e = .ok
        else decode ((s.writeBytes .dmem (s.opAddr + size * k)
          (ds.flatMap Decoded.payload)).stream s.view) (k + ds.length) = .error e) ∧
      decodeTrackLoop size decode left k s =
        (((s.writeBytes .dmem (s.opAddr + size * k) (ds.flatMap Decoded.payload)).setR0
          (wordOfNat (size * (k + ds.length)))).setR1 (wordOfNat (k + ds.length))).fail e := by
  intro left
  induction left with
  | zero =>
    intro k s
    exact ⟨[], .ok, le_rfl, by simp, by simp, by simp, by
      simp [State.writeBytes_nil, decodeTrackLoop]; rfl⟩
  | succ left ih =>
    intro k s
    rw [decodeTrackLoop]
    rcases hd : decode s.viewStream k with e | d
    · exact ⟨[], e, by simp, by simp, by simp, by simpa [State.writeBytes_nil, State.viewStream] using hd, by
        simp [State.writeBytes_nil]⟩
    · obtain ⟨ds, e, h1, h2, h3, h4, h5⟩ :=
        ih (k + 1) (s.writeBytes .dmem (s.opAddr + size * k) d.payload)
      have hp := hsize _ _ _ hd
      have hv : (s.writeBytes .dmem (s.opAddr + size * k) d.payload).view = s.view := rfl
      have ho : (s.writeBytes .dmem (s.opAddr + size * k) d.payload).opAddr + size * (k + 1) =
          s.opAddr + size * k + d.payload.length := by rw [hp, Nat.mul_succ, ← Nat.add_assoc]; rfl
      rw [ho] at h3 h4 h5
      simp only [State.writeBytes_append, hv] at h3 h4 h5
      refine ⟨d :: ds, e, by simpa using h1, by simpa [hp] using h2, ?_, ?_, ?_⟩
      · intro j hj
        cases j with
        | zero => simpa [State.writeBytes_nil, State.viewStream] using hd
        | succ j =>
          have := h3 j (by simpa using hj)
          rw [show k + (j + 1) = k + 1 + j by omega]
          simpa using this
      · by_cases hl : ds.length = left
        · rw [if_pos hl] at h4; rw [if_pos (by simpa using hl)]; exact h4
        · rw [if_neg hl] at h4; rw [if_neg (by simpa using hl)]
          rw [show k + (d :: ds).length = k + 1 + ds.length by simp; omega]
          simpa using h4
      · show decodeTrackLoop _ _ _ _ _ = _
        rw [h5, show k + 1 + ds.length = k + (d :: ds).length by simp; omega]
        simp

/-! ## The analyzer -/

/-- How an analysis ends (R331, R340). -/
theorem State.finishAnalysis_eq (s : State) (r : Report × Bool) (tracks : List Nat) :
    s.finishAnalysis r tracks =
      { s with
        report := r.1
        host := { s.host with
          r0 := wordOfNat (tracks.map fun h => (r.1.logOf h).length).sum
          r1 := wordOfNat (tracks.map r.1.recorded).sum
          status := { s.host.status with
            err := .ok, found := false, gcrInv := false, logOvf := r.2 } } } := rfl

theorem Report.infoOf_record (r : Report) (h len k : Nat) (sc : Scan) :
    (r.record h len sc).infoOf k =
      if k = h ∧ h < 85 then ⟨BitVec.ofNat 18 len, sc.sec⟩ else r.infoOf k :=
  bankGet_bankSet ..

theorem Report.logOf_record (r : Report) (h len k : Nat) (sc : Scan) :
    (r.record h len sc).logOf k = if k = h ∧ h < 85 then sc.log else r.logOf k :=
  bankGet_bankSet ..

/-- The analysis of the first `n` halftracks, one after the other. -/
theorem State.analyzeDisk_fold (s : State) (p n : Nat) (hn : n ≤ 85) :
    let acc := (List.range n).foldl (fun (acc : Report × Bool) h =>
      (acc.1.record h (s.lenOf h) (s.analyzeHalftrack p h),
        acc.2 || (s.analyzeHalftrack p h).ovf)) (s.report, false)
    (∀ k, acc.1.infoOf k = if k < n then
        ⟨BitVec.ofNat 18 (s.lenOf k), (s.analyzeHalftrack p k).sec⟩ else s.report.infoOf k) ∧
    (∀ k, acc.1.logOf k = if k < n then (s.analyzeHalftrack p k).log else s.report.logOf k) ∧
    acc.2 = (List.range n).any fun h => (s.analyzeHalftrack p h).ovf := by
  induction n with
  | zero => simp
  | succ n ih =>
    obtain ⟨h1, h2, h3⟩ := ih (by omega)
    simp only [List.range_succ, List.foldl_append, List.foldl_cons, List.foldl_nil,
      List.any_append, List.any_cons, List.any_nil, Bool.or_false]
    refine ⟨fun k => ?_, fun k => ?_, by rw [h3]⟩
    · rw [Report.infoOf_record]
      by_cases h : k = n
      · subst h; rw [if_pos ⟨rfl, by omega⟩, if_pos (by omega)]
      · rw [if_neg (fun e => h e.1), h1 k]
        by_cases hk : k < n
        · rw [if_pos hk, if_pos (by omega)]
        · rw [if_neg hk, if_neg (by omega)]
    · rw [Report.logOf_record]
      by_cases h : k = n
      · subst h; rw [if_pos ⟨rfl, by omega⟩, if_pos (by omega)]
      · rw [if_neg (fun e => h e.1), h2 k]
        by_cases hk : k < n
        · rw [if_pos hk, if_pos (by omega)]
        · rw [if_neg hk, if_neg (by omega)]

/-- What the analysis of the whole disk reports (R331). -/
theorem State.analyzeDisk_spec (s : State) (p : Nat) :
    (∀ k, (s.analyzeDisk p).1.infoOf k = if k < 84 then
        ⟨BitVec.ofNat 18 (s.lenOf k), (s.analyzeHalftrack p k).sec⟩ else s.report.infoOf k) ∧
    (∀ k, (s.analyzeDisk p).1.logOf k =
      if k < 84 then (s.analyzeHalftrack p k).log else s.report.logOf k) ∧
    (s.analyzeDisk p).2 = (List.range 84).any fun h => (s.analyzeHalftrack p h).ovf :=
  s.analyzeDisk_fold p 84 (by omega)

end Sys2Proof.Machine
end

