-- ==== Sys2Proof/Laws/Analysis.lean ====
section
/-! SUPPORT. What the analysis of a halftrack gives (47_analyzer.md): the walk of R335 by an invariant at
each position, the validation of R336 entry by entry, and the log of R343. -/

namespace Sys2Proof.Machine

/-- A header names one sector. -/
theorem BitStream.HeaderOf.unique {b : BitStream} {nsec k l : Nat} {i : Int}
    (h : b.HeaderOf nsec k i) (h' : b.HeaderOf nsec l i) : k = l := by
  obtain ⟨-, -, x, hx, rfl⟩ := h
  obtain ⟨-, -, y, hy, rfl⟩ := h'
  rw [hx] at hy; cases hy; rfl

/-- A data start is no header start. -/
theorem BitStream.DataAt.not_header {b : BitStream} {i : Int} (h : b.DataAt i) : ¬b.HeaderAt i := by
  intro h'
  have := h.2.symm.trans h'.2
  exact absurd this (by decide)

/-- The pending header of the walk at position `i` (R335). -/
def BitStream.Pending (b : BitStream) (nsec s0 i : Nat) (cur : Option Nat) : Prop :=
  ∀ k, cur = some k ↔ ∃ p : Nat, s0 ≤ p ∧ p < i ∧ b.HeaderOf nsec k p ∧
    ∀ m : Nat, p < m → m < i → ¬b.MarkAt m

/-- `isCand` (R333) decides whether a mark is there. -/
theorem isCand_iff (b : BitStream) (i : Int) : b.isCand i = true ↔ b.MarkAt i := by
  simp [BitStream.isCand, BitStream.MarkAt, and_comm]

/-- One more entry (R343). -/
theorem Scan.Logs.append {sc : Scan} {cap : Nat} {es : List LogEntry} (h : sc.Logs cap es)
    (code : LogCode) (sector : Byte) (lo hi : Int) :
    (sc.append cap code sector lo hi).Logs cap (es ++ [⟨code, sector, extent lo, extent hi⟩]) := by
  obtain ⟨h1, h2⟩ := h
  unfold Scan.append
  rcases Nat.lt_or_ge es.length cap with hl | hl
  · have : sc.log = es := by rw [h1, List.take_of_length_le (by omega)]
    rw [if_pos (by rw [this]; exact hl)]
    refine ⟨?_, ?_⟩
    · rw [List.take_of_length_le (by simp; omega)]; simp [this]
    · simp only [h2, List.length_append, List.length_singleton]
      rw [decide_eq_false (by omega), decide_eq_false (by omega)]
  · rw [if_neg (by rw [h1, List.length_take]; omega)]
    refine ⟨?_, ?_⟩
    · show sc.log = _
      rw [h1, List.take_append_of_le_length hl]
    · simp only [List.length_append, List.length_singleton]
      rw [decide_eq_true (by omega)]

/-- Logging leaves what is recorded. -/
@[simp] theorem Scan.at_append (sc : Scan) (cap code sector lo hi) (k : Nat) :
    (sc.append cap code sector lo hi).at k = sc.at k := by
  unfold Scan.append; split <;> rfl

/-- What is recorded after recording one sector. -/
theorem Scan.at_put (sc : Scan) (k : Nat) (x : SectorInfo) (j : Nat) (hk : k < 21) :
    (sc.put k x).at j = if j = k then x else sc.at j := by
  unfold Scan.put Scan.at
  rw [bankGet_bankSet]
  simp [hk]

/-- Recording leaves the log. -/
theorem Scan.Logs.put {sc : Scan} {cap : Nat} {es : List LogEntry} (h : sc.Logs cap es)
    (k : Nat) (x : SectorInfo) : (sc.put k x).Logs cap es := h

section walk
variable {b : BitStream} {nsec s0 i : Nat} {sec : Nat → SectorInfo} {log : List LogEntry}
  {cur : Option Nat}

/-- The pending header at a data start is the one whose data block begins there. -/
theorem BitStream.Pending.data (h : b.Pending nsec s0 i cur) (hd : b.DataAt i) (k : Nat) :
    cur = some k ↔ ∃ p : Nat, s0 ≤ p ∧ b.HeaderOf nsec k p ∧ b.DataOf p i := by
  rw [h k]
  constructor
  · rintro ⟨p, h1, h2, h3, h4⟩; exact ⟨p, h1, h3, hd, h2, h4⟩
  · rintro ⟨p, h1, h3, -, h2, h4⟩; exact ⟨p, h1, h2, h3, h4⟩

/-- The walk passes a position that is neither a header nor a data start. -/
theorem BitStream.WalkedTo.skip (h : b.WalkedTo nsec sec log s0 i) (h1 : ¬b.HeaderAt i)
    (h2 : ¬b.DataAt i) : b.WalkedTo nsec sec log s0 (i + 1) := by
  have e : ∀ p, p < i + 1 → ∀ k, b.HeaderOf nsec k (p : Nat) → p < i := by
    intro p hp k hk
    rcases Nat.lt_or_ge p i with h | h
    · exact h
    · obtain rfl : p = i := by omega
      exact absurd hk.1 h1
  have e2 : ∀ p q, q < i + 1 → b.DataOf p q → q < i := by
    intro p q hq hk
    rcases Nat.lt_or_ge q i with h | h
    · exact h
    · obtain rfl : q = i := by omega
      exact absurd hk.1 h2
  refine ⟨fun k p q a1 a2 a3 a4 a5 a6 => h.once k p q a1 (e p a2 k a5) a3 (e q a4 k a6) a5 a6,
    fun k p a1 a2 a3 => h.header k p a1 (e p a2 k a3) a3,
    fun k p q a1 a2 a3 a4 => h.data k p q a1 a2 (e2 p q a3 a4) a4,
    fun k hk a => h.noData k hk fun p q b1 b2 b3 => a p q b1 b2 (by omega),
    fun k hk a => h.noHeader k hk fun p b1 b2 => a p b1 (by omega), ?_⟩
  obtain ⟨ps, c1, c2, c3⟩ := h.logged
  refine ⟨ps, c1, fun j => ?_, c3⟩
  rw [c2]
  constructor
  · rintro ⟨a1, a2, a3⟩; exact ⟨a1, by omega, a3⟩
  · rintro ⟨a1, a2, a3⟩
    refine ⟨a1, ?_, a3⟩
    rcases Nat.lt_or_ge j i with h | h
    · exact h
    · obtain rfl : j = i := by omega
      rcases a3 with a3 | a3
      · exact absurd a3.1 h1
      · exact absurd a3.1 h2

/-- The walk passes a position that it logs. -/
theorem BitStream.WalkedTo.entry (h : b.WalkedTo nsec sec log s0 i) (h0 : s0 ≤ i)
    (h1 : ∀ k, ¬b.HeaderOf nsec k i)
    (h2 : ∀ k p : Nat, s0 ≤ p → b.HeaderOf nsec k p → ¬b.DataOf p i)
    (h3 : b.HeaderAt i ∨ b.DataAt i) :
    b.WalkedTo nsec sec (log ++ [if b.decodeGcr i = some 0x08 then
      ⟨.badSectorNr, 0xFF, reportPos i, reportPos (i + 80)⟩
      else ⟨.dataNoHeader, 0xFF, reportPos i, reportPos (i + 2600)⟩]) s0 (i + 1) := by
  have e : ∀ p, p < i + 1 → ∀ k, b.HeaderOf nsec k (p : Nat) → p < i := by
    intro p hp k hk
    rcases Nat.lt_or_ge p i with h | h
    · exact h
    · obtain rfl : p = i := by omega
      exact absurd hk (h1 k)
  have e2 : ∀ k p q, s0 ≤ p → b.HeaderOf nsec k (p : Nat) → q < i + 1 → b.DataOf p q → q < i := by
    intro k p q hp hk hq hd
    rcases Nat.lt_or_ge q i with h | h
    · exact h
    · obtain rfl : q = i := by omega
      exact absurd hd (h2 k p hp hk)
  refine ⟨fun k p q a1 a2 a3 a4 a5 a6 => h.once k p q a1 (e p a2 k a5) a3 (e q a4 k a6) a5 a6,
    fun k p a1 a2 a3 => h.header k p a1 (e p a2 k a3) a3,
    fun k p q a1 a2 a3 a4 => h.data k p q a1 a2 (e2 k p q a1 a2 a3 a4) a4,
    fun k hk a => h.noData k hk fun p q b1 b2 b3 => a p q b1 b2 (by omega),
    fun k hk a => h.noHeader k hk fun p b1 b2 => a p b1 (by omega), ?_⟩
  obtain ⟨ps, c1, c2, c3⟩ := h.logged
  refine ⟨ps ++ [i], ?_, fun j => ?_, by rw [c3]; simp⟩
  · rw [List.pairwise_append]
    refine ⟨c1, by simp, fun x hx y hy => ?_⟩
    have := ((c2 x).1 hx).2.1
    simp at hy; omega
  · rw [List.mem_append, c2, List.mem_singleton]
    constructor
    · rintro (⟨a1, a2, a3⟩ | rfl)
      · exact ⟨a1, by omega, a3⟩
      · exact ⟨h0, by omega, h3.imp (fun h => ⟨h, h1⟩) (fun h => ⟨h, h2⟩)⟩
    · rintro ⟨a1, a2, a3⟩
      rcases Nat.lt_or_ge j i with h | h
      · exact .inl ⟨a1, h, a3⟩
      · exact .inr (by omega)

/-- The walk passes a header whose number is new. -/
theorem BitStream.WalkedTo.putHeader (h : b.WalkedTo nsec sec log s0 i) (h0 : s0 ≤ i) {k : Nat}
    (hk : b.HeaderOf nsec k i) (hn : ∀ p : Nat, s0 ≤ p → p < i → ¬b.HeaderOf nsec k p) :
    b.WalkedTo nsec (fun j => if j = k then { sec k with
      headerBegin := reportPos i, headerEnd := reportPos (i + 80) } else sec j) log s0 (i + 1) := by
  have hnd : ¬b.DataAt i := fun h => h.not_header hk.1
  have e2 : ∀ p q, q < i + 1 → b.DataOf p q → q < i := by
    intro p q hq hpq
    rcases Nat.lt_or_ge q i with h | h
    · exact h
    · obtain rfl : q = i := by omega
      exact absurd hpq.1 hnd
  refine ⟨fun l p q a1 a2 a3 a4 a5 a6 => ?_, fun l p a1 a2 a3 => ?_, fun l p q a1 a2 a3 a4 => ?_,
    fun l hl a => ?_, fun l hl a => ?_, ?_⟩
  · rcases Nat.lt_or_ge p i with hp | hp <;> rcases Nat.lt_or_ge q i with hq | hq
    · exact h.once l p q a1 hp a3 hq a5 a6
    · obtain rfl : q = i := by omega
      obtain rfl := hk.unique a6
      exact absurd a5 (hn p a1 hp)
    · obtain rfl : p = i := by omega
      obtain rfl := hk.unique a5
      exact absurd a6 (hn q a3 hq)
    · omega
  · rcases Nat.lt_or_ge p i with hp | hp
    · have hlk : l ≠ k := by
        rintro rfl; exact hn p a1 hp a3
      simp only [if_neg hlk]
      exact h.header l p a1 hp a3
    · obtain rfl : p = i := by omega
      rw [if_pos (a3.unique hk)]
      exact ⟨rfl, rfl⟩
  · have hq := e2 p q a3 a4
    have hlk : l ≠ k := by
      rintro rfl; exact hn p a1 (by have := a4.2.1; omega) a2
    simp only [if_neg hlk]; exact h.data l p q a1 a2 hq a4
  · have := h.noData l hl fun p q b1 b2 b3 => a p q b1 b2 (by omega)
    split
    · rename_i e; subst e; exact this
    · exact this
  · have : l ≠ k := by
      rintro rfl; exact a i h0 (by omega) hk
    simp only [if_neg this]
    exact h.noHeader l hl fun p b1 b2 => a p b1 (by omega)
  · obtain ⟨ps, c1, c2, c3⟩ := h.logged
    refine ⟨ps, c1, fun j => ?_, c3⟩
    rw [c2]
    constructor
    · rintro ⟨a1, a2, a3⟩; exact ⟨a1, by omega, a3⟩
    · rintro ⟨a1, a2, a3⟩
      refine ⟨a1, ?_, a3⟩
      rcases Nat.lt_or_ge j i with h | h
      · exact h
      · obtain rfl : j = i := by omega
        rcases a3 with a3 | a3
        · exact absurd hk (a3.2 k)
        · exact absurd a3.1 hnd

/-- The walk passes the data block of the pending header. -/
theorem BitStream.WalkedTo.putData (h : b.WalkedTo nsec sec log s0 i) {k p0 : Nat}
    (h0 : s0 ≤ p0) (hk : b.HeaderOf nsec k p0) (hd : b.DataOf p0 i) :
    b.WalkedTo nsec (fun j => if j = k then { sec k with
      dataBegin := reportPos i, dataEnd := reportPos (i + 2600) } else sec j) log s0 (i + 1) := by
  have hnh : ¬b.HeaderAt i := hd.1.not_header
  have e : ∀ p, p < i + 1 → ∀ k, b.HeaderOf nsec k (p : Nat) → p < i := by
    intro p hp k hk
    rcases Nat.lt_or_ge p i with h | h
    · exact h
    · obtain rfl : p = i := by omega
      exact absurd hk.1 hnh
  have huniq : ∀ l p, s0 ≤ p → b.HeaderOf nsec l (p : Nat) → b.DataOf p i → l = k := by
    intro l p hp hl hpd
    have : p = p0 := by
      rcases Nat.lt_trichotomy p p0 with h | h | h
      · exact absurd hk.1.1 (hpd.2.2 p0 h hd.2.1)
      · exact h
      · exact absurd hl.1.1 (hd.2.2 p h hpd.2.1)
    subst this
    exact hl.unique hk
  refine ⟨fun k p q a1 a2 a3 a4 a5 a6 => h.once k p q a1 (e p a2 k a5) a3 (e q a4 k a6) a5 a6,
    fun l p a1 a2 a3 => ?_, fun l p q a1 a2 a3 a4 => ?_, fun l hl a => ?_, fun l hl a => ?_, ?_⟩
  · have := h.header l p a1 (e p a2 l a3) a3
    split
    · rename_i e; subst e; exact this
    · exact this
  · rcases Nat.lt_or_ge q i with hq | hq
    · have hl : l ≠ k := by
        rintro rfl
        have h2 := h.once l p p0 a1 (by have := a4.2.1; omega) h0 hd.2.1 a2 hk
        subst h2
        exact hd.2.2 q a4.2.1 hq a4.1.1
      simp only [if_neg hl]
      exact h.data l p q a1 a2 hq a4
    · obtain rfl : q = i := by omega
      rw [if_pos (huniq l p a1 a2 a4)]
      exact ⟨rfl, rfl⟩
  · have : l ≠ k := by
      rintro rfl; exact a p0 i h0 hk (by omega) hd
    simp only [if_neg this]
    exact h.noData l hl fun p q b1 b2 b3 => a p q b1 b2 (by omega)
  · have : l ≠ k := by
      rintro rfl; exact a p0 h0 (by have := hd.2.1; omega) hk
    simp only [if_neg this]
    exact h.noHeader l hl fun p b1 b2 => a p b1 (by omega)
  · obtain ⟨ps, c1, c2, c3⟩ := h.logged
    refine ⟨ps, c1, fun j => ?_, c3⟩
    rw [c2]
    constructor
    · rintro ⟨a1, a2, a3⟩; exact ⟨a1, by omega, a3⟩
    · rintro ⟨a1, a2, a3⟩
      refine ⟨a1, ?_, a3⟩
      rcases Nat.lt_or_ge j i with h | h
      · exact h
      · obtain rfl : j = i := by omega
        rcases a3 with a3 | a3
        · exact absurd a3.1 hnh
        · exact absurd hd (a3.2 k p0 h0 hk)

/-- The pending header stays where there is no mark. -/
theorem BitStream.Pending.skip (h : b.Pending nsec s0 i cur) (hm : ¬b.MarkAt i) :
    b.Pending nsec s0 (i + 1) cur := by
  intro k
  rw [h k]
  constructor
  · rintro ⟨p, h1, h2, h3, h4⟩
    refine ⟨p, h1, by omega, h3, fun m hm1 hm2 => ?_⟩
    rcases Nat.lt_or_ge m i with h | h
    · exact h4 m hm1 h
    · obtain rfl : m = i := by omega
      exact hm
  · rintro ⟨p, h1, h2, h3, h4⟩
    refine ⟨p, h1, ?_, h3, fun m hm1 hm2 => h4 m hm1 (by omega)⟩
    rcases Nat.lt_or_ge p i with h | h
    · exact h
    · obtain rfl : p = i := by omega
      exact absurd h3.1.1 hm

/-- No header is pending behind a mark that is no legal header. -/
theorem BitStream.Pending.none (hm : b.MarkAt i) (hn : ∀ k, ¬b.HeaderOf nsec k i) :
    b.Pending nsec s0 (i + 1) none := by
  intro k
  refine ⟨fun h => (by simp at h), ?_⟩
  rintro ⟨p, h1, h2, h3, h4⟩
  rcases Nat.lt_or_ge p i with h | h
  · exact absurd hm (h4 i h (by omega))
  · obtain rfl : p = i := by omega
    exact absurd h3 (hn k)

/-- A legal header is pending behind itself. -/
theorem BitStream.Pending.some {k : Nat} (h0 : s0 ≤ i) (hk : b.HeaderOf nsec k i) :
    b.Pending nsec s0 (i + 1) (some k) := by
  intro l
  constructor
  · rintro h; cases h; exact ⟨i, h0, by omega, hk, by omega⟩
  · rintro ⟨p, h1, h2, h3, h4⟩
    rcases Nat.lt_or_ge p i with h | h
    · exact absurd hk.1.1 (h4 i h (by omega))
    · obtain rfl : p = i := by omega
      rw [h3.unique hk]

end walk

/-- The loop of the walk, from any position it has reached. -/
theorem BitStream.walkLoop_spec (b : BitStream) (cap nsec s0 : Nat) (hn : nsec ≤ 21) :
    ∀ (left i : Nat) (cur : Option Nat) (sc : Scan) (log : List LogEntry), s0 ≤ i →
      b.WalkedTo nsec sc.at log s0 i → b.Pending nsec s0 i cur → sc.Logs cap log →
      ∃ (stop : Nat) (log' : List LogEntry), i ≤ stop ∧ stop ≤ i + left ∧
        (stop < i + left → ∃ k p : Nat, s0 ≤ p ∧ p < stop ∧ b.HeaderOf nsec k p ∧
          b.HeaderOf nsec k stop) ∧
        b.WalkedTo nsec (b.walkLoop cap nsec left i cur sc).at log' s0 stop ∧
        (b.walkLoop cap nsec left i cur sc).Logs cap log' := by
  intro left
  induction left with
  | zero => intro i cur sc log h0 hw hp hl; exact ⟨i, log, le_rfl, le_rfl, by omega, hw, hl⟩
  | succ left ih =>
    intro i cur sc log h0 hw hp hl
    have next : ∀ (cur' : Option Nat) (sc' : Scan) (log' : List LogEntry),
        b.walkLoop cap nsec (left + 1) i cur sc = b.walkLoop cap nsec left (i + 1 : Nat) cur' sc' →
        b.WalkedTo nsec sc'.at log' s0 (i + 1) → b.Pending nsec s0 (i + 1) cur' →
        sc'.Logs cap log' →
        ∃ (stop : Nat) (log' : List LogEntry), i ≤ stop ∧ stop ≤ i + (left + 1) ∧
          (stop < i + (left + 1) → ∃ k p : Nat, s0 ≤ p ∧ p < stop ∧ b.HeaderOf nsec k p ∧
            b.HeaderOf nsec k stop) ∧
          b.WalkedTo nsec (b.walkLoop cap nsec (left + 1) i cur sc).at log' s0 stop ∧
          (b.walkLoop cap nsec (left + 1) i cur sc).Logs cap log' := by
      intro cur' sc' log' he hw' hp' hl'
      obtain ⟨stop, l, h1, h2, h3, h4, h5⟩ := ih (i + 1) cur' sc' log' (by omega) hw' hp' hl'
      rw [he]
      exact ⟨stop, l, by omega, by omega, fun h => h3 (by omega), h4, h5⟩
    have ei : ((i : Int) + 1) = ((i + 1 : Nat) : Int) := by push_cast; rfl
    by_cases hm : b.MarkAt i
    · have hc : b.candId i = some (b.decodeGcr i) := by
        rw [BitStream.candId, if_pos ((isCand_iff b i).2 hm)]
      by_cases h8 : b.decodeGcr i = some 0x08
      · have hh : b.HeaderAt i := ⟨hm, h8⟩
        have hnd : ¬b.DataAt i := fun h => h.not_header hh
        have bad : (∀ k, ¬b.HeaderOf nsec k i) →
            b.walkLoop cap nsec (left + 1) i cur sc = b.walkLoop cap nsec left (i + 1 : Nat) none
              (sc.append cap .badSectorNr noSector i (i + 80)) → _ := fun hno he =>
          next none (sc.append cap .badSectorNr noSector i (i + 80))
            (log ++ [⟨.badSectorNr, noSector, extent i, extent (i + 80)⟩]) he
            (by
              have := hw.entry h0 hno (fun k p _ _ hd => hnd hd.1) (.inl hh)
              rw [if_pos h8] at this
              have e : (sc.append cap .badSectorNr noSector i (i + 80)).at = sc.at := by
                funext k; simp
              rw [e]; exact this)
            (BitStream.Pending.none hm hno)
            (hl.append ..)
        rcases hx : b.decodeGcr (i + 20) with _ | x
        · exact bad (fun k hk => by obtain ⟨-, -, y, hy, -⟩ := hk; rw [hx] at hy; cases hy)
            (by simp only [BitStream.walkLoop, hc, h8, hx, if_true]; rw [ei])
        · by_cases hxn : x.toNat < nsec
          · have hof : b.HeaderOf nsec x.toNat i := ⟨hh, hxn, x, hx, rfl⟩
            by_cases hrep : ∃ p : Nat, s0 ≤ p ∧ p < i ∧ b.HeaderOf nsec x.toNat p
            · obtain ⟨p, hp1, hp2, hp3⟩ := hrep
              have hhd : (sc.at x.toNat).hasHeader = true := by
                obtain ⟨e1, e2⟩ := hw.header _ p hp1 hp2 hp3
                simp only [SectorInfo.hasHeader, e1, e2, reportPos, bne_iff_ne, ne_eq]
                intro h
                have := congrArg BitVec.toNat h
                simp at this; omega
              have he : b.walkLoop cap nsec (left + 1) i cur sc = sc := by
                simp only [BitStream.walkLoop, hc, h8, hx, hxn, hhd, if_true]
              rw [he]
              exact ⟨i, log, le_rfl, by omega, fun _ => ⟨_, p, hp1, hp2, hp3, hof⟩, hw, hl⟩
            · have hno : ∀ p : Nat, s0 ≤ p → p < i → ¬b.HeaderOf nsec x.toNat p :=
                fun p a1 a2 a3 => hrep ⟨p, a1, a2, a3⟩
              have hhd : (sc.at x.toNat).hasHeader = false := by
                rw [hw.noHeader _ (by omega) hno]; rfl
              refine next (some x.toNat) (sc.put x.toNat
                { sc.at x.toNat with headerBegin := extent i, headerEnd := extent (i + 80) }) log
                ?_ ?_ (BitStream.Pending.some h0 hof) (hl.put _ _)
              · simp only [BitStream.walkLoop, hc, h8, hx, hxn, hhd, if_true]
                rw [ei]; rfl
              · have := hw.putHeader h0 hof hno
                have e : (sc.put x.toNat { sc.at x.toNat with
                    headerBegin := extent i, headerEnd := extent (i + 80) }).at = _ :=
                  funext fun j => Scan.at_put sc _ _ j (by omega)
                rw [e]; exact this
          · exact bad (fun k hk => by
              obtain ⟨-, hlt, y, hy, hyk⟩ := hk; rw [hx] at hy; cases hy; omega)
              (by simp only [BitStream.walkLoop, hc, h8, hx, hxn, if_true, if_false]; rw [ei])
      · have hnh : ¬b.HeaderAt i := fun h => h8 h.2
        have hno : ∀ k, ¬b.HeaderOf nsec k i := fun k h => hnh h.1
        by_cases h7 : b.decodeGcr i = some 0x07
        · have hd : b.DataAt i := ⟨hm, h7⟩
          have h78 : ¬((some 0x07 : Option Byte) = some 0x08) := by decide
          rcases cur with _ | k
          · have hno2 : ∀ k p : Nat, s0 ≤ p → b.HeaderOf nsec k p → ¬b.DataOf p i := by
              intro k p a1 a2 a3
              have := (hp.data hd k).2 ⟨p, a1, a2, a3⟩
              simp at this
            refine next none (sc.append cap .dataNoHeader noSector i (i + 2600))
              (log ++ [⟨.dataNoHeader, noSector, extent i, extent (i + 2600)⟩]) ?_ ?_
              (BitStream.Pending.none hm hno) ?_
            · simp only [BitStream.walkLoop, hc, h7, if_neg h78, if_true]; rw [ei]
            · have := hw.entry h0 hno hno2 (.inr hd)
              rw [if_neg h8] at this
              have e : (sc.append cap .dataNoHeader noSector i (i + 2600)).at = sc.at := by
                funext k; simp
              rw [e]; exact this
            · exact hl.append ..
          · obtain ⟨p, a1, a2, a3⟩ := (hp.data hd k).1 rfl
            refine next none (sc.put k
              { sc.at k with dataBegin := extent i, dataEnd := extent (i + 2600) }) log ?_ ?_
              (BitStream.Pending.none hm hno) (hl.put _ _)
            · simp only [BitStream.walkLoop, hc, h7, if_neg h78, if_true]; rw [ei]
            · have := hw.putData a1 a2 a3
              have e : (sc.put k
                  { sc.at k with dataBegin := extent i, dataEnd := extent (i + 2600) }).at = _ :=
                funext fun j => Scan.at_put sc _ _ j (by have := a2.2.1; omega)
              rw [e]; exact this
        · exact next none sc log (by
            simp only [BitStream.walkLoop, hc, if_neg h8, if_neg h7]; rw [ei])
            (hw.skip hnh (fun h => h7 h.2)) (BitStream.Pending.none hm hno) hl
    · have hc : b.candId i = none := by
        rw [BitStream.candId, if_neg (fun h => hm ((isCand_iff b i).1 h))]
      exact next cur sc log (by simp only [BitStream.walkLoop, hc, ]; rw [ei])
        (hw.skip (fun h => hm h.1) (fun h => hm h.1)) (hp.skip hm) hl

/-- R335: what the whole walk records and logs. -/
theorem BitStream.walk_spec (b : BitStream) (cap nsec : Nat) (hn : nsec ≤ 21) :
    ∃ log, (((∀ i < b.size, ¬b.HeaderAt i) ∧ log = [] ∧
        ∀ k < 21, (b.walk cap nsec).at k = ⟨0, 0, 0, 0⟩) ∨
      ∃ s0 stop, b.Walked nsec (b.walk cap nsec).at log s0 stop) ∧
      (b.walk cap nsec).Logs cap log := by
  have hstart : ∀ k, Scan.start.at k = ⟨0, 0, 0, 0⟩ := by
    intro k
    simp only [Scan.start, Scan.at, bankGet, SectorInfo.none, Vector.getElem?_replicate]
    split <;> rfl
  have hc : ∀ i : Nat, (b.candId i == some (some 0x08)) = true ↔ b.HeaderAt i := by
    intro i
    rw [beq_iff_eq, BitStream.candId, BitStream.HeaderAt, ← isCand_iff]
    split <;> simp_all
  rw [BitStream.walk]
  rcases hf : b.firstHeader with _ | s0
  · refine ⟨[], .inl ⟨fun i hi h => ?_, rfl, fun k _ => hstart k⟩, by simp [Scan.Logs, Scan.start]⟩
    have := List.find?_eq_none.1 hf i (by simpa using hi)
    exact this ((hc i).2 h)
  · obtain ⟨h1, l1, l2, hl, h3⟩ := List.find?_eq_some_iff_append.1 hf
    have hs : s0 < b.size ∧ ∀ i < s0, ¬b.HeaderAt i := by
      have hlen : l1.length = s0 ∧ s0 < b.size := by
        have hlt : l1.length < b.size := by
          have := congrArg List.length hl; simp at this; omega
        have := congrArg (fun l => l[l1.length]?) hl
        simp [List.getElem?_range hlt] at this
        omega
      refine ⟨hlen.2, fun i hi h => ?_⟩
      have hi1 : i ∈ l1 := by
        have := congrArg (fun l => l[i]?) hl
        simp only [List.getElem?_range (show i < b.size by omega)] at this
        rw [List.getElem?_append_left (by omega)] at this
        exact List.mem_of_getElem? this.symm
      have := h3 i hi1
      rw [(hc i).2 h] at this; simp at this
    have h8 := (hc s0).1 h1
    obtain ⟨stop, log, a1, a2, a3, a4, a5⟩ := b.walkLoop_spec cap nsec s0 hn b.size s0 none Scan.start []
      le_rfl ⟨by intros; omega, by intros; omega,
        fun k p q _ _ _ h => by have := h.2.1; omega, fun k _ _ => by rw [hstart]; exact ⟨rfl, rfl⟩,
        fun k _ _ => hstart k, [], by simp, fun i => by simp; omega, by simp⟩
      (fun k => by constructor
                   · intro h; simp at h
                   · rintro ⟨p, _, _, _⟩; omega)
      (by simp [Scan.Logs, Scan.start])
    refine ⟨log, .inr ⟨s0, stop, a4, ⟨hs.1, h8, hs.2⟩, ?_, a2, a3⟩, a5⟩
    rcases Nat.eq_or_lt_of_le a1 with rfl | h
    · obtain ⟨k, p, b1, b2, _⟩ := a3 (by omega)
      omega
    · exact h

/-- One more entry whose positions are those of the report. -/
theorem Scan.Logs.appendOpt {sc : Scan} {cap : Nat} {es : List LogEntry} (h : sc.Logs cap es)
    (code : LogCode) (sector : Byte) (lo hi : BitVec 19) :
    (sc.append cap code sector lo.toNat hi.toNat).Logs cap (es ++ [⟨code, sector, lo, hi⟩]) := by
  have := h.append code sector lo.toNat hi.toNat
  have e : ∀ x : BitVec 19, extent x.toNat = x := by
    intro x; simp [extent]
  rwa [e, e] at this

/-- Validation leaves what is recorded. -/
theorem BitStream.validateHeader_at (b : BitStream) (cap e k sc) :
    (b.validateHeader cap e k sc).at = sc.at := by
  funext j
  unfold BitStream.validateHeader
  cases e <;> cases hh : (sc.at k).hasHeader <;> simp only [hh] <;> (repeat' split) <;> simp_all

/-- Validation leaves what is recorded. -/
theorem BitStream.validateData_at (b : BitStream) (cap e k sc) :
    (b.validateData cap e k sc).at = sc.at := by
  funext j
  unfold BitStream.validateData
  cases e <;> cases hh : (sc.at k).hasData <;> simp only [hh] <;> (repeat' split) <;> simp_all

/-- A run that decodes has the length asked for (R168). -/
theorem length_of_decodeGcrBytes {b : BitStream} : ∀ {m : Nat} {pos : Int} {l : List Byte},
    b.decodeGcrBytes pos m = some l → l.length = m := by
  intro m
  induction m with
  | zero => intro pos l h; simp [BitStream.decodeGcrBytes] at h; simp [← h]
  | succ m ih =>
    intro pos l h
    rw [BitStream.decodeGcrBytes] at h
    split at h
    · simp at h
    · obtain ⟨l', h1, rfl⟩ := Option.map_eq_some_iff.1 h
      simp [ih h1]

/-- The header check of R215, byte by byte. -/
theorem c64HeaderOk_iff (h : List Byte) (hl : h.length = 6) : c64HeaderOk h = true ↔
    h.getD 1 0 = h.getD 2 0 ^^^ h.getD 3 0 ^^^ h.getD 4 0 ^^^ h.getD 5 0 := by
  match h, hl with
  | [a, c, d, e, f, g], _ => simp [c64HeaderOk]

/-- The data check of R215. -/
theorem c64DataOk_iff (d : List Byte) : c64DataOk d = true ↔
    d.getD 256 0 = (d.take 256).foldl (· ^^^ ·) 0 := by
  simp only [c64DataOk, xorBytes, beq_iff_eq, Config.c64Payload]

/-- R336: the entries of one sector. -/
theorem BitStream.validate_spec (b : BitStream) (cap : Nat) (expect : Bool) (k : Nat) (sc : Scan)
    (es : List LogEntry) (h : sc.Logs cap es) :
    (b.validate cap expect sc k).at = sc.at ∧
      (b.validate cap expect sc k).Logs cap (es ++ b.validation expect k (sc.at k)) := by
  refine ⟨by rw [BitStream.validate, BitStream.validateData_at, BitStream.validateHeader_at], ?_⟩
  have key : ∀ (sc1 : Scan) (es1 : List LogEntry), sc1.at = sc.at → sc1.Logs cap es1 →
      (b.validateData cap expect k sc1).Logs cap (es1 ++
        (if (sc.at k).dataBegin = (sc.at k).dataEnd then
          (if expect then [(⟨.dataMissing, BitVec.ofNat 8 k, 0, 0⟩ : LogEntry)] else [])
         else match b.decodeGcrBytes ((sc.at k).dataBegin.toNat + 10) 257 with
          | none => [⟨.dataGcr, BitVec.ofNat 8 k, (sc.at k).dataBegin, (sc.at k).dataEnd⟩]
          | some d =>
            if d.getD 256 0 = (d.take 256).foldl (· ^^^ ·) 0 then []
            else [⟨.dataCksum, BitVec.ofNat 8 k, (sc.at k).dataBegin, (sc.at k).dataEnd⟩])) := by
    intro sc1 es1 ha hl
    unfold BitStream.validateData
    rw [ha]
    by_cases hd : (sc.at k).dataBegin = (sc.at k).dataEnd
    · have : (sc.at k).hasData = false := by simp [SectorInfo.hasData, hd]
      simp only [this, if_pos hd]
      cases expect
      · simpa using hl
      · exact hl.append ..
    · have : (sc.at k).hasData = true := by simp [SectorInfo.hasData, hd]
      simp only [this, if_neg hd, if_true]
      rcases hx : b.decodeGcrBytes ((sc.at k).dataBegin.toNat + 10) 257 with _ | d
      · exact hl.appendOpt ..
      · simp only []
        by_cases hok : c64DataOk d = true
        · rw [if_pos hok, if_pos ((c64DataOk_iff d).1 hok)]; simpa using hl
        · rw [if_neg hok, if_neg (fun h => hok ((c64DataOk_iff d).2 h))]
          exact hl.appendOpt ..
  rw [BitStream.validate, BitStream.validation, ← List.append_assoc]
  refine key _ _ (BitStream.validateHeader_at ..) ?_
  unfold BitStream.validateHeader
  by_cases hd : (sc.at k).headerBegin = (sc.at k).headerEnd
  · have : (sc.at k).hasHeader = false := by simp [SectorInfo.hasHeader, hd]
    simp only [this, if_pos hd]
    cases expect
    · simpa using h
    · exact h.append ..
  · have : (sc.at k).hasHeader = true := by simp [SectorInfo.hasHeader, hd]
    simp only [this, if_neg hd, if_true]
    rcases hx : b.decodeGcrBytes (sc.at k).headerBegin.toNat 6 with _ | d
    · exact h.appendOpt ..
    · simp only []
      have hlen := length_of_decodeGcrBytes hx
      by_cases hok : c64HeaderOk d = true
      · rw [if_pos hok, if_pos ((c64HeaderOk_iff d hlen).1 hok)]; simpa using h
      · rw [if_neg hok, if_neg (fun h => hok ((c64HeaderOk_iff d hlen).2 h))]
        exact h.appendOpt ..

/-- R336: the entries of several sectors, one after the other. -/
theorem BitStream.validate_fold (b : BitStream) (cap : Nat) (expect : Bool) (ks : List Nat) :
    ∀ (sc : Scan) (es : List LogEntry), sc.Logs cap es →
    (ks.foldl (b.validate cap expect) sc).at = sc.at ∧
      (ks.foldl (b.validate cap expect) sc).Logs cap
        (es ++ ks.flatMap fun k => b.validation expect k (sc.at k)) := by
  induction ks with
  | nil => intro sc es h; exact ⟨rfl, by simpa using h⟩
  | cons k ks ih =>
    intro sc es h
    obtain ⟨h1, h2⟩ := b.validate_spec cap expect k sc es h
    obtain ⟨h3, h4⟩ := ih _ _ h2
    refine ⟨h3.trans h1, ?_⟩
    rw [h1] at h4
    simpa using h4

/-- No zone has more than 21 sectors (R301). -/
theorem sectorCount_le (t : Nat) : sectorCount t ≤ 21 := by
  unfold sectorCount; repeat' split
  all_goals omega

/-- R331, R332: the analysis of a halftrack is the walk, then the validation. -/
theorem State.analyzeHalftrack_spec (s : State) (n h : Nat) :
      let sc := s.analyzeHalftrack n h
      let b := s.stream ⟨.trk (halftrack h), 0, BitVec.ofNat 32 (s.lenOf h)⟩
      let nsec := sectorCount (h / 2)
      let expect := decide (h % 2 = 0 ∧ h / 2 < n)
      ∃ walk : List LogEntry,
        (((∀ i < b.size, ¬b.HeaderAt i) ∧ walk = [] ∧ ∀ k < 21, sc.at k = ⟨0, 0, 0, 0⟩) ∨
          ∃ s0 stop, b.Walked nsec sc.at walk s0 stop) ∧
        sc.Logs s.cfg.logCap
          (walk ++ (List.range nsec).flatMap fun k => b.validation expect k (sc.at k)) := by
  intro sc b nsec expect
  obtain ⟨walk, h1, h2⟩ := b.walk_spec s.cfg.logCap nsec (sectorCount_le _)
  have hb : s.stream (s.trackView h) = b := rfl
  have hsc : sc = (List.range nsec).foldl (b.validate s.cfg.logCap expect)
      (if s.lenOf h = 0 then Scan.start else b.walk s.cfg.logCap nsec) := rfl
  have hw : (if s.lenOf h = 0 then Scan.start else b.walk s.cfg.logCap nsec) =
      b.walk s.cfg.logCap nsec := by
    split
    · rename_i h0
      have : b.size = 0 := by
        show View.size _ = 0
        simp [View.size, h0]
      have : b.firstHeader = none := by simp [BitStream.firstHeader, this]
      rw [BitStream.walk, this]
    · rfl
  rw [hw] at hsc
  obtain ⟨h3, h4⟩ := b.validate_fold s.cfg.logCap expect (List.range nsec) _ _ h2
  rw [← hsc] at h3 h4
  rw [← h3] at h1
  refine ⟨walk, h1, ?_⟩
  rw [h3]; exact h4

end Sys2Proof.Machine
end

