-- ==== Sys2Proof/Laws/Clocking.lean ====
section
/-! SUPPORT. Clocking passes byte by byte (R189, R246, R274, R276). -/

namespace Sys2Proof.Machine

/-- Each byte of a clocked run is clocked against the one before it as written (R189). -/
theorem getD_addClockRun (m : List Byte) : ∀ (p : Byte), ∀ k < m.length,
    (addClockRun m p).getD k 0 =
      addClock (m.getD k 0) (if k = 0 then p else (addClockRun m p).getD (k - 1) 0) := by
  induction m with
  | nil => intro p k h; simp at h
  | cons x m ih =>
    intro p k hk
    cases k with
    | zero => simp [addClockRun]
    | succ k =>
      have := ih (addClock x p) k (by simpa using hk)
      simp only [addClockRun, List.getD_cons_succ, this]
      cases k <;> simp

/-- The same for a pass that leaves the bytes at some indices as they are (R246). -/
theorem getD_addClockRunSkipping (skip : Nat → Bool) (m : List Byte) :
    ∀ (n : Nat) (p : Byte), ∀ k < m.length,
    (addClockRunSkipping skip n m p).getD k 0 =
      if skip (n + k) then m.getD k 0
      else addClock (m.getD k 0)
        (if k = 0 then p else (addClockRunSkipping skip n m p).getD (k - 1) 0) := by
  induction m with
  | nil => intro n p k h; simp at h
  | cons x m ih =>
    intro n p k hk
    cases k with
    | zero => simp [addClockRunSkipping]
    | succ k =>
      have := ih (n+1) (if skip n then x else addClock x p) k (by simpa using hk)
      simp only [addClockRunSkipping, List.getD_cons_succ]
      rw [this, show n + 1 + k = n + (k+1) by omega]
      congr 1
      cases k <;> simp

/-- The bytes after patching (R274). -/
theorem getD_dosPatch (mark : Nat → Bool) (m : List Byte) : ∀ n k, k < m.length →
    (dosPatch mark n m).getD k 0 =
      if mark (n + k) then m.getD k 0 &&& 0xDF else m.getD k 0 := by
  induction m with
  | nil => intro n k h; simp at h
  | cons x m ih =>
    intro n k hk
    cases k with
    | zero => simp [dosPatch]
    | succ k =>
      simp only [dosPatch, List.getD_cons_succ]
      rw [ih _ _ (by simpa using hk), show n + 1 + k = n + (k+1) by omega]

/-- Patching a byte does not change how the next one is clocked. -/
theorem addClock_patched : ∀ (x p : Byte), addClock x (p &&& 0xDF) = addClock x p := by
  intro x p; simp only [addClock]; congr 4; rw [BitVec.and_assoc]; rfl

/-- The high byte of a spread 0xA1 keeps its clock bits 0. -/
theorem addClock_0x44 : ∀ p : Byte, addClock 0x44 p = 0x44 := by decide +kernel

/-- The two MFM bytes of each data byte (R277). -/
theorem getD_mfmBytes (ds : List Byte) : ∀ k < ds.length,
    (mfmBytes ds).getD (2 * k) 0 = (mfmSpread (ds.getD k 0)).extractLsb' 8 8 ∧
      (mfmBytes ds).getD (2 * k + 1) 0 = (mfmSpread (ds.getD k 0)).extractLsb' 0 8 := by
  induction ds with
  | nil => intro k h; simp at h
  | cons d ds ih =>
    intro k hk
    have e : mfmBytes (d :: ds) = (mfmSpread d).extractLsb' 8 8 ::
      (mfmSpread d).extractLsb' 0 8 :: mfmBytes ds := rfl
    cases k with
    | zero => rw [e]; simp
    | succ k =>
      rw [e, show 2 * (k + 1) = 2 * k + 1 + 1 by omega]
      simpa using ih k (by simpa using hk)

/-- An Amiga run whose sync words are left as they are (R246). -/
theorem clockedRun_amiga (sync : Nat → Bool) (m : List Byte) (prev : Byte)
   (hs : ∀ i < m.length, sync i = true → m.getD i 0 = if i % 2 = 0 then 0x44 else 0x89) :
   ClockedRun sync m prev (addClockRunSkipping sync 0 m prev) := by
  refine ⟨by simp, fun i hi => ?_⟩
  rw [getD_addClockRunSkipping _ _ _ _ _ hi, Nat.zero_add]
  split
  · exact hs i hi ‹_›
  · rfl

/-- A DOS run: words that hold 0xA1 become sync words when bit 5 of their low bytes is cleared (R274). -/
theorem clockedRun_dos (sync mark : Nat → Bool) (ds : List Byte) (prev : Byte)
   (hs : ∀ i < 2 * ds.length, sync i = true →
     ds.getD (i / 2) 0 = 0xA1 ∧ ∀ j, j / 2 = i / 2 → sync j = true)
   (hm : ∀ i < 2 * ds.length, mark i = (sync i && decide (i % 2 = 1))) :
   ClockedRun sync (mfmBytes ds) prev (dosPatch mark 0 (addClockRun (mfmBytes ds) prev)) := by
  have hl : (mfmBytes ds).length = 2 * ds.length := by simp
  have hc := getD_addClockRun (mfmBytes ds) prev
  set run := addClockRun (mfmBytes ds) prev with hrun
  have hrl : run.length = 2 * ds.length := by simp [hrun]
  refine ⟨by simp [hrl], fun i hi => ?_⟩
  have hi' : i < 2 * ds.length := by omega
  have hp : ∀ k < 2 * ds.length, (dosPatch mark 0 run).getD k 0 =
      if mark k then run.getD k 0 &&& 0xDF else run.getD k 0 := by
    intro k hk; rw [getD_dosPatch _ _ _ _ (by omega), Nat.zero_add]
  have hprev : ∀ x, addClock x (if i = 0 then prev else (dosPatch mark 0 run).getD (i-1) 0) =
      addClock x (if i = 0 then prev else run.getD (i-1) 0) := by
    intro x
    by_cases h0 : i = 0
    · simp [h0]
    · rw [if_neg h0, if_neg h0, hp _ (by omega)]
      split
      · rw [addClock_patched]
      · rfl
  rw [hprev, ← hc i hi, hp i hi', hm i hi']
  by_cases h : sync i = true
  · obtain ⟨h1, h2⟩ := hs i hi' h
    rw [if_pos h, h]
    obtain ⟨g1, g2⟩ := getD_mfmBytes ds (i/2) (by omega)
    rw [h1] at g1 g2
    have s1 : (mfmSpread 0xA1).extractLsb' 8 8 = 0x44 := by decide
    have s2 : (mfmSpread 0xA1).extractLsb' 0 8 = 0x01 := by decide
    by_cases he : i % 2 = 0
    · have : 2 * (i/2) = i := by omega
      rw [this, s1] at g1
      rw [if_neg (by simp [he]), if_pos he, hc i hi, g1, addClock_0x44]
    · have : 2 * (i/2) + 1 = i := by omega
      have h1' : 2 * (i/2) = i - 1 := by omega
      rw [this, s2] at g2
      rw [h1', s1] at g1
      have he1 : i % 2 = 1 := by omega
      rw [if_pos (by simp [he1]), if_neg he, hc i hi, g2, if_neg (by omega), hc (i-1) (by omega), g1,
        addClock_0x44]
      decide
  · simp [h]

end Sys2Proof.Machine
end

