-- ==== Sys2Proof/Laws/Decode.lean ====
section
/-! SUPPORT. The opcode map as a bijection between its bytes and the operations. -/

namespace Sys2Proof

theorem lookupByte_encodeByte (i : Instr) : lookupByte (encodeByte i) = some i := by
  cases i <;> rfl

theorem lookupByte_all : ∀ b : Byte, (lookupByte b).all (fun i => encodeByte i == b) = true := by
  decide +kernel

/-- R93: a byte names an operation exactly when it is that operation's command byte. -/
theorem lookupByte_eq_some (b : Byte) (i : Instr) : lookupByte b = some i ↔ encodeByte i = b := by
  constructor
  · intro h
    have := lookupByte_all b
    rw [h] at this
    simpa using this
  · rintro rfl
    exact lookupByte_encodeByte i

/-- A command byte decodes on the port that accepts it. -/
theorem decode_encodeByte (i : Instr) (rest : List Byte) :
    decode i.port (encodeByte i :: rest) = .ok (i, rest) := by
  simp [decode, lookupByte_encodeByte, wellFormed]

/-- What decoding one byte can answer. -/
theorem decode_cons_cases (p : Port) (b : Byte) (rest : List Byte) :
    (∃ i, encodeByte i = b ∧ i.port = p ∧ decode p (b :: rest) = .ok (i, rest)) ∨
      ((∀ i, encodeByte i = b → i.port ≠ p) ∧ decode p (b :: rest) = .error (.illegal p b)) := by
  rcases h : lookupByte b with _ | i
  · refine .inr ⟨fun i hi => ?_, by simp [decode, h]⟩
    rw [(lookupByte_eq_some b i).2 hi] at h
    cases h
  · by_cases hp : i.port = p
    · exact .inl ⟨i, (lookupByte_eq_some b i).1 h, hp, by simp [decode, h, wellFormed, hp]⟩
    · refine .inr ⟨fun j hj => ?_, by simp [decode, h, wellFormed, hp]⟩
      rw [(lookupByte_eq_some b j).2 hj] at h
      cases h
      exact hp

end Sys2Proof
end

