-- ==== Sys2Proof/Laws/Engine.lean ====
section
/-! SUPPORT. The drive bit engine: the bit under the head, the phases, and the frame all engine
operations share. -/

namespace Sys2Proof.Machine

theorem flagBit_eq (b : Bool) : flagBit b = b.toNat := by cases b <;> rfl

/-- R370. -/
theorem State.noTrack_iff (s : State) :
    s.noTrack = true ↔ s.disk.present = false ∨ s.lenOf s.engine.ht.toNat = 0 := by
  simp [State.noTrack]

theorem State.noTrack_false_iff (s : State) :
    s.noTrack = false ↔ s.disk.present = true ∧ 0 < s.lenOf s.engine.ht.toNat := by
  simp [State.noTrack, Nat.pos_iff_ne_zero]

/-- One bit of a memory after a bit was stored in it. -/
theorem State.bufBit_storeBit (s : State) (sp sp' : Space) (j j' : Nat) (b : Bool) :
    (s.setMem sp (Memory.storeBit sp s.epoch (s.mem sp) j b)).bufBit sp' j' =
      if sp' = sp ∧ j' = j then b else s.bufBit sp' j' := by
  unfold State.bufBit
  rw [State.byteAt_setMem]
  by_cases h : sp' = sp
  · subst h
    rw [if_pos rfl, Memory.bit_storeBit]
    simp [State.byteAt]
  · simp [h]

/-- R369, R375: the write of the bit under the head is suppressed without one; otherwise it changes
that bit and sets `MOD`. -/
theorem State.writeHeadBit_cases (s : State) (b : Bool) :
    (s.noTrack = true ∧ s.writeHeadBit b = s) ∨
    (s.noTrack = false ∧
      (s.writeHeadBit b).withMemoriesOf s = { s with disk.modified := true } ∧
      { s.writeHeadBit b with disk := s.disk } = s ∧
      { (s.writeHeadBit b).disk with trk := s.disk.trk } = { s.disk with modified := true } ∧
      ∀ sp j, (s.writeHeadBit b).bufBit sp j =
        if sp = s.headSpace ∧ j = s.headPos then b else s.bufBit sp j) := by
  rcases h : s.noTrack
  · refine .inr ⟨rfl, ?_, ?_, ?_, fun sp j => ?_⟩
    · simp [State.writeHeadBit, h]; rfl
    · simp only [State.writeHeadBit, h]; rfl
    · simp [State.writeHeadBit, h]
    · rw [← s.bufBit_storeBit s.headSpace sp s.headPos j b]
      simp only [State.writeHeadBit, h]
      rfl
  · exact .inl ⟨rfl, by simp [State.writeHeadBit, h]⟩

/-- The write of the bit under the head leaves everything but the disk. -/
theorem State.writeHeadBit_frame (s : State) (b : Bool) :
    { s.writeHeadBit b with disk := s.disk } = s := by
  rcases s.writeHeadBit_cases b with ⟨_, h⟩ | ⟨_, _, h, _⟩
  · rw [h]
  · exact h

theorem State.writeHeadBit_engine (s : State) (b : Bool) : (s.writeHeadBit b).engine = s.engine := by
  have := congrArg State.engine (s.writeHeadBit_frame b)
  exact this

/-- R364 in one piece: what counting a bit does to the engine. -/
theorem State.countBit_eq (s : State) :
    s.countBit = s.setEngine { s.engine with
      brc := if s.engine.sync then s.engine.brc + 1 else s.engine.brc
      dataLatch := if s.engine.sync ∧ s.engine.brc = 7 then s.engine.rsr.setWidth 8
        else s.engine.dataLatch
      byteReady := s.engine.byteReady || (s.engine.sync && decide (s.engine.brc = 7)) } := by
  have hb : (s.engine.brc + 1 = 0) ↔ s.engine.brc = 7 := by
    constructor <;> intro h <;> bv_omega
  have hr : s.engine.rsr.extractLsb' 0 8 = s.engine.rsr.setWidth 8 := by
    apply BitVec.eq_of_toNat_eq; simp
  unfold State.countBit
  cases hs : s.engine.sync
  · simp only [Bool.false_eq_true, if_false, false_and, Bool.false_and, Bool.or_false]
    rw [State.setEngine]
  · by_cases h7 : s.engine.brc = 7
    · simp only [if_true, h7, hr, hs]
      simp [State.setEngine]
    · simp only [if_true, if_neg (fun h => h7 (hb.1 h)), h7, hs]
      simp [State.setEngine]

end Sys2Proof.Machine
end

