-- ==== Sys2Proof/Laws/PerInstr.lean ====
section
/-! SUPPORT. What holds of every operation as syntax: its bytes decode back to it on the one port that
accepts it, and on no other (R90, R91, R93). -/

namespace Sys2Proof.Laws

open Sys2Proof

/-- The operation is well formed on its port, its bytes decode to it there with whatever follows
handed back, and the other port calls its byte illegal. -/
def DecodesBack.Statement (i : Instr) : Prop :=
  wellFormed i.port i = true ∧
  ∀ rest : List Byte, decode i.port (encode i ++ rest) = .ok (i, rest) ∧
    ∀ p, p ≠ i.port → decode p (encode i ++ rest) = .error (.illegal p (encodeByte i))

theorem DecodesBack.of_encode (i : Instr) : DecodesBack.Statement i := by
  refine ⟨by simp [wellFormed], fun rest => ⟨decode_encodeByte i rest, fun p hp => ?_⟩⟩
  rcases decode_cons_cases p (encodeByte i) rest with ⟨j, hj, hport, _⟩ | ⟨_, h⟩
  · have hij := (lookupByte_eq_some _ j).2 hj
    rw [lookupByte_encodeByte i] at hij
    cases hij
    exact absurd hport.symm hp
  · exact h

theorem DecodesBack.nop : DecodesBack.Statement .nop := DecodesBack.of_encode _
theorem DecodesBack.reset : DecodesBack.Statement .reset := DecodesBack.of_encode _
theorem DecodesBack.bvDef : DecodesBack.Statement .bvDef := DecodesBack.of_encode _
theorem DecodesBack.bvSlice : DecodesBack.Statement .bvSlice := DecodesBack.of_encode _
theorem DecodesBack.bvSize : DecodesBack.Statement .bvSize := DecodesBack.of_encode _
theorem DecodesBack.bvGet : DecodesBack.Statement .bvGet := DecodesBack.of_encode _
theorem DecodesBack.bvSet : DecodesBack.Statement .bvSet := DecodesBack.of_encode _
theorem DecodesBack.bvGetbyte : DecodesBack.Statement .bvGetbyte := DecodesBack.of_encode _
theorem DecodesBack.bvSetbyte : DecodesBack.Statement .bvSetbyte := DecodesBack.of_encode _
theorem DecodesBack.bvGetbits : DecodesBack.Statement .bvGetbits := DecodesBack.of_encode _
theorem DecodesBack.bvSetbits : DecodesBack.Statement .bvSetbits := DecodesBack.of_encode _
theorem DecodesBack.bvFwd : DecodesBack.Statement .bvFwd := DecodesBack.of_encode _
theorem DecodesBack.byGet : DecodesBack.Statement .byGet := DecodesBack.of_encode _
theorem DecodesBack.bySet : DecodesBack.Statement .bySet := DecodesBack.of_encode _
theorem DecodesBack.gcrB2g : DecodesBack.Statement .gcrB2g := DecodesBack.of_encode _
theorem DecodesBack.gcrG2b : DecodesBack.Statement .gcrG2b := DecodesBack.of_encode _
theorem DecodesBack.gcrEnc : DecodesBack.Statement .gcrEnc := DecodesBack.of_encode _
theorem DecodesBack.gcrDec : DecodesBack.Statement .gcrDec := DecodesBack.of_encode _
theorem DecodesBack.mfmEnc : DecodesBack.Statement .mfmEnc := DecodesBack.of_encode _
theorem DecodesBack.mfmDec : DecodesBack.Statement .mfmDec := DecodesBack.of_encode _
theorem DecodesBack.mfmOeenc : DecodesBack.Statement .mfmOeenc := DecodesBack.of_encode _
theorem DecodesBack.mfmOedec : DecodesBack.Statement .mfmOedec := DecodesBack.of_encode _
theorem DecodesBack.mfmClk : DecodesBack.Statement .mfmClk := DecodesBack.of_encode _
theorem DecodesBack.mfmClkbuf : DecodesBack.Statement .mfmClkbuf := DecodesBack.of_encode _
theorem DecodesBack.c64Encsec : DecodesBack.Statement .c64Encsec := DecodesBack.of_encode _
theorem DecodesBack.c64Enctrk : DecodesBack.Statement .c64Enctrk := DecodesBack.of_encode _
theorem DecodesBack.c64Decsec : DecodesBack.Statement .c64Decsec := DecodesBack.of_encode _
theorem DecodesBack.c64Dectrk : DecodesBack.Statement .c64Dectrk := DecodesBack.of_encode _
theorem DecodesBack.c64Seek : DecodesBack.Statement .c64Seek := DecodesBack.of_encode _
theorem DecodesBack.c64Seekall : DecodesBack.Statement .c64Seekall := DecodesBack.of_encode _
theorem DecodesBack.amiEncsec : DecodesBack.Statement .amiEncsec := DecodesBack.of_encode _
theorem DecodesBack.amiEnctrk : DecodesBack.Statement .amiEnctrk := DecodesBack.of_encode _
theorem DecodesBack.amiDecsec : DecodesBack.Statement .amiDecsec := DecodesBack.of_encode _
theorem DecodesBack.amiDectrk : DecodesBack.Statement .amiDectrk := DecodesBack.of_encode _
theorem DecodesBack.amiSeek : DecodesBack.Statement .amiSeek := DecodesBack.of_encode _
theorem DecodesBack.amiSeekall : DecodesBack.Statement .amiSeekall := DecodesBack.of_encode _
theorem DecodesBack.dosEncsec : DecodesBack.Statement .dosEncsec := DecodesBack.of_encode _
theorem DecodesBack.dosEnctrk : DecodesBack.Statement .dosEnctrk := DecodesBack.of_encode _
theorem DecodesBack.dosDecsec : DecodesBack.Statement .dosDecsec := DecodesBack.of_encode _
theorem DecodesBack.dosDectrk : DecodesBack.Statement .dosDectrk := DecodesBack.of_encode _
theorem DecodesBack.dosSeek : DecodesBack.Statement .dosSeek := DecodesBack.of_encode _
theorem DecodesBack.dosSeekall : DecodesBack.Statement .dosSeekall := DecodesBack.of_encode _
theorem DecodesBack.dskClear : DecodesBack.Statement .dskClear := DecodesBack.of_encode _
theorem DecodesBack.dskEncode : DecodesBack.Statement .dskEncode := DecodesBack.of_encode _
theorem DecodesBack.dskRdblk : DecodesBack.Statement .dskRdblk := DecodesBack.of_encode _
theorem DecodesBack.dskWrblk : DecodesBack.Statement .dskWrblk := DecodesBack.of_encode _
theorem DecodesBack.dskNumblk : DecodesBack.Statement .dskNumblk := DecodesBack.of_encode _
theorem DecodesBack.dskLenht : DecodesBack.Statement .dskLenht := DecodesBack.of_encode _
theorem DecodesBack.dskLentrk : DecodesBack.Statement .dskLentrk := DecodesBack.of_encode _
theorem DecodesBack.dskDefaults : DecodesBack.Statement .dskDefaults := DecodesBack.of_encode _
theorem DecodesBack.dskSetwp : DecodesBack.Statement .dskSetwp := DecodesBack.of_encode _
theorem DecodesBack.dskInsert : DecodesBack.Statement .dskInsert := DecodesBack.of_encode _
theorem DecodesBack.dskEject : DecodesBack.Statement .dskEject := DecodesBack.of_encode _
theorem DecodesBack.dskFlags : DecodesBack.Statement .dskFlags := DecodesBack.of_encode _
theorem DecodesBack.anaRun : DecodesBack.Statement .anaRun := DecodesBack.of_encode _
theorem DecodesBack.anaLayout : DecodesBack.Statement .anaLayout := DecodesBack.of_encode _
theorem DecodesBack.anaLog : DecodesBack.Statement .anaLog := DecodesBack.of_encode _
theorem DecodesBack.anaXrun : DecodesBack.Statement .anaXrun := DecodesBack.of_encode _
theorem DecodesBack.engTick : DecodesBack.Statement .engTick := DecodesBack.of_encode _
theorem DecodesBack.engRdbit : DecodesBack.Statement .engRdbit := DecodesBack.of_encode _
theorem DecodesBack.engWrbit : DecodesBack.Statement .engWrbit := DecodesBack.of_encode _
theorem DecodesBack.engRot : DecodesBack.Statement .engRot := DecodesBack.of_encode _
theorem DecodesBack.engSync : DecodesBack.Statement .engSync := DecodesBack.of_encode _
theorem DecodesBack.engLatch : DecodesBack.Statement .engLatch := DecodesBack.of_encode _
theorem DecodesBack.engSetht : DecodesBack.Statement .engSetht := DecodesBack.of_encode _
theorem DecodesBack.engPos : DecodesBack.Statement .engPos := DecodesBack.of_encode _

end Sys2Proof.Laws
end

