-- ==== Sys2Proof/Laws/Seek.lean ====
section
/-! SUPPORT. What the scans for sectors answer (R208, R213, R214, R250, R256, R280, R286): the C64 and DOS
scans as two cases of one scan over marked blocks, the Amiga scan by itself. -/

namespace Sys2Proof.Machine

/-! ## Marks -/

/-- What `forward` answers (R138). -/
theorem BitStream.forward_some {b : BitStream} {it : Int} {pat n : Nat} {p : Int}
    (h : b.forward it pat n = some p) :
    it + n ≤ p ∧ p - n - it < b.size ∧ b.getBits (p - n) n = pat % 2 ^ n ∧
      ∀ j, it ≤ j → j < p - n → b.getBits j n ≠ pat % 2 ^ n := by
  obtain ⟨k, hk, rfl⟩ : ∃ k : Nat, b.scan it (pat % 2 ^ n) n b.size 0 = some k ∧ it + k + n = p := by
    rw [BitStream.forward] at h
    rcases hs : b.scan it (pat % 2 ^ n) n b.size 0 with _ | k
    · rw [hs] at h; simp at h
    · rw [hs] at h; exact ⟨k, rfl, by simpa using h⟩
  obtain ⟨-, h1, h2, h3⟩ := b.scan_some it _ n _ 0 k hk
  refine ⟨by omega, by omega, by rwa [show it + (k : Int) + n - n = it + k by omega], ?_⟩
  intro j hj hj2
  have := h3 (j - it).toNat (by omega) (by omega)
  rwa [show it + ((j - it).toNat : Int) = j by omega] at this

/-- Ten ones (R208). -/
theorem BitStream.getBits_ones (b : BitStream) (i : Int) :
    b.getBits i 10 = 0x3FF ↔ ∀ k : Nat, k < 10 → b.get (i + k) = true := by
  constructor
  · intro h k hk
    have := b.testBit_getBits i 10 k hk
    rw [h] at this
    rw [← this]
    interval_cases k <;> rfl
  · intro h
    refine IsNumber.unique (b.isNumber_getBits i 10)
      (show IsNumber 0x3FF 10 (fun _ => true) from ⟨by decide, by decide⟩) ?_
    intro k hk; exact h k hk

/-- Where the ones of a sync mark end (R208). -/
theorem BitStream.skipOnes_some (b : BitStream) : ∀ (left : Nat) (p q : Int),
    b.skipOnes left p = some q → p ≤ q ∧ q < p + left ∧ b.get q = false ∧ ∀ j, p ≤ j → j < q → b.get j = true := by
  intro left
  induction left with
  | zero => intro p q h; simp [BitStream.skipOnes] at h
  | succ left ih =>
    intro p q h
    rw [BitStream.skipOnes] at h
    split at h
    · rename_i h1
      obtain ⟨a1, a0, a2, a3⟩ := ih _ _ h
      refine ⟨by omega, by omega, a2, fun j hj hj2 => ?_⟩
      rcases Int.lt_or_eq_of_le hj with h | h
      · exact a3 j (by omega) hj2
      · subst h; exact h1
    · rename_i h1
      simp only [Option.some.injEq] at h
      subst h
      exact ⟨le_rfl, by omega, by simpa using h1, by omega⟩

/-- A sync mark without an end (R208). -/
theorem BitStream.skipOnes_none (b : BitStream) : ∀ (left : Nat) (p : Int),
    b.skipOnes left p = none → ∀ k : Nat, k < left → b.get (p + k) = true := by
  intro left
  induction left with
  | zero => intros; omega
  | succ left ih =>
    intro p h k hk
    rw [BitStream.skipOnes] at h
    split at h
    · rename_i h1
      rcases k with _ | k
      · simpa using h1
      · have := ih _ h k (by omega)
        rwa [show p + 1 + (k : Int) = p + ((k + 1 : Nat) : Int) by push_cast; omega] at this
    · cases h

/-- What `c64NextBlock` answers (R208): the first mark behind `it`. -/
theorem BitStream.c64NextBlock_some {b : BitStream} {it p0 p : Int}
    (h : b.c64NextBlock it = some (p0, p)) :
    it + 10 ≤ p0 ∧ p0 ≤ p ∧ p0 - 10 - it < b.size ∧ b.MarkAt p ∧
      ∀ m, it + 10 ≤ m → m < p → ¬b.MarkAt m := by
  rw [BitStream.c64NextBlock] at h
  split at h
  · simp at h
  · rename_i q hf
    obtain ⟨q', hs, he⟩ := Option.map_eq_some_iff.1 h
    cases he
    obtain ⟨f1, f2, f3, f4⟩ := BitStream.forward_some hf
    obtain ⟨s1, -, s2, s3⟩ := b.skipOnes_some _ _ _ hs
    have hones := (b.getBits_ones (p0 - 10)).1 f3
    refine ⟨by omega, s1, by omega, ⟨(b.getBits_ones _).2 fun k hk => ?_, s2⟩, ?_⟩
    · rcases Int.lt_or_le (p - 10 + k) p0 with h | h
      · have := hones (p - 10 + k - (p0 - 10)).toNat (by omega)
        rwa [show p0 - 10 + (((p - 10 + k - (p0 - 10)).toNat : Nat) : Int) = p - 10 + k by omega] at this
      · exact s3 _ h (by omega)
    · intro m h1 h2 hm
      rcases Int.lt_or_le m p0 with h | h
      · exact f4 (m - 10) (by omega) (by omega) hm.1
      · have := s3 m h h2
        rw [hm.2] at this; exact absurd this (by decide)

/-! ## A format as the scans of R213, R214, R280 and R286 see it -/

/-- What those scans ask of a track. -/
structure Format where
  /-- The next mark behind an iterator: where its sync begins, and the block's first bit. -/
  next : Int → Option (Int × Int)
  /-- The block is a header. -/
  isHeader : Int → Bool
  /-- Its sector number. -/
  number : Int → Option Byte
  /-- The block is a data block. -/
  isData : Int → Bool
  /-- How far a header reaches. -/
  headerLen : Int
  /-- How far a mark reaches. -/
  markLen : Int
  /-- How many bits the payload has. -/
  payload : Int
  /-- How many sectors a map has. -/
  sectors : Nat

/-- The search for one sector. -/
def Format.find (f : Format) (size : Nat) (sec : Byte) (start : Int) :
    Nat → Int → List Byte → Option Int
  | 0, _, _ => none
  | fuel + 1, it, seen =>
    match f.next it with
    | none => none
    | some (q, p) =>
      if q - start ≥ size then none
      else if f.isHeader p then
        match f.number p with
        | none => Format.find f size sec start fuel (p + f.headerLen) seen
        | some x =>
          if x ∈ seen then none
          else if x = sec then some p
          else Format.find f size sec start fuel (p + f.headerLen) (x :: seen)
      else Format.find f size sec start fuel (p + f.markLen) seen

/-- The scan for all sectors. -/
def Format.scan (f : Format) (size : Nat) (start : Int) :
    Nat → Int → List Byte → List SeekEntry → Nat → Option Nat → List SeekEntry
  | 0, _, _, found, _, _ => found
  | fuel + 1, it, seen, found, order, cur =>
    match f.next it with
    | none => found
    | some (q, p) =>
      let entry := fun k => found ++ [⟨k, p + f.markLen, p + f.markLen + f.payload, order⟩]
      if q - start ≥ size then
        match cur with
        | none => found
        | some k => if f.isData p then entry k else found
      else if f.isHeader p then
        match f.number p with
        | none => Format.scan f size start fuel (p + f.headerLen) seen found order none
        | some x =>
          if x ∈ seen then found
          else
            Format.scan f size start fuel (p + f.headerLen) (x :: seen) found order
              (if x.toNat < f.sectors then some x.toNat else none)
      else
        match cur with
        | some k =>
          if f.isData p then
            Format.scan f size start fuel (p + f.markLen) seen (entry k) (order + 1) none
          else Format.scan f size start fuel (p + f.markLen) seen found order none
        | none => Format.scan f size start fuel (p + f.markLen) seen found order none

/-- The payload range behind the header at `p`. -/
def Format.range (f : Format) (p : Int) : Option (Int × Int) :=
  match f.next (p + f.headerLen) with
  | none => none
  | some (_, q) =>
    if f.isData q then some (q + f.markLen, q + f.markLen + f.payload) else none

/-- The scans make progress, and no block is both header and data. -/
structure Format.Sound (f : Format) : Prop where
  /-- A mark lies behind the iterator. -/
  next : ∀ it q p, f.next it = some (q, p) → it ≤ q ∧ q ≤ p
  /-- The scan moves on. -/
  pos : 0 < f.markLen ∧ 0 < f.headerLen
  /-- No block is both. -/
  exclusive : ∀ p, f.isHeader p = true → f.isData p = false
  /-- A number is a byte. -/
  sectors : f.sectors ≤ 256

/-- A byte is the byte of its number. -/
theorem ofNat_toNat_byte (x : Byte) : BitVec.ofNat 8 x.toNat = x := by simp

/-- Small numbers give different bytes. -/
theorem ofNat_byte_inj {k l : Nat} (hk : k < 256) (hl : l < 256)
    (h : BitVec.ofNat 8 k = BitVec.ofNat 8 l) : k = l := by
  have := congrArg BitVec.toNat h; simp at this; omega

/-- An entry of another sector does not change what is found. -/
theorem find?_append_new (found : List SeekEntry) (e : SeekEntry) (k : Nat) (hne : k ≠ e.sec) :
    (found ++ [e]).find? (fun e => e.sec == k) = found.find? (fun e => e.sec == k) := by
  rw [List.find?_append]
  have : (e.sec == k) = false := by simpa using Ne.symm hne
  simp [this]

/-- The entry of a sector that had none is found. -/
theorem find?_append_same (found : List SeekEntry) (e : SeekEntry)
    (h : ∀ f ∈ found, f.sec ≠ e.sec) :
    (found ++ [e]).find? (fun f => f.sec == e.sec) = some e := by
  rw [List.find?_append]
  have : found.find? (fun f => f.sec == e.sec) = none := by
    rw [List.find?_eq_none]; intro f hf; simpa using h f hf
  simp [this]

/-- The payload range of an entry. -/
def rangeOf (e : SeekEntry) : Int × Int := (e.first, e.last)

/-- The scan finds, for each sector, what the search for it finds, from any state it reaches. -/
theorem Format.scan_agrees (f : Format) (hf : f.Sound) (size : Nat) (start : Int) (k : Nat)
    (hk : k < f.sectors) :
    ∀ (fuel : Nat) (it : Int) (seen : List Byte) (found : List SeekEntry) (order : Nat)
      (cur : Option Nat), start ≤ it → size + 2 ≤ it - start + fuel →
      (∀ e ∈ found, e.sec < f.sectors ∧ BitVec.ofNat 8 e.sec ∈ seen) →
      (∀ l, cur = some l → l < f.sectors ∧ BitVec.ofNat 8 l ∈ seen ∧ ∀ e ∈ found, e.sec ≠ l) →
      (cur ≠ none → 0 < fuel) →
      let r := ((f.scan size start fuel it seen found order cur).find? fun e => e.sec == k).map rangeOf
      (BitVec.ofNat 8 k ∉ seen →
        r = (f.find size (BitVec.ofNat 8 k) start fuel it seen).bind f.range) ∧
      (BitVec.ofNat 8 k ∈ seen → cur ≠ some k →
        r = (found.find? fun e => e.sec == k).map rangeOf) ∧
      (cur = some k → r = match f.next it with
        | none => none
        | some (_, q) =>
          if f.isData q then some (q + f.markLen, q + f.markLen + f.payload) else none) := by
  have hk8 : k < 256 := Nat.lt_of_lt_of_le hk hf.sectors
  intro fuel
  induction fuel with
  | zero =>
    intro it seen found order cur h0 h1 h2 h3 h4 r
    refine ⟨fun hs => ?_, fun _ _ => rfl, fun hc => absurd (h4 (by simp [hc])) (by omega)⟩
    show _ = none
    have : found.find? (fun e => e.sec == k) = none := by
      rw [List.find?_eq_none]
      intro e he h
      have := (h2 e he).2
      rw [show e.sec = k by simpa using h] at this
      exact hs this
    show (found.find? _).map _ = none
    rw [this]; rfl
  | succ fuel ih =>
    intro it seen found order cur h0 h1 h2 h3 h4 r
    have hnone : BitVec.ofNat 8 k ∉ seen → found.find? (fun e => e.sec == k) = none := by
      intro hs
      rw [List.find?_eq_none]
      intro e he h
      have := (h2 e he).2
      rw [show e.sec = k by simpa using h] at this
      exact hs this
    have hcurk : cur = some k → found.find? (fun e => e.sec == k) = none := by
      intro hc
      rw [List.find?_eq_none]
      intro e he h
      exact (h3 k hc).2.2 e he (by simpa using h)
    have hcs : cur = some k → BitVec.ofNat 8 k ∈ seen := fun hc => (h3 k hc).2.1
    simp only [r]
    unfold Format.scan Format.find
    rcases hn : f.next it with _ | ⟨q, p⟩
    · simp only []
      exact ⟨fun hs => by rw [hnone hs]; rfl, fun _ _ => by trivial, fun hc => by rw [hcurk hc]; rfl⟩
    · obtain ⟨g1, g2⟩ := hf.next it q p hn
      have hp := hf.pos
      simp only []
      by_cases hb : q - start ≥ size
      · rw [if_pos hb, if_pos hb]
        rcases cur with _ | l
        · exact ⟨fun hs => by rw [hnone hs]; rfl, fun _ _ => rfl, fun hc => by cases hc⟩
        · by_cases hd : f.isData p = true
          · simp only [hd, if_true]
            obtain ⟨l1, l2, l3⟩ := h3 l rfl
            refine ⟨fun hs => ?_, fun hs hc => ?_, fun hc => ?_⟩
            · rw [find?_append_new _ _ _ (fun e => hs (by rw [e]; exact l2)), hnone hs]; rfl
            · rw [find?_append_new _ _ _ (fun e => hc (by rw [e]))]
            · obtain rfl : l = k := by simpa using hc
              rw [find?_append_same found ⟨l, _, _, _⟩ l3]; rfl
          · simp only [hd]
            exact ⟨fun hs => by simp [hnone hs], fun _ _ => by simp, fun hc => by simp [hcurk hc]⟩
      · rw [if_neg hb, if_neg hb]
        have hfl : (0 : Nat) < fuel := by omega
        by_cases hh : f.isHeader p = true
        · have hdf := hf.exclusive p hh
          rw [if_pos hh, if_pos hh]
          rcases hx : f.number p with _ | x
          · simp only []
            obtain ⟨i1, i2, -⟩ := ih (p + f.headerLen) seen found order none (by omega) (by omega)
              h2 (by simp) (by simp)
            refine ⟨i1, fun hs _ => i2 hs (by simp), fun hc => ?_⟩
            rw [i2 (hcs hc) (by simp), hcurk hc]; simp [hdf]
          · simp only []
            by_cases hs : x ∈ seen
            · rw [if_pos hs, if_pos hs]
              exact ⟨fun hs => by rw [hnone hs]; rfl, fun _ _ => rfl,
                fun hc => by rw [hcurk hc]; simp [hdf]⟩
            · rw [if_neg hs, if_neg hs]
              obtain ⟨i1, i2, i3⟩ := ih (p + f.headerLen) (x :: seen) found order
                (if x.toNat < f.sectors then some x.toNat else none) (by omega) (by omega)
                (fun e he => ⟨(h2 e he).1, List.mem_cons_of_mem _ (h2 e he).2⟩)
                (fun l hl => by
                  split at hl
                  · simp only [Option.some.injEq] at hl
                    subst hl
                    refine ⟨‹_›, by simp, fun e he h => hs ?_⟩
                    have := (h2 e he).2
                    rwa [h, ofNat_toNat_byte] at this
                  · cases hl)
                (fun _ => hfl)
              refine ⟨fun hks => ?_, fun hks hc => ?_, fun hc => ?_⟩
              · by_cases hxk : x = BitVec.ofNat 8 k
                · have : x.toNat = k := by rw [hxk]; simp; omega
                  rw [if_pos hxk]
                  rw [if_pos (by omega), this] at i3 ⊢
                  rw [i3 rfl]; rfl
                · rw [if_neg hxk]
                  exact i1 (by simp [hks]; exact fun h => hxk h.symm)
              · refine i2 (List.mem_cons_of_mem _ hks) ?_
                split
                · intro h; simp only [Option.some.injEq] at h
                  apply hs; rw [← ofNat_toNat_byte x, h]; exact hks
                · simp
              · have hks := hcs hc
                rw [i2 (List.mem_cons_of_mem _ hks) (by
                  split
                  · intro h; simp only [Option.some.injEq] at h
                    apply hs; rw [← ofNat_toNat_byte x, h]; exact hks
                  · simp), hcurk hc]
                simp [hdf]
        · rw [if_neg hh, if_neg hh]
          have step : ∀ (found' : List SeekEntry) (order' : Nat),
              (∀ e ∈ found', e.sec < f.sectors ∧ BitVec.ofNat 8 e.sec ∈ seen) → _ := fun found' order' hf' =>
            ih (p + f.markLen) seen found' order' none (by omega) (by omega) hf' (by simp) (by simp)
          rcases cur with _ | l
          · obtain ⟨i1, i2, -⟩ := step found order h2
            exact ⟨i1, fun hs _ => i2 hs (by simp), fun hc => by cases hc⟩
          · obtain ⟨l1, l2, l3⟩ := h3 l rfl
            by_cases hd : f.isData p = true
            · simp only [hd, if_true]
              obtain ⟨i1, i2, -⟩ := step (found ++ [⟨l, p + f.markLen, p + f.markLen + f.payload, order⟩])
                (order + 1) (fun e he => by
                  rcases List.mem_append.1 he with he | he
                  · exact h2 e he
                  · obtain rfl : e = _ := by simpa using he
                    exact ⟨l1, l2⟩)
              refine ⟨i1, fun hs hc => ?_, fun hc => ?_⟩
              · rw [i2 hs (by simp), find?_append_new _ _ _ (fun e => hc (by rw [e]))]
              · obtain rfl : l = k := by simpa using hc
                rw [i2 l2 (by simp), find?_append_same found ⟨l, _, _, _⟩ l3]; rfl
            · simp only [hd]
              obtain ⟨i1, i2, -⟩ := step found order h2
              refine ⟨i1, fun hs _ => i2 hs (by simp), fun hc => ?_⟩
              have := i2 (hcs hc) (by simp)
              simp only [Bool.false_eq_true, if_false]
              rw [this, hcurk hc]; rfl

/-- What an entry of the map stands for. -/
structure Format.Entry (f : Format) (start : Int) (e : SeekEntry) : Prop where
  /-- The number is one of the map. -/
  sec : e.sec < f.sectors
  /-- The range is a payload's. -/
  last : e.last = e.first + f.payload
  /-- The header with the number, and the data block that is the next mark. -/
  blocks : ∃ it p q0 q : Int, start ≤ it ∧ f.next it = some (q0, p) ∧ f.isHeader p = true ∧
    f.number p = some (BitVec.ofNat 8 e.sec) ∧ (∃ q1, f.next (p + f.headerLen) = some (q1, q)) ∧
    f.isData q = true ∧ e.first = q + f.markLen

/-- Entries in the order of discovery: `order` is the index, ranges rise, no number repeats. -/
structure Discovered (found : List SeekEntry) : Prop where
  /-- The place of each entry. -/
  order : ∀ (j : Nat) (e : SeekEntry), found[j]? = some e → e.order = j
  /-- Ranges rise and no number repeats. -/
  rising : found.Pairwise fun e f => e.sec ≠ f.sec ∧ e.first < f.first

/-- One more entry, the last one discovered. -/
theorem Discovered.add {found : List SeekEntry} (h : Discovered found) (e : SeekEntry)
    (ho : e.order = found.length) (hn : ∀ f ∈ found, f.sec ≠ e.sec ∧ f.first < e.first) :
    Discovered (found ++ [e]) where
  order j x hx := by
    rw [List.getElem?_append] at hx
    split at hx
    · exact h.order j x hx
    · obtain ⟨hj, rfl⟩ : j - found.length = 0 ∧ e = x := by
        rcases hj : j - found.length with _ | m
        · rw [hj] at hx; exact ⟨rfl, by simpa using hx⟩
        · rw [hj] at hx; simp at hx
      omega
  rising := by
    rw [List.pairwise_append]
    exact ⟨h.rising, by simp, fun f hf y hy => by
      obtain rfl : y = e := by simpa using hy
      exact hn f hf⟩

/-- A sound map. -/
structure Format.Good (f : Format) (start : Int) (r : List SeekEntry) : Prop where
  /-- Each entry. -/
  entries : ∀ e ∈ r, f.Entry start e
  /-- Their order. -/
  found : Discovered r

/-- Every entry of the scan stands behind its header, in the order of discovery. -/
theorem Format.scan_sound (f : Format) (hf : f.Sound) (size : Nat) (start : Int) :
    ∀ (fuel : Nat) (it : Int) (seen : List Byte) (found : List SeekEntry) (order : Nat)
      (cur : Option Nat), start ≤ it →
      (∀ e ∈ found, f.Entry start e ∧ BitVec.ofNat 8 e.sec ∈ seen ∧ e.first ≤ it) →
      Discovered found → order = found.length →
      (∀ l, cur = some l → l < f.sectors ∧ BitVec.ofNat 8 l ∈ seen ∧ (∀ e ∈ found, e.sec ≠ l) ∧
        ∃ it' p q0 : Int, start ≤ it' ∧ f.next it' = some (q0, p) ∧ f.isHeader p = true ∧
          f.number p = some (BitVec.ofNat 8 l) ∧ it = p + f.headerLen) →
      f.Good start (f.scan size start fuel it seen found order cur) := by
  intro fuel
  induction fuel with
  | zero => intro it seen found order cur h0 h1 h2 h3 h5; exact ⟨fun e he => (h1 e he).1, h2⟩
  | succ fuel ih =>
    intro it seen found order cur h0 h1 h2 h3 h5
    have hdone : f.Good start found := ⟨fun e he => (h1 e he).1, h2⟩
    have later : ∀ it', it ≤ it' → ∀ e ∈ found,
        f.Entry start e ∧ BitVec.ofNat 8 e.sec ∈ seen ∧ e.first ≤ it' :=
      fun it' hle e he => ⟨(h1 e he).1, (h1 e he).2.1, (h1 e he).2.2.trans hle⟩
    unfold Format.scan
    rcases hn : f.next it with _ | ⟨q, p⟩
    · exact hdone
    · obtain ⟨g1, g2⟩ := hf.next it q p hn
      have hp := hf.pos
      have hentry : ∀ l, cur = some l → f.isData p = true →
          f.Entry start ⟨l, p + f.markLen, p + f.markLen + f.payload, order⟩ ∧
          Discovered (found ++ [⟨l, p + f.markLen, p + f.markLen + f.payload, order⟩]) := by
        intro l hl hd
        obtain ⟨l1, l2, l3, it', p', q0, a1, a2, a3, a4, a5⟩ := h5 l hl
        refine ⟨⟨l1, rfl, it', p', q0, p, a1, a2, a3, a4, ⟨q, by rw [← a5]; exact hn⟩, hd, rfl⟩, ?_⟩
        refine h2.add _ h3 fun e he => ⟨l3 e he, ?_⟩
        have := (h1 e he).2.2; show e.first < p + f.markLen; omega
      simp only []
      by_cases hb : q - start ≥ size
      · rw [if_pos hb]
        rcases cur with _ | l
        · exact hdone
        · by_cases hd : f.isData p = true
          · simp only [hd, if_true]
            obtain ⟨e1, e2⟩ := hentry l rfl hd
            refine ⟨fun e he => ?_, e2⟩
            rcases List.mem_append.1 he with he | he
            · exact (h1 e he).1
            · obtain rfl : e = _ := by simpa using he
              exact e1
          · simp only [hd]; exact hdone
      · rw [if_neg hb]
        by_cases hh : f.isHeader p = true
        · rw [if_pos hh]
          rcases hx : f.number p with _ | x
          · exact ih _ _ _ _ _ (by omega) (later _ (by omega)) h2 h3 (by simp)
          · simp only []
            by_cases hs : x ∈ seen
            · rw [if_pos hs]; exact hdone
            · rw [if_neg hs]
              refine ih _ _ _ _ _ (by omega) (fun e he =>
                ⟨(h1 e he).1, List.mem_cons_of_mem _ (h1 e he).2.1, (later (p + f.headerLen) (by omega) e he).2.2⟩)
                h2 h3 ?_
              intro l hl
              split at hl
              · simp only [Option.some.injEq] at hl
                subst hl
                refine ⟨‹_›, by simp, fun e he h => hs ?_, it, p, q, h0, hn, hh, by simpa using hx, rfl⟩
                have := (h1 e he).2.1
                rwa [h, ofNat_toNat_byte] at this
              · cases hl
        · rw [if_neg hh]
          rcases cur with _ | l
          · exact ih _ _ _ _ _ (by omega) (later _ (by omega)) h2 h3 (by simp)
          · by_cases hd : f.isData p = true
            · simp only [hd, if_true]
              obtain ⟨e1, e2⟩ := hentry l rfl hd
              refine ih _ _ _ _ _ (by omega) (fun e he => ?_) e2 (by simp [h3]) (by simp)
              rcases List.mem_append.1 he with he | he
              · exact ⟨(h1 e he).1, (h1 e he).2.1, by have := (h1 e he).2.2; omega⟩
              · obtain rfl : e = _ := by simpa using he
                exact ⟨e1, (h5 l rfl).2.1, le_rfl⟩
            · simp only [hd]
              exact ih _ _ _ _ _ (by omega) (later _ (by omega)) h2 h3 (by simp)

/-- What a find answers. -/
theorem Format.find_some (f : Format) (hf : f.Sound) (size : Nat) (sec : Byte) (start : Int) :
    ∀ (fuel : Nat) (it : Int) (seen : List Byte) (p : Int), start ≤ it →
      f.find size sec start fuel it seen = some p →
      ∃ it' q, start ≤ it' ∧ f.next it' = some (q, p) ∧ q - start < size ∧ f.isHeader p = true ∧
        f.number p = some sec := by
  intro fuel
  induction fuel with
  | zero => intro it seen p _ h; simp [Format.find] at h
  | succ fuel ih =>
    intro it seen p h0 h
    unfold Format.find at h
    rcases hn : f.next it with _ | ⟨q, p'⟩
    · rw [hn] at h; simp at h
    · obtain ⟨g1, g2⟩ := hf.next it q p' hn
      have hp := hf.pos
      rw [hn] at h
      simp only [] at h
      split at h
      · simp at h
      · rename_i hb
        split at h
        · rename_i hh
          split at h
          · exact ih _ _ _ (by omega) h
          · rename_i x hx
            split at h
            · simp at h
            · split at h
              · rename_i hxs
                simp only [Option.some.injEq] at h
                subst h; subst hxs
                exact ⟨it, q, h0, hn, by omega, hh, hx⟩
              · exact ih _ _ _ (by omega) h
        · exact ih _ _ _ (by omega) h

/-! ## The scan of R213, R250 and R280 as the statements say it -/

/-- Every block of a scan lies behind the iterator, and the scan goes on behind it. -/
abbrev SectorScan.Advances (f : SectorScan) : Prop :=
  ∀ it q p, f.next it = some (q, p) → it ≤ q ∧ q < f.after p

/-- The search along a scan. -/
def SectorScan.find (f : SectorScan) (size : Nat) (sec : Byte) (start : Int) :
    Nat → Int → List Byte → Option Int
  | 0, _, _ => none
  | fuel + 1, it, seen =>
    match f.next it with
    | none => none
    | some (q, p) =>
      if q - start ≥ size then none
      else
        match f.number p with
        | none => SectorScan.find f size sec start fuel (f.after p) seen
        | some x =>
          if x ∈ seen then none
          else if x = sec then some p
          else SectorScan.find f size sec start fuel (f.after p) (x :: seen)

/-- A scan that is one revolution on, or further, is over. -/
theorem SectorScan.over_of_far {f : SectorScan} (hf : f.Advances) {size : Nat} {start it : Int}
    (ps : List Int) (h : start + size ≤ it) : f.Over size start ps it := by
  unfold SectorScan.Over
  split
  · trivial
  · rename_i q p hn
    exact .inl (h.trans (hf _ _ _ hn).1)

/-- The search finds what the scan finds, from any place the scan reaches. -/
theorem SectorScan.find_spec (f : SectorScan) (hf : f.Advances) (size : Nat) (sec : Byte)
    (start : Int) :
    ∀ (fuel : Nat) (ps : List Int) (it : Int) (seen : List Byte), f.Passes size start ps it →
      (∀ x, x ∈ seen ↔ x ∈ ps.filterMap f.number) → sec ∉ seen →
      start + size ≤ it + fuel → f.Finds size start sec (f.find size sec start fuel it seen) := by
  intro fuel
  induction fuel with
  | zero =>
    intro ps it seen hp hs hn hfuel
    exact ⟨ps, it, hp, SectorScan.over_of_far hf ps (by simpa using hfuel), fun h => hn ((hs _).2 h)⟩
  | succ fuel ih =>
    intro ps it seen hp hs hn hfuel
    have hn' : sec ∉ ps.filterMap f.number := fun h => hn ((hs _).2 h)
    unfold SectorScan.find
    rcases hx : f.next it with _ | ⟨q, p⟩
    · exact ⟨ps, it, hp, by simp [SectorScan.Over, hx], hn'⟩
    · obtain ⟨h1, h2⟩ := hf _ _ _ hx
      simp only []
      by_cases hb : q - start ≥ size
      · rw [if_pos hb]
        exact ⟨ps, it, hp, by simp only [SectorScan.Over, hx]; exact .inl (by omega), hn'⟩
      · rw [if_neg hb]
        rcases hnum : f.number p with _ | x
        · exact ih _ _ _ (hp.block hx (by omega) (by simp [hnum]))
            (fun y => by simp [List.filterMap_append, hnum, hs y]) hn (by omega)
        · simp only []
          by_cases hin : x ∈ seen
          · rw [if_pos hin]
            exact ⟨ps, it, hp, by
              simp only [SectorScan.Over, hx]; exact .inr ⟨x, hnum, (hs x).1 hin⟩, hn'⟩
          · have hpass := hp.block hx (by omega) (fun y hy => by
              rw [hnum] at hy; cases hy; exact fun h => hin ((hs _).2 h))
            rw [if_neg hin]
            by_cases hxs : x = sec
            · rw [if_pos hxs]
              exact ⟨by rw [hnum, hxs], ps, hpass⟩
            · rw [if_neg hxs]
              refine ih _ _ _ hpass (fun y => ?_) ?_ (by omega)
              · simp [List.filterMap_append, hnum, hs y, or_comm]
              · simp only [List.mem_cons, not_or]; exact ⟨fun h => hxs h.symm, hn⟩

/-- The whole search. -/
theorem SectorScan.finds (f : SectorScan) (hf : f.Advances) (b : BitStream) (sec : Byte)
    (start : Int) : f.Finds b.size start sec (f.find b.size sec start (scanFuel b) start []) :=
  f.find_spec hf b.size sec start _ [] start [] .begin (by simp) (by simp) (by simp [scanFuel])

/-- The scan passes blocks at rising positions. -/
theorem SectorScan.Passes.rising {f : SectorScan} (hf : ∀ it q p, f.next it = some (q, p) → it < p)
    (ha : ∀ p, p ≤ f.after p) {size : Nat} {start it : Int} {ps : List Int}
    (h : f.Passes size start ps it) : ps.Pairwise (· < ·) ∧ ∀ p ∈ ps, p ≤ it := by
  induction h with
  | begin => simp
  | block _ hn _ _ ih =>
    have h1 := hf _ _ _ hn
    have h2 := ha
    refine ⟨?_, fun x hx => ?_⟩
    · rw [List.pairwise_append]
      exact ⟨ih.1, by simp, fun x hx y hy => by
        obtain rfl := List.mem_singleton.1 hy
        exact lt_of_le_of_lt (ih.2 x hx) h1⟩
    · rcases List.mem_append.1 hx with hx | hx
      · exact (ih.2 x hx).trans (h1.le.trans (h2 _))
      · obtain rfl := List.mem_singleton.1 hx
        exact h2 _

/-- No number repeats among the headers passed. -/
theorem SectorScan.Passes.nodup {f : SectorScan} {size : Nat} {start it : Int} {ps : List Int}
    (h : f.Passes size start ps it) : (ps.filterMap f.number).Nodup := by
  induction h with
  | begin => simp
  | block _ _ _ hx ih =>
    rw [List.filterMap_append, List.nodup_append]
    refine ⟨ih, ?_, fun a ha b hb => ?_⟩
    · rename_i p _ _ _
      rcases hp : f.number p with _ | x <;> simp [hp]
    · rintro rfl
      obtain ⟨y, hy, he⟩ := List.mem_filterMap.1 hb
      obtain rfl := List.mem_singleton.1 hy
      exact hx _ he ha

/-! ## The two formats -/

/-- The C64 format. -/
def BitStream.c64Format (b : BitStream) : Format where
  next it := (b.c64NextBlock it).map fun r => (r.1 - 10, r.2)
  isHeader p := b.decodeGcr p == some 0x08
  number p := b.decodeGcr (p + 20)
  isData p := b.decodeGcr p == some 0x07
  headerLen := 80
  markLen := 10
  payload := 2560
  sectors := 21

/-- The DOS format. -/
def BitStream.dosFormat (b : BitStream) : Format where
  next it := (b.forward it dosSync 48).map fun p => (p - 48, p)
  isHeader p := b.rdMfm p == 0xFE
  number p := some (b.rdMfm (p + 48) - 1)
  isData p := b.rdMfm p == 0xFB
  headerLen := 112
  markLen := 16
  payload := 8192
  sectors := 9

/-- The C64 scan makes progress. -/
theorem BitStream.c64Format_sound (b : BitStream) : b.c64Format.Sound where
  next it q p h := by
    obtain ⟨⟨p0, p'⟩, h1, h2⟩ := Option.map_eq_some_iff.1 h
    cases h2
    obtain ⟨a1, a2, -⟩ := BitStream.c64NextBlock_some h1
    simp only []; omega
  pos := ⟨by show (0 : Int) < _; simp [BitStream.c64Format],
    by show (0 : Int) < _; simp [BitStream.c64Format]⟩
  exclusive p h := by
    have : b.decodeGcr p = some 0x08 := by simpa [BitStream.c64Format] using h
    simp [BitStream.c64Format, this]
  sectors := by simp [BitStream.c64Format]

/-- The DOS scan makes progress. -/
theorem BitStream.dosFormat_sound (b : BitStream) : b.dosFormat.Sound where
  next it q p h := by
    obtain ⟨p', h1, h2⟩ := Option.map_eq_some_iff.1 h
    cases h2
    obtain ⟨a1, a2, -⟩ := BitStream.forward_some h1
    omega
  pos := ⟨by show (0 : Int) < _; simp [BitStream.dosFormat],
    by show (0 : Int) < _; simp [BitStream.dosFormat]⟩
  exclusive p h := by
    have : b.rdMfm p = 0xFE := by simpa [BitStream.dosFormat] using h
    simp [BitStream.dosFormat, this]
  sectors := by simp [BitStream.dosFormat]

/-- The search of R213 is the general one. -/
theorem BitStream.c64FindHeader_eq (b : BitStream) (sec : Byte) (start : Int) :
    ∀ fuel it seen, b.c64FindHeader sec start fuel it seen =
      b.c64Format.find b.size sec start fuel it seen := by
  intro fuel
  induction fuel with
  | zero => intros; rfl
  | succ fuel ih =>
    intro it seen
    unfold BitStream.c64FindHeader Format.find
    simp only [ih]
    rcases h : b.c64NextBlock it with _ | ⟨p0, p⟩
    · simp [BitStream.c64Format, h]
    · simp only [BitStream.c64Format, h, Option.map_some, beq_iff_eq] <;>
        rcases b.decodeGcr (p + 20) with _ | x <;> rfl

/-- The scan of R214 is the general one. -/
theorem BitStream.c64SeekLoop_eq (b : BitStream) (start : Int) :
    ∀ fuel it seen found order cur, b.c64SeekLoop start fuel it seen found order cur =
      b.c64Format.scan b.size start fuel it seen found order cur := by
  intro fuel
  induction fuel with
  | zero => intros; rfl
  | succ fuel ih =>
    intro it seen found order cur
    unfold BitStream.c64SeekLoop Format.scan
    simp only [ih]
    rcases h : b.c64NextBlock it with _ | ⟨p0, p⟩
    · simp [BitStream.c64Format, h]
    · simp only [BitStream.c64Format, h, Option.map_some, beq_iff_eq]
      rcases b.decodeGcr (p + 20) with _ | x <;> rcases cur with _ | k <;> rfl

/-- The search of R280 is the general one. -/
theorem BitStream.dosFindLoop_eq (b : BitStream) (sec : Byte) (start : Int) :
    ∀ fuel it seen, b.dosFindLoop sec start fuel it seen =
      b.dosFormat.find b.size sec start fuel it seen := by
  intro fuel
  induction fuel with
  | zero => intros; rfl
  | succ fuel ih =>
    intro it seen
    unfold BitStream.dosFindLoop Format.find
    simp only [ih]
    rcases h : b.forward it dosSync 48 with _ | p
    · simp [BitStream.dosFormat, h]
    · simp only [BitStream.dosFormat, h, Option.map_some, beq_iff_eq]

/-- The scan of R286 is the general one. -/
theorem BitStream.dosSeekLoop_eq (b : BitStream) (start : Int) :
    ∀ fuel it seen found order cur, b.dosSeekLoop start fuel it seen found order cur =
      b.dosFormat.scan b.size start fuel it seen found order cur := by
  intro fuel
  induction fuel with
  | zero => intros; rfl
  | succ fuel ih =>
    intro it seen found order cur
    unfold BitStream.dosSeekLoop Format.scan
    simp only [ih]
    rcases h : b.forward it dosSync 48 with _ | p
    · simp [BitStream.dosFormat, h]
    · simp only [BitStream.dosFormat, h, Option.map_some, beq_iff_eq]
      rfl

/-! ## What the scans of the three codecs answer -/

/-- The range of R213 is the one behind the header found. -/
theorem BitStream.c64SeekSector_eq (b : BitStream) (sec : Byte) (start : Int) :
    (b.c64SeekSector sec start).map (fun r => (r.first, r.last)) =
      (b.c64Format.find b.size sec start (scanFuel b) start []).bind b.c64Format.range := by
  unfold BitStream.c64SeekSector
  rw [b.c64FindHeader_eq]
  rcases b.c64Format.find b.size sec start (scanFuel b) start [] with _ | p
  · rfl
  · simp only [Option.bind_some, Format.range]
    rcases h : b.c64NextBlock (p + 80) with _ | ⟨q0, q⟩
    · simp [BitStream.c64Format, h]
    · simp only [BitStream.c64Format, h, Option.map_some, beq_iff_eq]
      split <;> rfl

/-- The range of R280 is the one behind the header found. -/
theorem BitStream.dosSeekSector_eq (b : BitStream) (sec : Byte) (start : Int) :
    (b.dosSeekSector sec start).map (fun r => (r.first, r.last)) =
      (b.dosFormat.find b.size sec start (scanFuel b) start []).bind b.dosFormat.range := by
  unfold BitStream.dosSeekSector BitStream.dosFindHeader
  rw [b.dosFindLoop_eq]
  rcases b.dosFormat.find b.size sec start (scanFuel b) start [] with _ | p
  · rfl
  · simp only [Option.bind_some, Format.range]
    rcases h : b.forward (p + 112) dosSync 48 with _ | q
    · simp [BitStream.dosFormat, h]
    · simp only [BitStream.dosFormat, h, Option.map_some, beq_iff_eq]
      split <;> rfl

/-- R214: the map of `c64SeekSectors`. -/
theorem BitStream.c64SeekSectors_spec (b : BitStream) (start : Int) :
    b.c64Format.Good start (b.c64SeekSectors start) ∧
    ∀ k < 21, ((b.c64SeekSectors start).find? fun e => e.sec == k).map rangeOf =
      (b.c64SeekSector (BitVec.ofNat 8 k) start).map fun r => (r.first, r.last) := by
  unfold BitStream.c64SeekSectors
  rw [b.c64SeekLoop_eq]
  refine ⟨Format.scan_sound _ b.c64Format_sound _ _ _ _ _ _ _ _ le_rfl (by simp)
    ⟨by simp, by simp⟩ rfl (by simp), fun k hk => ?_⟩
  rw [c64SeekSector_eq]
  exact (Format.scan_agrees _ b.c64Format_sound b.size start k hk (scanFuel b) start [] [] 0 none
    le_rfl (by simp [scanFuel]) (by simp) (by simp) (by simp)).1 (by simp)

/-- R286: the map of `dosSeekSectors`. -/
theorem BitStream.dosSeekSectors_spec (b : BitStream) (start : Int) :
    b.dosFormat.Good start (b.dosSeekSectors start) ∧
    ∀ k < 9, ((b.dosSeekSectors start).find? fun e => e.sec == k).map rangeOf =
      (b.dosSeekSector (BitVec.ofNat 8 k) start).map fun r => (r.first, r.last) := by
  unfold BitStream.dosSeekSectors
  rw [b.dosSeekLoop_eq]
  refine ⟨Format.scan_sound _ b.dosFormat_sound _ _ _ _ _ _ _ _ le_rfl (by simp)
    ⟨by simp, by simp⟩ rfl (by simp), fun k hk => ?_⟩
  rw [dosSeekSector_eq]
  exact (Format.scan_agrees _ b.dosFormat_sound b.size start k hk (scanFuel b) start [] [] 0 none
    le_rfl (by simp [scanFuel]) (by simp) (by simp) (by simp)).1 (by simp)

/-- R342, R280: where `dosFindHeader` finds a header. -/
theorem BitStream.dosFindHeader_some {b : BitStream} {sec : Byte} {start p : Int}
    (h : b.dosFindHeader sec start = some p) :
    start + 48 ≤ p ∧ p - 48 - start < b.size ∧ b.getBits (p - 48) 48 = dosSync ∧
      b.rdMfm p = 0xFE ∧ b.rdMfm (p + 48) - 1 = sec := by
  rw [BitStream.dosFindHeader, b.dosFindLoop_eq] at h
  obtain ⟨it, q, h1, h2, h3, h4, h5⟩ :=
    Format.find_some _ b.dosFormat_sound _ _ _ _ _ _ _ le_rfl h
  obtain ⟨p', hf, he⟩ := Option.map_eq_some_iff.1 h2
  cases he
  obtain ⟨f1, f2, f3, -⟩ := BitStream.forward_some hf
  exact ⟨by omega, h3, f3, by simpa [BitStream.dosFormat] using h4,
    by simpa [BitStream.dosFormat] using h5⟩

/-- R213: where `c64SeekSector` finds the header and the payload. -/
theorem BitStream.c64SeekSector_some {b : BitStream} {sec : Byte} {start : Int} {r : SectorRange}
    (h : b.c64SeekSector sec start = some r) :
    start + 10 ≤ r.mark ∧ b.HeaderAt r.mark ∧ b.decodeGcr (r.mark + 20) = some sec ∧
      r.mark + 100 ≤ r.first ∧ b.DataAt (r.first - 10) ∧ r.last = r.first + 2560 ∧
      ∀ m, r.mark + 90 ≤ m → m < r.first - 10 → ¬b.MarkAt m := by
  unfold BitStream.c64SeekSector at h
  rw [b.c64FindHeader_eq] at h
  rcases hf : b.c64Format.find b.size sec start (scanFuel b) start [] with _ | p
  · rw [hf] at h; simp at h
  · rw [hf] at h
    simp only [] at h
    rcases hn : b.c64NextBlock (p + 80) with _ | ⟨q0, q⟩
    · rw [hn] at h; simp at h
    · rw [hn] at h
      simp only [] at h
      split at h
      · rename_i h7
        cases h
        obtain ⟨it, q', h1, h2, h3, h4, h5⟩ :=
          Format.find_some _ b.c64Format_sound _ _ _ _ _ _ _ le_rfl hf
        obtain ⟨⟨p0, p'⟩, hp, he⟩ := Option.map_eq_some_iff.1 h2
        cases he
        obtain ⟨f1, f2, f3, f4, -⟩ := BitStream.c64NextBlock_some hp
        obtain ⟨g1, g2, g3, g4, g5⟩ := BitStream.c64NextBlock_some hn
        simp only [] at *
        have e10 : q + 10 - 10 = q := by omega
        rw [e10]
        exact ⟨by omega, ⟨f4, by simpa [BitStream.c64Format] using h4⟩, h5, by omega, ⟨g4, h7⟩, trivial,
          fun m a1 a2 => g5 m (by omega) a2⟩
      · simp at h

/-- R280: where `dosSeekSector` finds the header and the payload. -/
theorem BitStream.dosSeekSector_some {b : BitStream} {sec : Byte} {start : Int} {r : SectorRange}
    (h : b.dosSeekSector sec start = some r) :
    b.dosFindHeader sec start = some r.mark ∧
      b.forward (r.mark + 112) dosSync 48 = some (r.first - 16) ∧ b.rdMfm (r.first - 16) = 0xFB ∧
      r.last = r.first + 8192 := by
  unfold BitStream.dosSeekSector at h
  rcases hf : b.dosFindHeader sec start with _ | p
  · rw [hf] at h; simp at h
  · rw [hf] at h
    simp only [] at h
    rcases hn : b.forward (p + 112) dosSync 48 with _ | q
    · rw [hn] at h; simp at h
    · rw [hn] at h
      simp only [] at h
      split at h
      · rename_i hb
        cases h
        have e16 : q + 16 - 16 = q := by omega
        simp only [e16]
        exact ⟨trivial, hn, hb, trivial⟩
      · simp at h

/-- The C64 scan makes progress. -/
theorem BitStream.c64Scan_advances (b : BitStream) : b.c64Scan.Advances := by
  intro it q p h
  obtain ⟨a1, a2⟩ := b.c64Format_sound.next it q p h
  show it ≤ q ∧ q < if b.decodeGcr p = some 0x08 then p + 80 else p + 10
  split <;> omega

/-- The DOS scan makes progress. -/
theorem BitStream.dosScan_advances (b : BitStream) : b.dosScan.Advances := by
  intro it q p h
  obtain ⟨a1, a2⟩ := b.dosFormat_sound.next it q p h
  show it ≤ q ∧ q < if b.rdMfm p = 0xFE then p + 112 else p + 16
  split <;> omega

/-- R213: the header `c64FindHeader` finds. -/
theorem BitStream.c64FindHeader_finds (b : BitStream) (sec : Byte) (start : Int) :
    b.c64Scan.Finds b.size start sec (b.c64FindHeader sec start (scanFuel b) start []) := by
  have : ∀ fuel it seen, b.c64FindHeader sec start fuel it seen =
      b.c64Scan.find b.size sec start fuel it seen := by
    intro fuel
    induction fuel with
    | zero => intros; rfl
    | succ fuel ih =>
      intro it seen
      unfold BitStream.c64FindHeader SectorScan.find
      simp only [ih]
      have hnext : b.c64Scan.next it = (b.c64NextBlock it).map fun r => (r.1 - 10, r.2) := rfl
      rw [hnext]
      rcases b.c64NextBlock it with _ | ⟨p0, p⟩
      · rfl
      · have hnum : b.c64Scan.number p =
            if b.decodeGcr p = some 0x08 then b.decodeGcr (p + 20) else none := rfl
        have hafter : b.c64Scan.after p =
            if b.decodeGcr p = some 0x08 then p + 80 else p + 10 := rfl
        simp only [Option.map_some, hnum, hafter]
        by_cases h8 : b.decodeGcr p = some 0x08
        · simp only [if_pos h8] <;> rcases b.decodeGcr (p + 20) with _ | x <;> rfl
        · simp only [if_neg h8]
  rw [this]
  exact b.c64Scan.finds b.c64Scan_advances b sec start

/-- R280: the header `dosFindHeader` finds. -/
theorem BitStream.dosFindHeader_finds (b : BitStream) (sec : Byte) (start : Int) :
    b.dosScan.Finds b.size start sec (b.dosFindHeader sec start) := by
  have : ∀ fuel it seen, b.dosFindLoop sec start fuel it seen =
      b.dosScan.find b.size sec start fuel it seen := by
    intro fuel
    induction fuel with
    | zero => intros; rfl
    | succ fuel ih =>
      intro it seen
      unfold BitStream.dosFindLoop SectorScan.find
      simp only [ih]
      have hnext : b.dosScan.next it = (b.forward it dosSync 48).map fun p => (p - 48, p) := rfl
      rw [hnext]
      rcases b.forward it dosSync 48 with _ | p
      · rfl
      · have hnum : b.dosScan.number p =
            if b.rdMfm p = 0xFE then some (b.rdMfm (p + 48) - 1) else none := rfl
        have hafter : b.dosScan.after p = if b.rdMfm p = 0xFE then p + 112 else p + 16 := rfl
        simp only [Option.map_some, hnum, hafter]
        by_cases hm : b.rdMfm p = 0xFE
        · simp only [if_pos hm]
        · simp only [if_neg hm]
  rw [BitStream.dosFindHeader, this]
  exact b.dosScan.finds b.dosScan_advances b sec start

/-- The number of the Amiga sector whose info field begins at `p` (R250). -/
def BitStream.amiNumber (b : BitStream) (p : Int) : Byte := (b.amiInfoAt p).getD 2 0

/-- Where the Amiga scan looks. -/
theorem BitStream.amiScan_next (b : BitStream) (it : Int) :
    b.amiScan.next it = (b.forward it amiSync 32).map fun p => (p - 32, p) := rfl

/-- Every Amiga block has a number. -/
theorem BitStream.amiScan_numbers (b : BitStream) (ps : List Int) :
    ps.filterMap b.amiScan.number = ps.map b.amiNumber :=
  List.filterMap_eq_map (f := b.amiNumber) ▸ rfl

/-- The Amiga scan makes progress. -/
theorem BitStream.amiScan_advances (b : BitStream) : b.amiScan.Advances := by
  intro it q p h
  rw [b.amiScan_next] at h
  obtain ⟨p', h1, h2⟩ := Option.map_eq_some_iff.1 h
  cases h2
  have := (BitStream.forward_some h1).1
  show it ≤ p - 32 ∧ p - 32 < p
  omega

/-- The entry an Amiga sync gives, with its place in the order of the numbers seen (R256). -/
def BitStream.amiEntry (b : BitStream) (pj : Int × Nat) : Option SeekEntry :=
  if (b.amiNumber pj.1).toNat < 11 then
    some ⟨(b.amiNumber pj.1).toNat, pj.1 + 448, pj.1 + 448 + 8192, pj.2⟩
  else none

/-- R250: what the search for an Amiga sector answers. -/
theorem BitStream.amiSeekLoop_some {b : BitStream} {sec : Byte} {start : Int} :
    ∀ {fuel : Nat} {it : Int} {seen : List Byte} {r : SectorRange}, start ≤ it →
      b.amiSeekLoop sec start fuel it seen = some r →
      start + 32 ≤ r.mark ∧ r.mark - 32 - start < b.size ∧
        b.getBits (r.mark - 32) 32 = amiSync ∧ b.amiNumber r.mark = sec ∧
        r.first = r.mark + 448 ∧ r.last = r.mark + 448 + 8192 := by
  intro fuel
  induction fuel with
  | zero => intro it seen r _ h; simp [BitStream.amiSeekLoop] at h
  | succ fuel ih =>
    intro it seen r h0 h
    unfold BitStream.amiSeekLoop at h
    split at h
    · simp at h
    · rename_i p hf
      obtain ⟨f1, f2, f3, -⟩ := BitStream.forward_some hf
      split at h
      · simp at h
      · rename_i hb
        simp only [] at h
        split at h
        · simp at h
        · split at h
          · rename_i hx
            cases h
            exact ⟨by simp only []; omega, by simp only []; omega, f3, hx, rfl, rfl⟩
          · exact ih (by omega) h

/-- R250: the header an Amiga seek finds. -/
theorem BitStream.amiSeekSector_finds (b : BitStream) (sec : Byte) (start : Int) :
    ∃ found, b.amiScan.Finds b.size start sec found ∧
      b.amiSeekSector sec start = found.map fun p => ⟨p, p + 448, p + 448 + 8192⟩ := by
  refine ⟨_, b.amiScan.finds b.amiScan_advances b sec start, ?_⟩
  rw [BitStream.amiSeekSector]
  generalize scanFuel b = fuel
  suffices ∀ it seen, b.amiSeekLoop sec start fuel it seen =
      (b.amiScan.find b.size sec start fuel it seen).map fun p => ⟨p, p + 448, p + 448 + 8192⟩ from
    this _ _
  induction fuel with
  | zero => intros; rfl
  | succ fuel ih =>
    intro it seen
    unfold BitStream.amiSeekLoop SectorScan.find
    simp only [ih, b.amiScan_next]
    rcases h : b.forward it amiSync 32 with _ | p
    · rfl
    · simp only [Option.map_some]
      split
      · rfl
      · have hnum : b.amiScan.number p = some (b.amiNumber p) := rfl
        simp only [hnum]
        show (if b.amiNumber p ∈ seen then none else _) = _
        split
        · rfl
        · show (if b.amiNumber p = sec then _ else _) = _
          split <;> rfl

/-- R256: the map of `amiSeekSectors` from the blocks the scan passes one after the other. -/
theorem BitStream.amiSeekAllLoop_spec (b : BitStream) (start : Int) :
    ∀ (fuel : Nat) (ps : List Int) (it : Int) (seen : List Byte) (found : List SeekEntry),
      b.amiScan.Passes b.size start ps it → (∀ x, x ∈ seen ↔ x ∈ ps.map b.amiNumber) →
      seen.length = ps.length → start + b.size ≤ it + fuel →
      ∃ qs it', b.amiScan.Passes b.size start (ps ++ qs) it' ∧
        b.amiScan.Over b.size start (ps ++ qs) it' ∧
        b.amiSeekAllLoop start fuel it seen found =
          found ++ (qs.zipIdx ps.length).filterMap b.amiEntry ∧
        ∀ sec : Byte, sec ∉ seen → b.amiSeekLoop sec start fuel it seen =
          (qs.find? fun p => b.amiNumber p == sec).map fun p => ⟨p, p + 448, p + 448 + 8192⟩ := by
  intro fuel
  induction fuel with
  | zero =>
    intro ps it seen found hp hs hl hfuel
    exact ⟨[], it, by rwa [List.append_nil],
      SectorScan.over_of_far b.amiScan_advances _ (by simpa using hfuel),
      by simp [BitStream.amiSeekAllLoop], fun _ _ => rfl⟩
  | succ fuel ih =>
    intro ps it seen found hp hs hl hfuel
    have hnums : ps.filterMap b.amiScan.number = ps.map b.amiNumber := b.amiScan_numbers ps
    unfold BitStream.amiSeekAllLoop BitStream.amiSeekLoop
    rcases hf : b.forward it amiSync 32 with _ | p
    · have hnext : b.amiScan.next it = none := by rw [b.amiScan_next, hf]; rfl
      exact ⟨[], it, by rwa [List.append_nil], by simp [SectorScan.Over, hnext], by simp,
        fun _ _ => rfl⟩
    · obtain ⟨f1, -⟩ := BitStream.forward_some hf
      have hnext : b.amiScan.next it = some (p - 32, p) := by rw [b.amiScan_next, hf]; rfl
      have hnum : b.amiScan.number p = some (b.amiNumber p) := rfl
      simp only []
      by_cases hb : p - 32 - start ≥ b.size
      · rw [if_pos hb]
        exact ⟨[], it, by rwa [List.append_nil],
          by simp only [SectorScan.Over, hnext]; exact .inl (by omega), by simp,
          fun _ _ => by simp [hb]⟩
      · rw [if_neg hb]
        by_cases hin : (b.amiInfoAt p).getD 2 0 ∈ seen
        · rw [if_pos hin]
          refine ⟨[], it, by rwa [List.append_nil], ?_, by simp,
            fun _ _ => by simp only [if_neg hb, if_pos hin]; rfl⟩
          simp only [SectorScan.Over, hnext, List.append_nil]
          exact .inr ⟨_, hnum, by rw [hnums]; exact (hs _).1 hin⟩
        · rw [if_neg hin]
          have hpass : b.amiScan.Passes b.size start (ps ++ [p]) p :=
            hp.block hnext (by omega) fun y hy => by
              cases hy; rw [hnums]; exact fun h => hin ((hs _).2 h)
          obtain ⟨qs, it', a1, a2, a3, a4⟩ := ih (ps ++ [p]) p (b.amiNumber p :: seen)
            (if (b.amiNumber p).toNat < 11 then
              found ++ [⟨(b.amiNumber p).toNat, p + 448, p + 448 + 8192, seen.length⟩]
            else found) hpass (fun y => by simp [hs y, or_comm]) (by simp [hl]) (by omega)
          rw [List.append_assoc, List.singleton_append] at a1 a2
          refine ⟨p :: qs, it', a1, a2, ?_, fun sec hsec => ?_⟩
          · refine Eq.trans a3 ?_
            rw [List.zipIdx_cons, List.length_append, List.length_singleton, List.filterMap_cons]
            have he : b.amiEntry (p, ps.length) = if (b.amiNumber p).toNat < 11 then
              some ⟨(b.amiNumber p).toNat, p + 448, p + 448 + 8192, ps.length⟩ else none := rfl
            rw [he, hl]
            split <;> simp
          · by_cases hx : (b.amiInfoAt p).getD 2 0 = sec
            · have : (b.amiNumber p == sec) = true := beq_iff_eq.2 hx
              rw [List.find?_cons, this]
              simp only [if_neg hb, if_neg hin, if_pos hx]; rfl
            · have : (b.amiNumber p == sec) = false := beq_eq_false_iff_ne.2 hx
              rw [List.find?_cons, this]
              simp only [if_neg hb, if_neg hin, if_neg hx]
              exact a4 sec (by simp only [List.mem_cons, not_or]; exact ⟨fun h => hx h.symm, hsec⟩)

/-- R256: the map of `amiSeekSectors`. -/
theorem BitStream.amiSeekSectors_spec (b : BitStream) (start : Int) :
    ∃ ps it, b.amiScan.Passes b.size start ps it ∧ b.amiScan.Over b.size start ps it ∧
      b.amiSeekSectors start = ps.zipIdx.filterMap b.amiEntry ∧
      ∀ sec : Byte, b.amiSeekSector sec start =
        (ps.find? fun p => b.amiNumber p == sec).map fun p => ⟨p, p + 448, p + 448 + 8192⟩ := by
  obtain ⟨ps, it, h1, h2, h3, h4⟩ := b.amiSeekAllLoop_spec start (scanFuel b) [] start [] []
    .begin (by simp) rfl (by simp [scanFuel])
  exact ⟨ps, it, h1, h2, by rw [BitStream.amiSeekSectors, h3]; rfl, fun sec => h4 sec (by simp)⟩

/-- A SEEK through the entries of a map of syncs. -/
theorem BitStream.amiSeekSectors_agrees (b : BitStream) (start : Int) :
    (∀ e ∈ b.amiSeekSectors start, e.sec < 11) ∧
    (b.amiSeekSectors start).Pairwise (fun e f => e.sec ≠ f.sec ∧ e.first < f.first) ∧
    ∀ k < 11, ((b.amiSeekSectors start).find? fun e => e.sec == k).map rangeOf =
      (b.amiSeekSector (BitVec.ofNat 8 k) start).map fun r => (r.first, r.last) := by
  obtain ⟨ps, it, h0, -, h5, h6⟩ := b.amiSeekSectors_spec start
  have h1 : (ps.map b.amiNumber).Nodup := by rw [← b.amiScan_numbers]; exact h0.nodup
  have h4 : ps.Pairwise (· < ·) := (h0.rising
    (fun _ _ _ h => by have := (b.amiScan_advances _ _ _ h); exact lt_of_le_of_lt this.1 this.2)
    fun _ => le_rfl).1
  rw [h5]
  have key : ∀ (ps : List Int) (n : Nat), (ps.map b.amiNumber).Nodup → ps.Pairwise (· < ·) →
      (∀ e ∈ (ps.zipIdx n).filterMap b.amiEntry, e.sec < 11 ∧ ∃ p ∈ ps, e.first = p + 448 ∧
        e.sec = (b.amiNumber p).toNat) ∧
      ((ps.zipIdx n).filterMap b.amiEntry).Pairwise (fun e f => e.sec ≠ f.sec ∧ e.first < f.first) ∧
      ∀ k < 11, (((ps.zipIdx n).filterMap b.amiEntry).find? fun e => e.sec == k).map rangeOf =
        (ps.find? fun p => b.amiNumber p == BitVec.ofNat 8 k).map
          fun p => (p + 448, p + 448 + 8192) := by
    intro ps
    induction ps with
    | nil => intro n _ _; simp
    | cons p ps ih =>
      intro n a1 a2
      rw [List.map_cons, List.nodup_cons] at a1
      rw [List.pairwise_cons] at a2
      obtain ⟨i1, i2, i3⟩ := ih (n + 1) a1.2 a2.2
      rw [List.zipIdx_cons, List.filterMap_cons]
      by_cases hlt : (b.amiNumber p).toNat < 11
      · have he : b.amiEntry (p, n) =
            some ⟨(b.amiNumber p).toNat, p + 448, p + 448 + 8192, n⟩ := if_pos hlt
        rw [he]
        simp only []
        refine ⟨?_, ?_, ?_⟩
        · intro e he
          rcases List.mem_cons.1 he with rfl | he
          · exact ⟨hlt, p, by simp, rfl, rfl⟩
          · obtain ⟨c1, q, c2, c3⟩ := i1 e he
            exact ⟨c1, q, List.mem_cons_of_mem _ c2, c3⟩
        · rw [List.pairwise_cons]
          refine ⟨fun e he => ?_, i2⟩
          obtain ⟨c1, q, c2, c3, c4⟩ := i1 e he
          refine ⟨fun h => a1.1 ?_, ?_⟩
          · have : b.amiNumber p = b.amiNumber q := BitVec.eq_of_toNat_eq (by
              have h' : (b.amiNumber p).toNat = e.sec := h
              rw [h', c4])
            rw [this]; exact List.mem_map_of_mem c2
          · have := a2.1 q c2; show p + 448 < e.first; omega
        · intro k hk
          by_cases hpk : b.amiNumber p = BitVec.ofNat 8 k
          · have h1 : ((b.amiNumber p).toNat == k) = true := by
              rw [hpk]; simp; omega
            have h2 : (b.amiNumber p == BitVec.ofNat 8 k) = true := by simpa using hpk
            rw [List.find?_cons, List.find?_cons]
            simp only [h1, h2]; rfl
          · have h1 : ((b.amiNumber p).toNat == k) = false := by
              rw [beq_eq_false_iff_ne]
              rintro rfl; exact hpk (by simp)
            have h2 : (b.amiNumber p == BitVec.ofNat 8 k) = false := by simpa using hpk
            rw [List.find?_cons, List.find?_cons]
            simp only [h1, h2]; exact i3 k hk
      · have he : b.amiEntry (p, n) = none := if_neg hlt
        rw [he]
        simp only []
        refine ⟨fun e he => ?_, i2, fun k hk => ?_⟩
        · obtain ⟨c1, q, c2, c3⟩ := i1 e he
          exact ⟨c1, q, List.mem_cons_of_mem _ c2, c3⟩
        · have h2 : (b.amiNumber p == BitVec.ofNat 8 k) = false := by
            rw [beq_eq_false_iff_ne]
            intro h; apply hlt; rw [h]; simp; omega
          rw [List.find?_cons]
          simp only [h2]; exact i3 k hk
  obtain ⟨k1, k2, k3⟩ := key ps 0 h1 h4
  refine ⟨fun e he => (k1 e he).1, k2, fun k hk => ?_⟩
  rw [k3 k hk, h6]
  rcases ps.find? fun p => b.amiNumber p == BitVec.ofNat 8 k with _ | p <;> rfl

end Sys2Proof.Machine
end

