-- ==== Sys2Proof/Tests/Slice0.lean ====
section
/-! SUPPORT. Tests: ill-formed input refused, every command byte decoded, results that 95_test_vectors.md
or a rule states for single steps, and for every statement with hypotheses states that meet them. -/

namespace Sys2Proof.Tests

open Sys2Proof Sys2Proof.Machine

set_option Elab.async false

/-! ## Small states -/

/-- The operand registers `A0..A5` of a state. -/
def withA (s : State) (a0 a1 a2 a3 a4 a5 : Word) : State :=
  { s with host := { s.host with a0 := a0, a1 := a1, a2 := a2, a3 := a3, a4 := a4, a5 := a5 } }

/-- The machine after reset with these operands. -/
def ops (a0 a1 a2 a3 a4 a5 : Word) : State := withA State.reset a0 a1 a2 a3 a4 a5

/-- Bytes placed in a memory. -/
def put (s : State) (sp : Space) (a : Nat) (bs : List Byte) : State := s.writeBytes sp a bs

/-- `VIEW[0]` set to bits `first..last` of a buffer. -/
def look (s : State) (buf : BufSel) (first last : BitVec 32) : State :=
  s.setView 0 ⟨buf, first, last⟩

/-- A disk inserted as it is. -/
def insert (s : State) : State := { s with disk.present := true }

/-- `LEN` the same for all halftracks. -/
def lens (s : State) (n : BitVec 17) : State := { s with disk.len := Vector.replicate 84 n }

/-- The machine after reset, `FAULT` set by a bad operand. -/
def faulty : State := State.reset.faulted .badOperand

/-- What an operation leaves, seen through `f`; `none` when it does not end in a state. -/
def got {α : Type} (i : Instr) (s : State) (f : State → α) : Option α :=
  match exec i s with
  | .next t => some (f t)
  | .fault _ => none
  | .refused _ => none

/-- The same for an event. -/
def gotEvent {α : Type} (e : Event) (s : State) (f : State → α) : Option α :=
  match deliver e s with
  | .next t => some (f t)
  | .fault _ => none
  | .refused _ => none

/-- `R0` and `STATUS`. -/
def r0st (t : State) : Nat × Nat := (t.host.r0.toNat, t.host.status.word.toNat)

/-- `R0` to `R3`. -/
def rs (t : State) : List Nat := [t.host.r0.toNat, t.host.r1.toNat, t.host.r2.toNat, t.host.r3.toNat]

/-- `ER0` to `ER3`. -/
def ers (t : State) : List Nat := [t.ctrl.er0.toNat, t.ctrl.er1.toNat, t.ctrl.er2.toNat, t.ctrl.er3.toNat]

/-- `STATUS`. -/
def stw (t : State) : Nat := t.host.status.word.toNat

/-- Bytes of a memory. -/
def mem (sp : Space) (a n : Nat) (t : State) : List Byte := t.readBytes sp a n

/-- A 32-bit view over four bytes at the beginning of `DMEM`, and operands. -/
def quad (b0 b1 b2 b3 : Byte) (a0 a1 a2 a3 : Word) : State :=
  look (put (ops a0 a1 a2 a3 0 0) .dmem 0 [b0, b1, b2, b3]) .dmem 0 32

/-- The first 22 bytes of a track whose sector 0 holds 256 bytes 0x0F (so the rest of its payload is the
fill pattern): sync, header `08 01 00 01 00 00 0F 0F`, sync, id 0x07, two payload bits. -/
def c64Start : List Byte :=
  [0xFF, 0xFF, 0xFF, 0xFF, 0xFF, 0x52, 0x54, 0xB5, 0x29, 0x4B, 0x52, 0x94, 0xA5, 0x55, 0x55,
    0xFF, 0xFF, 0xFF, 0xFF, 0xFF, 0x55, 0xD5]

/-- That track in `TRK[0]`, with its checksum 0x00 at bit 2730, a disk inserted and looked at. -/
def c64Disk (a0 a1 a2 a3 a4 a5 : Word) : State :=
  look (put (put (insert (ops a0 a1 a2 a3 a4 a5)) (.trk 0) 0 c64Start) (.trk 0) 341 [0x54, 0xA5])
    (.trk 0) 0 61536

/-- A circular view of 12 bytes in which Amiga sector 0 decodes: a sync, then zeros; header and payload
are read around the circle. -/
def amiLoop (a0 a1 a2 a3 a4 a5 : Word) : State :=
  look (put { ops a0 a1 a2 a3 a4 a5 with xlen := 96 } .xtrk 0
    [0x44, 0x89, 0x44, 0x89, 0, 0, 0, 0, 0, 0, 0, 0]) .xtrk 0 96

/-- A circular view of 44 bytes in which DOS sector 0 decodes: header `FE 00 00 01 02` with its CRC,
data mark, and a payload read around the circle whose CRC is 0. -/
def dosLoop (a0 a1 a2 a3 a4 a5 : Word) : State :=
  look (put { ops a0 a1 a2 a3 a4 a5 with xlen := 352 } .xtrk 0
    [0x44, 0x89, 0x44, 0x89, 0x44, 0x89, 0x55, 0x54, 0, 0, 0, 0, 0x00, 0x01, 0x00, 0x04,
      0x50, 0x44, 0x14, 0x55, 0x44, 0x89, 0x44, 0x89, 0x44, 0x89, 0x55, 0x45, 0x00, 0x55,
      0x55, 0x04, 0, 0, 0, 0, 0, 0, 0, 0, 0, 0, 0, 0]) .xtrk 0 352

/-! ## WellFormed: an ill-formed term for each check is refused -/

theorem test_wellFormed_port : wellFormed .host .engTick = false ∧
    wellFormed .controller .nop = false ∧
    wellFormed .controller .engPos = true ∧ wellFormed .host .anaXrun = true := by decide

theorem test_inBounds : Space.inBounds .dmem 262144 1 = false ∧
    Space.inBounds .dmem 262143 1 = true ∧
    Space.inBounds (.trk 3) 7928 1 = false ∧ Space.inBounds .xtrk 16384 1 = false ∧
    Space.inBounds .errtab 802 1 = false := by decide

theorem test_bufSel : BufSel.ofCode 86 = none ∧ BufSel.ofCode 127 = none ∧
    BufSel.ofCode 83 = some (.trk 83) ∧ BufSel.ofCode 84 = some .xtrk ∧
    BufSel.ofCode 85 = some .dmem := by decide

theorem test_lenLegal : lenLegal 0 63425 = false ∧ lenLegal 84 0 = false ∧
    lenLegal 83 63424 = true := by
  decide

theorem test_xlenLegal : xlenLegal 131073 = false ∧ xlenLegal 131072 = true := by decide

/-! ## Decoding: unit in bits 7:4, function in bits 3:0 (R90), the rows of R93 -/

theorem test_decode_system :
    decodeTableWord 8 0b00000000 = some .nop ∧
    decodeTableWord 8 0b00000001 = some .reset := by
  decide +kernel

theorem test_decode_bitView :
    decodeTableWord 8 0b00010000 = some .bvDef ∧
    decodeTableWord 8 0b00010001 = some .bvSlice ∧
    decodeTableWord 8 0b00010010 = some .bvSize ∧
    decodeTableWord 8 0b00010011 = some .bvGet ∧
    decodeTableWord 8 0b00010100 = some .bvSet ∧
    decodeTableWord 8 0b00010101 = some .bvGetbyte ∧
    decodeTableWord 8 0b00010110 = some .bvSetbyte ∧
    decodeTableWord 8 0b00010111 = some .bvGetbits ∧
    decodeTableWord 8 0b00011000 = some .bvSetbits ∧
    decodeTableWord 8 0b00011001 = some .bvFwd ∧
    decodeTableWord 8 0b00011010 = some .byGet ∧
    decodeTableWord 8 0b00011011 = some .bySet := by
  decide +kernel

theorem test_decode_gcr :
    decodeTableWord 8 0b00100000 = some .gcrB2g ∧
    decodeTableWord 8 0b00100001 = some .gcrG2b ∧
    decodeTableWord 8 0b00100010 = some .gcrEnc ∧
    decodeTableWord 8 0b00100011 = some .gcrDec := by
  decide +kernel

theorem test_decode_mfm :
    decodeTableWord 8 0b00110000 = some .mfmEnc ∧
    decodeTableWord 8 0b00110001 = some .mfmDec ∧
    decodeTableWord 8 0b00110010 = some .mfmOeenc ∧
    decodeTableWord 8 0b00110011 = some .mfmOedec ∧
    decodeTableWord 8 0b00110100 = some .mfmClk ∧
    decodeTableWord 8 0b00110101 = some .mfmClkbuf := by
  decide +kernel

theorem test_decode_c64 :
    decodeTableWord 8 0b01000000 = some .c64Encsec ∧
    decodeTableWord 8 0b01000001 = some .c64Enctrk ∧
    decodeTableWord 8 0b01000010 = some .c64Decsec ∧
    decodeTableWord 8 0b01000011 = some .c64Dectrk ∧
    decodeTableWord 8 0b01000100 = some .c64Seek ∧
    decodeTableWord 8 0b01000101 = some .c64Seekall := by
  decide +kernel

theorem test_decode_amiga :
    decodeTableWord 8 0b01010000 = some .amiEncsec ∧
    decodeTableWord 8 0b01010001 = some .amiEnctrk ∧
    decodeTableWord 8 0b01010010 = some .amiDecsec ∧
    decodeTableWord 8 0b01010011 = some .amiDectrk ∧
    decodeTableWord 8 0b01010100 = some .amiSeek ∧
    decodeTableWord 8 0b01010101 = some .amiSeekall := by
  decide +kernel

theorem test_decode_dos :
    decodeTableWord 8 0b01100000 = some .dosEncsec ∧
    decodeTableWord 8 0b01100001 = some .dosEnctrk ∧
    decodeTableWord 8 0b01100010 = some .dosDecsec ∧
    decodeTableWord 8 0b01100011 = some .dosDectrk ∧
    decodeTableWord 8 0b01100100 = some .dosSeek ∧
    decodeTableWord 8 0b01100101 = some .dosSeekall := by
  decide +kernel

theorem test_decode_disk :
    decodeTableWord 8 0b01110000 = some .dskClear ∧
    decodeTableWord 8 0b01110001 = some .dskEncode ∧
    decodeTableWord 8 0b01110010 = some .dskRdblk ∧
    decodeTableWord 8 0b01110011 = some .dskWrblk ∧
    decodeTableWord 8 0b01110100 = some .dskNumblk ∧
    decodeTableWord 8 0b01110101 = some .dskLenht ∧
    decodeTableWord 8 0b01110110 = some .dskLentrk ∧
    decodeTableWord 8 0b01110111 = some .dskDefaults ∧
    decodeTableWord 8 0b01111000 = some .dskSetwp ∧
    decodeTableWord 8 0b01111001 = some .dskInsert ∧
    decodeTableWord 8 0b01111010 = some .dskEject ∧
    decodeTableWord 8 0b01111011 = some .dskFlags := by
  decide +kernel

theorem test_decode_analyzer :
    decodeTableWord 8 0b10000000 = some .anaRun ∧
    decodeTableWord 8 0b10000001 = some .anaLayout ∧
    decodeTableWord 8 0b10000010 = some .anaLog ∧
    decodeTableWord 8 0b10000011 = some .anaXrun := by
  decide +kernel

theorem test_decode_engine :
    decodeTableWord 8 0b10010000 = some .engTick ∧
    decodeTableWord 8 0b10010001 = some .engRdbit ∧
    decodeTableWord 8 0b10010010 = some .engWrbit ∧
    decodeTableWord 8 0b10010011 = some .engRot ∧
    decodeTableWord 8 0b10010100 = some .engSync ∧
    decodeTableWord 8 0b10010101 = some .engLatch ∧
    decodeTableWord 8 0b10010110 = some .engSetht ∧
    decodeTableWord 8 0b10010111 = some .engPos := by
  decide +kernel

theorem test_decode_illegal : (∀ b ∈ [0x02, 0x0F, 0x1C, 0x1F, 0x24, 0x2F, 0x36, 0x3F, 0x46, 0x56, 0x66, 0x7C,
    0x84, 0x8F, 0x98, 0x9F, 0xA0, 0xFF], decodeTableWord 8 b = none) := by
  decide +kernel

theorem test_decode_by_name : decode .host [0x02] = .error (.illegal .host 0x02) ∧
    decode .host [0x90] = .error (.illegal .host 0x90) ∧
    decode .controller [0x12] = .error (.illegal .controller 0x12) ∧
    decode .host [] = .error .noByte := ⟨rfl, rfl, rfl, rfl⟩

/-! ## System, errors, events -/

theorem test_nop :
    got .nop (ops 1 2 3 4 5 6) stw = some 0 := by
  decide +kernel

theorem test_nop_faulted :
    got .nop faulty stw = some 0x0342 := by
  decide +kernel

theorem test_reset :
    got .reset (withA faulty 7 0 0 0 0 0) (fun t => (t.host.a0.toNat, stw t)) = some (0, 0) := by
  decide +kernel

theorem test_illegal_byte :
    gotEvent (.hostCmd 0x02) State.reset stw = some 1 ∧
    gotEvent (.hostCmd 0x90) State.reset stw = some 1 ∧
    gotEvent (.hostCmd 0x02) faulty stw = some 0x0342 := by
  decide +kernel

theorem test_memory_port :
    gotEvent (.memWrite .dmem 0 0x12) faulty (mem .dmem 0 1) = some [0x12] ∧
    gotEvent (.memRead .dmem 262144) State.reset (fun t => (t.busData.toNat, stw t)) = some (0, 0) ∧
    gotEvent (.lenWrite 0 63425) State.reset (fun t => t.lenOf 0) = some 61536 ∧
    gotEvent (.hostReadReg .status) faulty (fun t => t.busData.toNat) = some 0x0343 := by
  decide +kernel

/-! ## BitView: V-BV-1 to V-BV-7 -/

theorem test_bvDef :
    got .bvDef (ops 0 85 0 32 0 0) (fun t => (t.views[0], stw t)) = some (⟨.dmem, 0, 32⟩, 0) := by
  decide +kernel

theorem test_bvDef_fatal :
    got .bvDef (ops 0 0 0 63425 0 0) stw = some 0x0343 ∧
    got .bvDef (ops 0 85 8 0 0 0) stw = some 0x0343 := by
  decide +kernel

theorem test_bvSlice :
    got .bvSlice (quad 0xA5 0x3C 0xF0 0x0F 0 1 4 20) (fun t => t.views[1]) = some ⟨.dmem, 4, 20⟩ := by
  decide +kernel

theorem test_bvSize :
    got .bvSize (quad 0xFF 0xC0 0x12 0x34 0 0 0 0) r0st = some (32, 0) := by
  decide +kernel

theorem test_bvGet :
    got .bvGet (quad 0xFF 0xC0 0x12 0x34 0 (-23) 0 0) r0st = some (1, 0) ∧
    got .bvGet (quad 0xFF 0xC0 0x12 0x34 0 191 0 0) r0st = some (0, 0) := by
  decide +kernel

theorem test_bvGet_empty :
    got .bvGet (ops 0 0 0 0 0 0) stw = some 5 ∧
    got .bvGet (look (ops 0 0 0 0 0 0) (.trk 0) 0 63424) stw = some 4 := by
  decide +kernel

theorem test_bvSet :
    got .bvSet (quad 0 0 0 0 0 (-1) 1 0) (mem .dmem 0 4) = some [0, 0, 0, 1] := by
  decide +kernel

theorem test_bvGetbyte :
    got .bvGetbyte (quad 0xFF 0xC0 0x12 0x34 0 28 0 0) r0st = some (0x4F, 0) := by
  decide +kernel

theorem test_bvSetbyte :
    got .bvSetbyte (look (quad 0xA5 0xC3 0x7E 0 0 14 0xFF 0) .dmem 3 20) (mem .dmem 0 3) =
      some [0xBF, 0xC3, 0x7E] := by
  decide +kernel

theorem test_bvGetbits :
    got .bvGetbits (quad 0xFF 0xC0 0x12 0x34 0 24 16 0) r0st = some (0x34FF, 0) ∧
    got .bvGetbits (quad 0xFF 0xC0 0x12 0x34 0 (-8) 64 0) r0st = some (0x34FFC01234FFC012, 0) := by
  decide +kernel

theorem test_bvGetbits_fatal :
    got .bvGetbits (quad 0 0 0 0 0 0 65 0) stw = some 0x0343 := by
  decide +kernel

theorem test_bvSetbits :
    got .bvSetbits (look (quad 0 0 0 0 0 12 8 0xA7) .dmem 0 16) (mem .dmem 0 2) = some [0x70, 0x0A] ∧
    got .bvSetbits (look (quad 0 0 0 0 0 0 8 0xA7) .dmem 0 5) (mem .dmem 0 2) = some [0xE0, 0] := by
  decide +kernel

theorem test_bvFwd :
    got .bvFwd (quad 0xF0 0 0 0x0F 0 31 0xFF 8) r0st = some (68, 0x10) := by
  decide +kernel

theorem test_bvFwd_not_found :
    got .bvFwd (quad 0xF0 0 0 0x0F 0 0 0x1FF 9) r0st = some (0, 0x06) := by
  decide +kernel

theorem test_byGet :
    got .byGet (quad 0xFF 0xC0 0x12 0x34 0 6 0 0) r0st = some (0x12, 0) ∧
    got .byGet (quad 0xFF 0xC0 0x12 0x34 0 (-1) 0 0) r0st = some (0x34, 0) := by
  decide +kernel

theorem test_bySet :
    got .bySet (quad 0 0 0 0 0 5 0xA7 0) (mem .dmem 0 4) = some [0, 0xA7, 0, 0] := by
  decide +kernel

/-! ## GCR: V-GCR-1 to V-GCR-4 -/

theorem test_gcrB2g :
    got .gcrB2g (ops 0xF8 0 0 0 0 0) r0st = some (0x09, 0) := by
  decide +kernel

theorem test_gcrG2b :
    got .gcrG2b (ops 0x0D 0 0 0 0 0) r0st = some (0x0C, 0) ∧
    got .gcrG2b (ops 0x1F 0 0 0 0 0) r0st = some (0xFF, 0x20) := by
  decide +kernel

/-- The 40-bit view of V-GCR-3. -/
def gcr5 (b0 b1 b2 b3 b4 : Byte) (pos v : Word) : State :=
  look (put (ops 0 pos v 0 0 0) .dmem 0 [b0, b1, b2, b3, b4]) .dmem 0 40

theorem test_gcrEnc :
    got .gcrEnc (gcr5 0 0 0 0 0 35 0xA5) (fun t => (t.host.r0.toNat, mem .dmem 0 5 t)) =
      some (45, [0x78, 0, 0, 0, 0x1A]) := by
  decide +kernel

theorem test_gcrDec :
    got .gcrDec (gcr5 0x78 0 0 0 0x1A (-5) 0) (fun t => (rs t, stw t)) = some ([0xA5, 0, 0, 0], 0) := by
  decide +kernel

theorem test_gcrDec_invalid :
    got .gcrDec (look (quad 0x57 0xC0 0 0 0 0 0 0) .dmem 0 16) (fun t => (t.host.r1.toNat, stw t)) =
      some (1, 0x20) := by
  decide +kernel

/-! ## MFM: V-MFM-1 to V-MFM-3 -/

theorem test_mfmEnc :
    got .mfmEnc (put (ops 0 100 5 0 0 0) .dmem 0 [0xA1, 0x4E, 0x00, 0xFF, 0x01])
      (fun t => (t.host.r0.toNat, mem .dmem 100 10 t)) =
      some (10, [0x44, 0x01, 0x10, 0x54, 0x00, 0x00, 0x55, 0x55, 0x00, 0x01]) := by
  decide +kernel

theorem test_mfmDec :
    got .mfmDec (put (ops 0 100 5 0 0 0) .dmem 0
      [0x44, 0xA9, 0x12, 0x54, 0xAA, 0xAA, 0x55, 0x55, 0x2A, 0xA9]) (mem .dmem 100 5) =
      some [0xA1, 0x4E, 0x00, 0xFF, 0x01] := by
  decide +kernel

theorem test_mfmOeenc :
    got .mfmOeenc (put (ops 0 100 4 0 0 0) .dmem 0 [0x12, 0x34, 0xAB, 0xCD])
      (mem .dmem 100 8) = some [0x01, 0x10, 0x55, 0x44, 0x10, 0x14, 0x01, 0x45] := by
  decide +kernel

theorem test_mfmOedec :
    got .mfmOedec (put (ops 0 100 4 0 0 0) .dmem 0 [0xA9, 0x92, 0x55, 0x44, 0x92, 0x94, 0xA9, 0x45])
      (mem .dmem 100 4) = some [0x12, 0x34, 0xAB, 0xCD] := by
  decide +kernel

theorem test_mfmClk :
    got .mfmClk (ops 0x10 0x00 0 0 0 0) r0st = some (0x92, 0) ∧
    got .mfmClk (ops 0x40 1 0 0 0 0) r0st = some (0x4A, 0) := by
  decide +kernel

theorem test_mfmClkbuf :
    got .mfmClkbuf (put (ops 0 10 0 0 0 0) .dmem 0 [0x44, 0x01, 0x10, 0x54, 0x00, 0x00, 0x55, 0x55, 0x00, 0x01])
      (fun t => (t.host.r0.toNat, mem .dmem 0 10 t)) =
      some (0xA9, [0x44, 0xA9, 0x12, 0x54, 0xAA, 0xAA, 0x55, 0x55, 0x2A, 0xA9]) := by
  decide +kernel

theorem test_mfmClkbuf_none :
    got .mfmClkbuf (ops 0 0 0x77 0 0 0) r0st = some (0x77, 0) := by
  decide +kernel

/-! ## C64 sectors: V-C64-1 to V-C64-9 -/

theorem test_c64_header_bits :
    gcrBits (c64Header 0 0 0x32 0x41 1) =
      bytesBits [0x52, 0x6F, 0x25, 0x29, 0x4B, 0x72, 0xE7, 0x25, 0x55, 0x55] := by
  decide +kernel

theorem test_c64Encsec :
    got .c64Encsec (look (ops 0 0 0 0 0x4132 0) .xtrk 0 2928) (fun t => (rs t, stw t)) =
      some ([2928, 2928, 0, 0], 0) := by
  decide +kernel

theorem test_c64Encsec_fatal :
    got .c64Encsec (look (ops 0 0 0 0 0 0) .xtrk 0 2927) stw = some 0x0C4C ∧
    got .c64Encsec (look (ops 0 0 0x1311 0 0 0) .xtrk 0 3000) stw = some 0x0343 := by
  decide +kernel

theorem test_c64Enctrk :
    got .c64Enctrk (insert (ops 0 0 0 0 0x14132 5376)) (fun t => (rs t, t.lenOf 0, t.views[0])) =
      some ([61488, 0, 0, 0], 61536, ⟨.trk 0, 0, 61536⟩) := by
  decide +kernel

theorem test_c64Enctrk_format :
    got .c64Enctrk (insert (ops 0 0 0 0 0x14132 5375)) stw = some 0x0B ∧
    got .c64Enctrk (ops 0 0 0 0 0 5375) stw = some 0x04 := by
  decide +kernel

theorem test_c64Decsec :
    got .c64Decsec (c64Disk 0 0 0 0x100 0 0) (fun t => (rs t, stw t)) = some ([256, 40, 1, 0], 0) := by
  decide +kernel

theorem test_c64Decsec_cksum :
    got .c64Decsec (put (c64Disk 0 0 0 0x100 0 0) (.trk 0) 30 [0x65]) stw = some 0x28 := by
  decide +kernel

theorem test_c64Dectrk :
    got .c64Dectrk (look (insert (ops 0 0 0 0 0 0)) (.trk 0) 0 16) (fun t => (rs t, stw t)) =
      some ([0, 0, 0, 0], 7) := by
  decide +kernel

theorem test_c64Seek :
    got .c64Seek (c64Disk 0 0 0 0 0 0) (fun t => (rs t, stw t)) = some ([170, 2730, 40, 0], 0x10) := by
  decide +kernel

theorem test_c64Seek_not_found :
    got .c64Seek (look (insert (ops 0 0 0x1500 0 0 0)) (.trk 0) 0 64) stw = some 6 := by
  decide +kernel

theorem test_c64Seekall :
    got .c64Seekall (look (insert (ops 0 0 0 0 0 0)) (.trk 0) 0 16) r0st = some (0, 0) ∧
    seekEntryBytes (some ⟨0, 242, 2802, 0⟩) =
      [0, 0, 0, 0, 0, 0, 0, 0xF2, 0, 0, 0, 0, 0, 0, 0x0A, 0xF2, 0, 0, 0, 0, 0, 0, 0, 0] := by
  decide +kernel

theorem test_geometry :
    [0, 1, 17, 18, 24, 30, 35, 40, 42].map firstBlock = [0, 21, 357, 376, 490, 598, 683, 768, 802] ∧
    [0, 17, 24, 30].map (sectorBits ModelArgs.default) = [2928, 3000, 2960, 2936] ∧
    blockTS 25 = (1, 4) ∧ blockTS 801 = (41, 16) := by
  decide +kernel

/-! ## Amiga and DOS sectors: V-AMI-1 to V-DOS-3, and rules R242, R273 -/

theorem test_ami_sector_bytes :
    (addClockRunSkipping amiIsSync 0 (amiSectorBytes 5 0 []) 0).take 24 =
      [0xAA, 0xAA, 0xAA, 0xAA, 0x44, 0x89, 0x44, 0x89,
       0x55, 0x2A, 0xAA, 0xA5, 0x55, 0x25, 0x2A, 0xA9, 0x2A, 0xAA, 0xAA, 0xAA, 0xAA, 0xAA, 0xAA, 0xAA] := by
  decide +kernel

theorem test_amiEncsec :
    got .amiEncsec (look (ops 0 0 0x0A9F 0 0 0) .xtrk 0 8704) (fun t => (rs t, stw t)) =
      some ([8704, 8704, 0, 0], 0) ∧
    got .amiEncsec (look (ops 0 0 0x0B00 0 0 0) .xtrk 0 8704) stw = some 0x0343 := by
  decide +kernel

theorem test_amiEnctrk :
    got .amiEnctrk (ops 0 0 5 0 0 5632) (fun t => (rs t, t.xlen.toNat, t.views[0])) =
      some ([101344, 0, 0, 0], 101344, ⟨.xtrk, 0, 101344⟩) := by
  decide +kernel

theorem test_amiEnctrk_format :
    got .amiEnctrk (ops 0 0 5 0 0 5631) stw = some 0x0B := by
  decide +kernel

theorem test_amiDecsec :
    got .amiDecsec (amiLoop 0 0 0 0 0 0) (fun t => (rs t, stw t)) = some ([512, 32, 0, 0], 0) := by
  decide +kernel

theorem test_amiDectrk :
    got .amiDectrk (look (insert (ops 0 0 0x9F 0 0 0)) (.trk 0) 0 16) (fun t => (rs t, stw t)) = some ([0, 0, 0, 0], 7) := by
  decide +kernel

theorem test_amiSeek :
    got .amiSeek (amiLoop 0 0 0 0 0 0) (fun t => (rs t, stw t)) = some ([480, 8672, 32, 0], 0x10) := by
  decide +kernel

theorem test_amiSeekall :
    got .amiSeekall (amiLoop 0 0 0 0 0 0) r0st = some (1, 0x10) := by
  decide +kernel

theorem test_crc16 :
    crc16 [0xA1, 0xA1, 0xA1, 0xFE, 1, 1, 1, 2] = 0x8BEB := by
  decide +kernel

theorem test_dosEncsec :
    got .dosEncsec (look (ops 0 0 0x089F 0 0 0) .xtrk 0 10528) (fun t => (rs t, stw t)) =
      some ([10528, 10528, 0, 0], 0) ∧
    got .dosEncsec (look (ops 0 0 0 0 0 0) .xtrk 0 10527) stw = some 0x0C4C := by
  decide +kernel

theorem test_dosEnctrk :
    got .dosEnctrk (ops 0 0 3 0 0 4608) (fun t => (rs t, t.xlen.toNat, t.views[0])) =
      some ([100000, 0, 0, 0], 100000, ⟨.xtrk, 0, 100000⟩) := by
  decide +kernel

theorem test_dos_sector_bytes :
    (dosPatch dosIsMark 0 (addClockRun (mfmBytes ((dosSectorData 3 0 []).take 24)) 0)).drop 24 =
      [0x44, 0x89, 0x44, 0x89, 0x44, 0x89, 0x55, 0x54, 0xAA, 0xA9, 0x2A, 0xA9, 0x2A, 0xA9, 0x2A, 0xA4,
       0x4A, 0x45, 0x54, 0x45, 0x12, 0x54, 0x92, 0x54] := by
  decide +kernel

theorem test_dosDecsec :
    got .dosDecsec (look (insert (ops 0 0 0x089F 0 0 0)) (.trk 0) 0 16) stw = some 7 := by
  decide +kernel

theorem test_dosDectrk :
    got .dosDectrk (look (insert (ops 0 0 0x9F 0 0 0)) (.trk 0) 0 16) (fun t => (rs t, stw t)) =
      some ([0, 0, 0, 0], 7) := by
  decide +kernel

theorem test_dosSeek :
    got .dosSeek (dosLoop 0 0 0 0 0 0) (fun t => (rs t, stw t)) = some ([224, 8416, 48, 0], 0x10) ∧
    got .dosSeek (look (insert (ops 0 0 0 0 0 0)) (.trk 0) 0 16) stw = some 6 := by
  decide +kernel

theorem test_dosSeekall :
    got .dosSeekall (look (insert (ops 0 0 0 0 0 0)) (.trk 0) 0 16) r0st = some (0, 0) := by
  decide +kernel

/-! ## Disk model: V-DSK-1, P7, V-ERR-3 -/

theorem test_dskClear :
    got .dskClear (put (lens (insert (ops 0 0 0 0 0 0)) 7) (.trk 5) 0 [1])
      (fun t => (t.lenOf 83, mem (.trk 5) 0 1 t, stw t)) = some (50000, [0x55], 0) := by
  decide +kernel

theorem test_dskEncode :
    got .dskEncode (insert (ops 0 0 0 0 0x14132 42)) (fun t => (r0st t, t.disk.modified)) =
      some ((802, 0), false) := by
  decide +kernel

theorem test_dskEncode_format :
    got .dskEncode (insert (ops 0 0 0 0xFFFFFFFF 0 0)) stw = some 0x0B ∧
    got .dskEncode (ops 0 0 0 0x20000 0 0) stw = some 0x0B ∧
    got .dskEncode (ops 0 0 0 0x20000 0 35) stw = some 0x0343 ∧
    got .dskEncode (ops 0 0 0 0 0 35) stw = some 4 := by
  decide +kernel

theorem test_dskRdblk :
    got .dskRdblk (c64Disk 0 0 0 0x8000 0 0) (fun t => (rs t, stw t)) = some ([256, 0, 0, 0], 0) := by
  decide +kernel

theorem test_dskRdblk_out :
    got .dskRdblk (ops 683 0 0 0 0 0) stw = some 0x0343 ∧
    got .dskRdblk (ops 0 0 0 0 0 0) stw = some 4 := by
  decide +kernel

theorem test_dskWrblk :
    got .dskWrblk (c64Disk 0 0 0 0 0 0) (fun t => (rs t, stw t, t.disk.modified)) =
      some ([256, 0, 0, 0], 0, true) := by
  decide +kernel

theorem test_dskWrblk_empty :
    got .dskWrblk (lens (c64Disk 42 0 0 0 0 0) 0) (fun t => (stw t, t.disk.modified)) = some (7, false) := by
  decide +kernel

theorem test_dskNumblk :
    got .dskNumblk State.reset r0st = some (683, 0) := by
  decide +kernel

theorem test_dskLenht :
    [0, 34, 48, 83].map (fun h => got .dskLenht (insert (ops h 0 0 0 0 0)) (fun t => t.host.r0.toNat)) =
      [some 61536, some 57136, some 53328, some 50000] := by
  decide +kernel

theorem test_dskLenht_errors :
    got .dskLenht (insert (ops 84 0 0 0 0 0)) stw = some 0x0343 ∧
    got .dskLenht (ops 0 0 0 0 0 0) stw = some 4 := by
  decide +kernel

theorem test_dskLentrk :
    got .dskLentrk (insert (ops 17 0 0 0 0 0)) r0st = some (57136, 0) := by
  decide +kernel

theorem test_dskDefaults :
    got .dskDefaults (ops 0 0 0 0 0 0) rs = some [0xC0315, 7692, 61536, 0] ∧
    got .dskDefaults (ops 17 0 0 0 0 0) rs = some [0x16500150213, 7142, 57136, 0] := by
  decide +kernel

theorem test_dskSetwp :
    got .dskSetwp (insert (ops 1 0 0 0 0 0)) (fun t => got .dskFlags t (fun t => t.host.r0.toNat)) = some (some 3) := by
  decide +kernel

theorem test_dskInsert :
    got .dskInsert (put (ops 0 0 0 0 0 0) (.trk 9) 0 [1])
      (fun t => (t.disk.present, mem (.trk 9) 0 1 t)) = some (true, [1]) ∧
    got .dskInsert (put (ops 1 0 0 0 0 0) (.trk 9) 0 [1]) (mem (.trk 9) 0 1) = some [0x55] := by
  decide +kernel

theorem test_dskEject :
    got .dskEject (insert State.reset) (fun t => t.disk.present) = some false ∧
    got .dskEject State.reset stw = some 4 := by
  decide +kernel

theorem test_dskFlags :
    got .dskFlags State.reset r0st = some (0, 0) := by
  decide +kernel

/-! ## Analyzer: V-ANA-1 to V-ANA-4 -/

theorem test_anaRun :
    got .anaRun (lens (insert (ops 1 0 0 0 0 0)) 0) (fun t => ((t.report.logOf 0).length,
      (t.report.logOf 0).head?, t.report.logOf 1)) =
      some (42, some ⟨.hdrMissing, 0, 0, 0⟩, []) := by
  decide +kernel

/-- A track of the 22 bytes of `c64Start`: one header, and the data block directly after it; where that ends
is not reduced (R330, R335). -/
theorem test_walk :
    (let sc := (look (put (insert (ops 0 0 0 0 0 0)) (.trk 0) 0 c64Start) (.trk 0) 0 176).viewStream.walk 128 21
     (sc.at 0, sc.log)) = (⟨40, 120, 160, 2760⟩, []) := by
  decide +kernel

theorem test_anaRun_errors :
    got .anaRun (ops 43 0 0 0 0 0) stw = some 0x0343 ∧
    got .anaRun (ops 42 0 0 0 0 0) stw = some 4 := by
  decide +kernel

theorem test_anaLayout :
    got .anaLayout ((ops 84 20 0 0 0 0).setReport (State.reset.report.record 84 9
        (Scan.start.put 20 ⟨40, 120, 232, 2832⟩))) (fun t => (rs t, stw t)) =
      some ([40, 120, 232, 2832], 0x10) := by
  decide +kernel

theorem test_anaLog :
    got .anaLog ((ops 84 0 0 0 0 0).setReport (State.reset.report.record 84 9
        (Scan.start.append 128 .dataCksum 4 35264 43520))) (fun t => (rs t, stw t)) =
      some ([0x0404, 35264, 43520, 1], 0x10) := by
  decide +kernel

theorem test_anaXrun :
    got .anaXrun (ops 1 1 0 0 0 0) (fun t => (rs t, stw t)) = some ([22, 0, 0, 0], 0) ∧
    got .anaXrun (ops 3 1 0 0 0 0) stw = some 0x0343 := by
  decide +kernel

theorem test_anaXrun_found :
    got .anaXrun (amiLoop 1 0 0 0 0 0) (fun t => (rs t, t.report.sectorOf 84 0)) =
      some ([0, 1, 0, 0], ⟨32, 416, 416, 8672⟩) := by
  decide +kernel

/-! ## Engine: V-ENG-2 to V-ENG-5, P4, P6 -/

/-- The engine on halftrack 0 of an inserted disk, with operands. -/
def eng (ea0 ea1 : Byte) (offset : BitVec 16) : State :=
  { insert State.reset with
    ctrl := ⟨ea0, ea1, 0, 0, 0, 0⟩
    engine := { State.reset.engine with offset := offset } }

theorem test_engTick :
    got .engTick faulty (fun t => (ers t, t.engine.phase)) = some ([5, 0, 0, 0], 1) := by
  decide +kernel

theorem test_engTick_write :
    got .engTick ((eng 1 0 3).setEngine
      { State.reset.engine with phase := 2, brc := 7, wsr := 0x80, rsr := 0x1A5, offset := 3 })
      (fun t => (t.engine.dataLatch, t.engine.byteReady, t.engine.wsr, mem (.trk 0) 0 1 t, t.disk.modified)) =
      some (0xA5, true, 0, [0x55], true) := by
  decide +kernel

theorem test_engRdbit :
    got .engRdbit (eng 0 0 39) (fun t => t.ctrl.er0.toNat) = some 1 := by
  decide +kernel

theorem test_engWrbit :
    got .engWrbit (eng 1 0 40) (fun t => (t.ctrl.er0.toNat, mem (.trk 0) 5 1 t, t.disk.modified)) =
      some (1, [0xD5], true) ∧
    got .engWrbit { State.reset with ctrl := ⟨1, 0, 9, 0, 0, 0⟩ } ers = some [0, 0, 0, 0] := by
  decide +kernel

theorem test_engRot :
    got .engRot (eng 0 0 61535) (fun t => (t.ctrl.er0.toNat, t.engine.offset.toNat)) = some (0, 0) ∧
    got .engRot (eng 0 0 38) (fun t => (t.ctrl.er0.toNat, t.engine.offset.toNat)) = some (39, 39) := by
  decide +kernel

theorem test_engSync :
    got .engSync State.reset (fun t => t.ctrl.er0.toNat) = some 1 := by
  decide +kernel

theorem test_engLatch :
    got .engLatch { State.reset with engine := { State.reset.engine with dataLatch := 0x55, rsr := 0x155 } }
      ers = some [0x55, 0, 0x155, 0] := by
  decide +kernel

theorem test_engSetht :
    got .engSetht (eng 34 0 130) (fun t => (t.ctrl.er0.toNat, t.engine.ht.toNat, t.engine.offset.toNat)) =
      some (0, 34, 120) := by
  decide +kernel

theorem test_engSetht_refused :
    got .engSetht (eng 84 0 130) (fun t => (t.ctrl.er0.toNat, t.engine.ht.toNat, t.engine.offset.toNat)) =
      some (1, 0, 130) := by
  decide +kernel

theorem test_engPos :
    got .engPos { State.reset with engine := { State.reset.engine with offset := 130, brc := 2, rsr := 0x155 } }
      ers = some [0, 130, 0, 0x15502] := by
  decide +kernel

/-! ## For every statement with hypotheses: states and operands that meet them -/

theorem witness_nopOnlyReports : State.reset.Running ∧ faulty.host.status.fault = true := by decide

theorem witness_faultedMachineRunsNoCommand : faulty.host.status.fault = true ∧
    (0x00 : Byte) ≠ 0x01 ∧ (0x02 : Byte) ≠ 0x01 ∧ (0xFF : Byte) ≠ 0x01 := by decide

/-- The ends of each range of illegal bytes. -/
theorem witness_illegalBytesOnlyReport : State.reset.Running ∧
    (∀ b ∈ ([0x02, 0x0F, 0x1C, 0x1F, 0x24, 0x2F, 0x36, 0x3F, 0x46, 0x4F, 0x56, 0x5F, 0x66, 0x6F, 0x7C,
        0x7F, 0x84, 0x8F, 0x90, 0x97, 0x98, 0xFF] : List Byte),
      (0x02 ≤ b ∧ b ≤ 0x0F ∨ 0x1C ≤ b ∧ b ≤ 0x1F ∨ 0x24 ≤ b ∧ b ≤ 0x2F ∨ 0x36 ≤ b ∧ b ≤ 0x3F ∨
        0x46 ≤ b ∧ b ≤ 0x4F ∨ 0x56 ≤ b ∧ b ≤ 0x5F ∨ 0x66 ≤ b ∧ b ≤ 0x6F ∨ 0x7C ≤ b ∧ b ≤ 0x7F ∨
        0x84 ≤ b ∧ b ≤ 0x8F ∨ 0x90 ≤ b)) ∧
    ∀ b ∈ ([0x00, 0x8F, 0x98, 0xFF] : List Byte), b < 0x90 ∨ 0x97 < b := by decide +kernel

theorem witness_stepRunsTheDecodedCommand :
    ({ State.reset with inputs := [.hostCmd 0x83, .resetInput] } : State).inputs =
      .hostCmd 0x83 :: [.resetInput] ∧ decode .host [0x83] = .ok (.anaXrun, []) ∧
    ({ State.reset with inputs := [.ctrlCmd 0x90] } : State).inputs = .ctrlCmd 0x90 :: [] ∧
    decode .controller [0x90] = .ok (.engTick, []) ∧ State.reset.inputs = [] ∧
    decodeTableWord 8 0x97 = some .engPos := ⟨rfl, rfl, rfl, rfl, rfl, by decide +kernel⟩

/-- A byte that is no command at all, and one that belongs to the other port. -/
theorem witness_decodeAndEncodeAgree : (∀ i, encode i = [0x02] → i.port ≠ .host) ∧
    (∀ i, encode i = [0x90] → i.port ≠ .host) ∧ ∀ i, encode i = [0x00] → i.port ≠ .controller := by
  refine ⟨?_, ?_, ?_⟩ <;> intro i <;> cases i <;> decide

theorem witness_farIteratorIsFatal : State.reset.Running ∧ ¬LegalIter (2 ^ 62) ∧
    ¬LegalIter (-(2 ^ 62)) ∧ LegalIter (2 ^ 62 - 1) ∧
    ¬LegalIter (ops 0 (2 ^ 62) 0 0 0 0).host.a1 := by decide +kernel

/-- Operands that are legal for every operation on a view. -/
def legalOps : State := ops 0 (2 ^ 62 - 1) 0x0829 256448 0 0

theorem legalOps_all : ∀ op ∈ legalOps.viewOperations, op.2 := by
  intro op h
  simp only [State.viewOperations, List.mem_cons, List.not_mem_nil, or_false] at h
  rcases h with rfl | rfl | rfl | rfl | rfl | rfl | rfl | rfl | rfl | rfl | rfl | rfl | rfl | rfl | rfl | rfl |
    rfl | rfl | rfl | rfl | rfl | rfl | rfl | rfl | rfl | rfl <;> decide +kernel

/-- An iterator that no operation accepts, and operands out of range beside a legal one. -/
theorem witness_viewChecks_operands :
    (∀ op ∈ (ops 0 (2 ^ 62) 0 0 0 0).viewOperations, ¬op.2) ∧
    ∀ op ∈ (ops 0 0 0xFFFF 0x3FFFF 0 0).viewOperations,
      op.1 ∈ [Instr.bvGet, .bvSet, .bvGetbyte, .bvSetbyte, .byGet, .bySet, .gcrEnc, .gcrDec, .c64Seek,
        .amiSeek, .dosSeek] ∨ ¬op.2 := by
  constructor <;> intro op h <;>
    simp only [State.viewOperations, List.mem_cons, List.not_mem_nil, or_false] at h <;>
    rcases h with rfl | rfl | rfl | rfl | rfl | rfl | rfl | rfl | rfl | rfl | rfl | rfl | rfl | rfl | rfl | rfl |
      rfl | rfl | rfl | rfl | rfl | rfl | rfl | rfl | rfl | rfl <;> decide +kernel

/-- Legal operands with a view of a disk that is not there, and with a view that is empty. -/
theorem witness_viewChecksComeInOrder :
    (let s := look legalOps (.trk 0) 0 0
     s.Running ∧ (∀ op ∈ s.viewOperations, op.2) ∧ s.view.buf = .trk 0 ∧ s.disk.present = false) ∧
    (let s := look (insert legalOps) (.trk 83) 63424 63424
     s.Running ∧ (∀ op ∈ s.viewOperations, op.2) ∧ s.disk.present = true ∧ s.view.size = 0) :=
  ⟨⟨rfl, legalOps_all, rfl, rfl⟩, rfl, legalOps_all, rfl, rfl⟩

theorem witness_bitCountOutOfRangeIsFatal :
    (ops 0 0 65 0 0 0).Running ∧ 64 < field (ops 0 0 65 0 0 0).host.a2 0 7 ∧
    field (ops 0 0 0 0 0 0).host.a3 0 7 = 0 ∧ 64 < field (ops 0 0 0 65 0 0).host.a3 0 7 := by
  decide +kernel

/-- The largest descriptor of each kind of buffer, and each way to be none. -/
theorem witness_bvDefWritesADescriptor :
    (∀ x ∈ [((83 : Word), BufSel.trk 83, (63424 : Word)), (84, .xtrk, 131072), (85, .dmem, 2097152)],
      let s := ops 0 x.1 0 x.2.2 0 0
      s.Running ∧ BufSel.ofCode (field s.host.a1 0 7) = some x.2.1 ∧ 0 ≤ s.host.a2.toInt ∧
        s.host.a2.toInt ≤ s.host.a3.toInt ∧ s.host.a3.toInt ≤ x.2.1.capBits) ∧
    85 < field (ops 0 86 0 0 0 0).host.a1 0 7 ∧ (ops 0 0 (-1) 0 0 0).host.a2.toInt < 0 ∧
    (ops 0 0 8 7 0 0).host.a3.toInt < (ops 0 0 8 7 0 0).host.a2.toInt ∧
    BufSel.ofCode (field (ops 0 84 0 131073 0 0).host.a1 0 7) = some .xtrk ∧
    BufSel.capBits .xtrk < (ops 0 84 0 131073 0 0).host.a3.toInt := by
  decide +kernel

theorem witness_bvSliceAndSize :
    (let s := look (ops 0 1 0 2097152 0 0) .dmem 0 2097152
     s.Running ∧ s.view.wf ∧ 0 ≤ s.host.a2.toInt ∧ s.host.a2.toInt ≤ s.host.a3.toInt ∧
       s.host.a3.toInt ≤ s.view.last.toNat - s.view.first.toNat) ∧
    (let s := look (ops 0 1 0 33 0 0) .dmem 0 32
     s.Running ∧ s.view.wf ∧ ¬s.host.a3.toInt ≤ s.view.last.toNat - s.view.first.toNat) := by
  decide +kernel

/-- A 64-bit view of a disk and a one-bit view of `DMEM`, the largest iterator and the largest count. -/
theorem witness_viewReadsAndWrites :
    (let s := look (insert (ops 0 (2 ^ 62 - 1) 64 0 0 0)) (.trk 83) 63360 63424
     s.Running ∧ LegalIter s.host.a1 ∧ s.Usable s.view ∧ field s.host.a2 0 7 ≤ 64) ∧
    (let s := look (ops 0 (-(2 ^ 62) + 1) 0 0 0 0) .dmem 7 8
     s.Running ∧ LegalIter s.host.a1 ∧ s.Usable s.view ∧ field s.host.a2 0 7 ≤ 64) := by
  decide +kernel

/-- `forward` over the view of V-BV-6 as a number of bits that stands nowhere, and one that stands at the
last start position only. -/
theorem witness_forwardFindsTheFirstMatch :
    (let s := quad 0xF0 0x00 0x00 0x0F 0 0 0x1FF 9
     s.Running ∧ LegalIter s.host.a1 ∧ s.Usable s.view ∧ 1 ≤ field s.host.a3 0 7 ∧
       field s.host.a3 0 7 ≤ 64 ∧ ∀ k < s.view.size, ¬∀ j < field s.host.a3 0 7,
         s.bufBit s.view.buf.space (s.view.abs (s.host.a1.toInt + k + j)) =
           s.host.a2.getLsbD (field s.host.a3 0 7 - 1 - j)) ∧
    (let s := quad 0xF0 0x00 0x00 0x0F 0 29 0xFF 8
     s.Running ∧ LegalIter s.host.a1 ∧ s.Usable s.view ∧ 31 < s.view.size ∧
       (∀ j < field s.host.a3 0 7,
         s.bufBit s.view.buf.space (s.view.abs (s.host.a1.toInt + (31 : Nat) + j)) =
           s.host.a2.getLsbD (field s.host.a3 0 7 - 1 - j)) ∧
       ∀ k' : Nat, k' < 31 → ¬∀ j < field s.host.a3 0 7,
         s.bufBit s.view.buf.space (s.view.abs (s.host.a1.toInt + k' + j)) =
           s.host.a2.getLsbD (field s.host.a3 0 7 - 1 - j)) ∧
    (let s := quad 0x80 0x00 0x00 0x00 0 0 1 1
     s.Running ∧ s.Usable s.view ∧ field s.host.a3 0 7 = 1 ∧
       s.bufBit s.view.buf.space (s.view.abs (s.host.a1.toInt + (0 : Nat) + (0 : Nat))) =
         s.host.a2.getLsbD 0) := by
  decide +kernel

theorem witness_cyclicReadsAndWrites : 32 + 32 ≤ 64 ∧
    (let v : View := ⟨.dmem, 0, 64⟩; 0 < v.size ∧ 64 ≤ v.size ∧ 64 ≤ 64) := by
  decide

theorem witness_gcr_running : (ops 0xFF 0 0 0 0 0).Running := by decide

theorem witness_gcrEncAndDec :
    (let s := gcr5 0x78 0 0 0 0x1A 35 0xA5
     s.Running ∧ LegalIter s.host.a1 ∧ s.Usable s.view) := by
  decide +kernel

/-- A state and the same state after a byte that nothing had written was written back as it reads: the two
keep it differently. -/
theorem witness_gcrDec_repeat :
    let s := look (quad 0x57 0xC0 0 0 0 0 0 0) .dmem 0 16
    let t := put s .dmem 9 [s.byteAt .dmem 9]
    s.Running ∧ t.Running ∧ LegalIter s.host.a1 ∧ s.Usable s.view ∧ t.Usable t.view ∧
      field t.host.a0 0 2 = field s.host.a0 0 2 ∧ t.view = s.view ∧ t.host.a1 = s.host.a1 ∧
      s.view.wf ∧ (∀ sp a, a < Space.cap sp → t.byteAt sp a = s.byteAt sp a) ∧
      t.dmem.length = s.dmem.length + 1 := by
  refine ⟨by decide, by decide, by decide +kernel, by decide +kernel, by decide +kernel, rfl, rfl, rfl,
    by decide +kernel, fun sp a _ => ?_, rfl⟩
  rw [put, State.writeBytes, State.byteAt_setMem]
  split
  · subst_vars
    rw [Memory.storeBytes, Memory.storeBytes, Memory.byte_store]
    split
    · subst_vars; rfl
    · rfl
  · rfl

/-- A run that exactly fills its view. -/
theorem witness_gcrRunRoundTrip : (let v : View := ⟨.dmem, 0, 40⟩
    0 < v.size ∧ 10 * ([0x08, 0x72, 0x00, 0x01] : List Byte).length ≤ v.size) := by
  decide

/-- Source and destination at the ends of `DMEM`. -/
theorem witness_mfmConversions :
    (let s := ops 0 262134 5 0 0 0
     s.Running ∧ InDmem (field s.host.a0 0 32) (field s.host.a2 0 32) ∧
       InDmem (field s.host.a1 0 32) (2 * field s.host.a2 0 32)) ∧
    (let s := ops 262134 0 5 0 0 0
     s.Running ∧ InDmem (field s.host.a0 0 32) (2 * field s.host.a2 0 32) ∧
       InDmem (field s.host.a1 0 32) (field s.host.a2 0 32)) := by
  decide +kernel

theorem witness_dmemRunOutOfBoundsIsFatal :
    (let s := ops 0 262135 5 0 0 0
     s.Running ∧ ¬(InDmem (field s.host.a0 0 32) (field s.host.a2 0 32) ∧
       InDmem (field s.host.a1 0 32) (2 * field s.host.a2 0 32))) ∧
    (let s := ops 262135 0 5 0 0 0
     s.Running ∧ ¬(InDmem (field s.host.a0 0 32) (2 * field s.host.a2 0 32) ∧
       InDmem (field s.host.a1 0 32) (field s.host.a2 0 32))) ∧
    (let s := ops 262140 5 0 0 0 0
     s.Running ∧ ¬InDmem (field s.host.a0 0 32) (field s.host.a1 0 32)) := by
  decide +kernel

theorem witness_mfmClkSetsTheClockBits : (ops 0xFF 0 0 0 0 0).Running := by decide

theorem witness_mfmClkbufClocksARun :
    (let s := ops 262139 5 1 0 0 0
     s.Running ∧ InDmem (field s.host.a0 0 32) (field s.host.a1 0 32)) := by
  decide +kernel

/-- The last sector of the last track in a view it exactly fills. -/
theorem witness_c64EncsecWritesTheSector :
    (let s := look (ops 0 (-7) 0x1029 0x3FF00 0 0) .xtrk 0 2936
     s.Running ∧ LegalIter s.host.a1 ∧ s.Usable s.view ∧ field s.host.a2 0 8 < 42 ∧
       field s.host.a2 8 8 < sectorCount (field s.host.a2 0 8) ∧ InDmem (field s.host.a3 0 32) 256 ∧
       2832 + 8 * tailGapOf s.cfg (field s.host.a2 0 8) ≤ s.view.size) := by
  decide +kernel

/-- Views one bit too small for the sector of each encoder. -/
theorem witness_encsec_capacity :
    (let s := look (ops 0 0 0x1029 0x3FF00 0 0) .xtrk 0 2935
     s.Running ∧ LegalIter s.host.a1 ∧ s.Usable s.view ∧ field s.host.a2 0 8 < 42 ∧
       field s.host.a2 8 8 < sectorCount (field s.host.a2 0 8) ∧ InDmem (field s.host.a3 0 32) 256 ∧
       s.view.size < 2832 + 8 * tailGapOf s.cfg (field s.host.a2 0 8)) ∧
    (let s := look (ops 0 0 0x0A9F 0x3FE00 0 0) .xtrk 0 8703
     s.Running ∧ LegalIter s.host.a1 ∧ s.Usable s.view ∧ field s.host.a2 0 8 < 160 ∧
       InDmem (field s.host.a3 0 32) 512 ∧ field s.host.a2 8 8 < 11 ∧ s.view.size < 8704) ∧
    (let s := look (ops 0 0 0x089F 0x3FE00 0 0) .xtrk 0 10527
     s.Running ∧ LegalIter s.host.a1 ∧ s.Usable s.view ∧ field s.host.a2 0 8 < 160 ∧
       InDmem (field s.host.a3 0 32) 512 ∧ field s.host.a2 8 8 < 9 ∧ s.view.size < 10528) := by
  decide +kernel

theorem witness_mfmEncsecWritesTheSector :
    (let s := look (ops 0 (-7) 0x0A9F 0x3FE00 0 0) .xtrk 0 8704
     s.Running ∧ LegalIter s.host.a1 ∧ s.Usable s.view ∧ field s.host.a2 0 8 < 160 ∧
       InDmem (field s.host.a3 0 32) 512 ∧ field s.host.a2 8 8 < 11 ∧ 8704 ≤ s.view.size) ∧
    (let s := look (ops 0 (-7) 0x089F 0x3FE00 0 0) .xtrk 0 10528
     s.Running ∧ LegalIter s.host.a1 ∧ s.Usable s.view ∧ field s.host.a2 0 8 < 160 ∧
       InDmem (field s.host.a3 0 32) 512 ∧ field s.host.a2 8 8 < 9 ∧ 10528 ≤ s.view.size) := by
  decide +kernel

theorem witness_sectorLayouts : (List.replicate 256 (0xAA : Byte)).length = 256 ∧
    (List.replicate 512 (0xAA : Byte)).length = 512 :=
  ⟨List.length_replicate, List.length_replicate⟩

theorem witness_c64EnctrkWritesTheTrack :
    (let s := insert (ops 0 0 0 256768 0x30000 5376)
     s.Running ∧ s.disk.present = true ∧ field s.host.a2 0 8 = 0 ∧ field s.host.a5 0 32 = 256 * 21 ∧
       sectorCount 0 = 21 ∧ InDmem (field s.host.a3 0 32) (256 * 21) ∧
       21 * (2832 + 8 * tailGapOf s.cfg 0) ≤ nominalBits 0) ∧
    (let s := insert (ops 0 0 41 257792 0 4352)
     s.Running ∧ s.disk.present = true ∧ field s.host.a2 0 8 = 41 ∧
     field s.host.a5 0 32 = 256 * 17 ∧
       sectorCount 41 = 17 ∧ InDmem (field s.host.a3 0 32) (256 * 17) ∧
       17 * (2832 + 8 * tailGapOf s.cfg 41) ≤ nominalBits 41) := by
  decide +kernel

/-- One state for each check; the last one has a tail gap that makes the sectors too long. -/
theorem witness_c64EnctrkChecksComeInOrder :
    42 ≤ field (ops 0 0 42 0 0 0).host.a2 0 8 ∧
    (let s := ops 0 0 41 0 0 0
     s.Running ∧ field s.host.a2 0 8 < 42 ∧ s.disk.present = false) ∧
    (let s := insert (ops 0 0 41 0 0 5376)
     s.Running ∧ s.disk.present = true ∧
     field s.host.a5 0 32 ≠ 256 * sectorCount (field s.host.a2 0 8)) ∧
    (let s := insert (ops 0 0 0 262000 0 5376)
     s.Running ∧ s.disk.present = true ∧
     field s.host.a5 0 32 = 256 * sectorCount (field s.host.a2 0 8) ∧
       ¬InDmem (field s.host.a3 0 32) (256 * sectorCount (field s.host.a2 0 8))) ∧
    (let s := { insert (ops 0 0 0 0 0 5376) with
        cfg := { ModelArgs.default with tailGap := ⟨#[0, 0, 0, 14], rfl⟩ } }
     s.Running ∧ s.disk.present = true ∧
     field s.host.a5 0 32 = 256 * sectorCount (field s.host.a2 0 8) ∧
       InDmem (field s.host.a3 0 32) (256 * sectorCount (field s.host.a2 0 8)) ∧
       nominalBits 0 < sectorCount 0 * (2832 + 8 * tailGapOf s.cfg 0)) := by
  decide +kernel

theorem witness_mfmEnctrkWritesTheTrack :
    (let s := ops 0 0 159 (262144 - 5632) 0 5632
     s.Running ∧ field s.host.a2 0 8 < 160 ∧ InDmem (field s.host.a3 0 32) (field s.host.a5 0 32) ∧
       field s.host.a5 0 32 = 11 * 512 ∧ field s.host.a5 0 32 ≠ 9 * 512) ∧
    (let s := ops 0 0 159 (262144 - 4608) 0 4608
     s.Running ∧ field s.host.a2 0 8 < 160 ∧ InDmem (field s.host.a3 0 32) (field s.host.a5 0 32) ∧
       field s.host.a5 0 32 = 9 * 512 ∧ field s.host.a5 0 32 ≠ 11 * 512) := by
  decide +kernel

/-- The first track that is none, and images one byte beyond the end of `DMEM`. -/
theorem witness_mfmEnctrk_fatal : (ops 0 0 160 0 0 0).Running ∧
    160 ≤ field (ops 0 0 160 0 0 0).host.a2 0 8 ∧
    (let s := ops 0 0 159 (262144 - 5631) 0 5632
     field s.host.a2 0 8 < 160 ∧ field s.host.a5 0 32 = 11 * 512 ∧
       ¬InDmem (field s.host.a3 0 32) (field s.host.a5 0 32)) ∧
    (let s := ops 0 0 159 (262144 - 4607) 0 4608
     field s.host.a2 0 8 < 160 ∧ field s.host.a5 0 32 = 9 * 512 ∧
       ¬InDmem (field s.host.a3 0 32) (field s.host.a5 0 32)) := by
  decide +kernel

theorem exists_ok {ε α : Type} {x : Except ε α} (h : x.isOk = true) : ∃ a, x = .ok a := by
  cases x with
  | ok a => exact ⟨a, rfl⟩
  | error e => cases h

/-- A C64 sector that decodes. -/
theorem c64Disk_decodes : ∃ d,
    ((c64Disk 0 0 0 0x3FF00 0 0).stream ⟨.trk 0, 0, 61536⟩).c64DecodeSector 0 0 = .ok d :=
  exists_ok (by decide +kernel)

/-- An Amiga sector that decodes. -/
theorem amiLoop_decodes : ∃ d,
    ((amiLoop 0 0 0 0x3FE00 0 0).stream ⟨.xtrk, 0, 96⟩).amiDecodeSector 0 0 = .ok d :=
  exists_ok (by decide +kernel)

/-- The bytes once around the view of `dosLoop` from the payload of its sector on. -/
def dosCircle : List Byte :=
  [0x0F, 0xF2, 0x00, 0x00, 0x00, 0x00, 0x00, 0x00, 0xA1, 0xA1, 0xA1, 0xFE, 0x00, 0x00, 0x01,
    0x02, 0xCA, 0x6F, 0xA1, 0xA1, 0xA1, 0xFB]

/-- The CRC register after once around. -/
def dosTurn (crc : BitVec 16) : BitVec 16 := dosCircle.foldl crcByte crc

theorem dosTurn_steps : dosTurn 0xE295 = 0x412A ∧ dosTurn 0x412A = 0x5416 ∧
    dosTurn 0x5416 = 0x0872 ∧
    dosTurn 0x0872 = 0xE8FA ∧ dosTurn 0xE8FA = 0x1402 ∧ dosTurn 0x1402 = 0x345E ∧
    dosTurn 0x345E = 0x6385 ∧ dosTurn 0x6385 = 0x18AA ∧ dosTurn 0x18AA = 0x399D ∧
    dosTurn 0x399D = 0xB41E ∧ dosTurn 0xB41E = 0xC266 ∧ dosTurn 0xC266 = 0xEB50 ∧
    dosTurn 0xEB50 = 0xED86 ∧ dosTurn 0xED86 = 0xEE56 ∧ dosTurn 0xEE56 = 0xFB69 ∧
    dosTurn 0xFB69 = 0xC936 ∧ dosTurn 0xC936 = 0x9620 ∧ dosTurn 0x9620 = 0xE30D ∧
    dosTurn 0xE30D = 0x5BA5 ∧ dosTurn 0x5BA5 = 0x9C59 ∧ dosTurn 0x9C59 = 0xE49E ∧
    dosTurn 0xE49E = 0x9C96 ∧ dosTurn 0x9C96 = 0x0FF2 := by
  decide +kernel

/-- The payload of `dosLoop`: 23 times around and six bytes. -/
def dosPayload : List Byte := (List.replicate 23 dosCircle).flatten ++ dosCircle.take 6

theorem foldl_flatten_replicate (n : Nat) (c : BitVec 16) :
    (List.replicate n dosCircle).flatten.foldl crcByte c = Nat.repeat dosTurn n c := by
  induction n generalizing c with
  | zero => rfl
  | succ n ih =>
    rw [List.replicate_succ', List.flatten_append, List.foldl_append, ih]
    simp [Nat.repeat, dosTurn]

theorem dosPayload_crc : crc16 (dosMarks ++ [0xFB] ++ dosPayload) = 0 := by
  obtain ⟨h0, h1, h2, h3, h4, h5, h6, h7, h8, h9, h10, h11, h12, h13, h14, h15, h16, h17, h18, h19, h20, h21, h22⟩ := dosTurn_steps
  have hi : (dosMarks ++ [0xFB]).foldl crcByte 0xFFFF = 0xE295 := by decide +kernel
  have hl : (dosCircle.take 6).foldl crcByte 0x0FF2 = 0 := by decide +kernel
  rw [crc16, List.foldl_append, hi, dosPayload, List.foldl_append, foldl_flatten_replicate]
  simp only [Nat.repeat, h0, h1, h2, h3, h4, h5, h6, h7, h8, h9, h10, h11, h12, h13, h14, h15, h16, h17, h18, h19, h20, h21, h22, hl]

theorem dosLoop_reads : (dosLoop 0 0 0 0x3FE00 0 0).viewStream.dosSeekSector 0 0 = some ⟨48, 224, 8416⟩ ∧
    (dosLoop 0 0 0 0x3FE00 0 0).viewStream.rdMfmRun 48 7 = [0xFE, 0, 0, 1, 2, 0xCA, 0x6F] ∧
    dosHeaderOk [0xFE, 0, 0, 1, 2, 0xCA, 0x6F] = true ∧
    (dosLoop 0 0 0 0x3FE00 0 0).viewStream.rdMfmRun 224 514 = dosPayload ++ [0, 0] ∧
    (dosPayload ++ [0, 0]).take 512 = dosPayload ∧ (dosPayload ++ [0, 0]).drop 512 = [0, 0] := by
  decide +kernel

/-- A DOS sector that decodes. -/
theorem dosLoop_decodes : ∃ d,
    ((dosLoop 0 0 0 0x3FE00 0 0).stream ⟨.xtrk, 0, 352⟩).dosDecodeSector 0 0 = .ok d := by
  obtain ⟨h1, h2, h3, h4, h5, h6⟩ := dosLoop_reads
  have hd : dosDataOk (dosPayload ++ [0, 0]) = true := by
    simp only [dosDataOk, Config.mfmPayload, h5, h6, crcBytes, dosPayload_crc]
    decide
  refine ⟨⟨dosPayload, [0, 0, 1, 2], 48⟩, ?_⟩
  change BitStream.dosDecodeSector (State.viewStream _) 0 0 = _
  simp only [BitStream.dosDecodeSector, h1, h2, h3, h4, hd, Config.mfmPayload, h5]
  rfl

theorem witness_decsecStoresThePayload :
    (let s := c64Disk 0 0 0 0x3FF00 0 0
     s.Running ∧ LegalIter s.host.a1 ∧ s.Usable s.view ∧ field s.host.a2 0 8 < 42 ∧
       field s.host.a2 8 8 < sectorCount (field s.host.a2 0 8) ∧ InDmem (field s.host.a3 0 32) 256 ∧
       s.host.a1.toInt = 0 ∧ BitVec.ofNat 8 (field s.host.a2 8 8) = 0 ∧
       s.view = ⟨.trk 0, 0, 61536⟩) ∧
    (let s := amiLoop 0 0 0 0x3FE00 0 0
     s.Running ∧ LegalIter s.host.a1 ∧ s.Usable s.view ∧ field s.host.a2 0 8 < 160 ∧
       field s.host.a2 8 8 < 11 ∧ InDmem (field s.host.a3 0 32) 512 ∧
       s.host.a1.toInt = 0 ∧ BitVec.ofNat 8 (field s.host.a2 8 8) = 0 ∧ s.view = ⟨.xtrk, 0, 96⟩) ∧
    (let s := dosLoop 0 0 0 0x3FE00 0 0
     s.Running ∧ LegalIter s.host.a1 ∧ s.Usable s.view ∧ field s.host.a2 0 8 < 160 ∧
       field s.host.a2 8 8 < 9 ∧ InDmem (field s.host.a3 0 32) 512 ∧
       s.host.a1.toInt = 0 ∧ BitVec.ofNat 8 (field s.host.a2 8 8) = 0 ∧
       s.view = ⟨.xtrk, 0, 352⟩) := by
  decide +kernel

/-- With those operands the three sectors decode. -/
theorem witness_decsec_decodes :
    (∃ d, (c64Disk 0 0 0 0x3FF00 0 0).viewStream.c64DecodeSector 0 0 = .ok d) ∧
    (∃ d, (amiLoop 0 0 0 0x3FE00 0 0).viewStream.amiDecodeSector 0 0 = .ok d) ∧
    ∃ d, (dosLoop 0 0 0 0x3FE00 0 0).viewStream.dosDecodeSector 0 0 = .ok d :=
  ⟨c64Disk_decodes, amiLoop_decodes, dosLoop_decodes⟩

/-- The error clauses: a small view without any sync mark. -/
theorem witness_decsec_error :
    (let s := look (insert (ops 0 0 0 0 0 0)) (.trk 0) 0 16
     s.Running ∧ LegalIter s.host.a1 ∧ s.Usable s.view ∧ InDmem (field s.host.a3 0 32) 512 ∧
       s.viewStream.c64SeekSector 0 0 = none ∧ s.viewStream.amiSeekSector 0 0 = none ∧
       s.viewStream.dosSeekSector 0 0 = none) := by
  decide +kernel

theorem witness_dectrkDecodesInOrder :
    (let s := look (insert (ops 0 (-1) 41 0x3EF00 0 0)) (.trk 0) 0 16
     s.Running ∧ LegalIter s.host.a1 ∧ s.Usable s.view ∧ field s.host.a2 0 8 < 42 ∧
       InDmem (field s.host.a3 0 32) (256 * sectorCount (field s.host.a2 0 8))) ∧
    (let s := amiLoop 0 (-1) 159 (262144 - 5632) 0 0
     s.Running ∧ LegalIter s.host.a1 ∧ s.Usable s.view ∧ field s.host.a2 0 8 < 160 ∧
       InDmem (field s.host.a3 0 32) (512 * 11)) ∧
    (let s := dosLoop 0 (-1) 159 (262144 - 4608) 0 0
     s.Running ∧ LegalIter s.host.a1 ∧ s.Usable s.view ∧ field s.host.a2 0 8 < 160 ∧
       InDmem (field s.host.a3 0 32) (512 * 9)) := by
  decide +kernel

theorem witness_seekReturnsTheRange :
    (let s := amiLoop 0 (2 ^ 62 - 1) 0xFF00 0 0 0
     s.Running ∧ LegalIter s.host.a1 ∧ s.Usable s.view) := by
  decide +kernel

/-- Tracks of each format whose first block is the header of sector 0, with its data behind it. -/
theorem witness_seek_first_block :
    (let s := c64Disk 0 0 0 0 0 0
     let b := s.viewStream
     s.Running ∧ LegalIter s.host.a1 ∧ s.Usable s.view ∧ b.c64NextBlock 0 = some (10, 40) ∧
       b.decodeGcr 40 = some 0x08 ∧ b.decodeGcr (40 + 20) = some 0 ∧
       b.c64NextBlock (40 + 80) = some (130, 160) ∧ b.decodeGcr 160 = some 0x07) ∧
    (let b := (amiLoop 0 0 0 0 0 0).viewStream
     b.forward 0 0x44894489 32 = some 32 ∧ (oeDecode (b.bytesAt 32 8)).getD 2 0 = 0) ∧
    (let b := (dosLoop 0 0 0 0 0 0).viewStream
     b.forward 0 0x448944894489 48 = some 48 ∧ b.rdMfm 48 = 0xFE ∧ b.rdMfm (48 + 48) = 0 + 1 ∧
       b.forward (48 + 112) 0x448944894489 48 = some 208 ∧ b.rdMfm 208 = 0xFB) := by
  decide +kernel

/-- R213, R250, R256, R280, by hand: two headers, of sectors 1 and 0, and behind them one data mark (none on
the Amiga view). The scan goes on past the first header; sector 1 has no data behind it on the C64 and DOS
views; nothing has number 7. -/
theorem test_scan_passes_headers :
    (let b := (look (put State.reset .xtrk 0
      [0xFF, 0xD4, 0x90, 0x01, 0x4B, 0, 0, 0, 0, 0, 0, 0x3F, 0xF5, 0x24, 0, 0x52, 0x80, 0,
        0, 0, 0, 0, 0x0F, 0xFD, 0x57]) .xtrk 0 200).viewStream
     b.c64SeekSector 0 0 = some ⟨100, 200, 2760⟩ ∧ b.c64SeekSector 1 0 = none ∧
       b.c64SeekSector 7 0 = none) ∧
    (let b := (look (put State.reset .xtrk 0
      [0x44, 0x89, 0x44, 0x89, 0, 0, 0, 0, 0, 0, 0x01, 0, 0x44, 0x89, 0x44, 0x89, 0, 0, 0, 0, 0, 0, 0,
        0]) .xtrk 0 192).viewStream
     b.amiSeekSector 0 0 = some ⟨128, 576, 8768⟩ ∧ b.amiSeekSector 7 0 = none ∧
       b.amiSeekSectors 0 = [⟨1, 480, 8672, 0⟩, ⟨0, 576, 8768, 1⟩]) ∧
    (let b := (look (put State.reset .xtrk 0
      [0x44, 0x89, 0x44, 0x89, 0x44, 0x89, 0x55, 0x54, 0, 0, 0, 0, 0, 0x04, 0, 0, 0, 0, 0, 0,
        0x44, 0x89, 0x44, 0x89, 0x44, 0x89, 0x55, 0x54, 0, 0, 0, 0, 0, 0x01, 0, 0, 0, 0, 0, 0,
        0x44, 0x89, 0x44, 0x89, 0x44, 0x89, 0x55, 0x45]) .xtrk 0 384).viewStream
     b.dosSeekSector 0 0 = some ⟨208, 384, 8576⟩ ∧ b.dosSeekSector 1 0 = none ∧
       b.dosSeekSector 7 0 = none) := by
  decide +kernel

/-- The error a decoder answers. -/
def errorOf (x : Except ErrCode Decoded) : Option ErrCode :=
  match x with
  | .ok _ => none
  | .error e => some e

/-- R215, R251, R281, by hand: one wrong byte in the header's codewords, in its check, in the data's
check. `SEEK_ERR` is in `witness_decsec_error`. -/
theorem test_decode_errors :
    errorOf ((put (c64Disk 0 0 0 0 0 0) (.trk 0) 6 [0x40]).viewStream.c64DecodeSector 0 0) =
      some .gcrErr ∧
    errorOf ((put (c64Disk 0 0 0 0 0 0) (.trk 0) 7 [0xA5]).viewStream.c64DecodeSector 0 0) =
      some .hdrCksum ∧
    errorOf ((put (c64Disk 0 0 0 0 0 0) (.trk 0) 342 [0xB5]).viewStream.c64DecodeSector 0 0) =
      some .dataCksum ∧
    errorOf ((put (amiLoop 0 0 0 0 0 0) .xtrk 8 [0x04]).viewStream.amiDecodeSector 0 0) =
      some .hdrCksum ∧
    errorOf ((put (amiLoop 0 0 0 0 0 0) .xtrk 5 [0x01]).viewStream.amiDecodeSector 0 0) =
      some .dataCksum ∧
    errorOf ((put (dosLoop 0 0 0 0 0 0) .xtrk 16 [0x40]).viewStream.dosDecodeSector 0 0) =
      some .hdrCksum := by
  decide +kernel

/-- Tables that end at the end of `DMEM`. -/
theorem witness_seekallWritesTheTable :
    (let s := amiLoop 0 0 0 (262144 - 504) 0 0
     s.Running ∧ LegalIter s.host.a1 ∧ s.Usable s.view ∧ InDmem (field s.host.a3 0 32) 504) ∧
    InDmem (field (amiLoop 0 0 0 (262144 - 264) 0 0).host.a3 0 32) 264 ∧
    InDmem (field (amiLoop 0 0 0 (262144 - 216) 0 0).host.a3 0 32) 216 := by
  decide +kernel

theorem witness_diskLifecycle : State.reset.Running ∧ State.reset.disk.present = false ∧
    State.reset.host.a0.getLsbD 0 = false ∧ (ops 1 0 0 0 0 0).host.a0.getLsbD 0 = true ∧
    (insert (ops 1 0 0 0 0 0)).Running ∧ (insert (ops 1 0 0 0 0 0)).disk.present = true := by
  decide +kernel

/-- The ends of the ranges of halftracks and tracks, with a disk and without. -/
theorem witness_diskQueries : (ops 83 0 0 0 0 0).Running ∧
    field (ops 83 0 0 0 0 0).host.a0 0 7 < 84 ∧
    84 ≤ field (ops 84 0 0 0 0 0).host.a0 0 7 ∧ 84 ≤ field (ops 127 0 0 0 0 0).host.a0 0 7 ∧
    field (ops 41 0 0 0 0 0).host.a0 0 8 < 42 ∧ 42 ≤ field (ops 42 0 0 0 0 0).host.a0 0 8 ∧
    (ops 41 0 0 0 0 0).disk.present = false ∧ (insert (ops 41 0 0 0 0 0)).disk.present = true := by
  decide +kernel

theorem sectors_fit : ∀ u < 42,
    sectorCount u * (2832 + 8 * tailGapOf ModelArgs.default u) ≤ nominalBits u := by
  decide +kernel

theorem witness_dskEncodeWritesTheDisk :
    (let s := insert (ops 0 0 0 256768 0x30000 1)
     s.Running ∧ s.disk.present = true ∧ field s.host.a5 0 8 = 1 ∧
     InDmem (field s.host.a3 0 32) (256 * firstBlock 1)) ∧
    (let s := insert (ops 0 0 0 56832 0x30000 42)
     s.Running ∧ s.disk.present = true ∧ field s.host.a5 0 8 = 42 ∧ s.cfg = ModelArgs.default ∧
       InDmem (field s.host.a3 0 32) (256 * firstBlock 42)) := by
  decide +kernel

/-- No track and a track too many, an image that does not fit into `DMEM`, no disk, and a tail gap that makes
the sectors of track 0 too long. -/
theorem witness_dskEncode_errors :
    (ops 0 0 0 0 0 0).Running ∧ field (ops 0 0 0 0 0 0).host.a5 0 8 = 0 ∧
    42 < field (ops 0 0 0 0 0 43).host.a5 0 8 ∧
    (let s := ops 0 0 0 56833 0 42
     s.Running ∧ field s.host.a5 0 8 = 42 ∧ ¬InDmem (field s.host.a3 0 32) (256 * firstBlock 42)) ∧
    (let s := ops 0 0 0 56832 0 42
     s.Running ∧ field s.host.a5 0 8 = 42 ∧ InDmem (field s.host.a3 0 32) (256 * firstBlock 42) ∧
       s.disk.present = false) ∧
    (let s := { insert (ops 0 0 0 0 0 1) with
        cfg := { ModelArgs.default with tailGap := ⟨#[0, 0, 0, 14], rfl⟩ } }
     s.Running ∧ s.disk.present = true ∧ field s.host.a5 0 8 = 1 ∧
       InDmem (field s.host.a3 0 32) (256 * firstBlock 1) ∧
       nominalBits 0 < sectorCount 0 * (2832 + 8 * tailGapOf s.cfg 0)) := by
  decide +kernel

/-- The first number that is no block, an address one byte too far, and the last block without a disk. -/
theorem witness_dskBlock_errors : (ops 683 0 0 0 0 0).Running ∧
    firstBlock (ops 683 0 0 0 0 0).cfg.fsTracks.val ≤ field (ops 683 0 0 0 0 0).host.a0 0 16 ∧
    ¬InDmem (field (ops 682 0 0 0x3FF01 0 0).host.a3 0 32) 256 ∧
    (let s := ops 682 0 0 0x3FF00 0 0
     field s.host.a0 0 16 < firstBlock s.cfg.fsTracks.val ∧ InDmem (field s.host.a3 0 32) 256 ∧
       s.disk.present = false) := by
  decide +kernel

/-- Block 0 of the disk of `c64Disk` as a track view, and the last block of all. -/
theorem witness_dskRdblkReadsTheBlock :
    (let s := c64Disk 0 0 0 0x3FF00 0 0
     s.Running ∧ s.disk.present = true ∧ 0 < sectorCount 0 ∧
     field s.host.a0 0 16 = firstBlock 0 + 0 ∧
       firstBlock 0 + 0 < firstBlock s.cfg.fsTracks.val ∧ InDmem (field s.host.a3 0 32) 256 ∧
       s.lenOf (2 * 0) = 61536 ∧
       (⟨.trk (halftrack (2 * 0)), 0, BitVec.ofNat 32 61536⟩ : View) = ⟨.trk 0, 0, 61536⟩) ∧
    (let s := lens (insert (ops 682 0 0 0x3FF00 0 0)) 0
     s.Running ∧ s.disk.present = true ∧ 16 < sectorCount 34 ∧
     field s.host.a0 0 16 = firstBlock 34 + 16 ∧
       firstBlock 34 + 16 < firstBlock s.cfg.fsTracks.val ∧ s.lenOf (2 * 34) = 0) := by
  decide +kernel

/-- The sector of that block decodes and is located; in a track of 16 bits without a mark it is not. -/
theorem witness_dskWrblkRewritesInPlace :
    (∃ d, ((c64Disk 0 0 0 0x3FF00 0 0).stream ⟨.trk 0, 0, 61536⟩).c64DecodeSector 0 0 = .ok d) ∧
    ((c64Disk 0 0 0 0x3FF00 0 0).stream ⟨.trk 0, 0, 61536⟩).c64SeekSector 0 0 = some ⟨40, 170, 2730⟩ ∧
    ((lens (insert (ops 0 0 0 0 0 0)) 16).stream ⟨.trk 0, 0, 16⟩).c64SeekSector 0 0 = none ∧
    (lens (insert (ops 0 0 0 0 0 0)) 16).lenOf (2 * 0) = 16 :=
  ⟨c64Disk_decodes, by decide +kernel⟩

theorem witness_anaRunOnlyReports : (insert (ops 42 0 0 0 0 0)).Running ∧
    (insert (ops 42 0 0 0 0 0)).disk.present = true ∧
    field (insert (ops 42 0 0 0 0 0)).host.a0 0 8 ≤ 42 ∧ (ops 42 0 0 0 0 0).disk.present = false ∧
    42 < field (ops 43 0 0 0 0 0).host.a0 0 8 := by
  decide +kernel

theorem witness_anaReadsTheStoredReport : (ops 84 20 0 0 0 0).Running := by decide

theorem witness_anaXrunReportsTheExternalTrack : (ops 1 0 0 0 0 0).Running ∧
    ([1, 2, 0, 3].map fun w : Word => field (ops w 0 0 0 0 0).host.a0 0 2) = [1, 2, 0, 3] := by
  decide +kernel

theorem witness_headBitOperations : State.reset.disk.present = false ∧
    (lens (insert State.reset) 0).lenOf (lens (insert State.reset) 0).engine.ht.toNat = 0 ∧
    (insert State.reset).disk.present = true ∧
    0 < (insert State.reset).lenOf (insert State.reset).engine.ht.toNat := by
  decide +kernel

theorem witness_sethtKeepsTheAngle : 83 < field ((eng 84 0 0).ctrl.ea0.zeroExtend 64) 0 7 ∧
    field ((eng 83 0 0).ctrl.ea0.zeroExtend 64) 0 7 ≤ 83 := by
  decide +kernel

theorem witness_engineKeepsTheHeadInRange : Instr.port .engRot = .controller ∧
    (∀ h < 84, (eng 0 0 61535).lenOf h ≤ 63424) ∧ (eng 0 0 61535).engine.ht.toNat < 84 ∧
    (eng 0 0 61535).engine.offset.toNat < (eng 0 0 61535).headLen ∧
    ∃ t, exec .engRot (eng 0 0 61535) = .next t := by
  refine ⟨rfl, ?_, ?_, ?_, _, rfl⟩ <;> decide +kernel

/-- A machine that has just been given a tick. -/
def ticked : State := { State.reset with inputs := [.ctrlCmd 0x90] }

theorem witness_invariantIsKeptByEveryStep : ticked.Inv ∧ ∃ t, step ticked = .next t := by
  refine ⟨⟨by decide, by decide +kernel, by decide, by decide, fun sp => ?_, ?_, fun _ => rfl, ?_⟩, _, rfl⟩
  · have h : ticked.mem sp = [] := by
      cases sp with
      | trk h => simp [ticked, State.mem, State.reset, blankTracks]
      | xtrk => rfl
      | dmem => rfl
      | errtab => rfl
    rw [h]
    exact ⟨.nil, by simp⟩
  · decide +kernel
  · intro h; cases h

theorem witness_fatalStaysUntilReset : faulty.host.status.fault = true ∧
    Event.hostCmd 0x00 ≠ .resetInput ∧ Event.hostCmd 0x00 ≠ .hostCmd 0x01 ∧
    Event.ctrlCmd 0x90 ≠ .resetInput ∧ Event.ctrlCmd 0x90 ≠ .hostCmd 0x01 ∧
    (∃ t, deliver (.hostCmd 0x00) faulty = .next t) ∧
    ∃ t, deliver (.ctrlCmd 0x90) faulty = .next t :=
  ⟨rfl, by decide, by decide, by decide, by decide, ⟨_, rfl⟩, _, rfl⟩

theorem witness_hostOperationsLeaveTheEngineAlone : (∃ t, exec .dskInsert State.reset = .next t) ∧
    Instr.port .dskInsert = .host ∧ Instr.dskInsert ≠ .reset :=
  ⟨⟨_, rfl⟩, rfl, by decide⟩

theorem witness_engineOperationsIgnoreTheHostPort : Instr.port .engTick = .controller := rfl

/-- A disk whose flag the engine sets, and one whose flag `DSK.CLEAR` clears. -/
theorem witness_onlyTheWritePathSetsMod : (eng 1 0 40).disk.modified = false ∧
    got .engWrbit (eng 1 0 40) (fun t => t.disk.modified) = some true ∧
    (insert State.reset |>.setModified true).disk.modified = true ∧
    got .dskClear (insert State.reset |>.setModified true) (fun t => t.disk.modified) = some false := by
  decide +kernel

theorem witness_errorsChangeOnlyStatus : Instr.port .bvGet = .host ∧
    Instr.bvGet ∉ [Instr.c64Dectrk, .amiDectrk, .dosDectrk, .bvFwd, .reset] ∧
    ∃ t, exec .bvGet State.reset = .next t ∧ t.host.status.err ≠ .ok :=
  ⟨rfl, by decide, _, rfl, by decide +kernel⟩

/-- The first and the last address, length and entry of each kind that exists, and the next one. -/
theorem witness_hostAndControllerAccesses :
    0 < Space.errtab.cap ∧ 262143 < Space.dmem.cap ∧ Space.dmem.cap ≤ 262144 ∧ 7927 < (Space.trk 83).cap ∧
    (Space.trk 83).cap ≤ 7928 ∧ Space.xtrk.cap ≤ 16384 ∧ Space.errtab.cap ≤ 802 ∧ 63424 ≤ 63424 ∧
    63424 < 63425 ∧ 84 ≤ 84 ∧ 131072 ≤ 131072 ∧ 131072 < 131073 ∧
    0 < (((State.reset.report.record 84 9 (Scan.start.append 128 .dataCksum 4 35264 43520)).log)[84]).length := by
  decide +kernel

end Sys2Proof.Tests
end

section
/-! PROOFS. The scope statements: which operation a step runs, the operations that refuse a far iterator,
and what the accesses of the host and the controller do. -/

namespace Sys2Proof.Machine

/-! ## A step and the pending command -/

theorem step_of_no_input {s : State} (h : s.inputs = []) : step s = .next s := by
  simp only [step, h]

theorem step_of_input {s : State} {e : Event} {rest : List Event} (h : s.inputs = e :: rest) :
    step s = deliver e { s with inputs := rest } := by
  simp only [step, h]

/-- R22: a byte that decodes on the host port runs its operation. -/
theorem deliver_hostCmd_of_decode {b : Byte} {i : Instr} {tail : List Byte}
    (h : decode .host [b] = .ok (i, tail)) (s : State) : deliver (.hostCmd b) s = exec i s := by
  simp only [deliver, hostCommand, h]

/-- R51: a byte that decodes on the controller port runs its operation. -/
theorem deliver_ctrlCmd_of_decode {b : Byte} {i : Instr} {tail : List Byte}
    (h : decode .controller [b] = .ok (i, tail)) (s : State) :
    deliver (.ctrlCmd b) s = exec i s := by
  simp only [deliver, ctrlCommand, h]

/-- R91: a byte that decodes on the port of its unit runs its operation when it is written there. -/
theorem deliver_commandEvent_of_decode {b : Byte} {i : Instr} {tail : List Byte}
    (h : decode (portOfByte b) [b] = .ok (i, tail)) (s : State) :
    deliver (commandEvent b) s = exec i s := by
  unfold commandEvent
  cases hp : portOfByte b with
  | host => exact deliver_hostCmd_of_decode (hp ▸ h) s
  | controller => exact deliver_ctrlCmd_of_decode (hp ▸ h) s

/-- An instruction word of 8 bits is its first byte. -/
theorem decode_of_decodeTableWord_eight {w : Nat} {i : Instr} (h : decodeTableWord 8 w = some i) :
    ∃ tail, decode (portOfByte (firstByte 8 w)) [firstByte 8 w] = .ok (i, tail) := by
  have hbytes : bytesOfWord (8 / 8) w = [firstByte 8 w] := rfl
  unfold decodeTableWord at h
  rw [hbytes] at h
  split at h
  · rename_i j tail hd
    cases h
    exact ⟨tail, hd⟩
  · cases h

/-- The event `withFetchWord` adds is the one the next step delivers. -/
theorem step_withFetchWord (s : State) (n w : Nat) :
    step (s.withFetchWord n w) = deliver (commandEvent (firstByte n w)) s := rfl

/-- Settles O5: a pending command byte is delivered to the operation it decodes to. -/
theorem stepRunsTheDecodedCommand : Obligations.StepRunsTheDecodedCommand := by
  refine ⟨fun s b i tail rest => ⟨fun hin hd => ?host, fun hin hd => ?controller,
    step_of_no_input⟩, fun s w i hw => ?word⟩
  case host => rw [step_of_input hin, deliver_hostCmd_of_decode hd]
  case controller => rw [step_of_input hin, deliver_ctrlCmd_of_decode hd]
  case word =>
    obtain ⟨tail, hd⟩ := decode_of_decodeTableWord_eight hw
    rw [step_withFetchWord, deliver_commandEvent_of_decode hd]

/-! ## A far iterator -/

/-- R403: a host-port operation that raises `BAD_OPERAND` on a running machine. -/
theorem hostOp_badOperand {s : State} (hr : s.Running) {run : State → State}
    (h : run s = s.raiseFatal .badOperand) : hostOp s run = .next (s.faulted .badOperand) := by
  rw [hostOp_running hr, h, State.raiseFatal_eq hr]

section far
variable {s : State} (hfar : ¬LegalIter s.host.a1)
include hfar

theorem State.iterOk_of_far : s.iterOk = false :=
  Bool.eq_false_iff.2 fun h => hfar ((iterLegal_iff _).1 h)

theorem State.iterOk_and_of_far (c : Bool) : (s.iterOk && c) = false := by
  rw [State.iterOk_of_far hfar, Bool.false_and]

theorem runBvFwd_of_far : runBvFwd s = s.raiseFatal .badOperand := by
  simp [runBvFwd, State.iterOk_of_far hfar]

theorem runGcrEnc_of_far : runGcrEnc s = s.raiseFatal .badOperand := by
  simp [runGcrEnc, State.iterOk_of_far hfar]

theorem runGcrDec_of_far : runGcrDec s = s.raiseFatal .badOperand := by
  simp [runGcrDec, State.iterOk_of_far hfar]

theorem seekOp_of_far (seek : BitStream → Option SectorRange) :
    seekOp s seek = s.raiseFatal .badOperand := by
  simpa only [hfar, not_false_eq_true, true_and, false_and, or_false] using seekOp_cases s seek

theorem seekAllOp_of_far (n : Nat) (seek : BitStream → List SeekEntry) :
    seekAllOp s n seek = s.raiseFatal .badOperand := by
  simpa only [hfar, not_false_eq_true, true_and, false_and, or_false] using
    seekAllOp_cases s n seek

theorem encodeSectorOp_of_far (legal : Bool) (payload size : Nat)
    (bits : List Byte → List Bool) :
    encodeSectorOp s legal payload size bits = s.raiseFatal .badOperand := by
  simpa only [hfar, not_false_eq_true, true_and, false_and, or_false] using
    encodeSectorOp_cases s legal payload size bits

theorem decodeSectorOp_of_far (legal : Bool) (size : Nat)
    (decode : BitStream → Except ErrCode Decoded) (results : State → Decoded → State) :
    decodeSectorOp s legal size decode results = s.raiseFatal .badOperand := by
  simpa only [hfar, not_false_eq_true, true_and, false_and, or_false] using
    decodeSectorOp_cases s legal size decode results

theorem decodeTrackOp_of_far (legal : Bool) (n size : Nat)
    (decode : BitStream → Nat → Except ErrCode Decoded) :
    decodeTrackOp s legal n size decode = s.raiseFatal .badOperand := by
  simpa only [hfar, not_false_eq_true, true_and, false_and, or_false] using
    decodeTrackOp_cases s legal n size decode

end far

/-- An operation that reads through a view refuses operands out of range (R405). -/
theorem readThroughView_of_not_legal (s : State) {legal : Bool} (h : legal = false)
    (value : BitStream → Word) :
    readThroughView s legal value = s.raiseFatal .badOperand := by
  subst h; rfl

/-- An operation that writes through a view refuses operands out of range (R405). -/
theorem writeThroughView_of_not_legal (s : State) {legal : Bool} (h : legal = false) (i : Int)
    (bits : List Bool) : writeThroughView s legal i bits = s.raiseFatal .badOperand := by
  subst h; rfl

/-- Settles O8: each of the 26 operations is one of the shared shapes, and each shape checks the iterator
first. -/
theorem farIteratorIsFatal : Obligations.FarIteratorIsFatal := by
  intro s i hr hfar
  have fatal {run : State → State} (h : run s = s.raiseFatal .badOperand) :
      hostOp s run = .next (s.faulted .badOperand) := hostOp_badOperand hr h
  have far := State.iterOk_of_far hfar
  have farAnd := State.iterOk_and_of_far hfar
  revert i
  simp only [List.forall_mem_cons, List.not_mem_nil, false_implies, implies_true, and_true]
  refine ⟨?bvGet, ?bvSet, ?bvGetbyte, ?bvSetbyte, ?bvGetbits, ?bvSetbits, ?bvFwd, ?byGet, ?bySet,
    ?gcrEnc, ?gcrDec, ?c64Encsec, ?c64Decsec, ?c64Dectrk, ?c64Seek, ?c64Seekall, ?amiEncsec,
    ?amiDecsec, ?amiDectrk, ?amiSeek, ?amiSeekall, ?dosEncsec, ?dosDecsec, ?dosDectrk, ?dosSeek,
    ?dosSeekall⟩ <;> apply fatal
  case bvGet | bvGetbyte | byGet => exact readThroughView_of_not_legal s far _
  case bvGetbits => exact readThroughView_of_not_legal s (farAnd _) _
  case bvSet | bvSetbyte | bySet => exact writeThroughView_of_not_legal s far _ _
  case bvSetbits => exact writeThroughView_of_not_legal s (farAnd _) _ _
  case bvFwd => exact runBvFwd_of_far hfar
  case gcrEnc => exact runGcrEnc_of_far hfar
  case gcrDec => exact runGcrDec_of_far hfar
  case c64Encsec | amiEncsec | dosEncsec => exact encodeSectorOp_of_far hfar _ _ _ _
  case c64Decsec | amiDecsec | dosDecsec => exact decodeSectorOp_of_far hfar _ _ _ _
  case c64Dectrk | amiDectrk | dosDectrk => exact decodeTrackOp_of_far hfar _ _ _ _
  case c64Seek | amiSeek | dosSeek => exact seekOp_of_far hfar _
  case c64Seekall | amiSeekall | dosSeekall => exact seekAllOp_of_far hfar _ _

/-! ## `STATUS` as a word (R23) -/

theorem ErrCode.code_lt (e : ErrCode) : e.code < 16 := by
  cases e <;> decide

theorem flagBit_le_one (b : Bool) : flagBit b ≤ 1 := by
  cases b <;> decide

theorem flagBit_eq_one (b : Bool) : flagBit b = 1 ↔ b = true := by
  cases b <;> decide

/-- The fields of `STATUS` as digits of its word; `FCODE` is the last one. -/
theorem Status.word_digits (st : Status) :
    st.word.toNat % 2 ^ 4 = st.err.code ∧ st.word.toNat / 2 ^ 4 % 2 = flagBit st.found ∧
    st.word.toNat / 2 ^ 5 % 2 = flagBit st.gcrInv ∧ st.word.toNat / 2 ^ 6 % 2 = flagBit st.fault ∧
    st.word.toNat / 2 ^ 7 % 2 = flagBit st.logOvf ∧ st.word.toNat / 2 ^ 8 = st.fcode.toNat := by
  have herr := st.err.code_lt
  have hfound := flagBit_le_one st.found
  have hinv := flagBit_le_one st.gcrInv
  have hfault := flagBit_le_one st.fault
  have hovf := flagBit_le_one st.logOvf
  have hcode := st.fcode.isLt
  simp only [Status.word, BitVec.toNat_ofNat]
  omega

/-- A bit of a word is a flag when the digit there is the flag's. -/
theorem getLsbD_eq_of_digit {n : Nat} {w : BitVec n} {j : Nat} {b : Bool}
    (h : w.toNat / 2 ^ j % 2 = flagBit b) : w.getLsbD j = b := by
  rw [BitVec.getLsbD, Nat.testBit_eq_decide_div_mod_eq, h, Bool.eq_iff_iff, decide_eq_true_iff,
    flagBit_eq_one]

/-- R23: what `STATUS` reads as. -/
theorem readStatus_fields (s : State) :
    let w := s.readHostReg .status
    w.extractLsb' 0 4 = BitVec.ofNat 4 s.host.status.err.code ∧
    w.getLsbD 4 = s.host.status.found ∧ w.getLsbD 5 = s.host.status.gcrInv ∧
    w.getLsbD 6 = s.host.status.fault ∧ w.getLsbD 7 = s.host.status.logOvf ∧
    w.extractLsb' 8 8 = s.host.status.fcode ∧ ∀ j, 16 ≤ j → w.getLsbD j = false := by
  intro w
  have hw : w.toNat = s.host.status.word.toNat := BitVec.toNat_setWidth_of_le (by decide)
  obtain ⟨herr, hfound, hinv, hfault, hovf, hcode⟩ := s.host.status.word_digits
  rw [← hw] at herr hfound hinv hfault hovf hcode
  have hlt : w.toNat < 2 ^ 16 := by
    have := s.host.status.fcode.isLt
    omega
  refine ⟨BitVec.eq_of_toNat_eq ?_, getLsbD_eq_of_digit hfound, getLsbD_eq_of_digit hinv,
    getLsbD_eq_of_digit hfault, getLsbD_eq_of_digit hovf, BitVec.eq_of_toNat_eq ?_,
    fun j hj => Nat.testBit_lt_two_pow (hlt.trans_le (Nat.pow_le_pow_right (by decide) hj))⟩
  · have := s.host.status.err.code_lt
    simp only [BitVec.extractLsb'_toNat, BitVec.toNat_ofNat, Nat.shiftRight_zero]
    omega
  · have := s.host.status.fcode.isLt
    simp only [BitVec.extractLsb'_toNat, Nat.shiftRight_eq_div_pow]
    omega

/-! ## Accesses to the memories (R66) and to the lengths (R75) -/

theorem inBounds_one (sp : Space) (a : Nat) : sp.inBounds a 1 = true ↔ a < sp.cap :=
  decide_eq_true_iff

theorem lenLegal_iff (h v : Nat) : lenLegal h v = true ↔ h < 84 ∧ v ≤ 63424 := decide_eq_true_iff

theorem xlenLegal_iff (v : Nat) : xlenLegal v = true ↔ v ≤ 131072 := decide_eq_true_iff

/-- R66: a byte written inside its memory. -/
theorem State.hostWriteByte_of_lt (s : State) {sp : Space} {a : Nat} (h : a < sp.cap) (b : Byte) :
    s.hostWriteByte sp a b = s.writeBytes sp a [b] :=
  if_pos ((inBounds_one sp a).2 h)

/-- R66: a byte written outside its memory. -/
theorem State.hostWriteByte_of_le (s : State) {sp : Space} {a : Nat} (h : sp.cap ≤ a) (b : Byte) :
    s.hostWriteByte sp a b = s :=
  if_neg fun hin => Nat.not_lt.2 h ((inBounds_one sp a).1 hin)

/-- R66: a byte read inside its memory. -/
theorem State.hostReadByte_of_lt (s : State) {sp : Space} {a : Nat} (h : a < sp.cap) :
    s.hostReadByte sp a = s.byteAt sp a :=
  if_pos ((inBounds_one sp a).2 h)

/-- R66: a byte read outside its memory. -/
theorem State.hostReadByte_of_le (s : State) {sp : Space} {a : Nat} (h : sp.cap ≤ a) :
    s.hostReadByte sp a = 0 :=
  if_neg fun hin => Nat.not_lt.2 h ((inBounds_one sp a).1 hin)

/-- R75: a legal length written. -/
theorem State.hostWriteLen_of_legal (s : State) (h : Fin 84) {v : Nat} (hv : v ≤ 63424) :
    s.hostWriteLen h v = { s with disk.len := s.disk.len.set h (BitVec.ofNat 17 v) } := by
  rw [State.hostWriteLen, if_pos ((lenLegal_iff _ _).2 ⟨h.isLt, hv⟩), State.setLen,
    bankSet_of_lt _ _ _ h.isLt]

/-- R75: a length of no halftrack, or above the capacity, written. -/
theorem State.hostWriteLen_of_not_legal (s : State) {h v : Nat} (hn : 84 ≤ h ∨ 63424 < v) :
    s.hostWriteLen h v = s :=
  if_neg fun hl => by
    obtain ⟨hh, hv⟩ := (lenLegal_iff h v).1 hl
    omega

/-- R75: a legal `XLEN` written. -/
theorem State.hostWriteXlen_of_le (s : State) {v : Nat} (hv : v ≤ 131072) :
    s.hostWriteXlen v = { s with xlen := BitVec.ofNat 18 v } :=
  if_pos ((xlenLegal_iff v).2 hv)

/-- R75: an `XLEN` above the capacity written. -/
theorem State.hostWriteXlen_of_lt (s : State) {v : Nat} (hv : 131072 < v) :
    s.hostWriteXlen v = s :=
  if_neg fun hl => Nat.not_le.2 hv ((xlenLegal_iff v).1 hl)

theorem State.lenOf_fin (s : State) (h : Fin 84) : s.lenOf h = (s.disk.len[h]).toNat :=
  congrArg BitVec.toNat (bankGet_of_lt _ _ _ h.isLt)

theorem State.lenOf_of_le (s : State) {h : Nat} (hh : 84 ≤ h) : s.lenOf h = 0 := by
  simp [State.lenOf, bankGet, hh]

/-! ## Accesses to the report (R35, R36) -/

theorem Report.infoOf_fin (r : Report) (h : Fin 85) : r.infoOf h = r.info[h] :=
  bankGet_of_lt _ _ _ h.isLt

theorem Report.sectorOf_fin (r : Report) (h : Fin 85) (k : Fin 21) :
    r.sectorOf h k = (r.info[h]).sec[k] := by
  rw [Report.sectorOf, Report.infoOf_fin]
  exact bankGet_of_lt _ _ _ k.isLt

theorem Report.logOf_fin (r : Report) (h : Fin 85) : r.logOf h = r.log[h] :=
  bankGet_of_lt _ _ _ h.isLt

/-- R36: the fields of an entry the list holds. -/
theorem Report.readLog_entry (r : Report) (h : Fin 85) (j : Nat) (hj : j < (r.log[h]).length) :
    r.readLog h (.code j) = ((r.log[h])[j]).code.code ∧
    r.readLog h (.sector j) = ((r.log[h])[j]).sector.toNat ∧
    r.readLog h (.startBit j) = ((r.log[h])[j]).startBit.toNat ∧
    r.readLog h (.endBit j) = ((r.log[h])[j]).endBit.toNat := by
  simp only [Report.readLog, Report.logOf_fin, List.getElem?_eq_getElem hj, Option.map_some,
    Option.getD_some, and_self]

/-! ## Reads as events (log 10) -/

theorem deliver_memRead (s : State) (sp : Space) (a : Nat) {b : Byte}
    (h : s.hostReadByte sp a = b) :
    deliver (.memRead sp a) s = .next { s with busData := b.zeroExtend 64 } := by
  subst h; rfl

theorem deliver_lenRead (s : State) (h : Nat) {n : Nat} (hn : s.lenOf h = n) :
    deliver (.lenRead h) s = .next { s with busData := BitVec.ofNat 64 n } := by
  subst hn; rfl

theorem deliver_infoRead (s : State) (h : Nat) (f : InfoField) {n : Nat}
    (hn : s.report.readInfo h f = n) :
    deliver (.infoRead h f) s = .next { s with busData := BitVec.ofNat 64 n } := by
  subst hn; rfl

theorem deliver_logRead (s : State) (h : Nat) (f : LogField) {n : Nat}
    (hn : s.report.readLog h f = n) :
    deliver (.logRead h f) s = .next { s with busData := BitVec.ofNat 64 n } := by
  subst hn; rfl

/-- Settles O60, one kind of access after the other. -/
theorem hostAndControllerAccesses : Obligations.HostAndControllerAccesses := by
  intro s reads num
  refine ⟨?writeA, ?writeEA, ?cmd, ?readA, ?readR, ?readER, ?status, ?memWrite, ?memRead, ?lenWrite,
    ?lenRefused, ?lenRead, ?lenAbsent, ?xlenWrite, ?xlenRead, ?info, ?log⟩
  case writeA => exact fun v => ⟨rfl, rfl, rfl, rfl, rfl, rfl⟩
  case writeEA => exact fun v => ⟨rfl, rfl⟩
  case cmd => rfl
  case readA => exact ⟨rfl, rfl, rfl, rfl, rfl, rfl⟩
  case readR => exact ⟨rfl, rfl, rfl, rfl⟩
  case readER => exact ⟨rfl, rfl, rfl, rfl⟩
  case status => exact ⟨s.readHostReg .status, rfl, readStatus_fields s⟩
  case memWrite =>
    intro sp a b
    refine ⟨fun ha => ⟨s.writeBytes sp a [b], ?_, s.wroteBytes_writeBytes sp a [b],
      s.withMemoriesOf_writeBytes sp a [b]⟩, fun ha => ?_⟩
    · exact congrArg Host.Outcome.next (s.hostWriteByte_of_lt ha b)
    · exact congrArg Host.Outcome.next (s.hostWriteByte_of_le ha b)
  case memRead =>
    exact fun sp a => ⟨fun ha => deliver_memRead s sp a (s.hostReadByte_of_lt ha),
      fun ha => deliver_memRead s sp a (s.hostReadByte_of_le ha)⟩
  case lenWrite => exact fun h v hv => congrArg Host.Outcome.next (s.hostWriteLen_of_legal h hv)
  case lenRefused => exact fun h v hn => congrArg Host.Outcome.next (s.hostWriteLen_of_not_legal hn)
  case lenRead => exact fun h => deliver_lenRead s h (s.lenOf_fin h)
  case lenAbsent => exact fun h hh => deliver_lenRead s h (s.lenOf_of_le hh)
  case xlenWrite =>
    exact fun v => ⟨fun hv => congrArg Host.Outcome.next (s.hostWriteXlen_of_le hv),
      fun hv => congrArg Host.Outcome.next (s.hostWriteXlen_of_lt hv)⟩
  case xlenRead => rfl
  case info =>
    intro h
    have hlen := congrArg (·.len.toNat) (s.report.infoOf_fin h)
    refine ⟨deliver_infoRead s h _ hlen, fun k => ?_⟩
    have hsec := s.report.sectorOf_fin h k
    exact ⟨deliver_infoRead s h _ (congrArg (·.headerBegin.toNat) hsec),
      deliver_infoRead s h _ (congrArg (·.headerEnd.toNat) hsec),
      deliver_infoRead s h _ (congrArg (·.dataBegin.toNat) hsec),
      deliver_infoRead s h _ (congrArg (·.dataEnd.toNat) hsec)⟩
  case log =>
    intro h
    have hcount := congrArg List.length (s.report.logOf_fin h)
    refine ⟨deliver_logRead s h _ hcount, fun j hj => ?_⟩
    obtain ⟨hcode, hsector, hstart, hend⟩ := s.report.readLog_entry h j hj
    exact ⟨deliver_logRead s h _ hcode, deliver_logRead s h _ hsector,
      deliver_logRead s h _ hstart, deliver_logRead s h _ hend⟩

end Sys2Proof.Machine
end

section
/-! PROOFS. The state statements: the values after a reset, the invariant of the whole machine, and what
the operations of each port leave unchanged. -/

namespace Sys2Proof.Machine

/-! ## The invariant under each update of the state -/

namespace State.Inv
variable {s : State}

/-- A new host port whose `FAULT` and `FCODE` are the old ones. -/
theorem withHost (h : s.Inv) (p : HostPort) (hf : p.status.fault = s.host.status.fault)
    (hc : p.status.fcode = s.host.status.fcode) : State.Inv { s with host := p } :=
  { h with
    noFault := fun e => hc.trans (h.noFault (hf.symm.trans e))
    fault := fun e => by simpa only [hc] using h.fault (hf.symm.trans e) }

/-- The environment's side of the state is free. -/
theorem withInputs (h : s.Inv) (l : List Event) : State.Inv { s with inputs := l } :=
  { h with }

theorem setBusData (h : s.Inv) (v : Word) : (s.setBusData v).Inv :=
  { h with }

theorem withCtrl (h : s.Inv) (p : CtrlPort) : State.Inv { s with ctrl := p } :=
  { h with }

/-- R403: the two causes of a Fatal. -/
theorem raiseFatal (h : s.Inv) {e : ErrCode} (he : e = .badOperand ∨ e = .capacity) :
    (s.raiseFatal e).Inv :=
  { h with
    noFault := fun hf => by cases hf
    fault := fun _ => by
      cases hs : s.host.status.fault with
      | true => simpa [State.raiseFatal, State.setStatus, Status.fatal, hs] using h.fault hs
      | false =>
        rcases he with rfl | rfl <;>
          simp [State.raiseFatal, State.setStatus, Status.fatal, hs, ErrCode.code] }

/-- R25: a sound descriptor takes the place of another. -/
theorem setView (h : s.Inv) (v : Fin 4) {d : View} (hd : d.wf) : (s.setView v d).Inv :=
  { h with
    views := fun u => by
      rw [State.setView_views]
      simp only [Fin.getElem_fin, Vector.getElem_set]
      split
      · exact hd
      · exact h.views u }

theorem setMem (h : s.Inv) (sp : Space) {m : Memory} (hm : Memory.wf sp m) : (s.setMem sp m).Inv where
  views := by simpa using h.views
  lens := by simpa using h.lens
  xlen := by simpa using h.xlen
  ht := by simpa using h.ht
  mems sp' := by
    rw [State.mem_setMem]
    split
    · subst_vars; exact hm
    · exact h.mems sp'
  logs := by simpa using h.logs
  noFault := by simpa using h.noFault
  fault := by simpa using h.fault

/-- R66: a run of bytes inside its memory. -/
theorem writeBytes (h : s.Inv) {sp : Space} {a : Nat} {bs : List Byte}
    (hb : a + bs.length ≤ sp.cap) : (s.writeBytes sp a bs).Inv :=
  h.setMem sp (Memory.wf_storeBytes sp bs _ a (h.mems sp) hb)

/-- R62: bits through a sound view that is not empty. -/
theorem setBits (h : s.Inv) {v : View} (hv : v.wf) (hs : 0 < v.size) (i : Int) (bits : List Bool) :
    (s.setBits v i bits).Inv := by
  refine h.setMem _ (Memory.wf_storeBits _ _ _ _ hs ?_ bits _ i (h.mems _))
  obtain ⟨hle, hcap⟩ := hv
  have hsize : v.first.toNat + v.size = v.last.toNat := Nat.add_sub_cancel' hle
  exact hsize.trans_le hcap

/-- R28: a legal length. -/
theorem setLen (h : s.Inv) (k : Nat) {n : Nat} (hn : n ≤ Config.trackCapBits) :
    (s.setLen k n).Inv :=
  { h with
    lens := fun j => by
      simp only [State.setLen_disk, bankSet, Fin.getElem_fin, Vector.getElem_setIfInBounds]
      split
      · exact (Nat.mod_le _ _).trans hn
      · exact h.lens j }

/-- R32: a legal length of the external track. -/
theorem withXlen (h : s.Inv) {n : Nat} (hn : n ≤ Config.xtrkCapBits) :
    State.Inv { s with xlen := BitVec.ofNat 18 n } :=
  { h with xlen := (Nat.mod_le _ _).trans hn }

/-- R36: a report whose logs are not too long. -/
theorem setReport (h : s.Inv) {r : Report} (hr : ∀ k : Fin 85, (r.log[k]).length ≤ s.cfg.logCap) :
    (s.setReport r).Inv :=
  { h with logs := hr }

/-- R44: the head stays on a halftrack. -/
theorem setEngine (h : s.Inv) {e : Engine} (he : e.ht.toNat < Config.numHt) : (s.setEngine e).Inv :=
  { h with ht := he }

/-- The three flags of the disk are free. -/
theorem withFlags (h : s.Inv) (p w m : Bool) :
    State.Inv { s with disk := { s.disk with present := p, wp := w, modified := m } } :=
  { h with }

/-- R28: no halftrack is longer than its buffer, as the accessor reads it. -/
theorem lenOf_le (h : s.Inv) (k : Nat) : s.lenOf k ≤ Config.trackCapBits := by
  rcases Nat.lt_or_ge k 84 with hk | hk
  · rw [s.lenOf_fin ⟨k, hk⟩]; exact h.lens ⟨k, hk⟩
  · rw [s.lenOf_of_le hk]; exact Nat.zero_le _

end State.Inv

theorem nominalLens_le (h : Fin 84) : (nominalLens[h]).toNat ≤ Config.trackCapBits := by
  have hn := (nominalBits_pos (trackOf h)).2
  have hl : (nominalLens[h]).toNat = nominalBits (trackOf h) % 2 ^ 17 := by simp [nominalLens]
  rw [hl]
  exact (Nat.mod_le _ _).trans (hn.trans (by decide))

/-- The view of a buffer's first bits is sound when the buffer holds them. -/
theorem View.whole_wf (buf : BufSel) {n : Nat} (hn : n ≤ buf.capBits) : (View.whole buf n).wf :=
  ⟨Nat.zero_le _, (Nat.mod_le _ _).trans hn⟩

/-- R304: an unformatted disk. -/
theorem State.Inv.clearDisk {s : State} (h : s.Inv) : s.clearDisk.Inv :=
  { h with
    lens := nominalLens_le
    mems := fun sp => by
      cases sp with
      | trk k => simpa [State.mem, State.clearDisk, blankTracks] using Memory.wf_nil (.trk k)
      | xtrk => exact h.mems .xtrk
      | dmem => exact h.mems .dmem
      | errtab => exact h.mems .errtab }

/-- R77: the view of a halftrack is sound. -/
theorem State.Inv.trackView_wf {s : State} (h : s.Inv) (k : Nat) : (s.trackView k).wf :=
  View.whole_wf _ (h.lenOf_le k)

/-- R25: the view every descriptor holds after reset. -/
theorem View.reset_wf : View.reset.wf := ⟨Nat.le_refl _, Nat.zero_le _⟩

/-- Settles O53: the buffers are blank, the lengths nominal, the views, logs and `FCODE` 0. -/
theorem invariantHoldsAtReset : Obligations.InvariantHoldsAtReset where
  views v := by simpa [State.reset] using View.reset_wf
  lens := nominalLens_le
  xlen := Nat.zero_le _
  ht := by decide
  mems := State.mem_reset_wf
  logs h := by simp [State.reset]
  noFault _ := rfl
  fault h := by cases h

/-- R430: a reset reaches the invariant from any state. -/
theorem State.resetDbc_inv (s : State) : s.resetDbc.Inv :=
  have h : State.reset.Inv := invariantHoldsAtReset
  { h with logs := fun k => by simp [State.resetDbc, State.reset] }

/-! ## How many bytes the codecs hand on -/

theorem length_be64 (i : Int) : (be64 i).length = 8 := by simp [be64]

theorem length_seekEntryBytes (o : Option SeekEntry) : (seekEntryBytes o).length = 24 := by
  cases o with
  | none => rfl
  | some e => simp [seekEntryBytes, length_be64]

/-- R222: a table of `n` entries. -/
theorem length_seekTable (n : Nat) (found : List SeekEntry) :
    (seekTable n found).length = 24 * n := by
  rw [seekTable, length_flatMap_range n 24 _ fun _ _ => length_seekEntryBytes _, Nat.mul_comm]

theorem length_bytesAt (b : BitStream) (p : Int) (n : Nat) : (b.bytesAt p n).length = n := by
  simp [BitStream.bytesAt]

theorem length_rdMfmRun (b : BitStream) (p : Int) (n : Nat) : (b.rdMfmRun p n).length = n := by
  simp [BitStream.rdMfmRun]

/-- R215: a decoded sector is the payload. -/
theorem length_c64Payload {b : BitStream} {sec : Byte} {start : Int} {d : Decoded}
    (h : b.c64DecodeSector sec start = .ok d) : d.payload.length = Config.c64Payload := by
  unfold BitStream.c64DecodeSector at h
  split at h
  · cases h
  split at h
  · cases h
  split at h
  · split at h
    · cases h
    · next hd =>
      split at h
      · cases h
        simp [length_of_decodeGcrBytes hd, Config.c64Payload]
      · cases h
  · cases h

/-- R251: a decoded sector is the payload. -/
theorem length_amiPayload {b : BitStream} {sec : Byte} {start : Int} {d : Decoded}
    (h : b.amiDecodeSector sec start = .ok d) : d.payload.length = Config.mfmPayload := by
  unfold BitStream.amiDecodeSector at h
  split at h
  · cases h
  dsimp only at h
  split at h
  · cases h
  split at h
  · cases h
  cases h
  simp [length_oeDecode, length_bytesAt, Config.mfmPayload]

/-- R281: a decoded sector is the payload. -/
theorem length_dosPayload {b : BitStream} {sec : Byte} {start : Int} {d : Decoded}
    (h : b.dosDecodeSector sec start = .ok d) : d.payload.length = Config.mfmPayload := by
  unfold BitStream.dosDecodeSector at h
  split at h
  · cases h
  dsimp only at h
  split at h
  · cases h
  split at h
  · cases h
  obtain rfl := Except.ok.inj h
  rw [List.length_take, length_rdMfmRun]
  rfl

/-- R246, R249: the bytes of an encoded Amiga track. -/
theorem length_amiTrackBytes (t : Nat) {image : List Byte}
    (h : image.length = Config.amigaSectors * Config.mfmPayload) :
    (amiTrackBytes t image).length = Config.amigaTrackBytes := by
  have hk : ∀ k < Config.amigaSectors,
      (amiSectorBytes t k (imageChunk image Config.mfmPayload k)).length = 1088 := fun k hk => by
    have : k < 11 := hk
    simp only [length_amiSectorBytes, length_imageChunk, h, Config.mfmPayload, Config.amigaSectors]
    omega
  simp only [amiTrackBytes, length_addClockRunSkipping, List.length_append,
    length_flatMap_range _ _ _ hk, List.length_replicate]
  rfl

/-- R276, R279: the bytes of an encoded DOS track. -/
theorem length_dosTrackBytes (t : Nat) {image : List Byte}
    (h : image.length = Config.dosSectors * Config.mfmPayload) :
    (dosTrackBytes t image).length = Config.dosTrackBytes := by
  have hk : ∀ k < Config.dosSectors,
      (dosSectorData t k (imageChunk image Config.mfmPayload k)).length = 658 := fun k hk => by
    have : k < 9 := hk
    simp only [length_dosSectorData, length_imageChunk, h, Config.mfmPayload, Config.dosSectors]
    omega
  simp only [dosTrackBytes, length_dosPatch, length_addClockRun, length_mfmBytes,
    List.length_append, length_flatMap_range _ _ _ hk, List.length_replicate]
  rfl

/-- Equal parts, one after the other. -/
theorem length_flatMap_payload {size : Nat} {ds : List Decoded}
    (h : ∀ d ∈ ds, d.payload.length = size) :
    (ds.flatMap Decoded.payload).length = size * ds.length := by
  rw [List.length_flatMap, List.map_congr_left h, List.map_const', List.sum_replicate, smul_eq_mul,
    Nat.mul_comm]

/-! ## Logs stay within `LOG_CAP` (R36, R343) -/

/-- The log of a scan is not longer than the capacity. -/
abbrev Scan.Fits (sc : Scan) (cap : Nat) : Prop := sc.log.length ≤ cap

theorem Scan.Logs.fits {sc : Scan} {cap : Nat} {es : List LogEntry} (h : sc.Logs cap es) :
    sc.Fits cap := by
  rw [Scan.Fits, h.1]
  exact List.length_take_le ..

namespace Scan.Fits
variable {sc : Scan} {cap : Nat}

theorem append (h : sc.Fits cap) (code : LogCode) (sector : Byte) (lo hi : Int) :
    (sc.append cap code sector lo hi).Fits cap := by
  unfold Scan.append
  split
  · next hlt => simpa using hlt
  · exact h

theorem put (h : sc.Fits cap) (k : Nat) (i : SectorInfo) : (sc.put k i).Fits cap := h

theorem missing (h : sc.Fits cap) (expect : Bool) (k : Nat) : (sc.missing cap expect k).Fits cap := by
  unfold Scan.missing
  split
  · exact (h.append ..).append ..
  · exact h

theorem check (h : sc.Fits cap) (good : Bool) (code : LogCode) (k : Nat) (lo hi : Int) :
    (sc.check cap good code k lo hi).Fits cap := by
  unfold Scan.check
  split
  · exact h
  · exact h.append ..

theorem xAmiga (h : sc.Fits cap) (b : BitStream) (expect : Bool) (k : Nat) :
    (b.xAmiga cap expect sc k).Fits cap := by
  unfold BitStream.xAmiga
  split
  · exact h.missing ..
  · exact ((h.put ..).check ..).check ..

theorem xDos (h : sc.Fits cap) (b : BitStream) (expect : Bool) (k : Nat) :
    (b.xDos cap expect sc k).Fits cap := by
  unfold BitStream.xDos
  split
  · exact h.missing ..
  dsimp only
  split
  · split
    · exact ((h.put ..).check ..).append ..
    · exact (h.put ..).check ..
  split
  · exact (((h.put ..).check ..).put ..).check ..
  split
  · exact ((h.put ..).check ..).append ..
  · exact (h.put ..).check ..

theorem foldl {f : Scan → Nat → Scan} (hf : ∀ sc k, sc.Fits cap → (f sc k).Fits cap)
    (ks : List Nat) (h : sc.Fits cap) : (ks.foldl f sc).Fits cap := by
  induction ks generalizing sc with
  | nil => exact h
  | cons k ks ih => exact ih (hf sc k h)

end Scan.Fits

/-- R331: the analysis of a halftrack. -/
theorem State.analyzeHalftrack_fits (s : State) (n h : Nat) :
    (s.analyzeHalftrack n h).Fits s.cfg.logCap := by
  obtain ⟨_, _, hlogs⟩ := s.analyzeHalftrack_spec n h
  exact hlogs.fits

/-- R340: the analysis of the external track. -/
theorem State.analyzeXtrack_fits (s : State) (plat : Nat) (expect : Bool) :
    (s.analyzeXtrack plat expect).Fits s.cfg.logCap := by
  unfold State.analyzeXtrack
  dsimp only
  split
  · exact Scan.Fits.foldl (fun _ k h => h.xAmiga _ expect k) _ (Nat.zero_le _)
  · exact Scan.Fits.foldl (fun _ k h => h.xDos _ expect k) _ (Nat.zero_le _)

/-- A report keeps its logs within the capacity when the analysis of one more track does. -/
theorem Report.record_logs {r : Report} {cap : Nat} (hr : ∀ k : Fin 85, (r.log[k]).length ≤ cap)
    (h len : Nat) {sc : Scan} (hs : sc.Fits cap) (k : Fin 85) :
    ((r.record h len sc).log[k]).length ≤ cap := by
  rw [← Report.logOf_fin, Report.logOf_record]
  split
  · exact hs
  · rw [Report.logOf_fin]; exact hr k

/-- R331: the analysis of the whole disk. -/
theorem State.Inv.analyzeDisk_logs {s : State} (h : s.Inv) (n : Nat) (k : Fin 85) :
    (((s.analyzeDisk n).1).log[k]).length ≤ s.cfg.logCap := by
  obtain ⟨_, hlog, _⟩ := s.analyzeDisk_spec n
  rw [← Report.logOf_fin, hlog]
  split
  · exact s.analyzeHalftrack_fits n k
  · rw [Report.logOf_fin]; exact h.logs k

/-! ## What a host-port operation leaves and keeps -/

/-- What no host-port operation but `RESET` writes: the engine, the controller port, the operand
registers and the model's own fields. -/
def State.hostFrame (s : State) :=
  (s.cfg, s.inputs, s.busData, s.engine, s.ctrl, s.epoch,
    s.host.a0, s.host.a1, s.host.a2, s.host.a3, s.host.a4, s.host.a5)

/-- `t` is what a host-port operation may have made of `s` so far, with `MOD` at `m`. -/
structure HostEffect (s t : State) (m : Bool) : Prop where
  /-- R20, R44, R51. -/
  frame : t.hostFrame = s.hostFrame
  /-- R25, R28, R32, R36, R403. -/
  inv : s.Inv → t.Inv
  /-- R30. -/
  modified : t.disk.modified = m

theorem State.hostFrame_setMem (s : State) (sp : Space) (b : Memory) :
    (s.setMem sp b).hostFrame = s.hostFrame := by
  cases sp <;> rfl

namespace HostEffect
variable {s t : State} {m : Bool}

theorem refl (s : State) : HostEffect s s s.disk.modified := ⟨rfl, id, rfl⟩

/-- Results and the end of an operation: the operands stay, and so do `FAULT` and `FCODE` (R400). -/
theorem withHost (h : HostEffect s t m) (p : HostPort)
    (hp : State.hostFrame { t with host := p } = t.hostFrame)
    (hf : p.status.fault = t.host.status.fault) (hc : p.status.fcode = t.host.status.fcode) :
    HostEffect s { t with host := p } m :=
  ⟨hp.trans h.frame, fun hi => (h.inv hi).withHost p hf hc, h.modified⟩

theorem setR0 (h : HostEffect s t m) (v : Word) : HostEffect s (t.setR0 v) m :=
  h.withHost _ rfl rfl rfl

theorem setR1 (h : HostEffect s t m) (v : Word) : HostEffect s (t.setR1 v) m :=
  h.withHost _ rfl rfl rfl

theorem setR2 (h : HostEffect s t m) (v : Word) : HostEffect s (t.setR2 v) m :=
  h.withHost _ rfl rfl rfl

theorem setR3 (h : HostEffect s t m) (v : Word) : HostEffect s (t.setR3 v) m :=
  h.withHost _ rfl rfl rfl

theorem answered (h : HostEffect s t m) (f g : Bool) (r0 r1 r2 r3 : Option Word) :
    HostEffect s (t.answered f g r0 r1 r2 r3) m :=
  h.withHost _ rfl rfl rfl

theorem okWith (h : HostEffect s t m) (f g : Bool) : HostEffect s (t.okWith f g) m :=
  h.withHost _ rfl rfl rfl

theorem ok (h : HostEffect s t m) : HostEffect s t.ok m :=
  h.okWith false false

theorem fail (h : HostEffect s t m) (e : ErrCode) : HostEffect s (t.fail e) m :=
  h.withHost _ rfl rfl rfl

theorem raiseFatal (h : HostEffect s t m) {e : ErrCode} (he : e = .badOperand ∨ e = .capacity) :
    HostEffect s (t.raiseFatal e) m :=
  ⟨h.frame, fun hi => (h.inv hi).raiseFatal he, h.modified⟩

theorem badOperand (h : HostEffect s t m) : HostEffect s (t.raiseFatal .badOperand) m :=
  h.raiseFatal (.inl rfl)

theorem capacity (h : HostEffect s t m) : HostEffect s (t.raiseFatal .capacity) m :=
  h.raiseFatal (.inr rfl)

theorem setView (h : HostEffect s t m) (v : Fin 4) {d : View} (hd : s.Inv → d.wf) :
    HostEffect s (t.setView v d) m :=
  ⟨h.frame, fun hi => (h.inv hi).setView v (hd hi), h.modified⟩

theorem writeBytes (h : HostEffect s t m) {sp : Space} {a : Nat} {bs : List Byte}
    (hb : a + bs.length ≤ sp.cap) : HostEffect s (t.writeBytes sp a bs) m :=
  ⟨(t.hostFrame_setMem sp _).trans h.frame, fun hi => (h.inv hi).writeBytes hb,
    (t.setMem_modified sp _).trans h.modified⟩

theorem setBits (h : HostEffect s t m) {v : View} (hv : s.Inv → v.wf) (hs : 0 < v.size) (i : Int)
    (bits : List Bool) : HostEffect s (t.setBits v i bits) m :=
  ⟨(t.hostFrame_setMem _ _).trans h.frame, fun hi => (h.inv hi).setBits (hv hi) hs i bits,
    (t.setMem_modified _ _).trans h.modified⟩

theorem setModified (h : HostEffect s t m) (m' : Bool) : HostEffect s (t.setModified m') m' :=
  ⟨h.frame, fun hi => (h.inv hi).withFlags t.disk.present t.disk.wp m', rfl⟩

theorem withFlags (h : HostEffect s t m) (p w m' : Bool) :
    HostEffect s { t with disk := { t.disk with present := p, wp := w, modified := m' } } m' :=
  ⟨h.frame, fun hi => (h.inv hi).withFlags p w m', rfl⟩

theorem clearDisk (h : HostEffect s t m) : HostEffect s t.clearDisk false :=
  ⟨h.frame, fun hi => (h.inv hi).clearDisk, rfl⟩

theorem withXlen (h : HostEffect s t m) {n : Nat} (hn : n ≤ Config.xtrkCapBits) :
    HostEffect s { t with xlen := BitVec.ofNat 18 n } m :=
  ⟨h.frame, fun hi => (h.inv hi).withXlen hn, h.modified⟩

/-- R211: a whole track at its nominal length. -/
theorem c64EncodeTrack (h : HostEffect s t m) (k : Nat) (image : List Byte) (id1 id2 : Byte)
    (align useErr : Bool) : HostEffect s (t.c64EncodeTrack k image id1 id2 align useErr) m := by
  obtain ⟨hpos, hle⟩ := nominalBits_pos k
  have hcap : nominalBits k ≤ Config.trackCapBits := hle.trans (by decide)
  have hsize : 0 < (View.whole (.trk (halftrack (2 * k))) (nominalBits k)).size := by
    rw [View.size_whole _ _ (by omega)]; exact hpos
  exact ⟨(State.hostFrame_setMem _ _ _).trans ((t.hostFrame_setMem _ _).trans h.frame),
    fun hi => (((h.inv hi).setMem _ (Memory.wf_nil _)).setLen _ hcap).setBits
      (View.whole_wf _ hcap) hsize _ _,
    h.modified⟩

/-- R306: several whole tracks. -/
theorem encodeTracks (h : HostEffect s t m) (n : Nat) (image : List Byte) :
    HostEffect s (t.encodeTracks n image) m := by
  unfold State.encodeTracks
  induction List.range n generalizing t with
  | nil => exact h
  | cons k ks ih => exact ih (h.c64EncodeTrack ..)

/-- A check with two ends. -/
theorem ite {c : Prop} [Decidable c] {a b : State} (ha : c → HostEffect s a m)
    (hb : ¬c → HostEffect s b m) : HostEffect s (if c then a else b) m := by
  split
  · next h => exact ha h
  · next h => exact hb h

end HostEffect

/-! ## The shapes of host-port operations -/

/-- From every state the operation leaves `MOD`. -/
abbrev Quiet (run : State → State) : Prop := ∀ s, HostEffect s (run s) s.disk.modified

/-- The view an operation names is sound. -/
theorem State.Inv.view_wf {s : State} (h : s.Inv) : s.view.wf := h.views s.opV

theorem withDisk_quiet {s : State} {run : State → State}
    (h : HostEffect s (run s) s.disk.modified) :
    HostEffect s (withDisk s run) s.disk.modified := by
  rcases withDisk_cases s run with ⟨_, hrun⟩ | ⟨_, hrun⟩ <;> rw [hrun]
  · exact h
  · exact (HostEffect.refl s).fail .noDisk

theorem readThroughView_quiet (s : State) (legal : Bool) (f : BitStream → Word) :
    HostEffect s (readThroughView s legal f) s.disk.modified := by
  rcases readThroughView_cases s legal f with ⟨_, h⟩ | ⟨_, e, _, h⟩ | ⟨_, _, h⟩ <;> rw [h]
  · exact (HostEffect.refl s).badOperand
  · exact (HostEffect.refl s).fail e
  · exact ((HostEffect.refl s).setR0 _).ok

theorem writeThroughView_quiet (s : State) (legal : Bool) (i : Int) (bits : List Bool) :
    HostEffect s (writeThroughView s legal i bits) s.disk.modified := by
  rcases writeThroughView_cases s legal i bits with ⟨_, h⟩ | ⟨_, e, _, h⟩ | ⟨_, ⟨_, hsize⟩, h⟩ <;>
    rw [h]
  · exact (HostEffect.refl s).badOperand
  · exact (HostEffect.refl s).fail e
  · exact ((HostEffect.refl s).setBits State.Inv.view_wf hsize i bits).ok

theorem convertRun_quiet (s : State) {n k : Nat} {f : List Byte → List Byte}
    (hf : ∀ bs : List Byte, bs.length = n → (f bs).length = k) :
    HostEffect s (convertRun s n k f) s.disk.modified := by
  rcases convertRun_cases s n k f with ⟨_, h⟩ | ⟨⟨_, hdst⟩, h⟩ <;> rw [h]
  · exact (HostEffect.refl s).badOperand
  · refine (((HostEffect.refl s).writeBytes ?_).setR0 _).ok
    rw [hf _ (State.length_readBytes ..)]
    exact hdst

theorem seekOp_quiet (s : State) (seek : BitStream → Option SectorRange) :
    HostEffect s (seekOp s seek) s.disk.modified := by
  rcases seekOp_cases s seek with ⟨_, h⟩ | ⟨_, e, _, h⟩ | ⟨_, _, _, h⟩ | ⟨_, _, r, _, h⟩ <;> rw [h]
  · exact (HostEffect.refl s).badOperand
  · exact (HostEffect.refl s).fail e
  · exact (HostEffect.refl s).fail .notFound
  · exact (HostEffect.refl s).answered ..

theorem seekAllOp_quiet (s : State) (n : Nat) (seek : BitStream → List SeekEntry) :
    HostEffect s (seekAllOp s n seek) s.disk.modified := by
  rcases seekAllOp_cases s n seek with ⟨_, h⟩ | ⟨_, e, _, h⟩ | ⟨⟨_, hmem⟩, _, h⟩ <;> rw [h]
  · exact (HostEffect.refl s).badOperand
  · exact (HostEffect.refl s).fail e
  · refine ((HostEffect.refl s).writeBytes ?_).answered ..
    rw [length_seekTable]
    exact hmem

theorem decodeSectorOp_quiet (s : State) (legal : Bool) {size : Nat}
    {decode : BitStream → Except ErrCode Decoded} {results : State → Decoded → State}
    (hsize : ∀ b d, decode b = .ok d → d.payload.length = size)
    (hres : ∀ t m d, HostEffect s t m → HostEffect s (results t d) m) :
    HostEffect s (decodeSectorOp s legal size decode results) s.disk.modified := by
  rcases decodeSectorOp_cases s legal size decode results with
    ⟨_, h⟩ | ⟨_, e, _, h⟩ | ⟨_, _, e, _, h⟩ | ⟨⟨_, _, hmem⟩, _, d, hd, h⟩ <;> rw [h]
  · exact (HostEffect.refl s).badOperand
  · exact (HostEffect.refl s).fail e
  · exact (HostEffect.refl s).fail e
  · refine (hres _ _ d ((((HostEffect.refl s).writeBytes ?_).setR0 _).setR1 _)).ok
    rw [hsize _ d hd]
    exact hmem

theorem decodeTrackOp_quiet (s : State) (legal : Bool) (n : Nat) {size : Nat}
    {decode : BitStream → Nat → Except ErrCode Decoded}
    (hsize : ∀ b k d, decode b k = .ok d → d.payload.length = size) :
    HostEffect s (decodeTrackOp s legal n size decode) s.disk.modified := by
  rcases decodeTrackOp_cases s legal n size decode with
    ⟨_, h⟩ | ⟨_, e, _, h⟩ | ⟨⟨_, _, hmem⟩, _, h⟩ <;> rw [h]
  · exact (HostEffect.refl s).badOperand
  · exact (HostEffect.refl s).fail e
  · obtain ⟨ds, e, hle, hlen, _, _, hloop⟩ := decodeTrackLoop_spec size decode hsize n 0 s
    rw [hloop]
    refine ((((HostEffect.refl s).writeBytes ?_).setR0 _).setR1 _).fail e
    rw [length_flatMap_payload hlen]
    have hstored : size * ds.length ≤ size * n := Nat.mul_le_mul_left _ hle
    exact (Nat.add_le_add_left hstored _).trans hmem

theorem encodeSectorOp_quiet (s : State) (legal : Bool) (payload size : Nat)
    (bits : List Byte → List Bool) :
    HostEffect s (encodeSectorOp s legal payload size bits) s.disk.modified := by
  rcases encodeSectorOp_cases s legal payload size bits with
    ⟨_, h⟩ | ⟨_, e, _, h⟩ | ⟨_, _, _, h⟩ | ⟨_, ⟨_, hpos⟩, _, h⟩ <;> rw [h]
  · exact (HostEffect.refl s).badOperand
  · exact (HostEffect.refl s).fail e
  · exact (HostEffect.refl s).capacity
  · exact ((HostEffect.refl s).setBits State.Inv.view_wf hpos _ _).answered ..

/-- R249, R279: an encoded track replaces the beginning of `XTRK`. -/
theorem encodeXtrackOp_quiet (s : State) (n : Nat) {bits len : Nat}
    {encode : List Byte → List Byte}
    (hlen : ∀ image : List Byte, image.length = n * Config.mfmPayload → (encode image).length = len)
    (hcap : len ≤ Config.xtrkCapBytes) (hbits : bits ≤ Config.xtrkCapBits) :
    HostEffect s (encodeXtrackOp s n bits encode) s.disk.modified := by
  rcases encodeXtrackOp_cases s n bits encode with
    ⟨_, h⟩ | ⟨_, _, h⟩ | ⟨_, _, _, h⟩ | ⟨_, _, _, h⟩ <;> rw [h]
  · exact (HostEffect.refl s).badOperand
  · exact (HostEffect.refl s).fail .formatErr
  · exact (HostEffect.refl s).badOperand
  · refine ((((((HostEffect.refl s).writeBytes ?_).withXlen hbits).setView _ ?_).setR0 _).setR1 _).ok
    · rw [hlen _ (State.length_readBytes ..), Nat.zero_add]
      exact hcap
    · exact fun _ => View.whole_wf .xtrk hbits

/-- R331, R340: a new report whose logs fit. -/
theorem finishAnalysis_quiet (s : State) (r : Report × Bool) (tracks : List Nat)
    (hr : s.Inv → ∀ k : Fin 85, (r.1.log[k]).length ≤ s.cfg.logCap) :
    HostEffect s (s.finishAnalysis r tracks) s.disk.modified := by
  have hreport : HostEffect s (s.setReport r.1) s.disk.modified :=
    ⟨rfl, fun hi => hi.setReport (hr hi), rfl⟩
  exact hreport.withHost _ rfl rfl rfl

/-! ## The single operations of the host port -/

/-- No buffer has more bits than `DMEM`. -/
theorem capBits_le_dmem (buf : BufSel) : buf.capBits ≤ 2097152 := by
  cases buf with
  | trk h => exact (by decide : 8 * Config.trackCapBytes ≤ 2097152)
  | xtrk => decide
  | dmem => decide

/-- R140: the descriptor that `BV.DEF` writes. -/
theorem State.opDescriptor_wf {s : State} {d : View} (h : s.opDescriptor = some d) : d.wf := by
  simp only [State.opDescriptor] at h
  split at h
  · cases h
  · next buf _ =>
    split at h
    · next hr =>
      cases h
      have := capBits_le_dmem buf
      simp only [View.wf, BitVec.toNat_ofInt]
      omega
    · cases h

theorem runBvDef_quiet : Quiet runBvDef := by
  intro s
  unfold runBvDef
  split
  · exact (HostEffect.refl s).badOperand
  · next d hd => exact ((HostEffect.refl s).setView _ fun _ => State.opDescriptor_wf hd).ok

/-- R139: a slice of a sound view is sound. -/
theorem View.slice_wf {v : View} (h : v.wf) {lo hi : Nat} (hlo : lo ≤ hi) (hhi : hi ≤ v.size) :
    (v.slice lo hi).wf := by
  obtain ⟨h1, h2⟩ := h
  have hb := v.last.isLt
  simp only [View.size] at hhi
  simp only [View.wf, View.slice, BitVec.toNat_ofNat]
  omega

theorem runBvSlice_quiet : Quiet runBvSlice := by
  intro s
  unfold runBvSlice
  dsimp only
  split
  · next hr =>
    refine ((HostEffect.refl s).setView _ fun hi => View.slice_wf hi.view_wf ?_ ?_).ok <;> omega
  · exact (HostEffect.refl s).badOperand

theorem runBvFwd_quiet : Quiet runBvFwd := by
  intro s
  unfold runBvFwd
  dsimp only
  split
  · split
    · exact (HostEffect.refl s).fail _
    split
    · exact ((HostEffect.refl s).setR0 _).okWith true false
    · exact ((HostEffect.refl s).setR0 _).fail .notFound
  · exact (HostEffect.refl s).badOperand

theorem runGcrEnc_quiet : Quiet runGcrEnc := by
  intro s
  unfold runGcrEnc
  split
  · split
    · exact (HostEffect.refl s).fail _
    · next hv =>
      obtain ⟨_, hsize⟩ := (s.viewError_eq_none s.view).1 hv
      exact (((HostEffect.refl s).setBits State.Inv.view_wf hsize _ _).setR0 _).ok
  · exact (HostEffect.refl s).badOperand

theorem runGcrDec_quiet : Quiet runGcrDec := by
  intro s
  unfold runGcrDec
  split
  · split
    · exact (HostEffect.refl s).fail _
    · exact (((HostEffect.refl s).setR0 _).setR1 _).okWith _ _
  · exact (HostEffect.refl s).badOperand

theorem runMfmClkbuf_quiet : Quiet runMfmClkbuf := by
  intro s
  unfold runMfmClkbuf
  dsimp only
  split
  · next hd =>
    refine (((HostEffect.refl s).writeBytes ?_).setR0 _).ok
    rw [length_addClockRun, State.length_readBytes]
    exact (dmemOk_iff _ _).1 hd
  · exact (HostEffect.refl s).badOperand

theorem runC64Enctrk_quiet : Quiet runC64Enctrk := by
  intro s
  have hcap : nominalBits s.opT ≤ Config.trackCapBits := (nominalBits_pos _).2.trans (by decide)
  rcases runC64Enctrk_cases s with ⟨_, h⟩ | ⟨_, _, h⟩ | ⟨_, _, _, h⟩ | ⟨_, _, _, _, h⟩ |
    ⟨_, _, _, _, _, h⟩ | ⟨_, _, _, _, _, h⟩ <;> rw [h]
  · exact (HostEffect.refl s).badOperand
  · exact (HostEffect.refl s).fail .noDisk
  · exact (HostEffect.refl s).fail .formatErr
  · exact (HostEffect.refl s).badOperand
  · exact (HostEffect.refl s).capacity
  · exact (((((HostEffect.refl s).c64EncodeTrack ..).setView _
      fun _ => View.whole_wf _ hcap).setR0 _).setR1 _).ok

theorem runDskRdblk_quiet {s : State} (h : s.blockOk = true) :
    HostEffect s (runDskRdblk s) s.disk.modified := by
  unfold runDskRdblk
  split
  · exact (HostEffect.refl s).fail .seekErr
  split
  · exact (HostEffect.refl s).fail _
  · next d hd =>
    refine ((((HostEffect.refl s).writeBytes ?_).setR0 _).setR1 _).ok
    rw [length_c64Payload hd]
    simp only [State.blockOk, Bool.and_eq_true] at h
    exact (dmemOk_iff _ _).1 h.2

/-- R77: the size of a track view is the length of the halftrack. -/
theorem State.size_trackView (s : State) (k : Nat) : (s.trackView k).size = s.lenOf k :=
  View.size_whole _ _ (Nat.lt_trans (bankGet s.disk.len k 0).isLt (by decide))

/-- R318: `MOD` is set exactly when the block was found. -/
theorem runDskWrblk_effect (s : State) :
    HostEffect s (runDskWrblk s) s.disk.modified ∨ HostEffect s (runDskWrblk s) true := by
  unfold runDskWrblk
  split
  · exact .inl ((HostEffect.refl s).fail .seekErr)
  next hlen =>
  split
  · exact .inl ((HostEffect.refl s).fail .seekErr)
  · next s' hw =>
    refine .inr (HostEffect.ok (.setR1 (.setR0 ?_ _) _))
    simp only [State.writeBlock] at hw
    split at hw
    · cases hw
    cases hw
    refine ((HostEffect.refl s).setBits (fun hi => hi.trackView_wf _) ?_ _ _).setModified true
    rw [State.size_trackView]
    exact Nat.pos_of_ne_zero hlen

/-- R306: `MOD` is cleared, or the operation has failed. -/
theorem runDskEncode_effect (s : State) :
    HostEffect s (runDskEncode s) s.disk.modified ∨ HostEffect s (runDskEncode s) false := by
  unfold runDskEncode
  dsimp only
  split
  · exact .inl ((HostEffect.refl s).fail .formatErr)
  split
  · exact .inl (HostEffect.refl s).badOperand
  split
  · exact .inl ((HostEffect.refl s).fail .noDisk)
  split
  · exact .inl (HostEffect.refl s).capacity
  · exact .inr (((HostEffect.refl s).clearDisk.encodeTracks ..).setR0 _).ok

theorem runDskInsert_effect (s : State) : HostEffect s (runDskInsert s) false := by
  unfold runDskInsert
  dsimp only
  split
  · exact ((HostEffect.refl s).withFlags true s.disk.wp s.disk.modified).clearDisk.ok
  · exact ((HostEffect.refl s).withFlags true false false).ok

theorem runAnaLayout_quiet : Quiet runAnaLayout := by
  intro s
  unfold runAnaLayout
  dsimp only
  split
  · exact ((((((HostEffect.refl s).setR0 _).setR1 _).setR2 _).setR3 _)).okWith _ _
  · exact (HostEffect.refl s).badOperand

theorem runAnaLog_quiet : Quiet runAnaLog := by
  intro s
  unfold runAnaLog
  dsimp only
  split
  · split
    · exact ((((HostEffect.refl s).setR0 _).setR1 _).setR2 _).setR3 _ |>.okWith _ _
    · exact ((((HostEffect.refl s).setR0 _).setR1 _).setR2 _).setR3 _ |>.ok
  · exact (HostEffect.refl s).badOperand

/-! ## Every operation of the host port -/

/-- The operations that may clear `MOD`, and the one that may set it (R30). -/
abbrev modWriters : List Instr := [.dskClear, .dskInsert, .dskEncode, .dskWrblk]

/-- A host-port operation keeps what any of its runs keeps: the refusal of R404 writes `STATUS` only. -/
theorem hostOp_quiet {s t : State} {run : State → State} (ht : hostOp s run = .next t)
    (h : HostEffect s (run s) s.disk.modified) : HostEffect s t s.disk.modified := by
  cases ht
  exact .ite (fun _ => (HostEffect.refl s).fail .faulted) fun _ => h

/-- R30, R44, R51: the host-port operations that leave `MOD`. -/
theorem exec_quiet (i : Instr) (hp : i.port = .host) (hr : i ≠ .reset) (hm : i ∉ modWriters)
    {s t : State} (ht : exec i s = .next t) : HostEffect s t s.disk.modified := by
  have refl := HostEffect.refl s
  cases i <;> dsimp only [exec] at ht
  case reset => exact absurd rfl hr
  case dskClear | dskInsert | dskEncode | dskWrblk => simp at hm
  case engTick | engRdbit | engWrbit | engRot | engSync | engLatch | engSetht | engPos => cases hp
  case nop => exact hostOp_quiet ht (refl.ok)
  case bvDef => exact hostOp_quiet ht (runBvDef_quiet s)
  case bvSlice => exact hostOp_quiet ht (runBvSlice_quiet s)
  case bvFwd => exact hostOp_quiet ht (runBvFwd_quiet s)
  case bvGet | bvGetbyte | bvGetbits | byGet =>
    exact hostOp_quiet ht (readThroughView_quiet s _ _)
  case bvSet | bvSetbyte | bvSetbits | bySet =>
    exact hostOp_quiet ht (writeThroughView_quiet s _ _ _)
  case bvSize | gcrB2g | mfmClk | dskNumblk | dskFlags =>
    exact hostOp_quiet ht ((refl.setR0 _).ok)
  case gcrG2b => exact hostOp_quiet ht ((refl.setR0 _).okWith _ _)
  case gcrEnc => exact hostOp_quiet ht (runGcrEnc_quiet s)
  case gcrDec => exact hostOp_quiet ht (runGcrDec_quiet s)
  case mfmEnc => exact hostOp_quiet ht (convertRun_quiet s fun bs h => by simp [h])
  case mfmDec =>
    exact hostOp_quiet ht (convertRun_quiet s fun bs h => by simp [length_mfmDecode, h])
  case mfmOeenc => exact hostOp_quiet ht (convertRun_quiet s fun bs h => by simp [h])
  case mfmOedec =>
    exact hostOp_quiet ht (convertRun_quiet s fun bs h => by simp [length_oeDecode, h])
  case mfmClkbuf => exact hostOp_quiet ht (runMfmClkbuf_quiet s)
  case c64Encsec | amiEncsec | dosEncsec =>
    exact hostOp_quiet ht (encodeSectorOp_quiet s _ _ _ _)
  case c64Enctrk => exact hostOp_quiet ht (runC64Enctrk_quiet s)
  case amiEnctrk =>
    exact hostOp_quiet ht (encodeXtrackOp_quiet s _ (fun _ h => length_amiTrackBytes _ h)
      (by decide) (by decide))
  case dosEnctrk =>
    exact hostOp_quiet ht (encodeXtrackOp_quiet s _ (fun _ h => length_dosTrackBytes _ h)
      (by decide) (by decide))
  case c64Decsec =>
    exact hostOp_quiet ht (decodeSectorOp_quiet s _ (fun _ _ h => length_c64Payload h)
      fun _ _ _ h => (h.setR2 _).setR3 _)
  case amiDecsec =>
    exact hostOp_quiet ht (decodeSectorOp_quiet s _ (fun _ _ h => length_amiPayload h)
      fun _ _ _ h => h.setR2 _)
  case dosDecsec =>
    exact hostOp_quiet ht (decodeSectorOp_quiet s _ (fun _ _ h => length_dosPayload h)
      fun _ _ _ h => h.setR2 _)
  case c64Dectrk =>
    exact hostOp_quiet ht (decodeTrackOp_quiet s _ _ fun _ _ _ h => length_c64Payload h)
  case amiDectrk =>
    exact hostOp_quiet ht (decodeTrackOp_quiet s _ _ fun _ _ _ h => length_amiPayload h)
  case dosDectrk =>
    exact hostOp_quiet ht (decodeTrackOp_quiet s _ _ fun _ _ _ h => length_dosPayload h)
  case c64Seek | amiSeek | dosSeek => exact hostOp_quiet ht (seekOp_quiet s _)
  case c64Seekall | amiSeekall | dosSeekall => exact hostOp_quiet ht (seekAllOp_quiet s _ _)
  case dskRdblk =>
    exact hostOp_quiet ht (.ite (fun h => withDisk_quiet (runDskRdblk_quiet h))
      fun _ => refl.badOperand)
  case dskLenht | dskLentrk =>
    exact hostOp_quiet ht (.ite (fun _ => withDisk_quiet (refl.setR0 _).ok)
      fun _ => refl.badOperand)
  case dskDefaults =>
    exact hostOp_quiet ht (.ite (fun _ => (((refl.setR0 _).setR1 _).setR2 _).setR3 _ |>.ok)
      fun _ => refl.badOperand)
  case dskSetwp =>
    exact hostOp_quiet ht (withDisk_quiet (refl.withFlags s.disk.present _ _).ok)
  case dskEject =>
    exact hostOp_quiet ht (withDisk_quiet (refl.withFlags false s.disk.wp _).ok)
  case anaRun =>
    exact hostOp_quiet ht (.ite
      (fun _ => .ite (fun _ => finishAnalysis_quiet s _ _ fun hi => hi.analyzeDisk_logs _)
        fun _ => refl.fail _)
      fun _ => refl.badOperand)
  case anaLayout => exact hostOp_quiet ht (runAnaLayout_quiet s)
  case anaLog => exact hostOp_quiet ht (runAnaLog_quiet s)
  case anaXrun =>
    exact hostOp_quiet ht (.ite
      (fun _ => finishAnalysis_quiet s _ _ fun hi =>
        Report.record_logs hi.logs _ _ (s.analyzeXtrack_fits _ _))
      fun _ => refl.badOperand)

/-- What the host-port operations but `RESET` do to `MOD`: they leave it, three may clear it, and one may
set it (R30). -/
inductive ModChange (i : Instr) (s t : State) : Prop where
  | kept (h : t.disk.modified = s.disk.modified)
  | cleared (hi : i ∈ [Instr.dskClear, .dskInsert, .dskEncode]) (h : t.disk.modified = false)
  | set (hi : i = .dskWrblk) (h : t.disk.modified = true)

/-- A host-port operation of which one of two effects is known has one of them, the first one also where
`FAULT` refuses it. -/
theorem hostOp_effect {s t : State} {run : State → State} {m : Bool} (ht : hostOp s run = .next t)
    (h : HostEffect s (run s) s.disk.modified ∨ HostEffect s (run s) m) :
    HostEffect s t s.disk.modified ∨ HostEffect s t m := by
  rcases h with h | h
  · exact .inl (hostOp_quiet ht h)
  · cases hf : s.host.status.fault with
    | true =>
      rw [hostOp_faulted hf] at ht
      cases ht
      exact .inl ((HostEffect.refl s).fail .faulted)
    | false =>
      rw [hostOp_running hf] at ht
      cases ht
      exact .inr h

/-- R20, R30, R44, R51: every host-port operation but `RESET`. -/
theorem exec_hostEffect (i : Instr) (hp : i.port = .host) (hr : i ≠ .reset) {s t : State}
    (ht : exec i s = .next t) :
    t.hostFrame = s.hostFrame ∧ (s.Inv → t.Inv) ∧ ModChange i s t := by
  have refl := HostEffect.refl s
  have either {m : Bool} (h : HostEffect s t s.disk.modified ∨ HostEffect s t m)
      (hm : t.disk.modified = m → ModChange i s t) :
      t.hostFrame = s.hostFrame ∧ (s.Inv → t.Inv) ∧ ModChange i s t := by
    rcases h with ⟨hframe, hinv, hmod⟩ | ⟨hframe, hinv, hmod⟩
    · exact ⟨hframe, hinv, .kept hmod⟩
    · exact ⟨hframe, hinv, hm hmod⟩
  by_cases hw : i ∈ modWriters
  · simp only [modWriters, List.mem_cons, List.not_mem_nil, or_false] at hw
    rcases hw with rfl | rfl | rfl | rfl <;> dsimp only [exec] at ht
    · refine either (hostOp_effect ht ?_) (.cleared (by decide))
      rcases withDisk_cases s (fun s => s.clearDisk.ok) with ⟨_, h⟩ | ⟨_, h⟩ <;> rw [h]
      · exact .inr refl.clearDisk.ok
      · exact .inl (refl.fail .noDisk)
    · exact either (hostOp_effect ht (.inr (runDskInsert_effect s))) (.cleared (by decide))
    · exact either (hostOp_effect ht (runDskEncode_effect s)) (.cleared (by decide))
    · refine either (hostOp_effect ht ?_) (.set rfl)
      split
      · rcases withDisk_cases s runDskWrblk with ⟨_, h⟩ | ⟨_, h⟩ <;> rw [h]
        · exact runDskWrblk_effect s
        · exact .inl (refl.fail .noDisk)
      · exact .inl refl.badOperand
  · exact either (m := s.disk.modified) (.inl (exec_quiet i hp hr hw ht)) .kept

/-! ## What an engine operation leaves and keeps -/

/-- What no engine operation writes: the host port, the views, the report, the memories beside the
disk's, the controller's operands, the lengths and flags of the disk but `MOD`, and the model's own
fields. -/
def State.engineFrame (s : State) :=
  (s.host, s.views, s.report, s.xtrk, s.dmem, s.errtab, s.xlen, s.ctrl.ea0, s.ctrl.ea1, s.disk.len,
    s.disk.wp, s.disk.present, s.cfg, s.inputs, s.busData)

/-- `t` is what an engine operation may have made of `s` so far. -/
structure EngineEffect (s t : State) : Prop where
  /-- R51, R360. -/
  frame : t.engineFrame = s.engineFrame
  /-- R44 and the canonical form of the disk. -/
  inv : s.Inv → t.Inv
  /-- R30: `MOD` is never cleared. -/
  modified : s.disk.modified = true → t.disk.modified = true

/-- R366: the head's position lies in its track. -/
theorem State.headPos_lt {s : State} (h : s.noTrack = false) : s.headPos < s.headLen :=
  Nat.mod_lt _ ((s.noTrack_false_iff).1 h).2

namespace EngineEffect
variable {s t : State}

theorem refl (s : State) : EngineEffect s s := ⟨rfl, id, id⟩

theorem withCtrl (h : EngineEffect s t) (p : CtrlPort) (h0 : p.ea0 = t.ctrl.ea0)
    (h1 : p.ea1 = t.ctrl.ea1) : EngineEffect s { t with ctrl := p } :=
  ⟨by rw [← h.frame]; simp only [State.engineFrame, h0, h1], fun hi => (h.inv hi).withCtrl p,
    h.modified⟩

theorem setER0 (h : EngineEffect s t) (v : Word) : EngineEffect s (t.setER0 v) :=
  h.withCtrl _ rfl rfl

theorem setER1 (h : EngineEffect s t) (v : Word) : EngineEffect s (t.setER1 v) :=
  h.withCtrl _ rfl rfl

theorem setER2 (h : EngineEffect s t) (v : Word) : EngineEffect s (t.setER2 v) :=
  h.withCtrl _ rfl rfl

theorem setER3 (h : EngineEffect s t) (v : Word) : EngineEffect s (t.setER3 v) :=
  h.withCtrl _ rfl rfl

theorem setEngine (h : EngineEffect s t) {e : Engine} (he : s.Inv → e.ht.toNat < Config.numHt) :
    EngineEffect s (t.setEngine e) :=
  ⟨h.frame, fun hi => (h.inv hi).setEngine (he hi), h.modified⟩

/-- R369, R375: the bit under the head. -/
theorem writeHeadBit (h : EngineEffect s t) (b : Bool) : EngineEffect s (t.writeHeadBit b) := by
  cases hn : t.noTrack with
  | true =>
    rw [State.writeHeadBit, if_pos hn]
    exact h
  | false =>
    rw [State.writeHeadBit, hn]
    refine ⟨h.frame, fun hi => ?_, fun _ => rfl⟩
    have ht := h.inv hi
    have hpos : t.headPos < 8 * t.headSpace.cap :=
      (State.headPos_lt hn).trans_le (ht.lenOf_le t.engine.ht.toNat)
    exact (ht.setMem _ (Memory.wf_storeBit _ _ _ _ _ (ht.mems _) hpos)).withFlags
      t.disk.present t.disk.wp true

end EngineEffect

/-- R361: each phase keeps the halftrack; only phase 0 moves the head. -/
theorem State.runPhase_head (s : State) (write : Bool) (wdata : Byte) :
    (s.runPhase write wdata).engine.ht = s.engine.ht ∧
      (s.runPhase write wdata).engine.offset =
        if s.engine.phase = 0 then s.nextOffset else s.engine.offset := by
  unfold State.runPhase
  split
  · exact ⟨rfl, rfl⟩
  split
  · exact ⟨rfl, rfl⟩
  split
  · unfold State.phase2
    rw [s.countBit_eq]
    split
    · simp only [State.writeCell, State.setEngine_engine, State.writeHeadBit_engine, and_self]
    · exact ⟨rfl, rfl⟩
  · unfold State.phase3
    split <;> exact ⟨rfl, rfl⟩

theorem runPhase_effect (s : State) (write : Bool) (wdata : Byte) :
    EngineEffect s (s.runPhase write wdata) := by
  have refl := EngineEffect.refl s
  have hht : s.Inv → s.engine.ht.toNat < Config.numHt := State.Inv.ht
  unfold State.runPhase
  split
  · exact refl.setEngine hht
  split
  · exact refl.setEngine hht
  split
  · unfold State.phase2
    rw [s.countBit_eq]
    have hcount := fun b l r =>
      refl.setEngine (e := { s.engine with brc := b, dataLatch := l, byteReady := r }) hht
    split
    · refine ((hcount _ _ _).writeHeadBit _).setEngine ?_
      rw [State.writeHeadBit_engine]
      exact hht
    · exact hcount _ _ _
  · unfold State.phase3
    split
    · exact refl.setEngine hht
    · exact refl

theorem runEngTick_effect (s : State) : EngineEffect s (runEngTick s) := by
  refine (((runPhase_effect s _ _).setEngine ?_).setER0 _).setER1 _
  rw [(s.runPhase_head _ _).1]
  exact State.Inv.ht

theorem runEngSetht_effect (s : State) : EngineEffect s (runEngSetht s) := by
  unfold runEngSetht
  dsimp only
  split
  · next hh => exact ((EngineEffect.refl s).setEngine fun _ => hh).setER0 _
  · exact (EngineEffect.refl s).setER0 _

/-- R51, R360: every operation of the controller port. -/
theorem exec_engineEffect (i : Instr) (hp : i.port = .controller) {s t : State}
    (ht : exec i s = .next t) : EngineEffect s t := by
  have refl := EngineEffect.refl s
  cases i
  case engTick => cases ht; exact runEngTick_effect s
  case engRdbit | engSync => cases ht; exact refl.setER0 _
  case engWrbit => cases ht; exact (refl.writeHeadBit _).setER0 _
  case engRot =>
    cases ht
    exact (refl.setEngine (e := { s.engine with offset := s.nextOffset }) State.Inv.ht).setER0 _
  case engLatch | engPos => cases ht; exact (((refl.setER0 _).setER1 _).setER2 _).setER3 _
  case engSetht => cases ht; exact runEngSetht_effect s
  all_goals cases hp

/-- R369, R375: only the two operations that write a bit touch the disk. -/
theorem exec_disk_of_reader (i : Instr) (hp : i.port = .controller)
    (hi : i ∉ [Instr.engTick, .engWrbit]) {s t : State} (ht : exec i s = .next t) :
    t.disk = s.disk := by
  cases i
  case engTick | engWrbit => simp at hi
  case engRdbit | engSync | engRot | engLatch | engPos => cases ht; rfl
  case engSetht =>
    cases ht
    unfold runEngSetht
    dsimp only
    split <;> rfl
  all_goals cases hp

/-! ## Engine operations do not read the host's side -/

/-- `s` with the host port, the views, the report, `XTRK`, `XLEN`, `DMEM` and `ERRTAB` of `o`. -/
def State.withHostSideOf (s o : State) : State :=
  { s with
    host := o.host
    views := o.views
    report := o.report
    xtrk := o.xtrk
    dmem := o.dmem
    errtab := o.errtab
    xlen := o.xlen }

@[simp] theorem State.withHostSideOf_engine (s o : State) :
    (s.withHostSideOf o).engine = s.engine := rfl

@[simp] theorem State.withHostSideOf_ctrl (s o : State) :
    (s.withHostSideOf o).ctrl = s.ctrl := rfl

/-- The operation does the same to the rest whatever the host's side is. -/
abbrev IgnoresHostSide (run : State → State) : Prop :=
  ∀ s o, run (s.withHostSideOf o) = (run s).withHostSideOf o

theorem State.writeHeadBit_withHostSideOf (s o : State) (b : Bool) :
    (s.withHostSideOf o).writeHeadBit b = (s.writeHeadBit b).withHostSideOf o := by
  have hn : (s.withHostSideOf o).noTrack = s.noTrack := rfl
  unfold State.writeHeadBit
  rw [hn]
  cases s.noTrack <;> rfl

theorem State.countBit_withHostSideOf (s o : State) :
    (s.withHostSideOf o).countBit = s.countBit.withHostSideOf o := by
  rw [State.countBit_eq, State.countBit_eq]
  rfl

theorem State.writeCell_withHostSideOf (s o : State) :
    (s.withHostSideOf o).writeCell = s.writeCell.withHostSideOf o := by
  simp only [State.writeCell, State.withHostSideOf_engine, State.writeHeadBit_withHostSideOf]
  rfl

theorem State.phase2_withHostSideOf (s o : State) (write : Bool) :
    (s.withHostSideOf o).phase2 write = (s.phase2 write).withHostSideOf o := by
  cases write with
  | true =>
    show (s.withHostSideOf o).countBit.writeCell = s.countBit.writeCell.withHostSideOf o
    rw [State.countBit_withHostSideOf, State.writeCell_withHostSideOf]
  | false => exact s.countBit_withHostSideOf o

theorem State.runPhase_withHostSideOf (s o : State) (write : Bool) (wdata : Byte) :
    (s.withHostSideOf o).runPhase write wdata = (s.runPhase write wdata).withHostSideOf o := by
  simp only [State.runPhase, State.phase3, State.withHostSideOf_engine,
    State.phase2_withHostSideOf, apply_ite (State.withHostSideOf · o)]
  rfl

theorem runEngTick_ignores : IgnoresHostSide runEngTick := by
  intro s o
  simp only [runEngTick, State.withHostSideOf_engine, State.withHostSideOf_ctrl,
    State.runPhase_withHostSideOf]
  rfl

theorem runEngSetht_ignores : IgnoresHostSide runEngSetht := by
  intro s o
  simp only [runEngSetht, apply_ite (State.withHostSideOf · o)]
  rfl

/-- R51, R360, R384(g). -/
theorem exec_ignores (i : Instr) (hp : i.port = .controller) (s o : State) :
    ∃ t, exec i s = .next t ∧ exec i (s.withHostSideOf o) = .next (t.withHostSideOf o) := by
  have same {run : State → State} (h : IgnoresHostSide run) :
      ∃ t, ctrlOp s run = .next t ∧ ctrlOp (s.withHostSideOf o) run = .next (t.withHostSideOf o) :=
    ⟨run s, rfl, congrArg Host.Outcome.next (h s o)⟩
  cases i
  case engTick => exact same runEngTick_ignores
  case engWrbit =>
    refine ⟨_, rfl, congrArg Host.Outcome.next ?_⟩
    have hbit := s.writeHeadBit_withHostSideOf o (s.ctrl.ea0.getLsbD 0)
    exact congrArg (State.setER0 · (wordOfNat (flagBit (!s.noTrack)))) hbit
  case engSetht => exact same runEngSetht_ignores
  case engRdbit | engRot | engSync | engLatch | engPos => exact ⟨_, rfl, rfl⟩
  all_goals cases hp

/-! ## The head stays in its track (R45) -/

/-- `HeadInRange` reads the head, the lengths and `PRESENT` only. -/
theorem State.HeadInRange.congr {s t : State} (h : s.HeadInRange)
    (hp : t.disk.present = s.disk.present) (hl : t.disk.len = s.disk.len)
    (hh : t.engine.ht = s.engine.ht) (ho : t.engine.offset = s.engine.offset) : t.HeadInRange := by
  simpa only [State.HeadInRange, State.headLen, State.noTrack, State.lenOf, hp, hl, hh, ho] using h

/-- R362, R376: one bit further on. -/
theorem State.headInRange_nextOffset (s : State) :
    (s.setEngine { s.engine with offset := s.nextOffset }).HeadInRange := by
  cases hn : s.noTrack with
  | true => exact .inr ⟨hn, if_pos hn⟩
  | false =>
    left
    have hpos : 0 < s.headLen := ((s.noTrack_false_iff).1 hn).2
    have hlt : (s.headPos + 1) % s.headLen < s.headLen := Nat.mod_lt _ hpos
    have hoff : s.nextOffset = BitVec.ofNat 16 ((s.headPos + 1) % s.headLen) := by
      rw [State.nextOffset, hn]; rfl
    show s.nextOffset.toNat < s.headLen
    rw [hoff, BitVec.toNat_ofNat]
    exact (Nat.mod_le _ _).trans_lt hlt

/-- R378: the same angle on another halftrack. -/
theorem State.headInRange_moved (s : State) (h : BitVec 7) :
    (s.setEngine { s.engine with ht := h, offset := s.movedOffset h.toNat }).HeadInRange := by
  by_cases hp : s.disk.present = true
  · by_cases hl : 0 < s.lenOf h.toNat
    · left
      show (s.movedOffset h.toNat).toNat < s.lenOf h.toNat
      unfold State.movedOffset
      split
      · next hm =>
        rw [BitVec.toNat_ofNat]
        refine (Nat.mod_le _ _).trans_lt ((Nat.div_lt_iff_lt_mul hm.2.1).2 ?_)
        rw [Nat.mul_comm]
        exact Nat.mul_lt_mul_of_pos_left (Nat.mod_lt _ hm.2.1) hl
      · exact hl
    · right
      refine ⟨(State.noTrack_iff _).2 (.inr (Nat.eq_zero_of_not_pos hl)), if_neg ?_⟩
      exact fun hm => hl hm.2.2
  · right
    exact ⟨(State.noTrack_iff _).2 (.inl (Bool.eq_false_iff.2 hp)), if_neg fun hm => hp hm.1⟩

/-- R361: a tick moves the head in phase 0 only. -/
theorem State.headInRange_tick {s : State} (hs : s.HeadInRange) :
    (runEngTick s).HeadInRange := by
  have hframe := (runEngTick_effect s).frame
  simp only [State.engineFrame, Prod.mk.injEq] at hframe
  obtain ⟨-, -, -, -, -, -, -, -, -, hl, -, hp, -⟩ := hframe
  obtain ⟨hht, hoff⟩ := s.runPhase_head (s.ctrl.ea0.getLsbD 0) s.ctrl.ea1
  by_cases h0 : s.engine.phase = 0
  · rw [if_pos h0] at hoff
    exact s.headInRange_nextOffset.congr hp hl hht hoff
  · rw [if_neg h0] at hoff
    exact hs.congr hp hl hht hoff

/-- Settles O52: phase 0 and `ENG.ROT` move the head by one bit, `ENG.SETHT` to another halftrack, and no
other operation moves it. -/
theorem engineKeepsTheHeadInRange : Obligations.EngineKeepsTheHeadInRange := by
  intro s t i hp _ _ hs ht
  cases i
  case engTick => cases ht; exact State.headInRange_tick hs
  case engRdbit | engSync | engLatch | engPos => cases ht; exact hs
  case engWrbit =>
    cases ht
    have hframe := ((EngineEffect.refl s).writeHeadBit (s.ctrl.ea0.getLsbD 0)).frame
    simp only [State.engineFrame, Prod.mk.injEq] at hframe
    obtain ⟨-, -, -, -, -, -, -, -, -, hl, -, hp, -⟩ := hframe
    have hengine := s.writeHeadBit_engine (s.ctrl.ea0.getLsbD 0)
    exact hs.congr hp hl (congrArg Engine.ht hengine) (congrArg Engine.offset hengine)
  case engRot => cases ht; exact s.headInRange_nextOffset
  case engSetht =>
    cases ht
    show (runEngSetht s).HeadInRange
    unfold runEngSetht
    dsimp only
    split
    · exact s.headInRange_moved _
    · exact hs
  all_goals cases hp

/-! ## The statements over all operations and events -/

/-- Settles O56: the frame of either port's operations, and `RESET`'s. -/
theorem hostOperationsLeaveTheEngineAlone : Obligations.HostOperationsLeaveTheEngineAlone := by
  intro s t i ht
  cases hp : i.port with
  | controller =>
    have hframe := (exec_engineEffect i hp ht).frame
    simp only [State.engineFrame, Prod.mk.injEq] at hframe
    obtain ⟨-, -, -, -, -, -, -, -, -, -, -, -, hcfg, hinputs, hbus⟩ := hframe
    exact ⟨hcfg, hinputs, hbus, fun h => by cases h⟩
  | host =>
    by_cases hr : i = .reset
    · subst hr
      cases ht
      exact ⟨rfl, rfl, rfl, fun _ h => absurd rfl h⟩
    · obtain ⟨hframe, -, -⟩ := exec_hostEffect i hp hr ht
      simp only [State.hostFrame, Prod.mk.injEq] at hframe
      obtain ⟨hcfg, hinputs, hbus, hrest⟩ := hframe
      exact ⟨hcfg, hinputs, hbus, fun _ _ => hrest⟩

/-- Settles O57: each operation commutes with a change of the host's side, and keeps its frame. -/
theorem engineOperationsIgnoreTheHostPort : Obligations.EngineOperationsIgnoreTheHostPort := by
  intro s i h vs r x d e xl hp other
  obtain ⟨t, ht, hother⟩ := exec_ignores i hp s (other s)
  have hframe := (exec_engineEffect i hp ht).frame
  simp only [State.engineFrame, Prod.mk.injEq] at hframe
  obtain ⟨hhost, hviews, hreport, hxtrk, hdmem, herrtab, hxlen, hea0, hea1, hlen, hwp, hpresent, -⟩ :=
    hframe
  exact ⟨t, ht, hother, hhost, hviews, hreport, hxtrk, hdmem, herrtab, hxlen, hea0, hea1, hlen, hwp,
    hpresent⟩

/-- Settles O58: what each port's operations do to `MOD`. -/
theorem onlyTheWritePathSetsMod : Obligations.OnlyTheWritePathSetsMod := by
  intro s t i ht
  cases hp : i.port with
  | controller =>
    refine ⟨fun hs htm => ?_, fun hs htm => ?_⟩
    · by_contra hi
      have hreader : i ∉ [Instr.engTick, .engWrbit] := fun h => hi (List.mem_cons_of_mem _ h)
      rw [exec_disk_of_reader i hp hreader ht, hs] at htm
      cases htm
    · rw [(exec_engineEffect i hp ht).modified hs] at htm
      cases htm
  | host =>
    by_cases hr : i = .reset
    · subst hr
      cases ht
      exact ⟨fun _ h => (by cases h), fun _ _ => by decide⟩
    · obtain ⟨-, -, hchange⟩ := exec_hostEffect i hp hr ht
      cases hchange with
      | kept h => exact ⟨fun hs htm => by simp [h, hs] at htm, fun hs htm => by simp [h, hs] at htm⟩
      | cleared hi h =>
        refine ⟨fun _ htm => by simp [h] at htm, fun _ _ => ?_⟩
        exact List.mem_append_left [Instr.reset] hi
      | set hi h => exact ⟨fun _ _ => by simp [hi], fun _ htm => by simp [h] at htm⟩

/-- An operation of either port keeps the invariant. -/
theorem exec_inv (i : Instr) {s t : State} (hs : s.Inv) (ht : exec i s = .next t) : t.Inv := by
  cases hp : i.port with
  | controller => exact (exec_engineEffect i hp ht).inv hs
  | host =>
    by_cases hr : i = .reset
    · subst hr
      cases ht
      exact s.resetDbc_inv
    · obtain ⟨-, hinv, -⟩ := exec_hostEffect i hp hr ht
      exact hinv hs

/-- R22, R94: a byte written to `CMD`, legal or not. -/
theorem hostCommand_inv (b : Byte) {s t : State} (hs : s.Inv) (ht : hostCommand s b = .next t) :
    t.Inv := by
  unfold hostCommand at ht
  split at ht
  · exact exec_inv _ hs ht
  · cases ht
    split
    · exact hs.withHost _ rfl rfl
    · exact hs.withHost _ rfl rfl

/-- R51, R94: a byte written to `ECMD`, legal or not. -/
theorem ctrlCommand_inv (b : Byte) {s t : State} (hs : s.Inv) (ht : ctrlCommand s b = .next t) :
    t.Inv := by
  unfold ctrlCommand at ht
  split at ht
  · exact exec_inv _ hs ht
  · cases ht
    exact hs

/-- R20: an operand register of the host. -/
theorem State.Inv.writeA {s : State} (hs : s.Inv) (i : Fin 6) (v : Word) : (s.writeA i v).Inv := by
  fin_cases i <;> exact hs.withHost _ rfl rfl

/-- R51: an operand register of the controller. -/
theorem State.Inv.writeEA {s : State} (hs : s.Inv) (i : Fin 2) (v : Byte) : (s.writeEA i v).Inv := by
  fin_cases i <;> exact hs.withCtrl _

/-- R66: a byte the host writes is inside its memory, or not written. -/
theorem State.Inv.hostWriteByte {s : State} (hs : s.Inv) (sp : Space) (a : Nat) (b : Byte) :
    (s.hostWriteByte sp a b).Inv := by
  rcases Nat.lt_or_ge a sp.cap with ha | ha
  · rw [s.hostWriteByte_of_lt ha]
    exact hs.writeBytes ha
  · rw [s.hostWriteByte_of_le ha]
    exact hs

/-- R75: a length the host writes is legal, or not written. -/
theorem State.Inv.hostWriteLen {s : State} (hs : s.Inv) (h v : Nat) : (s.hostWriteLen h v).Inv := by
  unfold State.hostWriteLen
  split
  · next hl => exact hs.setLen h ((lenLegal_iff h v).1 hl).2
  · exact hs

/-- R75: a length the host writes is legal, or not written. -/
theorem State.Inv.hostWriteXlen {s : State} (hs : s.Inv) (v : Nat) : (s.hostWriteXlen v).Inv := by
  unfold State.hostWriteXlen
  split
  · next hl => exact hs.withXlen ((xlenLegal_iff v).1 hl)
  · exact hs

/-- R16: every event keeps the invariant. -/
theorem deliver_inv (e : Event) {s t : State} (hs : s.Inv) (ht : deliver e s = .next t) : t.Inv := by
  cases e with
  | hostCmd b => exact hostCommand_inv b hs ht
  | ctrlCmd b => exact ctrlCommand_inv b hs ht
  | hostWriteA i v => cases ht; exact hs.writeA i v
  | ctrlWriteEA i v => cases ht; exact hs.writeEA i v
  | memWrite sp a b => cases ht; exact hs.hostWriteByte sp a b
  | lenWrite h v => cases ht; exact hs.hostWriteLen h v
  | xlenWrite v => cases ht; exact hs.hostWriteXlen v
  | resetInput => cases ht; exact s.resetDbc_inv
  | hostReadReg | ctrlReadReg | memRead | lenRead | xlenRead | infoRead | logRead =>
    cases ht
    exact hs.setBusData _

/-- Settles O54: a step delivers the first pending event, and every event keeps the invariant. -/
theorem invariantIsKeptByEveryStep : Obligations.InvariantIsKeptByEveryStep := by
  intro s t hs ht
  cases hin : s.inputs with
  | nil =>
    rw [step_of_no_input hin] at ht
    cases ht
    exact hs
  | cons e rest =>
    rw [step_of_input hin] at ht
    exact deliver_inv e (hs.withInputs rest) ht

/-! ## The table of R50 -/

/-- R50, R304: the disk after a reset is unformatted. -/
theorem State.clearDisk_resetDbc (s : State) : s.resetDbc.clearDisk = s.resetDbc := rfl

theorem State.resetDbc_infoOf (s : State) {h : Nat} (hh : h < 85) :
    s.resetDbc.report.infoOf h = TrackInfo.zero := by
  rw [Report.infoOf, bankGet_of_lt _ _ _ hh]
  simp [State.resetDbc, State.reset]

theorem State.resetDbc_logOf (s : State) {h : Nat} (hh : h < 85) :
    s.resetDbc.report.logOf h = [] := by
  rw [Report.logOf, bankGet_of_lt _ _ _ hh]
  simp [State.resetDbc, State.reset]

theorem State.resetDbc_sectorOf (s : State) {h k : Nat} (hh : h < 85) (hk : k < 21) :
    s.resetDbc.report.sectorOf h k = SectorInfo.none := by
  rw [Report.sectorOf, s.resetDbc_infoOf hh, bankGet_of_lt _ _ _ hk]
  simp [TrackInfo.zero]

theorem State.resetDbc_lenOf (s : State) {h : Nat} (hh : h < 84) :
    s.resetDbc.lenOf h = nominalBits (h / 2) := by
  rw [← s.clearDisk_resetDbc, State.clearDisk_lenOf _ h hh]

/-- R301: the nominal lengths in numbers. -/
theorem nominalBits_zones (h : Nat) : nominalBits (h / 2) =
    if h < 34 then 61536 else if h < 48 then 57136 else if h < 60 then 53328 else 50000 := by
  simp only [nominalBits, nominalBytes]
  split_ifs <;> omega

/-- R50, R430: what every reset reaches. -/
theorem State.resetDbc_isAfterReset (s : State) : s.resetDbc.IsAfterReset where
  operands := ⟨rfl, rfl, rfl, rfl, rfl, rfl⟩
  results := ⟨rfl, rfl, rfl, rfl⟩
  ctrl := rfl
  status := rfl
  views v := by simp [State.resetDbc, State.reset, View.reset]
  flags := ⟨rfl, rfl, rfl⟩
  tracks h i _ := by rw [← s.clearDisk_resetDbc, State.clearDisk_byteAt]
  lens h hh := ⟨s.resetDbc_lenOf hh, (s.resetDbc_lenOf hh).trans (nominalBits_zones h)⟩
  xlen := rfl
  info h hh :=
    ⟨congrArg TrackInfo.len (s.resetDbc_infoOf hh), fun _ hk => s.resetDbc_sectorOf hh hk⟩
  log h hh := s.resetDbc_logOf hh
  engine := ⟨rfl, rfl, rfl, rfl, rfl, rfl, rfl, rfl, rfl⟩

/-- Settles O1: `RESET` and the reset input are one and the same update. -/
theorem resetTakesTheTabledValues : Obligations.ResetTakesTheTabledValues :=
  fun s => ⟨s.resetDbc, rfl, rfl, s.resetDbc_isAfterReset⟩

end Sys2Proof.Machine
end

section
/-! PROOFS. The memory statements: the order of the checks of the operations on the bits of a view, and the
runs of bytes outside `DMEM`. -/

namespace Sys2Proof.Machine

/-! ## The checks of an operation on the bits of a view (R405) -/

/-- R405: `t` is what an operation with the operand check `legal` leaves of `s` when one of its first
checks fails: `BAD_OPERAND` when the operands are not legal, else the error of the view. -/
structure ChecksView (s : State) (legal : Prop) (t : State) : Prop where
  /-- R405 item 3. -/
  operands : ¬legal → t = s.raiseFatal .badOperand
  /-- R405 items 4 and 5. -/
  view : legal → ∀ e, s.viewError s.view = some e → t = s.fail e

/-- The three outcomes that the case lemmas of the shared shapes begin with. -/
theorem ChecksView.of_cases {s t : State} {legal : Prop}
    (h : (¬legal ∧ t = s.raiseFatal .badOperand) ∨
      (legal ∧ ∃ e, s.viewError s.view = some e ∧ t = s.fail e) ∨ (legal ∧ s.Usable s.view)) :
    ChecksView s legal t := by
  rw [← State.viewError_eq_none] at h
  rcases h with ⟨hl, ht⟩ | ⟨hl, e, he, ht⟩ | ⟨hl, hu⟩
  · exact ⟨fun _ => ht, fun h => absurd h hl⟩
  · exact ⟨fun h => absurd hl h, fun _ e' he' => by rwa [← Option.some.inj (he.symm.trans he')]⟩
  · exact ⟨fun h => absurd hl h, fun _ e he => by rw [hu] at he; cases he⟩

/-- R69: a view on a halftrack cannot be used without a disk, empty or not. -/
theorem State.viewError_of_no_disk {s : State} {v : View} (hv : ∃ h, v.buf = .trk h)
    (hd : s.disk.present = false) : s.viewError v = some .noDisk := by
  obtain ⟨h, hbuf⟩ := hv
  simp [State.viewError, hbuf, hd]

/-- R152: an empty view cannot be used. -/
theorem State.viewError_of_empty {s : State} {v : View}
    (hd : ∀ h, v.buf = .trk h → s.disk.present = true) (hz : v.size = 0) :
    s.viewError v = some .emptyView := by
  cases hbuf : v.buf with
  | trk h => simp [State.viewError, hbuf, hd h hbuf, hz]
  | xtrk | dmem => simp [State.viewError, hbuf, hz]

/-- R405: what the checks make of a host-port operation on a running machine. -/
theorem ChecksView.hostOp_outcomes {s : State} (hr : s.Running) {legal : Prop} {run : State → State}
    (h : ChecksView s legal (run s)) :
    (¬legal → hostOp s run = .next (s.faulted .badOperand)) ∧
    (legal → (∃ h, s.view.buf = .trk h) → s.disk.present = false →
      hostOp s run = .next (s.failed .noDisk)) ∧
    (legal → (∀ h, s.view.buf = .trk h → s.disk.present = true) → s.view.size = 0 →
      hostOp s run = .next (s.failed .emptyView)) := by
  have fails {e : ErrCode} (hl : legal) (he : s.viewError s.view = some e) :
      hostOp s run = .next (s.failed e) := by
    rw [hostOp_running hr, h.view hl e he, State.fail_eq]
  exact ⟨fun hl => hostOp_badOperand hr (h.operands hl),
    fun hl hv hd => fails hl (State.viewError_of_no_disk hv hd),
    fun hl hd hz => fails hl (State.viewError_of_empty hd hz)⟩

/-! ## Operand checks as propositions (R92) -/

theorem State.iterOk_iff (s : State) : s.iterOk = true ↔ LegalIter s.host.a1 := iterLegal_iff _

/-- R147, R148: the operand check of `BV.GETBITS` and `BV.SETBITS`. -/
theorem State.bitCountOk_iff (s : State) :
    (s.iterOk && decide (field s.host.a2 0 7 ≤ Config.maxPatternBits)) = true ↔
      LegalIter s.host.a1 ∧ field s.host.a2 0 7 ≤ 64 := by
  rw [Bool.and_eq_true, s.iterOk_iff, decide_eq_true_iff, Config.maxPatternBits]

/-- R149: the operand check of `BV.FWD`. -/
theorem State.patternOk_iff (s : State) :
    (s.iterOk && decide (1 ≤ field s.host.a3 0 7 ∧ field s.host.a3 0 7 ≤ Config.maxPatternBits)) =
        true ↔
      LegalIter s.host.a1 ∧ 1 ≤ field s.host.a3 0 7 ∧ field s.host.a3 0 7 ≤ 64 := by
  rw [Bool.and_eq_true, s.iterOk_iff, decide_eq_true_iff, Config.maxPatternBits]

theorem c64TrackOk_iff (t : Nat) : c64TrackOk t = true ↔ t < 42 := decide_eq_true_iff

theorem mfmTrackOk_iff (t : Nat) : mfmTrackOk t = true ↔ t < 160 := decide_eq_true_iff

theorem State.c64SectorOk_iff (s : State) :
    s.c64SectorOk = true ↔ s.opT < 42 ∧ s.opS < sectorCount s.opT := by
  rw [State.c64SectorOk, Bool.and_eq_true, c64TrackOk_iff, decide_eq_true_iff]

theorem State.amiSectorOk_iff (s : State) :
    s.amiSectorOk = true ↔ s.opT < 160 ∧ s.opS < 11 := by
  rw [State.amiSectorOk, Bool.and_eq_true, mfmTrackOk_iff, decide_eq_true_iff, Config.amigaSectors]

theorem State.dosSectorOk_iff (s : State) :
    s.dosSectorOk = true ↔ s.opT < 160 ∧ s.opS < 9 := by
  rw [State.dosSectorOk, Bool.and_eq_true, mfmTrackOk_iff, decide_eq_true_iff, Config.dosSectors]

/-! ## The shared shapes check in this order -/

section shapes
variable (s : State) {p : Prop} {legal : Bool} (hl : legal = true ↔ p)
include hl

theorem readThroughView_checksView (value : BitStream → Word) :
    ChecksView s p (readThroughView s legal value) := by
  rw [← hl]
  refine .of_cases ?_
  rw [Bool.not_eq_true]
  exact (readThroughView_cases s legal value).imp_right (.imp_right fun ⟨h, hu, _⟩ => ⟨h, hu⟩)

theorem writeThroughView_checksView (i : Int) (bits : List Bool) :
    ChecksView s p (writeThroughView s legal i bits) := by
  rw [← hl]
  refine .of_cases ?_
  rw [Bool.not_eq_true]
  exact (writeThroughView_cases s legal i bits).imp_right (.imp_right fun ⟨h, hu, _⟩ => ⟨h, hu⟩)

theorem decodeTrackOp_checksView (n size : Nat)
    (decode : BitStream → Nat → Except ErrCode Decoded) :
    ChecksView s (LegalIter s.host.a1 ∧ p ∧ InDmem s.opAddr (size * n))
      (decodeTrackOp s legal n size decode) := by
  rw [← hl]
  exact .of_cases ((decodeTrackOp_cases s legal n size decode).imp_right
    (.imp_right fun ⟨h, hu, _⟩ => ⟨h, hu⟩))

end shapes

section sectors
variable (s : State) {p q : Prop} {legal : Bool} (hl : legal = true ↔ p ∧ q)
include hl

theorem decodeSectorOp_checksView (size : Nat) (decode : BitStream → Except ErrCode Decoded)
    (results : State → Decoded → State) :
    ChecksView s (LegalIter s.host.a1 ∧ p ∧ q ∧ InDmem s.opAddr size)
      (decodeSectorOp s legal size decode results) := by
  rw [← and_assoc (a := p), ← hl]
  refine .of_cases ((decodeSectorOp_cases s legal size decode results).imp_right (.imp_right ?_))
  rintro (⟨h, hu, _⟩ | ⟨h, hu, _⟩) <;> exact ⟨h, hu⟩

theorem encodeSectorOp_checksView (payload size : Nat) (bits : List Byte → List Bool) :
    ChecksView s (LegalIter s.host.a1 ∧ p ∧ q ∧ InDmem s.opAddr payload)
      (encodeSectorOp s legal payload size bits) := by
  rw [← and_assoc (a := p), ← hl]
  refine .of_cases ((encodeSectorOp_cases s legal payload size bits).imp_right (.imp_right ?_))
  rintro (⟨h, hu, _⟩ | ⟨h, hu, _⟩) <;> exact ⟨h, hu⟩

end sectors

theorem seekOp_checksView (s : State) (seek : BitStream → Option SectorRange) :
    ChecksView s (LegalIter s.host.a1) (seekOp s seek) := by
  refine .of_cases ((seekOp_cases s seek).imp_right (.imp_right ?_))
  rintro (⟨h, hu, _⟩ | ⟨h, hu, _⟩) <;> exact ⟨h, hu⟩

theorem seekAllOp_checksView (s : State) (n : Nat) (seek : BitStream → List SeekEntry) :
    ChecksView s (LegalIter s.host.a1 ∧ InDmem s.opAddr (24 * n)) (seekAllOp s n seek) :=
  .of_cases ((seekAllOp_cases s n seek).imp_right (.imp_right fun ⟨h, hu, _⟩ => ⟨h, hu⟩))

theorem runBvFwd_checksView (s : State) :
    ChecksView s
      (LegalIter s.host.a1 ∧ 1 ≤ field s.host.a3 0 7 ∧ field s.host.a3 0 7 ≤ 64) (runBvFwd s) := by
  rw [← s.patternOk_iff]
  exact ⟨fun h => if_neg h, fun h e he => by simp only [runBvFwd, if_pos h, he]⟩

theorem runGcrEnc_checksView (s : State) : ChecksView s (LegalIter s.host.a1) (runGcrEnc s) where
  operands := runGcrEnc_of_far
  view h e he := by simp only [runGcrEnc, (s.iterOk_iff).2 h, if_true, he]

theorem runGcrDec_checksView (s : State) : ChecksView s (LegalIter s.host.a1) (runGcrDec s) where
  operands := runGcrDec_of_far
  view h e he := by simp only [runGcrDec, (s.iterOk_iff).2 h, if_true, he]

/-- Settles O9: each of the 26 operations is one of the shared shapes, and each shape checks in the order
of R405. -/
theorem viewChecksComeInOrder : Obligations.ViewChecksComeInOrder := by
  intro s hr
  simp only [State.viewOperations, List.forall_mem_cons, List.not_mem_nil, false_implies,
    implies_true, and_true]
  refine ⟨?bvGet, ?bvSet, ?bvGetbyte, ?bvSetbyte, ?byGet, ?bySet, ?bvGetbits, ?bvSetbits, ?bvFwd,
    ?gcrEnc, ?gcrDec, ?c64Encsec, ?amiEncsec, ?dosEncsec, ?c64Decsec, ?amiDecsec, ?dosDecsec,
    ?c64Dectrk, ?amiDectrk, ?dosDectrk, ?c64Seek, ?amiSeek, ?dosSeek, ?c64Seekall, ?amiSeekall,
    ?dosSeekall⟩ <;> apply ChecksView.hostOp_outcomes hr
  case bvGet | bvGetbyte | byGet => exact readThroughView_checksView s s.iterOk_iff _
  case bvSet | bvSetbyte | bySet => exact writeThroughView_checksView s s.iterOk_iff _ _
  case bvGetbits => exact readThroughView_checksView s s.bitCountOk_iff _
  case bvSetbits => exact writeThroughView_checksView s s.bitCountOk_iff _ _
  case bvFwd => exact runBvFwd_checksView s
  case gcrEnc => exact runGcrEnc_checksView s
  case gcrDec => exact runGcrDec_checksView s
  case c64Encsec => exact encodeSectorOp_checksView s s.c64SectorOk_iff _ _ _
  case amiEncsec => exact encodeSectorOp_checksView s s.amiSectorOk_iff _ _ _
  case dosEncsec => exact encodeSectorOp_checksView s s.dosSectorOk_iff _ _ _
  case c64Decsec => exact decodeSectorOp_checksView s s.c64SectorOk_iff _ _ _
  case amiDecsec => exact decodeSectorOp_checksView s s.amiSectorOk_iff _ _ _
  case dosDecsec => exact decodeSectorOp_checksView s s.dosSectorOk_iff _ _ _
  case c64Dectrk => exact decodeTrackOp_checksView s (c64TrackOk_iff _) _ _ _
  case amiDectrk | dosDectrk => exact decodeTrackOp_checksView s (mfmTrackOk_iff _) _ _ _
  case c64Seek | amiSeek | dosSeek => exact seekOp_checksView s _
  case c64Seekall | amiSeekall | dosSeekall => exact seekAllOp_checksView s _ _

/-! ## Runs of bytes outside `DMEM` (R66) -/

theorem convertRun_of_not_inDmem {s : State} {n m : Nat}
    (h : ¬(InDmem (field s.host.a0 0 32) n ∧ InDmem (field s.host.a1 0 32) m))
    (f : List Byte → List Byte) : convertRun s n m f = s.raiseFatal .badOperand := by
  simpa only [h, not_false_eq_true, true_and, false_and, or_false] using convertRun_cases s n m f

theorem runMfmClkbuf_of_not_inDmem {s : State}
    (h : ¬InDmem (field s.host.a0 0 32) (field s.host.a1 0 32)) :
    runMfmClkbuf s = s.raiseFatal .badOperand := by
  simp only [runMfmClkbuf, dmemOk_iff, if_neg h]

/-- Settles O23: the conversions check both runs, and `MFM.CLKBUF` its one run, before they write. -/
theorem dmemRunOutOfBoundsIsFatal : Obligations.DmemRunOutOfBoundsIsFatal := by
  intro s hr
  refine ⟨fun h => ⟨?mfmEnc, ?mfmOeenc⟩, fun h => ⟨?mfmDec, ?mfmOedec⟩, fun h => ?mfmClkbuf⟩ <;>
    apply hostOp_badOperand hr
  case mfmEnc | mfmOeenc | mfmDec | mfmOedec => exact convertRun_of_not_inDmem h _
  case mfmClkbuf => exact runMfmClkbuf_of_not_inDmem h

end Sys2Proof.Machine
end

section
/-! PROOFS. The encoding statements: decoding and encoding agree, what a byte that names no operation does,
and `NOP`. -/

namespace Sys2Proof

/-! ## Decoding against encoding (R90, R91, R93) -/

theorem wellFormed_iff (p : Port) (i : Instr) : wellFormed p i = true ↔ i.port = p := beq_iff_eq

theorem decode_nil (p : Port) : decode p [] = .error .noByte := rfl

/-- R90: an operation is encoded as its command byte alone. -/
theorem encode_append (i : Instr) (rest : List Byte) : encode i ++ rest = encodeByte i :: rest := rfl

theorem encode_eq_singleton_iff (i : Instr) (b : Byte) : encode i = [b] ↔ encodeByte i = b :=
  List.singleton_inj

/-- R91, R93: the first byte alone decides which operation a byte string decodes to. -/
theorem decode_cons_eq_ok_iff (p : Port) (b : Byte) (tail : List Byte) (i : Instr) (rest : List Byte) :
    decode p (b :: tail) = .ok (i, rest) ↔ (b = encodeByte i ∧ tail = rest) ∧ i.port = p := by
  constructor
  · intro h
    rcases decode_cons_cases p b tail with ⟨j, rfl, hport, hd⟩ | ⟨_, hd⟩ <;> rw [hd] at h <;> cases h
    exact ⟨⟨rfl, rfl⟩, hport⟩
  · rintro ⟨⟨rfl, rfl⟩, rfl⟩
    exact decode_encodeByte i tail

/-- R94: a byte that names no operation of the port is illegal there. -/
theorem decode_of_no_operation {p : Port} {b : Byte} (h : ∀ i, encodeByte i = b → i.port ≠ p)
    (rest : List Byte) : decode p (b :: rest) = .error (.illegal p b) := by
  rcases decode_cons_cases p b rest with ⟨i, hi, hport, _⟩ | ⟨_, hd⟩
  · exact absurd hport (h i hi)
  · exact hd

/-- R91: an operation's byte written to the other port. -/
theorem decode_encodeByte_of_port_ne {p : Port} {i : Instr} (hp : i.port ≠ p) (rest : List Byte) :
    decode p (encodeByte i :: rest) = .error (.illegal p (encodeByte i)) := by
  obtain ⟨_, hdecode⟩ := Laws.DecodesBack.of_encode i
  obtain ⟨_, hother⟩ := hdecode rest
  exact hother p hp.symm

/-- Settles O7: the opcode map is a bijection, so the first byte and the port settle the decode. -/
theorem decodeAndEncodeAgree : Obligations.DecodeAndEncodeAgree := by
  refine ⟨fun p i bs rest => ?agree, fun p b rest h => ?illegal⟩
  case agree =>
    rw [encode_append, wellFormed_iff]
    cases bs with
    | nil => simp [decode_nil]
    | cons b tail => rw [decode_cons_eq_ok_iff, List.cons.injEq]
  case illegal =>
    exact decode_of_no_operation (fun i hi => h i ((encode_eq_singleton_iff i b).2 hi)) rest

/-- Settles O6: the ten rows are encodings, and the two refusals are encodings on the other port. -/
theorem opcodeMapRows : Obligations.OpcodeMapRows :=
  ⟨decode_encodeByte .nop [], decode_encodeByte .bvGetbits [], decode_encodeByte .gcrEnc [],
    decode_encodeByte .mfmClkbuf [], decode_encodeByte .c64Enctrk [], decode_encodeByte .amiDecsec [],
    decode_encodeByte .dosSeekall [], decode_encodeByte .dskInsert [], decode_encodeByte .anaXrun [],
    decode_encodeByte .engSetht [], decode_encodeByte_of_port_ne (i := .engSetht) (by decide) [],
    decode_encodeByte_of_port_ne (i := .nop) (by decide) []⟩

/-! ## The bytes between the rows of the opcode map (R93) -/

/-- R93: the bytes outside the rows of units 0 to 8. -/
abbrev OutsideHostRows (b : Byte) : Prop :=
  0x02 ≤ b ∧ b ≤ 0x0F ∨ 0x1C ≤ b ∧ b ≤ 0x1F ∨ 0x24 ≤ b ∧ b ≤ 0x2F ∨ 0x36 ≤ b ∧ b ≤ 0x3F ∨
    0x46 ≤ b ∧ b ≤ 0x4F ∨ 0x56 ≤ b ∧ b ≤ 0x5F ∨ 0x66 ≤ b ∧ b ≤ 0x6F ∨ 0x7C ≤ b ∧ b ≤ 0x7F ∨
    0x84 ≤ b ∧ b ≤ 0x8F ∨ 0x90 ≤ b

/-- R93: the bytes outside the rows of unit 9. -/
abbrev OutsideControllerRows (b : Byte) : Prop := b < 0x90 ∨ 0x97 < b

theorem port_ne_host_of_outsideHostRows {i : Instr} (h : OutsideHostRows (encodeByte i)) :
    i.port ≠ .host := by
  cases i
  case engTick | engRdbit | engWrbit | engRot | engSync | engLatch | engSetht | engPos => decide
  all_goals exact absurd h (by decide)

theorem port_ne_controller_of_outsideControllerRows {i : Instr}
    (h : OutsideControllerRows (encodeByte i)) : i.port ≠ .controller := by
  cases i
  case engTick | engRdbit | engWrbit | engRot | engSync | engLatch | engSetht | engPos =>
    exact absurd h (by decide)
  all_goals decide

end Sys2Proof

namespace Sys2Proof.Machine

/-! ## What an illegal byte does (R94) -/

/-- R94, R404: an illegal byte written to `CMD`. -/
theorem deliver_hostCmd_of_illegal {b : Byte} {e : DecodeError} (h : decode .host [b] = .error e)
    (s : State) : deliver (.hostCmd b) s =
      .next (if s.host.status.fault then s.failed .faulted else s.failed .illegalCmd) := by
  simp only [deliver, hostCommand, h, State.refuseFaulted_eq, State.illegalCommand_eq]

/-- R94: an illegal byte written to `ECMD`. -/
theorem deliver_ctrlCmd_of_illegal {b : Byte} {e : DecodeError}
    (h : decode .controller [b] = .error e) (s : State) : deliver (.ctrlCmd b) s = .next s := by
  simp only [deliver, ctrlCommand, h]

/-- R94: every byte written to `CMD` has an effect. -/
theorem deliver_hostCmd_next (b : Byte) (s : State) : ∃ t, deliver (.hostCmd b) s = .next t := by
  rcases decode_cons_cases .host b [] with ⟨i, _, _, hd⟩ | ⟨_, hd⟩
  · rw [deliver_hostCmd_of_decode hd]
    exact exec_next i s
  · exact ⟨_, deliver_hostCmd_of_illegal hd s⟩

/-- R94: every byte written to `ECMD` has an effect. -/
theorem deliver_ctrlCmd_next (b : Byte) (s : State) : ∃ t, deliver (.ctrlCmd b) s = .next t := by
  rcases decode_cons_cases .controller b [] with ⟨i, _, _, hd⟩ | ⟨_, hd⟩
  · rw [deliver_ctrlCmd_of_decode hd]
    exact exec_next i s
  · exact ⟨_, deliver_ctrlCmd_of_illegal hd s⟩

/-- Settles O4: a byte outside the rows of its port does not decode there. -/
theorem illegalBytesOnlyReport : Obligations.IllegalBytesOnlyReport := by
  refine ⟨fun s b => ⟨deliver_hostCmd_next b s, deliver_ctrlCmd_next b s⟩,
    fun s b hr (hb : OutsideHostRows b) => ?host, fun s b (hb : OutsideControllerRows b) => ?controller⟩
  case host =>
    have hd : decode .host [b] = .error (.illegal .host b) :=
      decode_of_no_operation (fun _ hi => port_ne_host_of_outsideHostRows (hi.symm ▸ hb)) []
    rw [deliver_hostCmd_of_illegal hd, hr]
    rfl
  case controller =>
    exact deliver_ctrlCmd_of_illegal (decode_of_no_operation
      (fun _ hi => port_ne_controller_of_outsideControllerRows (hi.symm ▸ hb)) []) s

/-! ## `NOP` (R95) -/

theorem exec_nop (s : State) : exec .nop s = hostOp s State.ok := rfl

/-- Settles O2: `NOP` is a host-port operation whose run is `OK` alone. -/
theorem nopOnlyReports : Obligations.NopOnlyReports := by
  intro s
  rw [exec_nop]
  refine ⟨fun hr => ?running, fun hf => ?faulted⟩
  case running => rw [hostOp_running hr, State.ok_eq]
  case faulted => rw [hostOp_faulted hf, State.refuseFaulted_eq]

end Sys2Proof.Machine
end

section
/-! PROOFS. The BitView statements: cyclic reads and writes, what the operations of the unit answer and
store, and which operands they refuse. -/

namespace Sys2Proof.Machine

/-! ## The bits of a number (R134, R136) -/

theorem isNumber_mod_two_pow (x c : Nat) :
    IsNumber (x % 2 ^ c) c (fun k => x.testBit (c - 1 - k)) := by
  refine ⟨Nat.mod_lt _ (Nat.two_pow_pos c), fun k hk => ?_⟩
  have hlt : c - 1 - k < c := by omega
  simp [Nat.testBit_mod_two_pow, hlt]

/-- R134: a read gives a value modulo `2^n` exactly when its bits are the value's `n` low bits. -/
theorem BitStream.getBits_eq_mod_iff (b : BitStream) (i : Int) (n x : Nat) :
    b.getBits i n = x % 2 ^ n ↔ ∀ j < n, b.get (i + (j : Nat)) = x.testBit (n - 1 - j) := by
  have hx := isNumber_mod_two_pow x n
  constructor
  · intro h j hj
    rw [← b.testBit_getBits i n j hj, h, hx.2 j hj]
  · exact (b.isNumber_getBits i n).unique hx

theorem BitStream.toNat_getByte (b : BitStream) (i : Int) : (b.getByte i).toNat = b.getBits i 8 :=
  Nat.mod_eq_of_lt (b.getBits_lt i 8)

@[simp] theorem length_lowBits (x c : Nat) : (lowBits x c).length = c := by
  simp [lowBits]

@[simp] theorem getElem_lowBits (x c k : Nat) (h : k < (lowBits x c).length) :
    (lowBits x c)[k] = x.testBit (c - 1 - k) := by
  simp [lowBits]

/-- The field at bit 0 of a register has the register's low bits. -/
theorem msbBits_field (w : Word) (c : Nat) : msbBits (field w 0 c) c = lowBits w.toNat c := by
  rw [msbBits_eq_lowBits]
  refine List.ext_getElem (by simp) fun k hk _ => ?_
  have hlt : c - 1 - k < c := by rw [length_lowBits] at hk; omega
  simp [field, Nat.testBit_mod_two_pow, hlt]

/-! ## Cyclic reads and writes (R153) -/

/-- R153(a). -/
theorem BitStream.get_add_mul_size (b : BitStream) (i k : Int) : b.get (i + k * b.size) = b.get i := by
  rw [BitStream.get, BitStream.get, Int.add_mul_emod_self_right]

/-- R153(b). -/
theorem BitStream.getBits_add (b : BitStream) (i : Int) (c d : Nat) :
    b.getBits i (c + d) = b.getBits i c * 2 ^ d + b.getBits (i + c) d := by
  induction d with
  | zero => simp [BitStream.getBits]
  | succ d ih =>
    rw [← Nat.add_assoc, BitStream.getBits, BitStream.getBits, ih, Nat.cast_add, ← Int.add_assoc,
      Nat.pow_succ]
    ring

/-- R62: fewer than `size` places apart, two indices are different bits of the buffer. -/
theorem View.abs_ne {v : View} {i : Int} {j k : Nat} (hjk : j < k) (hk : k < j + v.size) :
    v.abs (i + k) ≠ v.abs (i + j) := by
  have hpos : (0 : Int) < v.size := by omega
  intro h
  have hj := Int.emod_nonneg (i + j) hpos.ne'
  have hk' := Int.emod_nonneg (i + k) hpos.ne'
  have hmod : (i + k) % (v.size : Int) = (i + j) % v.size := by
    simp only [View.abs] at h
    omega
  have hdvd : (v.size : Int) ∣ k - j := by
    simpa using Int.ModEq.dvd hmod.symm
  have hle := Int.le_of_dvd (by omega) hdvd
  omega

/-- R153(c): no bit of a run that fits its view is overwritten by a later one. -/
theorem State.getBits_setBits (s : State) (v : View) (i : Int) {c : Nat} (x : Nat) (hc : c ≤ v.size) :
    ((s.setBits v i (msbBits x c)).stream v).getBits i c = x % 2 ^ c := by
  rw [msbBits_eq_lowBits, BitStream.getBits_eq_mod_iff]
  intro k hk
  obtain ⟨hwritten, _, _⟩ := s.wroteBits_setBits v i (lowBits x c)
  rw [State.get_stream, hwritten k (by simpa using hk) fun k' hkk' hk' => ?_, getElem_lowBits]
  rw [length_lowBits] at hk'
  exact View.abs_ne hkk' (by omega)

/-- Settles O16, one lemma per part; the premises on `c + d` and on an empty view are not needed. -/
theorem cyclicReadsAndWrites : Obligations.CyclicReadsAndWrites :=
  ⟨BitStream.get_add_mul_size, fun b i c d _ => b.getBits_add i c d,
    fun s v i _ x _ hc _ => s.getBits_setBits v i x hc⟩

/-! ## The operations of the unit on a running machine (R140-R151) -/

section running
variable {s : State} (hr : s.Running)
include hr

theorem exec_bvDef : exec .bvDef s = .next (runBvDef s) := by
  rw [exec, execBvDef, hostOp_running hr]

theorem exec_bvSlice : exec .bvSlice s = .next (runBvSlice s) := by
  rw [exec, execBvSlice, hostOp_running hr]

theorem exec_bvSize :
    exec .bvSize s =
      .next (s.answered false false (some (BitVec.ofNat 64 s.view.size)) none none none) := by
  rw [exec, execBvSize, hostOp_running hr]
  rfl

theorem exec_bvGet :
    exec .bvGet s =
      .next (readThroughView s s.iterOk fun b => wordOfNat (flagBit (b.get s.opIter))) := by
  rw [exec, execBvGet, hostOp_running hr]

theorem exec_bvGetbyte :
    exec .bvGetbyte s =
      .next (readThroughView s s.iterOk fun b => wordOfNat (b.getByte s.opIter).toNat) := by
  rw [exec, execBvGetbyte, hostOp_running hr]

theorem exec_byGet :
    exec .byGet s =
      .next (readThroughView s s.iterOk fun b => wordOfNat (b.getByte (8 * s.opIter)).toNat) := by
  rw [exec, execByGet, hostOp_running hr]

theorem exec_bvGetbits :
    exec .bvGetbits s =
      .next (readThroughView s (s.iterOk && decide (field s.host.a2 0 7 ≤ Config.maxPatternBits))
        fun b => wordOfNat (b.getBits s.opIter (field s.host.a2 0 7))) := by
  rw [exec, execBvGetbits, hostOp_running hr]

theorem exec_bvSet :
    exec .bvSet s = .next (writeThroughView s s.iterOk s.opIter [s.host.a2.getLsbD 0]) := by
  rw [exec, execBvSet, hostOp_running hr, flag]

theorem exec_bvSetbyte :
    exec .bvSetbyte s =
      .next (writeThroughView s s.iterOk s.opIter (lowBits s.host.a2.toNat 8)) := by
  rw [exec, execBvSetbyte, hostOp_running hr, ← msbBits_field]

theorem exec_bySet :
    exec .bySet s =
      .next (writeThroughView s s.iterOk (8 * s.opIter) (lowBits s.host.a2.toNat 8)) := by
  rw [exec, execBySet, hostOp_running hr, ← msbBits_field]

theorem exec_bvSetbits :
    exec .bvSetbits s =
      .next (writeThroughView s (s.iterOk && decide (field s.host.a2 0 7 ≤ Config.maxPatternBits))
        s.opIter (lowBits s.host.a3.toNat (field s.host.a2 0 7))) := by
  rw [exec, execBvSetbits, hostOp_running hr, ← msbBits_eq_lowBits]

theorem exec_bvFwd : exec .bvFwd s = .next (runBvFwd s) := by
  rw [exec, execBvFwd, hostOp_running hr]

end running

/-! ## Reads and writes through a usable view -/

theorem flagBit_eq_toNat (b : Bool) : flagBit b = b.toNat := by
  cases b <;> rfl

section usable
variable {s : State} (hu : s.Usable s.view) {legal : Bool} (hl : legal = true)
include hu hl

/-- R400: a reading operation whose checks pass answers in `R0`. -/
theorem readThroughView_of_usable (value : BitStream → Word) :
    readThroughView s legal value =
      s.answered false false (some (value s.viewStream)) none none none := by
  simp only [readThroughView, hl, if_true, (s.viewError_eq_none s.view).2 hu]
  rfl

theorem writeThroughView_of_usable (i : Int) (bits : List Bool) :
    writeThroughView s legal i bits = (s.setBits s.view i bits).ok := by
  simp only [writeThroughView, hl, if_true, (s.viewError_eq_none s.view).2 hu]

/-- R136, R400: a writing operation whose checks pass stores its bits, and nothing else but `STATUS`
changes. -/
theorem writeThroughView_stores (i : Int) (bits : List Bool) :
    WroteBits s (writeThroughView s legal i bits) s.view i bits ∧
      (writeThroughView s legal i bits).withMemoriesOf s =
        s.answered false false none none none none := by
  rw [writeThroughView_of_usable hu hl]
  exact ⟨s.wroteBits_setBits s.view i bits,
    congrArg State.ok (s.withMemoriesOf_setBits s.view i bits)⟩

end usable

/-- Settles O13: a bit of the view's stream is the buffer's bit at `Abs(V, i)`. -/
theorem viewReadsReturnTheBits : Obligations.ViewReadsReturnTheBits := by
  intro s hr hi hu bit i answers
  have hit := s.iterOk_iff.2 hi
  have isNumber := s.viewStream.isNumber_getBits
  refine ⟨?bvGet, ⟨_, isNumber i 8, ?bvGetbyte⟩, ⟨_, isNumber (8 * i) 8, ?byGet⟩,
    fun hc => ⟨_, isNumber i _, ?bvGetbits⟩⟩
  case bvGet =>
    rw [exec_bvGet hr, readThroughView_of_usable hu hit, flagBit_eq_toNat]
    rfl
  case bvGetbyte =>
    rw [exec_bvGetbyte hr, readThroughView_of_usable hu hit, BitStream.toNat_getByte]
    rfl
  case byGet =>
    rw [exec_byGet hr, readThroughView_of_usable hu hit, BitStream.toNat_getByte]
    rfl
  case bvGetbits =>
    rw [exec_bvGetbits hr, readThroughView_of_usable hu (s.bitCountOk_iff.2 ⟨hi, hc⟩)]
    rfl

/-- Settles O14: each of the four operations is one run of bits written through the view. -/
theorem viewWritesStoreTheBits : Obligations.ViewWritesStoreTheBits := by
  intro s hr hi hu i stores
  have hit := s.iterOk_iff.2 hi
  exact ⟨⟨_, exec_bvSet hr, writeThroughView_stores hu hit _ _⟩,
    ⟨_, exec_bvSetbyte hr, writeThroughView_stores hu hit _ _⟩,
    ⟨_, exec_bySet hr, writeThroughView_stores hu hit _ _⟩,
    fun hc => ⟨_, exec_bvSetbits hr,
      writeThroughView_stores hu (s.bitCountOk_iff.2 ⟨hi, hc⟩) _ _⟩⟩

/-! ## The search for a pattern (R138) -/

/-- R138: the first start position that matches is the one found. -/
theorem BitStream.forward_of_first_match {b : BitStream} {it : Int} {pat n k : Nat} (hk : k < b.size)
    (hmatch : b.getBits (it + k) n = pat % 2 ^ n)
    (hfirst : ∀ j < k, b.getBits (it + (j : Nat)) n ≠ pat % 2 ^ n) :
    b.forward it pat n = some (it + k + n) := by
  cases hs : b.scan it (pat % 2 ^ n) n b.size 0 with
  | none => exact absurd hmatch (b.scan_none it _ n _ 0 hs k (Nat.zero_le k) (by omega))
  | some j =>
    obtain ⟨_, _, hj, hbefore⟩ := b.scan_some it _ n _ 0 j hs
    have hjk : j = k := by
      rcases Nat.lt_trichotomy j k with hlt | heq | hgt
      · exact absurd hj (hfirst j hlt)
      · exact heq
      · exact absurd hmatch (hbefore k (Nat.zero_le k) hgt)
    simp only [BitStream.forward, hs, hjk]
    rfl

/-- R138: where no start position matches nothing is found. -/
theorem BitStream.forward_of_no_match {b : BitStream} {it : Int} {pat n : Nat}
    (hnone : ∀ k < b.size, b.getBits (it + (k : Nat)) n ≠ pat % 2 ^ n) :
    b.forward it pat n = none := by
  cases hs : b.scan it (pat % 2 ^ n) n b.size 0 with
  | none =>
    simp only [BitStream.forward, hs]
    rfl
  | some k =>
    obtain ⟨_, hk, hmatch, _⟩ := b.scan_some it _ n _ 0 k hs
    exact absurd hmatch (hnone k (by omega))

section forward
variable {s : State} (hu : s.Usable s.view)
  (hl : LegalIter s.host.a1 ∧ 1 ≤ field s.host.a3 0 7 ∧ field s.host.a3 0 7 ≤ 64)
include hu hl

/-- R149: the pattern is found. -/
theorem runBvFwd_of_forward_some {p : Int}
    (h : s.viewStream.forward s.opIter s.host.a2.toNat (field s.host.a3 0 7) = some p) :
    runBvFwd s = s.answered true false (some (BitVec.ofInt 64 p)) none none none := by
  simp only [runBvFwd, if_pos (s.patternOk_iff.2 hl), (s.viewError_eq_none s.view).2 hu, h]
  rfl

/-- R149: the pattern is not found, and the iterator is handed back. -/
theorem runBvFwd_of_forward_none
    (h : s.viewStream.forward s.opIter s.host.a2.toNat (field s.host.a3 0 7) = none) :
    runBvFwd s =
      { s.failed .notFound with host := { (s.failed .notFound).host with r0 := s.host.a1 } } := by
  have hiter : wordOfInt s.opIter = s.host.a1 := BitVec.ofInt_toInt
  simp only [runBvFwd, if_pos (s.patternOk_iff.2 hl), (s.viewError_eq_none s.view).2 hu, h, hiter]
  rfl

end forward

/-- Settles O15: the pattern stands at a position exactly when the read there matches. -/
theorem forwardFindsTheFirstMatch : Obligations.ForwardFindsTheFirstMatch := by
  intro s hr hi hu n it stands hn1 hn64
  have hmatch (k : Nat) : s.viewStream.getBits (it + k) n = s.host.a2.toNat % 2 ^ n ↔ stands k :=
    s.viewStream.getBits_eq_mod_iff (it + k) n s.host.a2.toNat
  rw [exec_bvFwd hr]
  refine ⟨fun k hk hstands hfirst => congrArg Host.Outcome.next ?found,
    fun hnone => congrArg Host.Outcome.next ?notFound⟩
  case found =>
    exact runBvFwd_of_forward_some hu ⟨hi, hn1, hn64⟩ (BitStream.forward_of_first_match hk
      ((hmatch k).2 hstands) fun j hj => (hmatch j).not.2 (hfirst j hj))
  case notFound =>
    exact runBvFwd_of_forward_none hu ⟨hi, hn1, hn64⟩
      (BitStream.forward_of_no_match fun k hk => (hmatch k).not.2 (hnone k hk))

/-! ## Bit counts out of range -/

/-- Settles O10: the bit count is part of the operand check, which comes before those of the view. -/
theorem bitCountOutOfRangeIsFatal : Obligations.BitCountOutOfRangeIsFatal := by
  intro s hr
  refine ⟨fun hc => ?count, fun hn => ?pattern⟩
  case count =>
    have hlegal := Bool.eq_false_iff.2 fun h => Nat.not_le.2 hc (s.bitCountOk_iff.1 h).2
    rw [exec_bvGetbits hr, exec_bvSetbits hr, readThroughView_of_not_legal s hlegal,
      writeThroughView_of_not_legal s hlegal, State.raiseFatal_eq hr]
    exact ⟨rfl, rfl⟩
  case pattern =>
    rw [exec_bvFwd hr, (runBvFwd_checksView s).operands (by omega), State.raiseFatal_eq hr]

/-! ## Descriptors (R140, R141, R142) -/

/-- R25: the codes above 85 select no buffer. -/
theorem bufSelOfCode_eq_none {c : Nat} (h : 85 < c) : BufSel.ofCode c = none := by
  rw [BufSel.ofCode, dif_neg (by omega), if_neg (by omega), if_neg (by omega)]

/-- R140: a descriptor keeps the low 32 bits of its bounds. -/
theorem ofInt_toInt_eq_setWidth (w : Word) : BitVec.ofInt 32 w.toInt = w.setWidth 32 :=
  BitVec.signExtend_eq_setWidth_of_le w (by decide)

theorem State.opDescriptor_eq_some {s : State} {buf : BufSel}
    (hbuf : BufSel.ofCode (field s.host.a1 0 7) = some buf)
    (h : 0 ≤ s.host.a2.toInt ∧ s.host.a2.toInt ≤ s.host.a3.toInt ∧ s.host.a3.toInt ≤ buf.capBits) :
    s.opDescriptor = some ⟨buf, s.host.a2.setWidth 32, s.host.a3.setWidth 32⟩ := by
  simp only [State.opDescriptor, hbuf, if_pos h, ofInt_toInt_eq_setWidth]

theorem State.opDescriptor_eq_none {s : State}
    (h : ∀ buf, BufSel.ofCode (field s.host.a1 0 7) = some buf →
      ¬(0 ≤ s.host.a2.toInt ∧ s.host.a2.toInt ≤ s.host.a3.toInt ∧ s.host.a3.toInt ≤ buf.capBits)) :
    s.opDescriptor = none := by
  unfold State.opDescriptor
  cases hbuf : BufSel.ofCode (field s.host.a1 0 7) with
  | none => rfl
  | some buf => exact if_neg (h buf hbuf)

/-- Settles O11: the descriptor is written when the operands are one; a bad code or bound is none. -/
theorem bvDefWritesADescriptor : Obligations.BvDefWritesADescriptor := by
  intro s hr
  rw [exec_bvDef hr]
  refine ⟨fun buf hbuf h0 hle hcap => ?legal, fun hbad => ?fatal⟩
  case legal =>
    simp only [runBvDef, State.opDescriptor_eq_some hbuf ⟨h0, hle, hcap⟩]
    rfl
  case fatal =>
    have hd : s.opDescriptor = none := State.opDescriptor_eq_none fun buf hbuf hrange => by
      obtain ⟨h0, hle, hcap⟩ := hrange
      rcases hbad with hcode | hneg | hreversed | ⟨buf', hbuf', hover⟩
      · rw [bufSelOfCode_eq_none hcode] at hbuf
        cases hbuf
      · exact absurd h0 (Int.not_le.2 hneg)
      · exact absurd hle (Int.not_le.2 hreversed)
      · obtain rfl : buf' = buf := Option.some.inj (hbuf'.symm.trans hbuf)
        omega
    simp only [runBvDef, hd, State.raiseFatal_eq hr]

/-- R139: the bounds of a slice do not overflow their 32 bits. -/
theorem View.slice_bounds {v : View} (hv : v.wf) {lo hi : Nat} (hlo : lo ≤ hi) (hhi : hi ≤ v.size) :
    (v.slice lo hi).first.toNat = v.first.toNat + lo ∧
      (v.slice lo hi).last.toNat = v.first.toNat + hi := by
  obtain ⟨hle, _⟩ := hv
  have hlast := v.last.isLt
  simp only [View.size] at hhi
  simp only [View.slice, BitVec.toNat_ofNat]
  omega

theorem runBvSlice_of_legal {s : State}
    (h : 0 ≤ s.host.a2.toInt ∧ s.host.a2.toInt ≤ s.host.a3.toInt ∧ s.host.a3.toInt ≤ s.view.size) :
    runBvSlice s = (s.setView (viewIndex s.host.a1)
      (s.view.slice s.host.a2.toInt.toNat s.host.a3.toInt.toNat)).ok :=
  if_pos h

theorem runBvSlice_of_not_legal {s : State}
    (h : ¬(0 ≤ s.host.a2.toInt ∧ s.host.a2.toInt ≤ s.host.a3.toInt ∧
      s.host.a3.toInt ≤ s.view.size)) : runBvSlice s = s.raiseFatal .badOperand :=
  if_neg h

/-- R131: the size of a sound view as an integer. -/
theorem View.size_eq_sub {v : View} (hv : v.wf) :
    (v.size : Int) = v.last.toNat - v.first.toNat :=
  Int.ofNat_sub hv.1

/-- Settles O12: in a sound view the legal bounds of a slice fit the descriptor. -/
theorem bvSliceAndSize : Obligations.BvSliceAndSize := by
  intro s hr hv
  rw [← View.size_eq_sub hv]
  refine ⟨?slice, exec_bvSize hr⟩
  rw [exec_bvSlice hr]
  split
  case isTrue hlegal =>
    obtain ⟨hfirst, hlast⟩ := View.slice_bounds hv (lo := s.host.a2.toInt.toNat)
      (hi := s.host.a3.toInt.toNat) (by omega) (by omega)
    exact ⟨s.view.slice s.host.a2.toInt.toNat s.host.a3.toInt.toNat, rfl, by omega, by omega,
      congrArg Host.Outcome.next (runBvSlice_of_legal hlegal)⟩
  case isFalse hillegal => rw [runBvSlice_of_not_legal hillegal, State.raiseFatal_eq hr]

end Sys2Proof.Machine
end

section
/-! PROOFS. The GCR statements: the table operations, what `GCR.ENC` writes and `GCR.DEC` answers, and what
runs of encoded bytes give back and never contain. -/

namespace Sys2Proof.Machine

/-! ## The code (R100, R101) -/

/-- The value of a codeword as the table lists it. -/
theorem toNat_bin2gcr (n : BitVec 4) :
    (bin2gcr n).toNat = (gcrTable.map BitVec.toNat).getD n.toNat 0 :=
  (List.getD_map gcrTable 0 BitVec.toNat).symm

/-- Every codeword has an entry in the inverse table, so no default is read. -/
theorem toNat_gcr2bin (c : BitVec 5) :
    (gcr2bin c).toNat = (gcrInverse.map BitVec.toNat).getD c.toNat 0 := by
  have hc : c.toNat < gcrInverse.length := c.isLt
  rw [gcr2bin, List.getD_eq_getElem _ _ hc, List.getD_eq_getElem _ _ (by simpa using hc),
    List.getElem_map]

/-- R101: the inverse table inverts the table and marks every other codeword as invalid. -/
theorem gcrNibble_eq_some_iff (c : BitVec 5) (n : BitVec 4) :
    gcrNibble c = some n ↔ bin2gcr n = c := by
  revert c n
  decide

/-- Every codeword of the table has a zero bit. -/
theorem exists_zero_in_codeword (n : BitVec 4) :
    ∃ j < 5, (msbBits (bin2gcr n).toNat 5)[j]? ≠ some true := by
  revert n
  decide

/-! ## Codewords in a stream (R167) -/

theorem BitStream.toNat_codeword (b : BitStream) (pos : Int) :
    (b.codeword pos).toNat = b.getBits pos 5 :=
  Nat.mod_eq_of_lt (b.getBits_lt pos 5)

/-- R167: the nibble at a position is the one whose codeword stands there. -/
theorem BitStream.gcrNibble_codeword_eq_some_iff (b : BitStream) (pos : Int) (n : BitVec 4) :
    gcrNibble (b.codeword pos) = some n ↔ (bin2gcr n).toNat = b.getBits pos 5 := by
  rw [gcrNibble_eq_some_iff, ← BitVec.toNat_inj, b.toNat_codeword]

/-- R167: there is no nibble at a position exactly when no codeword of the table stands there. -/
theorem BitStream.isNone_gcrNibble_codeword_iff (b : BitStream) (pos : Int) :
    (gcrNibble (b.codeword pos)).isNone = true ↔ ∀ n, (bin2gcr n).toNat ≠ b.getBits pos 5 := by
  rw [Option.isNone_iff_eq_none, Option.eq_none_iff_forall_ne_some]
  exact forall_congr' fun n => (b.gcrNibble_codeword_eq_some_iff pos n).not

/-! ## The operations of the unit on a running machine (R161-R164) -/

section running
variable {s : State} (hr : s.Running)
include hr

theorem exec_gcrB2g :
    exec .gcrB2g s = .next (s.answered false false
      (some (wordOfNat (bin2gcr (s.host.a0.extractLsb' 0 4)).toNat)) none none none) := by
  rw [exec, execGcrB2g, hostOp_running hr]
  rfl

theorem exec_gcrG2b :
    exec .gcrG2b s = .next (s.answered false (gcr2bin (s.host.a0.extractLsb' 0 5) == gcrInvalid)
      (some (wordOfNat (gcr2bin (s.host.a0.extractLsb' 0 5)).toNat)) none none none) := by
  rw [exec, execGcrG2b, hostOp_running hr]
  rfl

theorem exec_gcrEnc : exec .gcrEnc s = .next (runGcrEnc s) := by
  rw [exec, execGcrEnc, hostOp_running hr]

theorem exec_gcrDec : exec .gcrDec s = .next (runGcrDec s) := by
  rw [exec, execGcrDec, hostOp_running hr]

end running

/-- Settles O17: both operations look their field up in one of the two tables. -/
theorem gcrTableOperations : Obligations.GcrTableOperations := by
  intro s hr
  refine ⟨?b2g, ?g2b⟩
  case b2g =>
    rw [exec_gcrB2g hr, toNat_bin2gcr]
    rfl
  case g2b =>
    intro b
    have hb : (gcr2bin (s.host.a0.extractLsb' 0 5)).toNat = b := toNat_gcr2bin _
    have hinvalid : (gcr2bin (s.host.a0.extractLsb' 0 5) == gcrInvalid) = decide (b = 0xFF) := by
      rw [← hb, beq_eq_decide]
      exact decide_eq_decide.2 BitVec.toNat_inj.symm
    rw [exec_gcrG2b hr, hinvalid, hb]
    rfl

/-! ## Encoding and decoding one byte through a usable view (R163, R164) -/

/-- R165: the bits of an encoded byte operand, by the fields of its register. -/
theorem gcrByteBits_byteField (w : Word) :
    gcrByteBits (byteField w 0) =
      lowBits (gcrTable.getD (field w 4 4) 0).toNat 5 ++
        lowBits (gcrTable.getD (field w 0 4) 0).toNat 5 := by
  have hhigh : (byteField w 0).extractLsb' 4 4 = w.extractLsb' 4 4 := by
    ext k hk
    simp [byteField]
  have hlow : (byteField w 0).extractLsb' 0 4 = w.extractLsb' 0 4 := by
    ext k hk
    simp [byteField]
  rw [gcrByteBits, hhigh, hlow, msbBits_eq_lowBits, msbBits_eq_lowBits]
  rfl

/-- R400: an operation that ends OK with `R0` and `R1` written. -/
theorem State.setR0_setR1_okWith_eq (s : State) (a b : Word) (f g : Bool) :
    ((s.setR0 a).setR1 b).okWith f g = s.answered f g (some a) (some b) none none := rfl

/-- R400: an operation that ends OK with `R0` written. -/
theorem State.setR0_ok_eq (s : State) (a : Word) :
    (s.setR0 a).ok = s.answered false false (some a) none none none := rfl

theorem State.withMemoriesOf_answered (t s : State) (f g : Bool) (r0 r1 r2 r3 : Option Word) :
    (t.answered f g r0 r1 r2 r3).withMemoriesOf s =
      (t.withMemoriesOf s).answered f g r0 r1 r2 r3 := rfl

/-- The end of an operation touches no memory. -/
theorem State.byteAt_answered (s : State) (f g : Bool) (r0 r1 r2 r3 : Option Word) :
    (s.answered f g r0 r1 r2 r3).byteAt = s.byteAt := by
  funext sp a
  cases sp <;> rfl

theorem wroteBits_answered_iff {s t : State} {v : View} {i : Int} {bits : List Bool} (f g : Bool)
    (r0 r1 r2 r3 : Option Word) :
    WroteBits s (t.answered f g r0 r1 r2 r3) v i bits ↔ WroteBits s t v i bits := by
  simp only [WroteBits, State.bufBit, State.byteAt_answered]

section usable
variable {s : State} (hl : LegalIter s.host.a1) (hu : s.Usable s.view)
include hl hu

theorem runGcrEnc_of_usable :
    runGcrEnc s = (s.setBits s.view s.opIter (gcrByteBits (byteField s.host.a2 0))).answered
      false false (some (wordOfInt (s.opIter + 10))) none none none := by
  simp only [runGcrEnc, if_pos (s.iterOk_iff.2 hl), (s.viewError_eq_none s.view).2 hu,
    State.setR0_ok_eq]

theorem runGcrDec_of_usable :
    let hi := gcrNibble (s.viewStream.codeword s.opIter)
    let lo := gcrNibble (s.viewStream.codeword (s.opIter + 5))
    runGcrDec s = s.answered false (hi.isNone || lo.isNone)
      (some (wordOfNat (16 * (s.nibbleOr hi false).toNat + (s.nibbleOr lo true).toNat)))
      (some (wordOfNat (2 * hi.isNone.toNat + lo.isNone.toNat))) none none := by
  intro hi lo
  have hmask : (2 * hi.isNone.toNat + lo.isNone.toNat != 0) = (hi.isNone || lo.isNone) := by
    cases hi.isNone <;> cases lo.isNone <;> rfl
  simp only [runGcrDec, if_pos (s.iterOk_iff.2 hl), (s.viewError_eq_none s.view).2 hu,
    BitStream.gcrNibbles, flagBit_eq_toNat, State.setR0_setR1_okWith_eq]
  rw [hmask]

end usable

/-- Settles O18: the operation is one run of ten bits written through the view. -/
theorem gcrEncWritesTwoCodewords : Obligations.GcrEncWritesTwoCodewords := by
  intro s hr hi hu
  refine ⟨_, exec_gcrEnc hr, ?_⟩
  rw [runGcrEnc_of_usable hi hu, gcrByteBits_byteField, State.withMemoriesOf_answered,
    State.withMemoriesOf_setBits, wroteBits_answered_iff]
  exact ⟨rfl, s.wroteBits_setBits s.view s.opIter _⟩

/-- R164, R68: a decoded nibble follows from the codeword, the view, the position and the bytes of the
buffer as they read. -/
theorem State.nibbleOr_congr {s t : State} (hv : t.view = s.view) (hp : t.host.a1 = s.host.a1)
    (hm : ∀ a < s.view.buf.space.cap, t.byteAt s.view.buf.space a = s.byteAt s.view.buf.space a)
    (n : Option (BitVec 4)) (low : Bool) : t.nibbleOr n low = s.nibbleOr n low := by
  rw [State.nibbleOr, State.nibbleOr, State.gcrDraw_congr hv hp hm]

theorem State.nibbleOr_of_eq_some (s : State) {n : Option (BitVec 4)} {x : BitVec 4}
    (h : n = some x) (low : Bool) : s.nibbleOr n low = x := by
  rw [h]
  rfl

/-- R68: everything `GCR.DEC` reads is the same in both states. -/
theorem gcrDec_repeats {s t : State} (hr : s.Running) (hr' : t.Running) (hi : LegalIter s.host.a1)
    (hu : s.Usable s.view) (hu' : t.Usable t.view) (hv : t.view = s.view)
    (hp : t.host.a1 = s.host.a1) (hwf : s.view.wf)
    (hm : ∀ a < s.view.buf.space.cap, t.byteAt s.view.buf.space a = s.byteAt s.view.buf.space a) :
    ∃ (bad : Bool) (r0 r1 : Word),
      exec .gcrDec s = .next (s.answered false bad (some r0) (some r1) none none) ∧
      exec .gcrDec t = .next (t.answered false bad (some r0) (some r1) none none) := by
  have hiter : t.opIter = s.opIter := congrArg iter hp
  have hget (i : Int) : t.viewStream.get i = s.viewStream.get i := by
    rw [State.viewStream, hv]
    exact State.get_stream_congr hwf hu.2 hm i
  have hword (pos : Int) : t.viewStream.codeword pos = s.viewStream.codeword pos := by
    rw [BitStream.codeword, BitStream.codeword, BitStream.getBits_congr hget]
  refine ⟨_, _, _, (exec_gcrDec hr).trans (congrArg _ (runGcrDec_of_usable hi hu)), ?_⟩
  rw [exec_gcrDec hr', runGcrDec_of_usable (hp ▸ hi) hu']
  simp only [hiter, hword, State.nibbleOr_congr hv hp hm]

/-- Settles O19: a codeword of the table has the nibble it stands for, and no other codeword has one. -/
theorem gcrDecReturnsValidNibbles : Obligations.GcrDecReturnsValidNibbles := by
  refine ⟨fun s t hr hr' hi hu hu' _ hv hp hwf hm =>
    gcrDec_repeats hr hr' hi hu hu' hv hp hwf (hm s.view.buf.space), ?answer⟩
  intro s hr hi hu bit
  have hnibble (pos : Int) (low : Bool) (n : BitVec 4)
      (h : (bin2gcr n).toNat = s.viewStream.getBits pos 5) :
      s.nibbleOr (gcrNibble (s.viewStream.codeword pos)) low = n :=
    s.nibbleOr_of_eq_some ((s.viewStream.gcrNibble_codeword_eq_some_iff pos n).2 h) low
  exact ⟨_, _, _, _, s.viewStream.isNumber_getBits s.opIter 5,
    s.viewStream.isNumber_getBits (s.opIter + 5) 5, hnibble s.opIter false,
    hnibble (s.opIter + 5) true, _, _, s.viewStream.isNone_gcrNibble_codeword_iff s.opIter,
    s.viewStream.isNone_gcrNibble_codeword_iff (s.opIter + 5),
    (exec_gcrDec hr).trans (congrArg _ (runGcrDec_of_usable hi hu))⟩

/-! ## Runs of encoded bytes in a view (R166, R168, R169) -/

/-- The stream reads the bits `bits` from index `i` on. -/
def BitStream.Shows (b : BitStream) (i : Int) (bits : List Bool) : Prop :=
  ∀ k (h : k < bits.length), b.get (i + (k : Nat)) = bits[k]

theorem BitStream.shows_append_iff (b : BitStream) (i : Int) (xs ys : List Bool) :
    b.Shows i (xs ++ ys) ↔ b.Shows i xs ∧ b.Shows (i + xs.length) ys := by
  constructor
  · intro h
    refine ⟨fun k hk => ?left, fun k hk => ?right⟩
    case left => rw [h k (by simp; omega), List.getElem_append_left hk]
    case right =>
      rw [Int.add_assoc, ← Nat.cast_add, h (xs.length + k) (by simpa using hk)]
      simp
  · rintro ⟨hx, hy⟩ k hk
    rw [List.getElem_append]
    split
    case isTrue hlt => exact hx k hlt
    case isFalse hge =>
      rw [← hy (k - xs.length) (by simp at hk; omega)]
      congr 1
      omega

/-- R136, R153(c): a view that holds a run of bits shows the run where it was written. -/
theorem State.shows_setBits (s : State) (v : View) (i : Int) {bits : List Bool}
    (h : bits.length ≤ v.size) : ((s.setBits v i bits).stream v).Shows i bits := by
  intro k hk
  obtain ⟨hwritten, _, _⟩ := s.wroteBits_setBits v i bits
  exact hwritten k hk fun k' hkk' hk' => View.abs_ne hkk' (by omega)

/-- R134: where the bits of a number stand, the number is read. -/
theorem BitStream.getBits_of_shows {b : BitStream} {i : Int} {x c : Nat}
    (h : b.Shows i (msbBits x c)) : b.getBits i c = x % 2 ^ c := by
  rw [BitStream.getBits_eq_mod_iff]
  intro k hk
  rw [msbBits_eq_lowBits] at h
  rw [h k (by simpa using hk), getElem_lowBits]

theorem BitStream.gcrNibble_codeword_of_shows {b : BitStream} {i : Int} {n : BitVec 4}
    (h : b.Shows i (msbBits (bin2gcr n).toNat 5)) : gcrNibble (b.codeword i) = some n := by
  rw [BitStream.gcrNibble_codeword_eq_some_iff, BitStream.getBits_of_shows h,
    Nat.mod_eq_of_lt (bin2gcr n).isLt]

/-- The high and the low nibble of a byte make the byte. -/
theorem append_nibbles (x : Byte) : x.extractLsb' 4 4 ++ x.extractLsb' 0 4 = x := by
  rw [BitVec.extractLsb'_append_extractLsb'_eq_extractLsb' (by rfl), BitVec.extractLsb'_eq_self]

/-- R169(a) for one byte. -/
theorem BitStream.decodeGcr_of_shows {b : BitStream} {i : Int} {x : Byte}
    (h : b.Shows i (gcrByteBits x)) : b.decodeGcr i = some x := by
  rw [gcrByteBits, BitStream.shows_append_iff, length_msbBits] at h
  obtain ⟨hhigh, hlow⟩ := h
  have hnibbles : b.gcrNibbles i = (some (x.extractLsb' 4 4), some (x.extractLsb' 0 4)) :=
    Prod.ext (BitStream.gcrNibble_codeword_of_shows hhigh)
      (BitStream.gcrNibble_codeword_of_shows hlow)
  simp only [BitStream.decodeGcr, hnibbles, append_nibbles]

/-- R169(a): where a run of encoded bytes stands, the bytes are read. -/
theorem BitStream.decodeGcrBytes_of_shows {b : BitStream} :
    ∀ {bs : List Byte} {i : Int}, b.Shows i (gcrBits bs) →
      b.decodeGcrBytes i bs.length = some bs := by
  intro bs
  induction bs with
  | nil => intros; rfl
  | cons x bs ih =>
    intro i h
    rw [gcrBits, List.flatMap_cons, BitStream.shows_append_iff, length_gcrByteBits] at h
    obtain ⟨hbyte, hrun⟩ := h
    rw [List.length_cons, BitStream.decodeGcrBytes, BitStream.decodeGcr_of_shows hbyte]
    exact congrArg (Option.map (x :: ·)) (ih hrun)

/-- Settles O20: no bit of a run that fits its view is overwritten, so the whole run stands there. -/
theorem gcrRunRoundTrip : Obligations.GcrRunRoundTrip := by
  intro s v pos bs _ hfit
  exact BitStream.decodeGcrBytes_of_shows (s.shows_setBits v pos (by simpa using hfit))

/-! ## No sync mark in a run of encoded bytes (R169(d)) -/

/-- Each codeword of a run, and each place past its end, has a bit that is not a one. -/
theorem exists_not_one_in_gcrBits (bs : List Byte) :
    ∀ m : Nat, ∃ j < 5, (gcrBits bs)[5 * m + j]? ≠ some true := by
  induction bs with
  | nil => exact fun m => ⟨0, by omega, by simp [gcrBits]⟩
  | cons b bs ih =>
    rw [gcrBits, List.flatMap_cons, ← gcrBits]
    intro m
    match m with
    | 0 =>
      obtain ⟨j, hj, hzero⟩ := exists_zero_in_codeword (b.extractLsb' 4 4)
      refine ⟨j, hj, ?_⟩
      rwa [List.getElem?_append_left (by simp; omega), gcrByteBits,
        List.getElem?_append_left (by rw [length_msbBits]; omega), Nat.mul_zero, Nat.zero_add]
    | 1 =>
      obtain ⟨j, hj, hzero⟩ := exists_zero_in_codeword (b.extractLsb' 0 4)
      refine ⟨j, hj, ?_⟩
      rwa [List.getElem?_append_left (by simp; omega), gcrByteBits,
        List.getElem?_append_right (by rw [length_msbBits]; omega), length_msbBits,
        Nat.mul_one, Nat.add_sub_cancel_left]
    | m + 2 =>
      obtain ⟨j, hj, hrest⟩ := ih m
      refine ⟨j, hj, ?_⟩
      rwa [List.getElem?_append_right (by simp; omega), length_gcrByteBits,
        show 5 * (m + 2) + j - 10 = 5 * m + j by omega]

/-- Settles O21: nine consecutive places already contain a whole codeword. -/
theorem gcrRunsHoldNoSyncMark : Obligations.GcrRunsHoldNoSyncMark := by
  intro bs k hones
  obtain ⟨j, hj, hzero⟩ := exists_not_one_in_gcrBits bs ((k + 4) / 5)
  apply hzero
  have hone := hones (5 * ((k + 4) / 5) + j - k) (by omega)
  rwa [show k + (5 * ((k + 4) / 5) + j - k) = 5 * ((k + 4) / 5) + j by omega] at hone

end Sys2Proof.Machine
end

section
/-! PROOFS. The MFM statements: what the operations of the unit answer and store, the round trips of runs of
bytes, and the law of a clocked run. -/

namespace Sys2Proof.Machine

/-! ## Bytes of a run by their index -/

theorem State.getD_readBytes (s : State) (sp : Space) (a : Nat) {n k : Nat} (hk : k < n) :
    (s.readBytes sp a n).getD k 0 = s.byteAt sp (a + k) := by
  rw [List.getD_eq_getElem _ _ (by simpa using hk), State.getElem_readBytes]

/-! ## The planes of a byte, by bits (R187) -/

/-- The data positions of a byte are the even ones. -/
theorem getLsbD_dataMask {k : Nat} (hk : k < 8) : (0x55 : Byte).getLsbD k = decide (k % 2 = 0) := by
  revert k
  decide

theorem oddPlane_getLsbD (b : Byte) {k : Nat} (hk : k < 8) :
    (oddPlane b).getLsbD k = (b.getLsbD (k + 1) && decide (k % 2 = 0)) := by
  rw [oddPlane, BitVec.getLsbD_and, BitVec.getLsbD_ushiftRight, getLsbD_dataMask hk, Nat.add_comm]

theorem evenPlane_getLsbD (b : Byte) {k : Nat} (hk : k < 8) :
    (evenPlane b).getLsbD k = (b.getLsbD k && decide (k % 2 = 0)) := by
  rw [evenPlane, BitVec.getLsbD_and, getLsbD_dataMask hk]

theorem mergePlanes_getLsbD (o e : Byte) {k : Nat} (hk : k < 8) :
    (mergePlanes o e).getLsbD k = if k % 2 = 0 then e.getLsbD k else o.getLsbD (k - 1) := by
  rw [mergePlanes, ← evenPlane, ← evenPlane, BitVec.getLsbD_or, BitVec.getLsbD_shiftLeft,
    evenPlane_getLsbD e hk, evenPlane_getLsbD o (by omega)]
  rcases Nat.mod_two_eq_zero_or_one k with heven | hodd
  · have hprev : k = 0 ∨ (k - 1) % 2 = 1 := by omega
    rcases hprev with rfl | hprev
    · simp
    · simp [heven, hprev]
  · have hprev : (k - 1) % 2 = 0 := by omega
    have hpos : ¬k < 1 := by omega
    simp [hodd, hprev, hpos, hk]

/-- R191 for one byte of the odd/even format. -/
theorem mergePlanes_planes (b : Byte) : mergePlanes (oddPlane b) (evenPlane b) = b := by
  refine BitVec.eq_of_getLsbD_eq fun k hk => ?_
  rw [mergePlanes_getLsbD _ _ hk]
  split
  case isTrue heven => rw [evenPlane_getLsbD b hk]; simp [heven]
  case isFalse hodd =>
    rw [oddPlane_getLsbD b (by omega), show k - 1 + 1 = k by omega]
    simp [show (k - 1) % 2 = 0 by omega]

/-! ## The conversions of a run, byte by byte (R181-R184, R188) -/

/-- R181: the two MFM bytes of a data byte make its word. -/
theorem append_mfmPair (d : Byte) :
    (mfmSpread d).extractLsb' 8 8 ++ (mfmSpread d).extractLsb' 0 8 = mfmSpread d := by
  rw [BitVec.extractLsb'_append_extractLsb'_eq_extractLsb' (by rfl), BitVec.extractLsb'_eq_self]

theorem getD_mfmBytes_append (ds : List Byte) {k : Nat} (hk : k < ds.length) :
    (mfmBytes ds).getD (2 * k) 0 ++ (mfmBytes ds).getD (2 * k + 1) 0 =
      mfmSpread (ds.getD k 0) := by
  obtain ⟨hhigh, hlow⟩ := getD_mfmBytes ds k hk
  rw [hhigh, hlow, append_mfmPair]

theorem getD_mfmDecode : ∀ (m : List Byte) {k : Nat}, 2 * k + 1 < m.length →
    (mfmDecode m).getD k 0 = mfmGather (m.getD (2 * k) 0 ++ m.getD (2 * k + 1) 0)
  | [], k, hk => by simp at hk
  | [_], k, hk => by simp at hk
  | hi :: lo :: m, 0, _ => rfl
  | hi :: lo :: m, k + 1, hk => getD_mfmDecode m (by simp at hk; omega)

/-- R188: a byte of the odd plane and the byte of the even plane that goes with it. -/
theorem getD_oeEncode (ds : List Byte) {k : Nat} (hk : k < ds.length) :
    (oeEncode ds).getD k 0 = oddPlane (ds.getD k 0) ∧
      (oeEncode ds).getD (ds.length + k) 0 = evenPlane (ds.getD k 0) := by
  rw [oeEncode, List.getD_append _ _ _ _ (by simpa using hk),
    List.getD_append_right _ _ _ _ (by simp)]
  simp [hk]

theorem getD_oeDecode (m : List Byte) {c k : Nat} (hm : m.length = 2 * c) (hk : k < c) :
    (oeDecode m).getD k 0 = mergePlanes (m.getD k 0) (m.getD (c + k) 0) := by
  have hlow : k < m.length := by omega
  have hhigh : c + k < m.length := by omega
  rw [List.getD_eq_getElem _ _ (by rw [length_oeDecode]; omega), List.getD_eq_getElem _ _ hlow,
    List.getD_eq_getElem _ _ hhigh]
  simp [oeDecode, hm]

/-! ## Storing a run of bytes (R66, R181-R186) -/

theorem wroteBytes_answered_iff {s t : State} {sp : Space} {a : Nat} {bs : List Byte} (f g : Bool)
    (r0 r1 r2 r3 : Option Word) :
    WroteBytes s (t.answered f g r0 r1 r2 r3) sp a bs ↔ WroteBytes s t sp a bs := by
  simp only [WroteBytes, State.byteAt_answered]

/-- R400: a run of bytes stored and `R0` written, and nothing else but `STATUS` changed. -/
theorem State.writeBytes_setR0_ok_stores (s : State) (a : Nat) (bs : List Byte) (r : Word) :
    WroteBytes s ((s.writeBytes .dmem a bs).setR0 r).ok .dmem a bs ∧
      ((s.writeBytes .dmem a bs).setR0 r).ok.withMemoriesOf s =
        s.answered false false (some r) none none none := by
  rw [State.setR0_ok_eq, wroteBytes_answered_iff, State.withMemoriesOf_answered,
    State.withMemoriesOf_writeBytes]
  exact ⟨s.wroteBytes_writeBytes .dmem a bs, rfl⟩

/-- R181-R184: a conversion whose runs lie inside `DMEM` stores the converted source. -/
theorem convertRun_stores {s : State} {n m : Nat} {f : List Byte → List Byte}
    (hsrc : InDmem (field s.host.a0 0 32) n) (hdst : InDmem (field s.host.a1 0 32) m)
    (hlen : (f (s.readBytes .dmem (field s.host.a0 0 32) n)).length = m) :
    let out := f (s.readBytes .dmem (field s.host.a0 0 32) n)
    WroteBytes s (convertRun s n m f) .dmem (field s.host.a1 0 32) out ∧
      (convertRun s n m f).withMemoriesOf s =
        s.answered false false (some (BitVec.ofNat 64 out.length)) none none none := by
  intro out
  obtain ⟨hbad, _⟩ | ⟨_, hrun⟩ := convertRun_cases s n m f
  · exact absurd ⟨hsrc, hdst⟩ hbad
  · rw [hrun, show out.length = m from hlen]
    exact s.writeBytes_setR0_ok_stores _ _ _

/-! ## The operations of the unit on a running machine (R181-R186) -/

section running
variable {s : State} (hr : s.Running)
include hr

theorem exec_mfmEnc :
    exec .mfmEnc s = .next (convertRun s s.opCount (2 * s.opCount) mfmBytes) := by
  rw [exec, execMfmEnc, hostOp_running hr]

theorem exec_mfmDec :
    exec .mfmDec s = .next (convertRun s (2 * s.opCount) s.opCount mfmDecode) := by
  rw [exec, execMfmDec, hostOp_running hr]

theorem exec_mfmOeenc :
    exec .mfmOeenc s = .next (convertRun s s.opCount (2 * s.opCount) oeEncode) := by
  rw [exec, execMfmOeenc, hostOp_running hr]

theorem exec_mfmOedec :
    exec .mfmOedec s = .next (convertRun s (2 * s.opCount) s.opCount oeDecode) := by
  rw [exec, execMfmOedec, hostOp_running hr]

theorem exec_mfmClk :
    exec .mfmClk s = .next (s.answered false false
      (some (wordOfNat (addClock (byteField s.host.a0 0) (byteField s.host.a1 0)).toNat))
      none none none) := by
  rw [exec, execMfmClk, hostOp_running hr, State.setR0_ok_eq]

theorem exec_mfmClkbuf : exec .mfmClkbuf s = .next (runMfmClkbuf s) := by
  rw [exec, execMfmClkbuf, hostOp_running hr]

end running

/-- Settles O22: each conversion stores its converted source, whose bits are those of the byte-by-byte
lemmas. -/
theorem mfmConversions : Obligations.MfmConversions := by
  intro s hr src dst c b writes
  have hread {n k : Nat} (hk : k < n) : (s.readBytes .dmem src n).getD k 0 = b k :=
    s.getD_readBytes .dmem src hk
  refine ⟨fun hsrc hdst => ⟨?mfmEnc, ?mfmOeenc⟩, fun hsrc hdst => ⟨?mfmDec, ?mfmOedec⟩⟩
  case mfmEnc =>
    have hlen : (mfmBytes (s.readBytes .dmem src c)).length = 2 * c := by simp
    refine ⟨_, hlen, ⟨_, exec_mfmEnc hr, convertRun_stores hsrc hdst hlen⟩, fun k hk j hj => ?_⟩
    rw [getD_mfmBytes_append _ (by simpa using hk), hread hk,
      mfmSpread_getLsbD _ _ (by omega), mfmSpread_getLsbD _ _ (by omega)]
    simp
  case mfmOeenc =>
    have hlen : (oeEncode (s.readBytes .dmem src c)).length = 2 * c := by simp
    refine ⟨_, hlen, ⟨_, exec_mfmOeenc hr, convertRun_stores hsrc hdst hlen⟩, fun k hk j hj => ?_⟩
    obtain ⟨hodd, heven⟩ := getD_oeEncode (s.readBytes .dmem src c) (k := k) (by simpa using hk)
    rw [State.length_readBytes] at heven
    rw [hodd, heven, hread hk, oddPlane_getLsbD _ (by omega), oddPlane_getLsbD _ (by omega),
      evenPlane_getLsbD _ (by omega), evenPlane_getLsbD _ (by omega)]
    simp
  case mfmDec =>
    have hlen : (mfmDecode (s.readBytes .dmem src (2 * c))).length = c := by simp [length_mfmDecode]
    refine ⟨_, hlen, ⟨_, exec_mfmDec hr, convertRun_stores hsrc hdst hlen⟩, fun k hk j hj => ?_⟩
    rw [getD_mfmDecode _ (by simp; omega), hread (by omega), hread (by omega),
      mfmGather_getLsbD _ _ hj]
  case mfmOedec =>
    have hlen : (oeDecode (s.readBytes .dmem src (2 * c))).length = c := by simp [length_oeDecode]
    refine ⟨_, hlen, ⟨_, exec_mfmOedec hr, convertRun_stores hsrc hdst hlen⟩, fun k hk j hj => ?_⟩
    rw [getD_oeDecode _ (s.length_readBytes ..) hk, hread (by omega), hread (by omega),
      mergePlanes_getLsbD _ _ (by omega), mergePlanes_getLsbD _ _ (by omega)]
    simp

/-! ## Clock synthesis (R185, R186, R189) -/

theorem wordOfNat_toNat (x : Byte) : wordOfNat x.toNat = x.zeroExtend 64 :=
  BitVec.ofNat_toNat 64 x

theorem byteField_eq_setWidth (w : Word) : byteField w 0 = w.setWidth 8 := by
  ext k hk
  simp [byteField]

/-- R186: a run inside `DMEM` is clocked in place. -/
theorem runMfmClkbuf_stores {s : State}
    (h : InDmem (field s.host.a0 0 32) (field s.host.a1 0 32)) :
    let prev : Byte := s.host.a2.setWidth 8
    let out := addClockRun (s.readBytes .dmem (field s.host.a0 0 32) (field s.host.a1 0 32)) prev
    WroteBytes s (runMfmClkbuf s) .dmem (field s.host.a0 0 32) out ∧
      (runMfmClkbuf s).withMemoriesOf s =
        s.answered false false (some ((out.getLastD prev).zeroExtend 64)) none none none := by
  intro prev out
  have hrun : runMfmClkbuf s = ((s.writeBytes .dmem (field s.host.a0 0 32) out).setR0
      (wordOfNat (out.getLastD prev).toNat)).ok := by
    simp only [runMfmClkbuf, dmemOk_iff, if_pos h, byteField_eq_setWidth, out, prev]
  rw [hrun, wordOfNat_toNat]
  exact s.writeBytes_setR0_ok_stores _ _ _

/-- Settles O25: the stored run is the clocked one, each of whose bytes is clocked against the one before. -/
theorem mfmClkbufClocksARun : Obligations.MfmClkbufClocksARun := by
  intro s hr addr c prev h
  obtain ⟨hstored, hframe⟩ := runMfmClkbuf_stores h
  refine ⟨_, _, exec_mfmClkbuf hr, ?length, hstored, hframe, fun k hk => ?clocked⟩
  case length => simp [c]
  case clocked =>
    intro v p
    have hv : (s.readBytes .dmem addr c).getD k 0 = v := s.getD_readBytes .dmem addr hk
    rw [getD_addClockRun _ _ _ (by simpa using hk), hv]

/-- Settles O24: the byte is `AddClock` of the two operands, bit by bit. -/
theorem mfmClkSetsTheClockBits : Obligations.MfmClkSetsTheClockBits := by
  intro s hr
  have hbit (w : Word) {k : Nat} (hk : k < 8) : (byteField w 0).getLsbD k = w.getLsbD k := by
    simp [byteField, hk]
  refine ⟨addClock (byteField s.host.a0 0) (byteField s.host.a1 0), fun k hk => ?data,
    fun k hk => ?clock, ?first, ?answer⟩
  case data =>
    rw [addClock_getLsbD _ _ _ (by omega), if_pos (by omega), hbit _ (by omega)]
  case clock =>
    rw [addClock_getLsbD _ _ _ (by omega), if_neg (by omega), if_neg (by omega), hbit _ (by omega),
      hbit _ (by omega), Nat.add_sub_cancel, Bool.or_comm]
  case first =>
    rw [addClock_getLsbD _ _ _ (by omega), if_neg (by omega), if_pos rfl, hbit _ (by omega),
      hbit _ (by omega), Bool.or_comm]
  case answer => rw [exec_mfmClk hr, wordOfNat_toNat]

/-! ## Round trips (R191) -/

theorem mfmGather_mfmSpread (d : Byte) : mfmGather (mfmSpread d) = d := by
  refine BitVec.eq_of_getLsbD_eq fun k hk => ?_
  rw [mfmGather_getLsbD _ _ hk, mfmSpread_getLsbD _ _ (by omega)]
  simp

theorem mfmDecode_mfmBytes (ds : List Byte) : mfmDecode (mfmBytes ds) = ds := by
  induction ds with
  | nil => rfl
  | cons d ds ih =>
    have hcons : mfmDecode (mfmBytes (d :: ds)) = mfmGather
        ((mfmSpread d).extractLsb' 8 8 ++ (mfmSpread d).extractLsb' 0 8) ::
          mfmDecode (mfmBytes ds) := rfl
    rw [hcons, append_mfmPair, mfmGather_mfmSpread, ih]

theorem oeDecode_oeEncode (ds : List Byte) : oeDecode (oeEncode ds) = ds := by
  have hhalf : (oeEncode ds).length / 2 = ds.length := by simp
  rw [oeDecode, hhalf, oeEncode, List.take_left' (by simp), List.drop_left' (by simp),
    List.zipWith_map, List.zipWith_self]
  simp [mergePlanes_planes]

/-- R191: clocking a run keeps the data positions of every byte. -/
theorem map_evenPlane_addClockRun (m : List Byte) :
    ∀ p, (addClockRun m p).map evenPlane = m.map evenPlane := by
  induction m with
  | nil => exact fun _ => rfl
  | cons x m ih =>
    intro p
    rw [addClockRun, List.map_cons, List.map_cons, ih, evenPlane, addClock_and, ← evenPlane]

/-- R180: gathering looks at data positions only. -/
theorem mfmGather_evenPlane (hi lo : Byte) :
    mfmGather (evenPlane hi ++ evenPlane lo) = mfmGather (hi ++ lo) := by
  refine BitVec.eq_of_getLsbD_eq fun k hk => ?_
  rw [mfmGather_getLsbD _ _ hk, mfmGather_getLsbD _ _ hk, BitVec.getLsbD_append,
    BitVec.getLsbD_append]
  split
  case isTrue hlow => rw [evenPlane_getLsbD lo hlow]; simp
  case isFalse hhigh =>
    rw [evenPlane_getLsbD hi (by omega)]
    simp [show (2 * k - 8) % 2 = 0 by omega]

/-- R182: clock bits are not examined. -/
theorem mfmDecode_map_evenPlane : ∀ m : List Byte, mfmDecode (m.map evenPlane) = mfmDecode m
  | [] => rfl
  | [_] => rfl
  | hi :: lo :: m => by
    rw [List.map_cons, List.map_cons, mfmDecode, mfmDecode, mfmGather_evenPlane,
      mfmDecode_map_evenPlane m]

theorem mergePlanes_evenPlane (o e : Byte) :
    mergePlanes (evenPlane o) (evenPlane e) = mergePlanes o e := by
  have hidem (b : Byte) : b &&& 0x55 &&& 0x55 = b &&& 0x55 := by
    rw [BitVec.and_assoc, BitVec.and_self]
  rw [mergePlanes, evenPlane, evenPlane, hidem, hidem, ← mergePlanes]

/-- R184: clock bits are not examined. -/
theorem oeDecode_map_evenPlane (m : List Byte) : oeDecode (m.map evenPlane) = oeDecode m := by
  rw [oeDecode, List.length_map, ← List.map_take, ← List.map_drop, List.zipWith_map]
  simp only [mergePlanes_evenPlane]
  rfl

theorem mfmDecode_addClockRun (m : List Byte) (p : Byte) :
    mfmDecode (addClockRun m p) = mfmDecode m := by
  rw [← mfmDecode_map_evenPlane, map_evenPlane_addClockRun, mfmDecode_map_evenPlane]

theorem oeDecode_addClockRun (m : List Byte) (p : Byte) :
    oeDecode (addClockRun m p) = oeDecode m := by
  rw [← oeDecode_map_evenPlane, map_evenPlane_addClockRun, oeDecode_map_evenPlane]

/-- Settles O26: decoding undoes encoding and does not see the clock bits. -/
theorem mfmRoundTrips : Obligations.MfmRoundTrips :=
  ⟨mfmGather_mfmSpread, fun ds p =>
    ⟨mfmDecode_mfmBytes ds, (mfmDecode_addClockRun _ p).trans (mfmDecode_mfmBytes ds),
      oeDecode_oeEncode ds, (oeDecode_addClockRun _ p).trans (oeDecode_oeEncode ds)⟩, addClock_and⟩

/-! ## The law of a clocked run (R190) -/

/-- Bit `i` of a run of bytes in stream order, 0 past its end. -/
def runBit (bs : List Byte) (i : Nat) : Bool := (bytesBits bs).getD i false

theorem runBit_of_getElem? {bs : List Byte} {i : Nat} {b : Bool} (h : (bytesBits bs)[i]? = some b) :
    i < 8 * bs.length ∧ runBit bs i = b := by
  obtain ⟨hi, hb⟩ := List.getElem?_eq_some_iff.1 h
  exact ⟨length_bytesBits bs ▸ hi, by rw [runBit, List.getD_eq_getElem _ _ hi, hb]⟩

/-- The bits of a run are those of its bytes, most significant bit first. -/
theorem runBit_eq_getLsbD (bs : List Byte) {j : Nat} (hj : j < 8) :
    ∀ q, runBit bs (8 * q + j) = (bs.getD q 0).getLsbD (7 - j) := by
  induction bs with
  | nil => intro q; simp [runBit, bytesBits]
  | cons b bs ih =>
    have hcons : bytesBits (b :: bs) = msbBits b.toNat 8 ++ bytesBits bs := rfl
    intro q
    rw [runBit, hcons]
    cases q with
    | zero =>
      have hlen : j < (lowBits b.toNat 8).length := by simpa using hj
      rw [msbBits_eq_lowBits, Nat.mul_zero, Nat.zero_add, List.getD_append _ _ _ _ hlen,
        List.getD_eq_getElem _ _ hlen, getElem_lowBits]
      rfl
    | succ q =>
      rw [List.getD_append_right _ _ _ _ (by rw [length_msbBits]; omega), length_msbBits,
        show 8 * (q + 1) + j - 8 = 8 * q + j by omega]
      exact ih q

/-- R185: clock bit `r` of a byte, from the left, against the data bits on both sides. -/
theorem clockBit_of_addClock (v p : Byte) {r : Nat} (hr : r < 4) :
    (addClock v p).getLsbD (7 - 2 * r) =
      !((if r = 0 then p.getLsbD 0 else (addClock v p).getLsbD (8 - 2 * r)) ||
        (addClock v p).getLsbD (6 - 2 * r)) := by
  have hdata (k : Nat) (hk : k < 8) (heven : k % 2 = 0) : (addClock v p).getLsbD k = v.getLsbD k := by
    rw [addClock_getLsbD v p k hk, if_pos heven]
  rw [addClock_getLsbD v p _ (by omega), if_neg (by omega), Bool.or_comm,
    show 7 - 2 * r - 1 = 6 - 2 * r by omega, hdata (6 - 2 * r) (by omega) (by omega)]
  cases r with
  | zero => rfl
  | succ r =>
    rw [if_neg (by omega), if_neg (by omega), hdata _ (by omega) (by omega),
      show 7 - 2 * (r + 1) + 1 = 8 - 2 * (r + 1) by omega]

/-- R185, R189: a clock bit of a clocked run is 1 exactly where the data bits on both sides are 0; the data
bit before the run is bit 0 of `prev`. -/
theorem clockBit_of_addClockRun (m : List Byte) (prev : Byte) {n : Nat} (hn : n < 4 * m.length) :
    runBit (addClockRun m prev) (2 * n) =
      !((if n = 0 then prev.getLsbD 0 else runBit (addClockRun m prev) (2 * n - 1)) ||
        runBit (addClockRun m prev) (2 * n + 1)) := by
  obtain ⟨q, r, hr, rfl⟩ : ∃ q r, r < 4 ∧ n = 4 * q + r := ⟨n / 4, n % 4, by omega, by omega⟩
  have hclock := clockBit_of_addClock (m.getD q 0)
    (if q = 0 then prev else (addClockRun m prev).getD (q - 1) 0) hr
  rw [← getD_addClockRun m prev q (by omega)] at hclock
  have hbit {j : Nat} (hj : j < 8) := runBit_eq_getLsbD (addClockRun m prev) hj
  rw [show 2 * (4 * q + r) = 8 * q + 2 * r by omega, hbit (by omega), hclock, Nat.add_assoc,
    hbit (by omega), show 7 - (2 * r + 1) = 6 - 2 * r by omega]
  match q, r with
  | 0, 0 => rfl
  | q + 1, 0 =>
    rw [show 8 * (q + 1) + 2 * 0 - 1 = 8 * q + 7 by omega, hbit (by omega)]
    simp
  | q, r + 1 =>
    rw [show 8 * q + 2 * (r + 1) - 1 = 8 * q + (2 * r + 1) by omega, hbit (by omega),
      show 7 - (2 * r + 1) = 8 - 2 * (r + 1) by omega]
    simp

/-- Settles O27: two places after one another are a clock bit and a data bit next to it; four contain a clock
bit and the data bits on both sides of it. -/
theorem mfmLaw : Obligations.MfmLaw := by
  intro m prev k
  have hlaw {n : Nat} (hn : n < 4 * m.length) := clockBit_of_addClockRun m prev hn
  have hin {i : Nat} {b : Bool} (h : (bytesBits (addClockRun m prev))[i]? = some b) :
      i < 8 * m.length ∧ runBit (addClockRun m prev) i = b := by
    simpa using runBit_of_getElem? h
  have hinner {n : Nat} (hn : 2 * n + 2 < 8 * m.length) :
      runBit (addClockRun m prev) (2 * n + 2) =
        !(runBit (addClockRun m prev) (2 * n + 1) || runBit (addClockRun m prev) (2 * n + 3)) :=
    hlaw (n := n + 1) (by omega)
  refine ⟨fun ⟨hone, hnext⟩ => ?ones, fun hzeros => ?zeros⟩
  all_goals obtain ⟨n, rfl | rfl⟩ := k.even_or_odd'
  case ones.inl =>
    obtain ⟨hlt, hone⟩ := hin hone
    have h := hlaw (n := n) (by omega)
    simp [hone, (hin hnext).2] at h
  case ones.inr =>
    obtain ⟨hlt, hnext⟩ := hin hnext
    have h := hinner (n := n) hlt
    simp [(hin hone).2, hnext] at h
  case zeros.inl =>
    obtain ⟨hlt, hclk⟩ := hin (hzeros 2 (by omega))
    have h := hinner hlt
    simp [hclk, (hin (hzeros 1 (by omega))).2, (hin (hzeros 3 (by omega))).2] at h
  case zeros.inr =>
    obtain ⟨hlt, hclk⟩ := hin (hzeros 1 (by omega))
    have h := hinner (n := n) hlt
    simp [hclk, (hin (hzeros 0 (by omega))).2, (hin (hzeros 2 (by omega))).2] at h

end Sys2Proof.Machine
end

section
/-! PROOFS. The C64 sector statements, encoders: the layout of a sector, what `C64.ENCSEC` and `C64.ENCTRK`
write, and the order of the checks of `C64.ENCTRK`. -/

namespace Sys2Proof.Machine

/-! ## The layout of a C64 sector (R200, R201) -/

/-- R201: bit `j` of a gap is bit `j` of the repeated byte 0x55. -/
theorem c64GapBits_eq (n : Nat) :
    c64GapBits n = (List.range (8 * n)).map fun j => decide (j % 2 = 1) := by
  refine List.ext_getElem (by simp [c64GapBits]) fun j hj _ => ?_
  have hj' : j < 8 * n := by simpa [c64GapBits] using hj
  have hbyte : (List.replicate n (0x55 : Byte)).getD (j / 8) 0 = 0x55 := by
    rw [List.getD_eq_getElem _ _ (by simp; omega), List.getElem_replicate]
  have hbit : runBit (List.replicate n 0x55) (8 * (j / 8) + j % 8) = decide (j % 2 = 1) := by
    rw [runBit_eq_getLsbD _ (by omega), hbyte, getLsbD_dataMask (by omega)]
    exact decide_eq_decide.2 (by omega)
  rw [Nat.div_add_mod, runBit] at hbit
  rw [List.getElem_map, List.getElem_range, ← hbit, List.getD_eq_getElem]
  rfl

theorem c64SyncBits_eq (e : Byte) : c64SyncBits e = List.replicate 40 (decide (e ≠ 0x03)) := by
  rw [c64SyncBits, bne, beq_eq_decide, decide_not]

/-- Six parts put together give back each part at its offset. -/
theorem parts_at_offsets {α : Type} (a b c d e f : List α) :
    let all := a ++ b ++ c ++ d ++ e ++ f
    all.take a.length = a ∧
    (all.drop a.length).take b.length = b ∧
    (all.drop (a.length + b.length)).take c.length = c ∧
    (all.drop (a.length + b.length + c.length)).take d.length = d ∧
    (all.drop (a.length + b.length + c.length + d.length)).take e.length = e ∧
    all.drop (a.length + b.length + c.length + d.length + e.length) = f := by
  simp only [← List.drop_drop, List.append_assoc, List.drop_left, List.take_left, and_self]

/-- Settles O30: the six parts have fixed lengths but for the tail gap. -/
theorem c64SectorLayout : Obligations.C64SectorLayout := by
  intro cfg t k p id1 id2 e hp bits trk sec hck dck flip
  have hsync : (c64SyncBits e).length = 40 := by simp [c64SyncBits_eq]
  have hheader : (gcrBits (c64Header t k id1 id2 e)).length = 80 := by simp [c64Header]
  have hgap : (c64GapBits 9).length = 72 := by simp [c64GapBits]
  have hdata : (gcrBits (c64Data p e)).length = 2600 := by simp [c64Data, hp]
  have hparts := parts_at_offsets (c64SyncBits e) (gcrBits (c64Header t k id1 id2 e)) (c64GapBits 9)
    (c64SyncBits e) (gcrBits (c64Data p e)) (c64GapBits (tailGapOf cfg t))
  rw [hsync, hheader, hgap, hdata] at hparts
  obtain ⟨hsync1, hheader1, hgap1, hsync2, hdata1, htail⟩ := hparts
  refine ⟨?length, hsync1.trans (c64SyncBits_eq e), hheader1, hgap1.trans (c64GapBits_eq 9),
    hsync2.trans (c64SyncBits_eq e), hdata1, htail.trans (c64GapBits_eq _)⟩
  case length => simp only [bits, length_c64SectorBits, hp]

/-! ## Operands and checks of the encoders (R92, R210, R212) -/

/-- R92: a byte operand at any place of its register. -/
theorem byteField_eq_shift_setWidth (w : Word) (lo : Nat) :
    byteField w lo = (w >>> lo).setWidth 8 := by
  ext k hk
  simp [byteField]

/-- R207: the error code an operation with `useErr` in `A4[17]` takes for a sector. -/
theorem State.errorCode_opUseErr (s : State) (t k : Nat) :
    s.errorCode s.opUseErr t k =
      if s.host.a4.getLsbD 17 then s.byteAt .errtab (firstBlock t + k) else 1 := rfl

theorem State.opId1_eq (s : State) : s.opId1 = s.host.a4.setWidth 8 := byteField_eq_setWidth _

theorem State.opId2_eq (s : State) : s.opId2 = (s.host.a4 >>> 8).setWidth 8 :=
  byteField_eq_shift_setWidth _ 8

section running
variable {s : State} (hr : s.Running)
include hr

theorem exec_c64Encsec :
    exec .c64Encsec s =
      .next (encodeSectorOp s s.c64SectorOk Config.c64Payload (sectorBits s.cfg s.opT) fun p =>
        c64SectorBits s.cfg s.opT s.opS p s.opId1 s.opId2
          (s.errorCode s.opUseErr s.opT s.opS)) := by
  rw [exec, execC64Encsec, hostOp_running hr]

theorem exec_c64Enctrk : exec .c64Enctrk s = .next (runC64Enctrk s) := by
  rw [exec, execC64Enctrk, hostOp_running hr]

end running

/-- The operand check that ENCSEC, DECSEC and DECTRK share: iterator, track and sector, run of `DMEM`. -/
theorem State.sectorOperandsOk_iff (s : State) (legal : Bool) (n : Nat) :
    (s.iterOk && legal && dmemOk s.opAddr n) = true ↔
      LegalIter s.host.a1 ∧ legal = true ∧ InDmem s.opAddr n := by
  rw [Bool.and_eq_true, Bool.and_eq_true, s.iterOk_iff, dmemOk_iff, and_assoc]

section encsec
variable {s : State} {legal : Bool} {payload : Nat} (hu : s.Usable s.view)
  (hl : LegalIter s.host.a1 ∧ legal = true ∧ InDmem s.opAddr payload)
include hu hl

/-- R210, R248, R278: a view smaller than the sector. -/
theorem encodeSectorOp_of_small {size : Nat} (h : s.view.size < size)
    (bits : List Byte → List Bool) :
    encodeSectorOp s legal payload size bits = s.raiseFatal .capacity := by
  simp only [encodeSectorOp, if_pos ((s.sectorOperandsOk_iff legal payload).2 hl),
    (s.viewError_eq_none s.view).2 hu, gt_iff_lt, if_pos h]

/-- R210, R248, R278: a view that holds the sector. -/
theorem encodeSectorOp_of_fits {size : Nat} (h : size ≤ s.view.size)
    (bits : List Byte → List Bool) :
    encodeSectorOp s legal payload size bits =
      (s.setBits s.view s.opIter (bits (s.readBytes .dmem s.opAddr payload))).answered false false
        (some (wordOfNat size)) (some (wordOfInt (s.opIter + size))) none none := by
  simp only [encodeSectorOp, if_pos ((s.sectorOperandsOk_iff legal payload).2 hl),
    (s.viewError_eq_none s.view).2 hu, gt_iff_lt, if_neg (Nat.not_lt.2 h)]
  rfl

end encsec

/-- Settles O28: the sector is one run of bits written through the view. -/
theorem c64EncsecWritesTheSector : Obligations.C64EncsecWritesTheSector := by
  intro s hr hi hu t k src n ht hk hsrc
  have hl : LegalIter s.host.a1 ∧ s.c64SectorOk = true ∧ InDmem s.opAddr Config.c64Payload :=
    ⟨hi, s.c64SectorOk_iff.2 ⟨ht, hk⟩, hsrc⟩
  have hn : sectorBits s.cfg s.opT = n := rfl
  rw [exec_c64Encsec hr, hn]
  refine ⟨fun hsmall => ?capacity, fun hfits => ⟨_, rfl, ?written⟩⟩
  case capacity => rw [encodeSectorOp_of_small hu hl hsmall, State.raiseFatal_eq hr]
  case written =>
    rw [encodeSectorOp_of_fits hu hl hfits, State.withMemoriesOf_answered,
      State.withMemoriesOf_setBits, wroteBits_answered_iff, ← s.opId1_eq, ← s.opId2_eq]
    exact ⟨rfl, s.wroteBits_setBits s.view s.opIter _⟩

/-! ## One whole track (R211, R212) -/

/-- R212: how `C64.ENCTRK` ends in `t`, the state with the track encoded: a view of the whole
halftrack, and the results. -/
def State.endC64Enctrk (s t : State) : State :=
  (t.setView s.opV (View.whole (.trk (halftrack (2 * s.opT))) (nominalBits s.opT))).answered
    false false (some (wordOfNat (sectorCount s.opT * sectorBits s.cfg s.opT)))
    (some (wordOfNat (s.c64Start s.opT s.opAlign))) none none

/-- R212: what `C64.ENCTRK` leaves of `s` when its checks pass. -/
def State.afterC64Enctrk (s : State) : State :=
  s.endC64Enctrk (s.c64EncodeTrack s.opT
    (s.readBytes .dmem s.opAddr (256 * sectorCount s.opT)) s.opId1 s.opId2 s.opAlign s.opUseErr)

section enctrk
variable {s : State}

theorem runC64Enctrk_of_bad_track (ht : 42 ≤ s.opT) :
    runC64Enctrk s = s.raiseFatal .badOperand := by
  simpa only [ht, Nat.not_lt.2 ht, true_and, false_and, or_false] using runC64Enctrk_cases s

variable (ht : s.opT < 42)
include ht

theorem runC64Enctrk_of_no_disk (hp : s.disk.present = false) :
    runC64Enctrk s = s.fail .noDisk := by
  simpa only [ht, Nat.not_le.2 ht, hp, Bool.false_eq_true, true_and, false_and, and_false, or_false,
    false_or] using runC64Enctrk_cases s

variable (hp : s.disk.present = true)
include hp

theorem runC64Enctrk_of_bad_length (hlen : s.opSrcLen ≠ 256 * sectorCount s.opT) :
    runC64Enctrk s = s.fail .formatErr := by
  simpa only [ht, Nat.not_le.2 ht, hp, hlen, Bool.true_eq_false, ne_eq, not_false_eq_true, true_and,
    false_and, and_false, or_false, false_or] using runC64Enctrk_cases s

variable (hlen : s.opSrcLen = 256 * sectorCount s.opT)
include hlen

theorem runC64Enctrk_of_bad_source (hsrc : ¬InDmem s.opAddr (256 * sectorCount s.opT)) :
    runC64Enctrk s = s.raiseFatal .badOperand := by
  simpa only [ht, Nat.not_le.2 ht, hp, hlen, hsrc, Bool.true_eq_false, ne_eq, not_true_eq_false,
    not_false_eq_true, true_and, false_and, and_false, or_false, false_or]
    using runC64Enctrk_cases s

variable (hsrc : InDmem s.opAddr (256 * sectorCount s.opT))
include hsrc

theorem runC64Enctrk_of_too_long
    (hfit : nominalBits s.opT < sectorCount s.opT * sectorBits s.cfg s.opT) :
    runC64Enctrk s = s.raiseFatal .capacity := by
  simpa only [ht, Nat.not_le.2 ht, hp, hlen, hsrc, hfit, Nat.not_le.2 hfit, Bool.true_eq_false,
    ne_eq, not_true_eq_false, true_and, false_and, and_false, or_false, false_or]
    using runC64Enctrk_cases s

theorem runC64Enctrk_of_fits
    (hfit : sectorCount s.opT * sectorBits s.cfg s.opT ≤ nominalBits s.opT) :
    runC64Enctrk s = s.afterC64Enctrk := by
  have hrun := runC64Enctrk_cases s
  simp only [ht, Nat.not_le.2 ht, hp, hlen, hsrc, hfit, Nat.not_lt.2 hfit, Bool.true_eq_false,
    ne_eq, not_true_eq_false, true_and, false_and, and_false, false_or] at hrun
  exact hrun

end enctrk

/-- Settles O33: one lemma for each check, under the hypotheses that the ones before it pass. -/
theorem c64EnctrkChecksComeInOrder : Obligations.C64EnctrkChecksComeInOrder := by
  intro s hr u n size
  rw [exec_c64Enctrk hr]
  refine ⟨fun ht => ?track, fun ht hp => ?disk, fun ht hp hlen => ?length,
    fun ht hp hlen hsrc => ?source, fun ht hp hlen hsrc hfit => ?capacity⟩
  case track => rw [runC64Enctrk_of_bad_track ht, State.raiseFatal_eq hr]
  case disk => rw [runC64Enctrk_of_no_disk ht hp, State.fail_eq]
  case length => rw [runC64Enctrk_of_bad_length ht hp hlen, State.fail_eq]
  case source => rw [runC64Enctrk_of_bad_source ht hp hlen hsrc, State.raiseFatal_eq hr]
  case capacity => rw [runC64Enctrk_of_too_long ht hp hlen hsrc hfit, State.raiseFatal_eq hr]

/-- R211: the bits of a track whose sectors are read from `DMEM`, sector by sector. -/
theorem State.c64TrackBits_readBytes (s : State) (t src : Nat) (id1 id2 : Byte) (useErr : Bool) :
    s.c64TrackBits t (s.readBytes .dmem src (256 * sectorCount t)) id1 id2 useErr =
      (List.range (sectorCount t)).flatMap fun k =>
        c64SectorBits s.cfg t k (s.readBytes .dmem (src + 256 * k) 256) id1 id2
          (s.errorCode useErr t k) := by
  rw [State.c64TrackBits, List.flatMap, List.flatMap]
  refine congrArg List.flatten (List.map_congr_left fun k hk => ?_)
  rw [Config.c64Payload, imageChunk_readBytes s .dmem src 256 _ k (List.mem_range.1 hk)]

/-- The byte memories of a state decide what its tracks hold. -/
theorem State.TrackHolds.of_byteAt_eq {s t : State} (h : t.byteAt = s.byteAt) {u start : Nat}
    {bits : List Bool} (hs : s.TrackHolds u start bits) : t.TrackHolds u start bits := by
  simpa only [State.TrackHolds, State.bufBit, h] using hs

/-- Neither the view nor the results touch a memory. -/
theorem State.byteAt_endC64Enctrk (s t : State) : (s.endC64Enctrk t).byteAt = t.byteAt := by
  funext sp a
  cases sp <;> rfl

/-- Settles O32: the frame and the contents of an encoded track, which the view and the end of the
operation do not touch. -/
theorem c64EnctrkWritesTheTrack : Obligations.C64EnctrkWritesTheTrack := by
  intro s hr hp u src n size h start ht hlen hsrc hfit
  let image := s.readBytes .dmem src (256 * n)
  let t := s.c64EncodeTrack u image s.opId1 s.opId2 s.opAlign s.opUseErr
  obtain ⟨hrest, hdisk, hother⟩ :=
    s.c64EncodeTrack_frame u image s.opId1 s.opId2 s.opAlign s.opUseErr
  have hbytes : s.afterC64Enctrk.byteAt = t.byteAt := s.byteAt_endC64Enctrk t
  have hh : (h : Nat) = 2 * u := halftrack_val (by omega)
  refine ⟨s.afterC64Enctrk, ?exec, ?rest, ?disk, fun h' hne a => ?other, ?holds⟩
  case exec => rw [exec_c64Enctrk hr, runC64Enctrk_of_fits ht hp hlen hsrc hfit]
  case rest => exact congrArg s.endC64Enctrk hrest
  case disk =>
    refine hdisk.trans ?_
    simp only [bankSet_of_lt _ _ _ (show 2 * u < 84 by omega), hh]
  case other =>
    rw [hbytes]
    exact hother _ (fun he => hne (by injection he)) a
  case holds =>
    have hfits : (s.c64TrackBits u image s.opId1 s.opId2 s.opUseErr).length ≤ nominalBits u := by
      rw [s.length_c64TrackBits u image _ _ _ (s.length_readBytes ..).ge]
      exact hfit
    have hholds := s.c64EncodeTrack_holds u image s.opId1 s.opId2 s.opAlign s.opUseErr hfits
    rw [s.c64TrackBits_readBytes, s.opId1_eq, s.opId2_eq] at hholds
    exact State.TrackHolds.of_byteAt_eq hbytes hholds

end Sys2Proof.Machine
end

section
/-! PROOFS. The operations that decode sectors: what the DECSEC operations of the three codecs store and
answer, and how far their DECTRK operations come. -/

namespace Sys2Proof.Machine

section running
variable {s : State} (hr : s.Running)
include hr

theorem exec_c64Decsec :
    exec .c64Decsec s = .next (decodeSectorOp s s.c64SectorOk Config.c64Payload
      (fun b => b.c64DecodeSector (BitVec.ofNat 8 s.opS) s.opIter) c64DecsecResults) := by
  rw [exec, execC64Decsec, hostOp_running hr]

theorem exec_amiDecsec :
    exec .amiDecsec s = .next (decodeSectorOp s s.amiSectorOk Config.mfmPayload
      (fun b => b.amiDecodeSector (BitVec.ofNat 8 s.opS) s.opIter) headerLong) := by
  rw [exec, execAmiDecsec, hostOp_running hr]

theorem exec_dosDecsec :
    exec .dosDecsec s = .next (decodeSectorOp s s.dosSectorOk Config.mfmPayload
      (fun b => b.dosDecodeSector (BitVec.ofNat 8 s.opS) s.opIter) headerLong) := by
  rw [exec, execDosDecsec, hostOp_running hr]

theorem exec_c64Dectrk :
    exec .c64Dectrk s =
      .next (decodeTrackOp s (c64TrackOk s.opT) (sectorCount s.opT) Config.c64Payload fun b k =>
        b.c64DecodeSector (BitVec.ofNat 8 k) s.opIter) := by
  rw [exec, execC64Dectrk, hostOp_running hr]

theorem exec_amiDectrk :
    exec .amiDectrk s =
      .next (decodeTrackOp s (mfmTrackOk s.opT) Config.amigaSectors Config.mfmPayload fun b k =>
        b.amiDecodeSector (BitVec.ofNat 8 k) s.opIter) := by
  rw [exec, execAmiDectrk, hostOp_running hr]

theorem exec_dosDectrk :
    exec .dosDectrk s =
      .next (decodeTrackOp s (mfmTrackOk s.opT) Config.dosSectors Config.mfmPayload fun b k =>
        b.dosDecodeSector (BitVec.ofNat 8 k) s.opIter) := by
  rw [exec, execDosDectrk, hostOp_running hr]

end running

/-! ## One sector (R218, R252, R282) -/

/-- What a DECSEC operation answers with the decoded sector `d` of `size` bytes: the payload at `dst`, the
results in `R0` to `R3`, and nothing else but `STATUS` changed. -/
structure AnswersSector (s s' : State) (size : Nat) (d : Decoded) (r2 : Nat) (r3 : Option Word) :
    Prop where
  /-- The payload is a sector's. -/
  length : d.payload.length = size
  /-- It is stored. -/
  stored : WroteBytes s s' .dmem (field s.host.a3 0 32) d.payload
  /-- The results. -/
  results : s'.withMemoriesOf s = s.answered false false (some (BitVec.ofNat 64 size))
    (some (BitVec.ofInt 64 d.mark)) (some (BitVec.ofNat 64 r2)) r3

/-- `R0` to `R3` are the results of a DECSEC operation, with `R2` and `R3` taken from the header. -/
def ResultsAre (results : State → Decoded → State) (r2 : Decoded → Nat)
    (r3 : Decoded → Option Word) : Prop :=
  ∀ (s : State) (d : Decoded) (a b : Word), (results ((s.setR0 a).setR1 b) d).ok =
    s.answered false false (some a) (some b) (some (wordOfNat (r2 d))) (r3 d)

theorem c64DecsecResults_are :
    ResultsAre c64DecsecResults (fun d => (d.header.getD 3 0).toNat)
      (fun d => some (wordOfNat ((d.header.getD 4 0).toNat * 256 + (d.header.getD 5 0).toNat))) :=
  fun _ _ _ _ => rfl

theorem headerLong_are :
    ResultsAre headerLong (fun d => (d.header.getD 0 0).toNat * 2 ^ 24 +
      (d.header.getD 1 0).toNat * 2 ^ 16 + (d.header.getD 2 0).toNat * 2 ^ 8 +
      (d.header.getD 3 0).toNat) (fun _ => none) :=
  fun _ _ _ _ => rfl

section decsec
variable {s : State} {legal : Bool} {size : Nat} (hu : s.Usable s.view)
  (hl : LegalIter s.host.a1 ∧ legal = true ∧ InDmem s.opAddr size)
  {decode : BitStream → Except ErrCode Decoded} {results : State → Decoded → State}
include hu hl

theorem decodeSectorOp_of_error {e : ErrCode} (h : decode s.viewStream = .error e) :
    decodeSectorOp s legal size decode results = s.failed e := by
  simp only [decodeSectorOp, if_pos ((s.sectorOperandsOk_iff legal size).2 hl),
    (s.viewError_eq_none s.view).2 hu, h, State.fail_eq]

theorem decodeSectorOp_of_ok {d : Decoded} {r2 : Decoded → Nat} {r3 : Decoded → Option Word}
    (h : decode s.viewStream = .ok d) (hlen : d.payload.length = size)
    (hres : ResultsAre results r2 r3) :
    AnswersSector s (decodeSectorOp s legal size decode results) size d (r2 d) (r3 d) := by
  have hrun : decodeSectorOp s legal size decode results =
      (s.writeBytes .dmem s.opAddr d.payload).answered false false (some (wordOfNat size))
        (some (wordOfInt d.mark)) (some (wordOfNat (r2 d))) (r3 d) := by
    simp only [decodeSectorOp, if_pos ((s.sectorOperandsOk_iff legal size).2 hl),
      (s.viewError_eq_none s.view).2 hu, h, hres _ d]
  rw [hrun]
  refine ⟨hlen, ?stored, ?results⟩
  case stored =>
    rw [wroteBytes_answered_iff]
    exact s.wroteBytes_writeBytes .dmem _ _
  case results =>
    rw [State.withMemoriesOf_answered, State.withMemoriesOf_writeBytes]
    rfl

end decsec

/-- Settles O35: the three operations share one shape, and each codec hands on payloads of its
size. -/
theorem decsecStoresThePayload : Obligations.DecsecStoresThePayload := by
  intro s hr hi hu t k dst b start answers long
  have decoded {op : Instr} {size : Nat} {legal : Bool}
      {decode : BitStream → Except ErrCode Decoded} {results : State → Decoded → State}
      {r2 : Decoded → Nat} {r3 : Decoded → Option Word}
      (hexec : exec op s = .next (decodeSectorOp s legal size decode results))
      (hlegal : legal = true) (hdst : InDmem s.opAddr size)
      (hsize : ∀ d, decode b = .ok d → d.payload.length = size)
      (hres : ResultsAre results r2 r3) :
      (∀ d, decode b = .ok d → answers op size d (r2 d) (r3 d)) ∧
        ∀ e, decode b = .error e → exec op s = .next (s.failed e) := by
    rw [hexec]
    refine ⟨fun d hd => ?ok, fun e he => ?error⟩
    case ok =>
      obtain ⟨hlen, hstored, hrest⟩ :=
        decodeSectorOp_of_ok hu ⟨hi, hlegal, hdst⟩ hd (hsize d hd) hres
      exact ⟨_, hexec, hlen, hstored, hrest⟩
    case error => rw [decodeSectorOp_of_error hu ⟨hi, hlegal, hdst⟩ he]
  exact ⟨fun ht hk hdst => decoded (exec_c64Decsec hr) (s.c64SectorOk_iff.2 ⟨ht, hk⟩) hdst
      (fun _ => length_c64Payload) c64DecsecResults_are,
    fun ht hk hdst => decoded (exec_amiDecsec hr) (s.amiSectorOk_iff.2 ⟨ht, hk⟩) hdst
      (fun _ => length_amiPayload) headerLong_are,
    fun ht hk hdst => decoded (exec_dosDecsec hr) (s.dosSectorOk_iff.2 ⟨ht, hk⟩) hdst
      (fun _ => length_dosPayload) headerLong_are⟩

/-! ## The sectors of a track (R219, R253, R283) -/

theorem decodeTrackOp_of_usable {s : State} {legal : Bool} {n size : Nat} (hu : s.Usable s.view)
    (hl : LegalIter s.host.a1 ∧ legal = true ∧ InDmem s.opAddr (size * n))
    (decode : BitStream → Nat → Except ErrCode Decoded) :
    decodeTrackOp s legal n size decode = decodeTrackLoop size decode n 0 s := by
  simp only [decodeTrackOp, if_pos ((s.sectorOperandsOk_iff legal _).2 hl),
    (s.viewError_eq_none s.view).2 hu]

/-- What a DECTRK operation that ends in `t` has done: the sectors `ds` decode one after the other, each
from the memory with the payloads before it stored, and the next one, if there is one, does not. -/
def DecodesInOrder (s t : State) (n size : Nat)
    (decode : BitStream → Byte → Int → Except ErrCode Decoded) : Prop :=
  let reads := fun ds : List Decoded =>
    (s.writeBytes .dmem s.opAddr (ds.flatMap Decoded.payload)).stream s.view
  ∃ ds : List Decoded, ds.length ≤ n ∧ (∀ d ∈ ds, d.payload.length = size) ∧
    (∀ k (h : k < ds.length), decode (reads (ds.take k)) (BitVec.ofNat 8 k) s.opIter = .ok ds[k]) ∧
    WroteBytes s t .dmem s.opAddr (ds.flatMap Decoded.payload) ∧
    ∃ e : ErrCode,
      (if ds.length = n then e = .ok
        else decode (reads ds) (BitVec.ofNat 8 ds.length) s.opIter = .error e) ∧
      t.withMemoriesOf s =
        { s with host := { s.host with
            r0 := BitVec.ofNat 64 (size * ds.length)
            r1 := BitVec.ofNat 64 ds.length
            status := { s.host.status with
              err := e, found := false, gcrInv := decide (e = .gcrErr) } } }

theorem State.byteAt_setR0_setR1_fail (s : State) (a b : Word) (e : ErrCode) :
    (((s.setR0 a).setR1 b).fail e).byteAt = s.byteAt := by
  funext sp i
  cases sp <;> rfl

theorem State.withMemoriesOf_setR0_setR1_fail (t s : State) (a b : Word) (e : ErrCode) :
    (((t.setR0 a).setR1 b).fail e).withMemoriesOf s =
      (((t.withMemoriesOf s).setR0 a).setR1 b).fail e := rfl

/-- R219: the loop from the first sector on. -/
theorem decodeTrackLoop_decodesInOrder (s : State) (n size : Nat)
    {decode : BitStream → Byte → Int → Except ErrCode Decoded}
    (hsize : ∀ {b sec start d}, decode b sec start = .ok d → d.payload.length = size) :
    DecodesInOrder s
      (decodeTrackLoop size (fun b k => decode b (BitVec.ofNat 8 k) s.opIter) n 0 s)
      n size decode := by
  obtain ⟨ds, e, hle, hlen, hok, hend, hloop⟩ :=
    decodeTrackLoop_spec size (fun b k => decode b (BitVec.ofNat 8 k) s.opIter)
      (fun _ _ _ => hsize) n 0 s
  simp only [Nat.mul_zero, Nat.add_zero, Nat.zero_add] at hok hend hloop
  rw [hloop]
  refine ⟨ds, hle, hlen, hok, ?stored, e, hend, ?rest⟩
  case stored =>
    simpa only [WroteBytes, State.byteAt_setR0_setR1_fail]
      using s.wroteBytes_writeBytes .dmem s.opAddr (ds.flatMap Decoded.payload)
  case rest =>
    rw [State.withMemoriesOf_setR0_setR1_fail, State.withMemoriesOf_writeBytes, State.fail_eq]
    rfl

/-- Settles O37: the three operations are the same loop. -/
theorem dectrkDecodesInOrder : Obligations.DectrkDecodesInOrder := by
  intro s hr hi hu t dst start decodes
  have decoded {op : Instr} {n size : Nat} {legal : Bool}
      {decode : BitStream → Byte → Int → Except ErrCode Decoded}
      (hexec : exec op s = .next (decodeTrackOp s legal n size fun b k =>
        decode b (BitVec.ofNat 8 k) s.opIter))
      (hlegal : legal = true) (hdst : InDmem s.opAddr (size * n))
      (hsize : ∀ {b sec start d}, decode b sec start = .ok d → d.payload.length = size) :
      decodes op n size decode := by
    rw [decodeTrackOp_of_usable hu ⟨hi, hlegal, hdst⟩] at hexec
    obtain ⟨ds, hds⟩ := decodeTrackLoop_decodesInOrder s n size (decode := decode) hsize
    exact ⟨ds, _, hexec, hds⟩
  exact ⟨fun ht hdst => decoded (exec_c64Dectrk hr) ((c64TrackOk_iff _).2 ht) hdst length_c64Payload,
    fun ht hdst => decoded (exec_amiDectrk hr) ((mfmTrackOk_iff _).2 ht) hdst length_amiPayload,
    fun ht hdst => decoded (exec_dosDectrk hr) ((mfmTrackOk_iff _).2 ht) hdst length_dosPayload⟩

end Sys2Proof.Machine
end

section
/-! PROOFS. The sector decoders of the three codecs: which sectors decode, with which bytes of the track, and
which failure is reported first. -/

namespace Sys2Proof.Machine

/-! ## Runs of bytes of a stream -/

/-- R168: a run that decodes is its first bytes and its last one. -/
theorem BitStream.decodeGcrBytes_succ {b : BitStream} :
    ∀ {m : Nat} {pos : Int} {l : List Byte}, b.decodeGcrBytes pos (m + 1) = some l →
      b.decodeGcrBytes pos m = some (l.take m) ∧ b.decodeGcr (pos + 10 * m) = some (l.getD m 0) := by
  intro m
  induction m with
  | zero =>
    intro pos l h
    rw [BitStream.decodeGcrBytes] at h
    split at h
    · cases h
    next x hx =>
      obtain rfl : [x] = l := by simpa [BitStream.decodeGcrBytes] using h
      simpa [BitStream.decodeGcrBytes] using hx
  | succ m ih =>
    intro pos l h
    rw [BitStream.decodeGcrBytes] at h ⊢
    split at h
    · cases h
    next x hx =>
      obtain ⟨l', hl', rfl⟩ := Option.map_eq_some_iff.1 h
      obtain ⟨hfirst, hlast⟩ := ih hl'
      rw [hfirst, List.take_succ_cons, List.getD_cons_succ, ← hlast]
      refine ⟨rfl, congrArg b.decodeGcr ?_⟩
      push_cast
      omega

theorem BitStream.take_drop_bytesAt (b : BitStream) (p : Int) {i m n : Nat} (h : i + m ≤ n) :
    ((b.bytesAt p n).drop i).take m = b.bytesAt (p + 8 * i) m := by
  refine List.ext_getElem (by simp [length_bytesAt]; omega) fun k _ _ => ?_
  simp only [BitStream.bytesAt, List.getElem_take, List.getElem_drop, List.getElem_map,
    List.getElem_range, Nat.cast_add]
  congr 1
  ring

theorem BitStream.take_bytesAt (b : BitStream) (p : Int) {m n : Nat} (h : m ≤ n) :
    (b.bytesAt p n).take m = b.bytesAt p m := by
  simpa using b.take_drop_bytesAt p (i := 0) (m := m) (n := n) (by omega)

theorem BitStream.drop_bytesAt (b : BitStream) (p : Int) (i m : Nat) :
    (b.bytesAt p (i + m)).drop i = b.bytesAt (p + 8 * i) m := by
  rw [← b.take_drop_bytesAt p (Nat.le_refl (i + m)), List.take_of_length_le]
  simp [length_bytesAt]

theorem BitStream.take_drop_rdMfmRun (b : BitStream) (p : Int) {i m n : Nat} (h : i + m ≤ n) :
    ((b.rdMfmRun p n).drop i).take m = b.rdMfmRun (p + 16 * i) m := by
  refine List.ext_getElem (by simp [length_rdMfmRun]; omega) fun k _ _ => ?_
  simp only [BitStream.rdMfmRun, List.getElem_take, List.getElem_drop, List.getElem_map,
    List.getElem_range, Nat.cast_add]
  congr 1
  ring

theorem BitStream.take_rdMfmRun (b : BitStream) (p : Int) {m n : Nat} (h : m ≤ n) :
    (b.rdMfmRun p n).take m = b.rdMfmRun p m := by
  simpa using b.take_drop_rdMfmRun p (i := 0) (m := m) (n := n) (by omega)

theorem BitStream.drop_rdMfmRun (b : BitStream) (p : Int) (i m : Nat) :
    (b.rdMfmRun p (i + m)).drop i = b.rdMfmRun (p + 16 * i) m := by
  rw [← b.take_drop_rdMfmRun p (Nat.le_refl (i + m)), List.take_of_length_le]
  simp [length_rdMfmRun]

theorem BitStream.getD_rdMfmRun (b : BitStream) (p : Int) {k n : Nat} (h : k < n) :
    (b.rdMfmRun p n).getD k 0 = b.rdMfm (p + 16 * k) := by
  rw [List.getD_eq_getElem _ _ (by simpa [length_rdMfmRun] using h)]
  simp [BitStream.rdMfmRun]

/-! ## The checks on the bytes of the track (R245, R251, R273, R281) -/

/-- R251: the header check, by the places of its bytes. -/
theorem BitStream.amiHeaderOk_iff (b : BitStream) (p : Int) :
    amiHeaderOk (b.bytesAt p 1080) = true ↔
      xor4 (b.bytesAt p 40) = oeDecode (b.bytesAt (p + 320) 8) := by
  rw [amiHeaderOk, beq_iff_eq, b.take_bytesAt p (by omega), b.take_drop_bytesAt p (by omega)]
  rfl

/-- R251: the data check, by the places of its bytes. -/
theorem BitStream.amiDataOk_iff (b : BitStream) (p : Int) :
    amiDataOk (b.bytesAt p 1080) = true ↔
      xor4 (b.bytesAt (p + 448) 1024) = oeDecode (b.bytesAt (p + 384) 8) := by
  rw [amiDataOk, beq_iff_eq, b.drop_bytesAt p 56 1024, b.take_drop_bytesAt p (by omega)]
  rfl

/-- R281: the header check, by the places of its bytes. -/
theorem BitStream.dosHeaderOk_iff (b : BitStream) (p : Int) :
    dosHeaderOk (b.rdMfmRun p 7) = true ↔
      crcBytes ([0xA1, 0xA1, 0xA1] ++ b.rdMfmRun p 5) = b.rdMfmRun (p + 80) 2 := by
  rw [dosHeaderOk, beq_iff_eq, b.take_rdMfmRun p (by omega), b.drop_rdMfmRun p 5 2]
  rfl

/-- R281: the data check, by the places of its bytes. -/
theorem BitStream.dosDataOk_iff (b : BitStream) (p : Int) :
    dosDataOk (b.rdMfmRun p 514) = true ↔
      crcBytes ([0xA1, 0xA1, 0xA1, 0xFB] ++ b.rdMfmRun p 512) = b.rdMfmRun (p + 8192) 2 := by
  rw [dosDataOk, beq_iff_eq, Config.mfmPayload, b.take_rdMfmRun p (by omega),
    b.drop_rdMfmRun p 512 2]
  rfl

/-! ## The first check that fails is reported (R215, R251, R281) -/

/-- R215: what the decoder makes of what the seek answers. -/
theorem BitStream.c64DecodeSector_eq (b : BitStream) (sec : Byte) (start : Int) :
    b.c64DecodeSector sec start = match b.c64SeekSector sec start with
      | none => .error .seekErr
      | some r => match b.decodeGcrBytes r.mark 6 with
        | none => .error .gcrErr
        | some h =>
          if h.getD 1 0 ≠ h.getD 2 0 ^^^ h.getD 3 0 ^^^ h.getD 4 0 ^^^ h.getD 5 0 then
            .error .hdrCksum
          else match b.decodeGcrBytes r.first 257 with
            | none => .error .gcrErr
            | some d =>
              if d.getD 256 0 ≠ (d.take 256).foldl (· ^^^ ·) 0 then .error .dataCksum
              else .ok ⟨d.take 256, h, r.mark⟩ := by
  rw [BitStream.c64DecodeSector]
  rcases b.c64SeekSector sec start with _ | r
  · rfl
  dsimp only
  rcases hheader : b.decodeGcrBytes r.mark 6 with _ | h
  · rfl
  rcases b.decodeGcrBytes r.first 257 with _ | d <;>
    simp only [c64HeaderOk_iff h (length_of_decodeGcrBytes hheader), c64DataOk_iff, ite_not,
      Config.c64Payload]

/-- R251: what the decoder makes of what the seek answers. -/
theorem BitStream.amiDecodeSector_eq (b : BitStream) (sec : Byte) (start : Int) :
    b.amiDecodeSector sec start = match b.amiSeekSector sec start with
      | none => .error .seekErr
      | some r =>
        if xor4 (b.bytesAt r.mark 40) ≠ oeDecode (b.bytesAt (r.mark + 320) 8) then
          .error .hdrCksum
        else if xor4 (b.bytesAt (r.mark + 448) 1024) ≠ oeDecode (b.bytesAt (r.mark + 384) 8) then
          .error .dataCksum
        else .ok ⟨oeDecode (b.bytesAt (r.mark + 448) 1024), oeDecode (b.bytesAt r.mark 8), r.mark⟩ := by
  rw [BitStream.amiDecodeSector]
  rcases b.amiSeekSector sec start with _ | r
  · rfl
  dsimp only
  rw [b.drop_bytesAt r.mark 56 1024, b.take_bytesAt r.mark (by omega)]
  simp only [Bool.not_eq_true', Bool.eq_false_iff, ne_eq, b.amiHeaderOk_iff, b.amiDataOk_iff]
  rfl

/-- R281: what the decoder makes of what the seek answers. -/
theorem BitStream.dosDecodeSector_eq (b : BitStream) (sec : Byte) (start : Int) :
    b.dosDecodeSector sec start = match b.dosSeekSector sec start with
      | none => .error .seekErr
      | some r =>
        if crcBytes ([0xA1, 0xA1, 0xA1] ++ b.rdMfmRun r.mark 5) ≠ b.rdMfmRun (r.mark + 80) 2 then
          .error .hdrCksum
        else if crcBytes ([0xA1, 0xA1, 0xA1, 0xFB] ++ b.rdMfmRun r.first 512) ≠
            b.rdMfmRun (r.first + 8192) 2 then
          .error .dataCksum
        else .ok ⟨b.rdMfmRun r.first 512, b.rdMfmRun (r.mark + 16) 4, r.mark⟩ := by
  rw [BitStream.dosDecodeSector]
  rcases b.dosSeekSector sec start with _ | r
  · rfl
  dsimp only
  rw [Config.mfmPayload, b.take_rdMfmRun r.first (by omega),
    b.take_drop_rdMfmRun r.mark (by omega)]
  simp only [Bool.not_eq_true', Bool.eq_false_iff, ne_eq, b.dosHeaderOk_iff, b.dosDataOk_iff]
  rfl

/-! ## What a decoded sector is (R215, R251, R281) -/

/-- R215: a C64 sector that decodes, from what the seek answers. -/
theorem BitStream.c64DecodeSector_ok {b : BitStream} {sec : Byte} {start : Int} {d : Decoded}
    (h : b.c64DecodeSector sec start = .ok d) :
    ∃ r, b.c64SeekSector sec start = some r ∧ d.mark = r.mark ∧
      b.decodeGcrBytes r.mark 6 = some d.header ∧
      d.header.getD 1 0 = d.header.getD 2 0 ^^^ d.header.getD 3 0 ^^^ d.header.getD 4 0 ^^^
        d.header.getD 5 0 ∧
      b.decodeGcrBytes r.first 256 = some d.payload ∧
      b.decodeGcr (r.first + 2560) = some (d.payload.foldl (· ^^^ ·) 0) := by
  rw [BitStream.c64DecodeSector_eq] at h
  split at h
  · cases h
  next r hseek =>
    split at h
    · cases h
    next header hheader =>
      split at h
      · cases h
      next hck =>
        split at h
        · cases h
        next data hdata =>
          split at h
          · cases h
          next hdck =>
            cases h
            obtain ⟨hpayload, hlast⟩ := BitStream.decodeGcrBytes_succ hdata
            rw [Decidable.not_not.1 hdck] at hlast
            exact ⟨r, hseek, rfl, hheader, Decidable.not_not.1 hck, hpayload, hlast⟩

/-- R251: an Amiga sector that decodes, from what the seek answers. -/
theorem BitStream.amiDecodeSector_ok {b : BitStream} {sec : Byte} {start : Int} {d : Decoded}
    (h : b.amiDecodeSector sec start = .ok d) :
    ∃ r, b.amiSeekSector sec start = some r ∧
      d = ⟨oeDecode (b.bytesAt (r.mark + 448) 1024), oeDecode (b.bytesAt r.mark 8), r.mark⟩ ∧
      xor4 (b.bytesAt r.mark 40) = oeDecode (b.bytesAt (r.mark + 320) 8) ∧
      xor4 (b.bytesAt (r.mark + 448) 1024) = oeDecode (b.bytesAt (r.mark + 384) 8) := by
  rw [BitStream.amiDecodeSector_eq] at h
  split at h
  · cases h
  next r hseek =>
    split at h
    · cases h
    next hck =>
      split at h
      · cases h
      next hdck =>
        cases h
        exact ⟨r, hseek, rfl, Decidable.not_not.1 hck, Decidable.not_not.1 hdck⟩

/-- R281: a DOS sector that decodes, from what the seek answers. -/
theorem BitStream.dosDecodeSector_ok {b : BitStream} {sec : Byte} {start : Int} {d : Decoded}
    (h : b.dosDecodeSector sec start = .ok d) :
    ∃ r, b.dosSeekSector sec start = some r ∧
      d = ⟨b.rdMfmRun r.first 512, b.rdMfmRun (r.mark + 16) 4, r.mark⟩ ∧
      crcBytes ([0xA1, 0xA1, 0xA1] ++ b.rdMfmRun r.mark 5) = b.rdMfmRun (r.mark + 80) 2 ∧
      crcBytes ([0xA1, 0xA1, 0xA1, 0xFB] ++ b.rdMfmRun r.first 512) =
        b.rdMfmRun (r.first + 8192) 2 := by
  rw [BitStream.dosDecodeSector_eq] at h
  split at h
  · cases h
  next r hseek =>
    split at h
    · cases h
    next hck =>
      split at h
      · cases h
      next hdck =>
        obtain rfl := Except.ok.inj h
        exact ⟨r, hseek, rfl, Decidable.not_not.1 hck, Decidable.not_not.1 hdck⟩

/-- R250: where the payload of an Amiga sector begins. -/
theorem BitStream.amiSeekSector_first {b : BitStream} {sec : Byte} {start : Int} {r : SectorRange}
    (h : b.amiSeekSector sec start = some r) : r.first = r.mark + 448 := by
  obtain ⟨-, -, -, -, hfirst, -⟩ := BitStream.amiSeekLoop_some le_rfl h
  exact hfirst

/-- Settles O36: what the seek answers, and what the decoder makes of it. -/
theorem decodedSectorIsWhatTheTrackHolds : Obligations.DecodedSectorIsWhatTheTrackHolds := by
  intro b sec start
  refine ⟨fun d hd => ?c64, fun d hd => ?ami, fun d hd => ?dos, b.c64DecodeSector_eq sec start,
    ?amiEq, b.dosDecodeSector_eq sec start⟩
  case c64 =>
    obtain ⟨r, hseek, hmark, hheader, hck, hpayload, hdck⟩ := BitStream.c64DecodeSector_ok hd
    obtain ⟨hstart, ⟨⟨hones, hzero⟩, hid⟩, hsec, hfirst, ⟨⟨hones', hzero'⟩, hid'⟩, -, -⟩ :=
      BitStream.c64SeekSector_some hseek
    rw [hmark]
    refine ⟨r.first, r.first + 2560, by omega, by omega, hones, hzero, hid, hsec, ?_, hzero', hid',
      hheader, rfl, hpayload, hdck, hck⟩
    rwa [show r.first - 20 = r.first - 10 - 10 by omega]
  case ami =>
    obtain ⟨r, hseek, rfl, hck, hdck⟩ := BitStream.amiDecodeSector_ok hd
    obtain ⟨hstart, -, hsync, hsec, -, -⟩ := BitStream.amiSeekLoop_some le_rfl hseek
    exact ⟨hstart, hsync, rfl, hsec, rfl, hck, hdck⟩
  case dos =>
    obtain ⟨r, hseek, rfl, hck, hdck⟩ := BitStream.dosDecodeSector_ok hd
    obtain ⟨hfind, hforward, hdata, -⟩ := BitStream.dosSeekSector_some hseek
    obtain ⟨hstart, -, hsync, hid, hsec⟩ := BitStream.dosFindHeader_some hfind
    obtain ⟨hlater, -, hsync', -⟩ := BitStream.forward_some hforward
    dsimp only
    refine ⟨r.first, hstart, by omega, hsync, hid, ?_, hdata, rfl, ?_, rfl, hck, hdck⟩
    · rw [show r.first - 64 = r.first - 16 - (48 : Nat) by omega, hsync']
      rfl
    · rw [← hsec, b.getD_rdMfmRun _ (by omega), Int.add_assoc]
      rfl
  case amiEq =>
    rw [b.amiDecodeSector_eq]
    rcases hseek : b.amiSeekSector sec start with _ | r
    · rfl
    · simp only [BitStream.amiSeekSector_first hseek]

end Sys2Proof.Machine
end

section
/-! PROOFS. The SEEK operations of the three codecs: what they answer with what the scan finds, and what the
scan finds when the wanted header is the first block. -/

namespace Sys2Proof.Machine

section running
variable {s : State} (hr : s.Running)
include hr

theorem exec_c64Seek :
    exec .c64Seek s =
      .next (seekOp s fun b => b.c64SeekSector (BitVec.ofNat 8 s.opS) s.opIter) := by
  rw [exec, execC64Seek, hostOp_running hr]

theorem exec_amiSeek :
    exec .amiSeek s =
      .next (seekOp s fun b => b.amiSeekSector (BitVec.ofNat 8 s.opS) s.opIter) := by
  rw [exec, execAmiSeek, hostOp_running hr]

theorem exec_dosSeek :
    exec .dosSeek s =
      .next (seekOp s fun b => b.dosSeekSector (BitVec.ofNat 8 s.opS) s.opIter) := by
  rw [exec, execDosSeek, hostOp_running hr]

end running

/-! ## What a SEEK answers (R221, R254, R284) -/

/-- R221: `s` after a SEEK that found this range, or nothing. -/
def State.sought (s : State) : Option SectorRange → State
  | some r => s.answered true false (some (wordOfInt r.first)) (some (wordOfInt r.last))
      (some (wordOfInt r.mark)) none
  | none => s.failed .notFound

theorem seekOp_of_usable {s : State} (hi : LegalIter s.host.a1) (hu : s.Usable s.view)
    (seek : BitStream → Option SectorRange) : seekOp s seek = s.sought (seek s.viewStream) := by
  simp only [seekOp, if_pos (s.iterOk_iff.2 hi), (s.viewError_eq_none s.view).2 hu]
  rcases seek s.viewStream with _ | r
  · exact s.fail_eq .notFound
  · rfl

/-- R92: the sector number of an operation as a byte. -/
theorem State.ofNat_opS (s : State) : BitVec.ofNat 8 s.opS = (s.host.a2 >>> 8).setWidth 8 := by
  rw [State.opS, field, BitVec.ofNat_toNat, BitVec.setWidth_eq]
  exact byteField_eq_shift_setWidth s.host.a2 8

/-! ## The payload range behind a header (R213, R280) -/

/-- R213: the range behind the header at `p`, whose next marked block must be a data block. -/
def BitStream.c64Payload (b : BitStream) (p : Int) : Option SectorRange :=
  match b.c64NextBlock (p + 80) with
  | some (_, q) => if b.decodeGcr q = some 0x07 then some ⟨p, q + 10, q + 2570⟩ else none
  | none => none

/-- R280: the range behind the header at `p`, whose next marked block must be a data block. -/
def BitStream.dosPayload (b : BitStream) (p : Int) : Option SectorRange :=
  match b.forward (p + 112) dosSync 48 with
  | some q => if b.rdMfm q = 0xFB then some ⟨p, q + 16, q + 8208⟩ else none
  | none => none

theorem BitStream.c64SeekSector_eq_bind (b : BitStream) (sec : Byte) (start : Int) :
    b.c64SeekSector sec start =
      (b.c64FindHeader sec start (scanFuel b) start []).bind b.c64Payload := by
  rw [BitStream.c64SeekSector]
  rcases b.c64FindHeader sec start (scanFuel b) start [] with _ | p
  · rfl
  rw [Option.bind_some, BitStream.c64Payload]
  dsimp only
  rcases b.c64NextBlock (p + 80) with _ | ⟨p0, q⟩
  · rfl
  · simp only [Int.add_assoc]
    rfl

theorem BitStream.dosSeekSector_eq_bind (b : BitStream) (sec : Byte) (start : Int) :
    b.dosSeekSector sec start = (b.dosFindHeader sec start).bind b.dosPayload := by
  rw [BitStream.dosSeekSector]
  rcases b.dosFindHeader sec start with _ | p
  · rfl
  rw [Option.bind_some, BitStream.dosPayload]
  dsimp only
  rcases b.forward (p + 112) dosSync 48 with _ | q
  · rfl
  · simp only [Int.add_assoc]
    rfl

/-! ## The wanted header as the first block (R213, R250, R280) -/

/-- R213: the search is over with its first block when that is the wanted header. -/
theorem BitStream.c64FindHeader_of_first {b : BitStream} {sec : Byte} {start p0 p : Int}
    (hnext : b.c64NextBlock start = some (p0, p)) (hid : b.decodeGcr p = some 0x08)
    (hsec : b.decodeGcr (p + 20) = some sec) :
    b.c64FindHeader sec start (scanFuel b) start [] = some p := by
  obtain ⟨-, -, hnear, -⟩ := BitStream.c64NextBlock_some hnext
  simp only [scanFuel, BitStream.c64FindHeader, hnext, hid, hsec, ge_iff_le,
    if_neg (show ¬(b.size : Int) ≤ p0 - 10 - start by omega), if_true, List.not_mem_nil, if_false]

/-- R280: the search is over with its first block when that is the wanted header. -/
theorem BitStream.dosFindHeader_of_first {b : BitStream} {sec : Byte} {start p : Int}
    (hnext : b.forward start dosSync 48 = some p) (hid : b.rdMfm p = 0xFE)
    (hsec : b.rdMfm (p + 48) = sec + 1) : b.dosFindHeader sec start = some p := by
  obtain ⟨-, hnear, -⟩ := BitStream.forward_some hnext
  have hnum : b.rdMfm (p + 48) - 1 = sec := by rw [hsec, BitVec.add_sub_cancel]
  simp only [BitStream.dosFindHeader, scanFuel, BitStream.dosFindLoop, hnext, hid, hnum, ge_iff_le,
    if_neg (show ¬(b.size : Int) ≤ p - 48 - start by omega), if_true, List.not_mem_nil, if_false]

/-- R250: the search is over with its first block when that has the wanted number. -/
theorem BitStream.amiSeekSector_of_first {b : BitStream} {sec : Byte} {start p : Int}
    (hnext : b.forward start amiSync 32 = some p)
    (hsec : (oeDecode (b.bytesAt p 8)).getD 2 0 = sec) :
    b.amiSeekSector sec start = some ⟨p, p + 448, p + 8640⟩ := by
  obtain ⟨-, hnear, -⟩ := BitStream.forward_some hnext
  simp only [BitStream.amiSeekSector, scanFuel, BitStream.amiSeekLoop, hnext, BitStream.amiInfoAt,
    hsec, ge_iff_le, if_neg (show ¬(b.size : Int) ≤ p - 32 - start by omega), if_true,
    List.not_mem_nil, if_false, Int.add_assoc]
  rfl

/-! ## C64 sync marks (R208) -/

/-- R208: a mark that ends: its first ten ones are the next ones, and only ones follow up to its end. -/
theorem BitStream.c64NextBlock_ends {b : BitStream} {it p0 p : Int}
    (h : b.c64NextBlock it = some (p0, p)) :
    b.forward it 0x3FF 10 = some p0 ∧ p0 ≤ p ∧ p < p0 + b.size ∧ b.get p = false ∧
      ∀ m, p0 ≤ m → m < p → b.get m = true := by
  rw [BitStream.c64NextBlock] at h
  split at h
  · cases h
  next q hforward =>
    obtain ⟨p', hskip, hpair⟩ := Option.map_eq_some_iff.1 h
    cases hpair
    exact ⟨hforward, b.skipOnes_some _ _ _ hskip⟩

/-- R208: a mark that does not end: a whole revolution of ones follows its first ten. -/
theorem BitStream.c64NextBlock_endless {b : BitStream} {it p0 : Int}
    (h : b.c64NextBlock it = none) (hforward : b.forward it 0x3FF 10 = some p0) :
    ∀ m, p0 ≤ m → m < p0 + b.size → b.get m = true := by
  simp only [BitStream.c64NextBlock, hforward, Option.map_eq_none_iff] at h
  intro m hle hlt
  have hone := b.skipOnes_none _ _ h (m - p0).toNat (by omega)
  rwa [show p0 + ((m - p0).toNat : Int) = m by omega] at hone

/-- R250: the header the scan finds, and the range behind it. -/
theorem BitStream.amiSeekSector_finds_map (b : BitStream) (sec : Byte) (start : Int) :
    ∃ found, b.amiScan.Finds b.size start sec found ∧
      b.amiSeekSector sec start = found.map fun p => ⟨p, p + 448, p + 8640⟩ := by
  obtain ⟨found, hfinds, hseek⟩ := b.amiSeekSector_finds sec start
  refine ⟨found, hfinds, hseek.trans ?_⟩
  simp only [Int.add_assoc]
  rfl

/-- Settles O38: each operation answers with its codec's search, which is the scan of the rule. -/
theorem seekReturnsTheRange : Obligations.SeekReturnsTheRange := by
  intro s hr hi hu sec answers b start
  have sought {op : Instr} {seek : BitStream → Byte → Int → Option SectorRange}
      (hexec : exec op s = .next (seekOp s fun b => seek b (BitVec.ofNat 8 s.opS) s.opIter))
      {r : Option SectorRange} (hseek : seek b sec start = r) : answers op r := by
    have hsought : exec op s = .next (s.sought (seek b sec start)) := by
      rw [hexec, seekOp_of_usable hi hu, s.ofNat_opS]
      rfl
    rw [hseek] at hsought
    cases r <;> exact hsought
  have c64 {r : Option SectorRange} (h : b.c64SeekSector sec start = r) := sought (exec_c64Seek hr) h
  have ami {r : Option SectorRange} (h : b.amiSeekSector sec start = r) := sought (exec_amiSeek hr) h
  have dos {r : Option SectorRange} (h : b.dosSeekSector sec start = r) := sought (exec_dosSeek hr) h
  refine ⟨c64 rfl, ami rfl, dos rfl,
    ⟨_, b.c64FindHeader_finds sec start, c64 (b.c64SeekSector_eq_bind sec start)⟩, ?amiFinds,
    ⟨_, b.dosFindHeader_finds sec start, dos (b.dosSeekSector_eq_bind sec start)⟩, fun it => ?marks,
    fun p0 p q0 q hnext hid hsec hdata hid' => ?c64First,
    fun p hnext hsec => ami (BitStream.amiSeekSector_of_first hnext hsec),
    fun p q hnext hid hsec hdata hid' => ?dosFirst⟩
  case amiFinds =>
    obtain ⟨found, hfinds, hseek⟩ := b.amiSeekSector_finds_map sec start
    exact ⟨found, hfinds, ami hseek⟩
  case marks =>
    rcases hnext : b.c64NextBlock it with _ | ⟨p0, p⟩
    · exact fun p0 => BitStream.c64NextBlock_endless hnext
    · exact BitStream.c64NextBlock_ends hnext
  case c64First =>
    have hseek : b.c64SeekSector sec start = some ⟨p, q + 10, q + 2570⟩ := by
      rw [b.c64SeekSector_eq_bind, BitStream.c64FindHeader_of_first hnext hid hsec,
        Option.bind_some]
      simp only [BitStream.c64Payload, hdata, if_pos hid']
    exact c64 hseek
  case dosFirst =>
    have hseek : b.dosSeekSector sec start = some ⟨p, q + 16, q + 8208⟩ := by
      rw [b.dosSeekSector_eq_bind, BitStream.dosFindHeader_of_first hnext hid hsec,
        Option.bind_some]
      simp only [BitStream.dosPayload, dosSync, hdata, if_pos hid']
    exact dos hseek

end Sys2Proof.Machine
end

section
/-! PROOFS. The SEEKALL operations of the three codecs: the table they store, and the maps it is made of. -/

namespace Sys2Proof.Machine

section running
variable {s : State} (hr : s.Running)
include hr

theorem exec_c64Seekall :
    exec .c64Seekall s =
      .next (seekAllOp s Config.c64MaxSectors fun b => b.c64SeekSectors s.opIter) := by
  rw [exec, execC64Seekall, hostOp_running hr]

theorem exec_amiSeekall :
    exec .amiSeekall s =
      .next (seekAllOp s Config.amigaSectors fun b => b.amiSeekSectors s.opIter) := by
  rw [exec, execAmiSeekall, hostOp_running hr]

theorem exec_dosSeekall :
    exec .dosSeekall s =
      .next (seekAllOp s Config.dosSectors fun b => b.dosSeekSectors s.opIter) := by
  rw [exec, execDosSeekall, hostOp_running hr]

end running

/-! ## The bytes of the table (R222) -/

/-- A run of equal parts: each part at its offset. -/
theorem getD_flatMap_range {α : Type} (f : Nat → List α) {c : Nat} (hf : ∀ k, (f k).length = c)
    (d : α) {n k i : Nat} (hk : k < n) (hi : i < c) :
    ((List.range n).flatMap f).getD (c * k + i) d = (f k).getD i d := by
  induction n with
  | zero => omega
  | succ n ih =>
    have hlen : ((List.range n).flatMap f).length = c * n := by
      rw [length_flatMap_range n c f fun k _ => hf k, Nat.mul_comm]
    rw [List.range_succ, List.flatMap_append, List.flatMap_singleton]
    rcases Nat.lt_succ_iff_lt_or_eq.1 hk with hlt | rfl
    · have hmul : c * k + c ≤ c * n := by
        rw [← Nat.mul_succ]
        exact Nat.mul_le_mul_left c hlt
      rw [List.getD_append _ _ _ _ (by omega), ih hlt]
    · rw [List.getD_append_right _ _ _ _ (by omega), hlen, Nat.add_sub_cancel_left]

/-- R63: byte `j` of a stored integer. -/
theorem getD_be64 (i : Int) {j : Nat} (hj : j < 8) : (be64 i).getD j 0 = beByte i j := by
  rw [List.getD_eq_getElem _ _ (by simpa [length_be64] using hj)]
  simp only [be64, List.getElem_map, List.getElem_range]
  rw [show 56 - 8 * j = 8 * (7 - j) by omega]
  exact byteField_eq_shift_setWidth _ _

/-- R222: the bytes of an entry of the table, by the field they belong to. -/
theorem getD_seekEntryBytes_some (e : SeekEntry) {j : Nat} (hj : j < 8) :
    (seekEntryBytes (some e)).getD j 0 = beByte e.first j ∧
      (seekEntryBytes (some e)).getD (8 + j) 0 = beByte e.last j ∧
      (seekEntryBytes (some e)).getD (16 + j) 0 = beByte e.order j := by
  rw [seekEntryBytes, ← getD_be64 e.first hj, ← getD_be64 e.last hj, ← getD_be64 e.order hj]
  refine ⟨?first, ?last, ?order⟩
  case first =>
    rw [List.append_assoc, List.getD_append _ _ _ _ (by rw [length_be64]; omega)]
  case last =>
    rw [List.append_assoc, List.getD_append_right _ _ _ _ (by rw [length_be64]; omega),
      length_be64, Nat.add_sub_cancel_left, List.getD_append _ _ _ _ (by rw [length_be64]; omega)]
  case order =>
    rw [List.getD_append_right _ _ _ _ (by simp [length_be64]), List.length_append, length_be64,
      length_be64, Nat.add_sub_cancel_left]

theorem getD_seekEntryBytes_none {i : Nat} (hi : i < 24) :
    (seekEntryBytes none).getD i 0 = 0xFF := by
  rw [seekEntryBytes, List.getD_eq_getElem _ _ (by simpa using hi), List.getElem_replicate]

theorem getD_seekTable {n k i : Nat} (found : List SeekEntry) (hk : k < n) (hi : i < 24) :
    (seekTable n found).getD (24 * k + i) 0 =
      (seekEntryBytes (found.find? fun e => e.sec == k)).getD i 0 :=
  getD_flatMap_range _ (fun _ => length_seekEntryBytes _) 0 hk hi

/-! ## What a SEEKALL stores (R222, R255, R285) -/

theorem seekAllOp_of_usable {s : State} {n : Nat} (hi : LegalIter s.host.a1)
    (hdst : InDmem s.opAddr (24 * n)) (hu : s.Usable s.view) (seek : BitStream → List SeekEntry) :
    seekAllOp s n seek =
      (s.writeBytes .dmem s.opAddr (seekTable n (seek s.viewStream))).answered
        (decide (0 < (seek s.viewStream).length)) false
        (some (wordOfNat (seek s.viewStream).length)) none none none := by
  have hchecks : (s.iterOk && dmemOk s.opAddr (24 * n)) = true := by
    rw [Bool.and_eq_true, s.iterOk_iff, dmemOk_iff]
    exact ⟨hi, hdst⟩
  simp only [seekAllOp, if_pos hchecks, (s.viewError_eq_none s.view).2 hu]
  rfl

/-! ## The maps (R214, R256, R286) -/

/-- R208: the scan's marks are those of `c64NextBlock`. -/
theorem BitStream.c64Format_next {b : BitStream} {it q p : Int}
    (h : b.c64Format.next it = some (q, p)) : b.c64NextBlock it = some (q + 10, p) := by
  obtain ⟨⟨p0, p'⟩, hblock, hpair⟩ := Option.map_eq_some_iff.1 h
  cases hpair
  rw [hblock, Int.sub_add_cancel]

/-- R280: the scan's marks are those of `forward`. -/
theorem BitStream.dosFormat_next {b : BitStream} {it q p : Int}
    (h : b.dosFormat.next it = some (q, p)) : b.forward it dosSync 48 = some p := by
  obtain ⟨p', hforward, hpair⟩ := Option.map_eq_some_iff.1 h
  cases hpair
  exact hforward

/-- R214: the header and the data block an entry of a C64 map stands for. -/
theorem BitStream.c64Entry_blocks {b : BitStream} {start : Int} {e : SeekEntry}
    (h : b.c64Format.Entry start e) :
    ∃ p : Int, start + 10 ≤ p ∧ p + 100 ≤ e.first ∧ b.HeaderAt p ∧
      b.decodeGcr (p + 20) = some (BitVec.ofNat 8 e.sec) ∧ b.DataAt (e.first - 10) ∧
      ∀ m, p + 90 ≤ m → m < e.first - 10 → ¬b.MarkAt m := by
  obtain ⟨it, p, q0, q, hit, hnext, hheader, hnumber, ⟨q1, hnext'⟩, hdata, hfirst⟩ := h.blocks
  obtain ⟨hbehind, hle, -, hmark, -⟩ :=
    BitStream.c64NextBlock_some (BitStream.c64Format_next hnext)
  obtain ⟨hbehind', hle', -, hmark', hnone⟩ :=
    BitStream.c64NextBlock_some (BitStream.c64Format_next hnext')
  have hq : e.first - 10 = q := by rw [hfirst]; exact Int.add_sub_cancel q 10
  rw [hq]
  dsimp only [BitStream.c64Format] at *
  exact ⟨p, by omega, by omega, ⟨hmark, beq_iff_eq.1 hheader⟩, hnumber,
    ⟨hmark', beq_iff_eq.1 hdata⟩, fun m hm => hnone m (by omega)⟩

/-- R286: the header and the data block an entry of a DOS map stands for. -/
theorem BitStream.dosEntry_blocks {b : BitStream} {start : Int} {e : SeekEntry}
    (h : b.dosFormat.Entry start e) :
    ∃ p : Int, start + 48 ≤ p ∧ b.getBits (p - 48) 48 = dosSync ∧ b.rdMfm p = 0xFE ∧
      b.rdMfm (p + 48) = BitVec.ofNat 8 (e.sec + 1) ∧
      b.forward (p + 112) dosSync 48 = some (e.first - 16) ∧ b.rdMfm (e.first - 16) = 0xFB := by
  obtain ⟨it, p, q0, q, hit, hnext, hheader, hnumber, ⟨q1, hnext'⟩, hdata, hfirst⟩ := h.blocks
  obtain ⟨hbehind, -, hsync, -⟩ := BitStream.forward_some (BitStream.dosFormat_next hnext)
  have hq : e.first - 16 = q := by rw [hfirst]; exact Int.add_sub_cancel q 16
  have hsec : b.rdMfm (p + 48) = BitVec.ofNat 8 (e.sec + 1) := by
    rw [BitVec.ofNat_add, ← Option.some.inj hnumber]
    exact (BitVec.sub_add_cancel ..).symm
  rw [hq]
  exact ⟨p, by omega, hsync, beq_iff_eq.1 hheader, hsec, BitStream.dosFormat_next hnext',
    beq_iff_eq.1 hdata⟩

/-- R256: the entry of a header that the Amiga scan passes. -/
theorem BitStream.amiEntry_eq (b : BitStream) (pj : Int × Nat) :
    b.amiEntry pj =
      let k := ((oeDecode (b.bytesAt pj.1 8)).getD 2 0).toNat
      if k < 11 then some ⟨k, pj.1 + 448, pj.1 + 8640, pj.2⟩ else none := by
  rw [BitStream.amiEntry, Int.add_assoc]
  rfl

/-- Settles O39: the table is written entry by entry from the map, and the map is what the scan of the rule
gives. -/
theorem seekallWritesTheTable : Obligations.SeekallWritesTheTable := by
  intro s hr hi hu dst b start writes agrees c64 ami dos
  have stores {op : Instr} {n : Nat} {seek : BitStream → List SeekEntry}
      (hexec : exec op s = .next (seekAllOp s n seek)) (hdst : InDmem dst (24 * n)) :
      writes op n (seek b) := by
    refine ⟨_, seekTable n (seek b), hexec, length_seekTable n _, ?stored, ?rest,
      fun k hk j hj => ?entry⟩
    case stored =>
      rw [seekAllOp_of_usable hi hdst hu, wroteBytes_answered_iff]
      exact s.wroteBytes_writeBytes .dmem dst _
    case rest =>
      rw [seekAllOp_of_usable hi hdst hu, State.withMemoriesOf_answered,
        State.withMemoriesOf_writeBytes]
      rfl
    case entry =>
      rw [Nat.add_assoc, Nat.add_assoc, getD_seekTable _ hk (by omega),
        getD_seekTable _ hk (by omega), getD_seekTable _ hk (by omega)]
      generalize (seek b).find? (fun e => e.sec == k) = o
      rcases o with _ | e
      · exact ⟨getD_seekEntryBytes_none (by omega), getD_seekEntryBytes_none (by omega),
          getD_seekEntryBytes_none (by omega)⟩
      · exact getD_seekEntryBytes_some e hj
  obtain ⟨hc64, hc64Seek⟩ := b.c64SeekSectors_spec start
  obtain ⟨hdos, hdosSeek⟩ := b.dosSeekSectors_spec start
  refine ⟨stores (exec_c64Seekall hr), stores (exec_amiSeekall hr), stores (exec_dosSeekall hr),
    ⟨fun e he => (hc64.entries e he).sec, hc64.found.rising, hc64Seek⟩,
    b.amiSeekSectors_agrees start,
    ⟨fun e he => (hdos.entries e he).sec, hdos.found.rising, hdosSeek⟩,
    fun j hj => ?c64Entries, ?amiMap, fun j hj => ?dosEntries⟩
  case c64Entries =>
    have hentry := hc64.entries _ (List.getElem_mem hj)
    exact ⟨hc64.found.order j _ (List.getElem?_eq_getElem hj), hentry.last,
      BitStream.c64Entry_blocks hentry⟩
  case amiMap =>
    obtain ⟨ps, it, hpasses, hover, hmap, -⟩ := b.amiSeekSectors_spec start
    refine ⟨ps, it, hpasses, hover, hmap.trans ?_⟩
    exact congrArg (ps.zipIdx.filterMap ·) (funext b.amiEntry_eq)
  case dosEntries =>
    have hentry := hdos.entries _ (List.getElem_mem hj)
    exact ⟨hdos.found.order j _ (List.getElem?_eq_getElem hj), hentry.last,
      BitStream.dosEntry_blocks hentry⟩

end Sys2Proof.Machine
end

section
/-! PROOFS. The MFM sector statements, encoders: the layouts of an Amiga and of a DOS sector, what
`AMI.ENCSEC` and `DOS.ENCSEC` write, and what `AMI.ENCTRK` and `DOS.ENCTRK` check and write. -/

namespace Sys2Proof.Machine

/-! ## The layouts (R241, R242, R245, R271, R273) -/

/-- R241: header, checksums and data of an Amiga sector, each part at its offset. -/
theorem amiSectorBytes_parts (t k : Nat) (p : List Byte) :
    let a := amiSectorBytes t k p
    (a.drop 8).take 40 = amiHeader t k ∧
    (a.drop 48).take 8 = oeEncode (xor4 (amiHeader t k)) ∧
    (a.drop 56).take 8 = oeEncode (xor4 (oeEncode p)) ∧
    a.drop 64 = oeEncode p := by
  have hparts := parts_at_offsets (List.replicate 4 0) amiSyncBytes (amiHeader t k)
    (oeEncode (xor4 (amiHeader t k))) (oeEncode (xor4 (oeEncode p))) (oeEncode p)
  simp only [length_amiHeader, length_oeEncode, length_xor4, List.length_replicate,
    show amiSyncBytes.length = 4 from rfl] at hparts
  obtain ⟨-, -, hheader, hheaderSum, hdataSum, hdata⟩ := hparts
  exact ⟨hheader, hheaderSum, hdataSum, hdata⟩

/-- R242: the info long and the label of an Amiga sector. -/
theorem amiHeader_parts (t k : Nat) :
    (amiHeader t k).take 8 = oeEncode (amiInfo t k) ∧
      (amiHeader t k).drop 8 = List.replicate 32 0 :=
  ⟨List.take_left' rfl, List.drop_left' rfl⟩

/-- R271: the id field of a DOS sector and the gap behind it, each part at its offset. -/
theorem dosSectorData_idParts (t k : Nat) (p : List Byte) :
    let d := dosSectorData t k p
    d.take 12 = List.replicate 12 0x00 ∧ (d.drop 12).take 3 = dosMarks ∧
    (d.drop 15).take 5 = dosHeader t k ∧
    (d.drop 20).take 2 = crcBytes (dosMarks ++ dosHeader t k) ∧
    (d.drop 22).take 22 = List.replicate 22 0x4E := by
  have hparts := parts_at_offsets (List.replicate 12 0x00) dosMarks (dosHeader t k)
    (crcBytes (dosMarks ++ dosHeader t k)) (List.replicate 22 0x4E)
    (List.replicate 12 0x00 ++ dosMarks ++ [0xFB] ++ p ++ crcBytes (dosMarks ++ [0xFB] ++ p) ++
      List.replicate 84 0x4E)
  simp only [length_dosHeader, length_crcBytes, List.length_replicate,
    show dosMarks.length = 3 from rfl] at hparts
  obtain ⟨hzeros, hmarks, hheader, hcrc, hgap, -⟩ := hparts
  simp only [dosSectorData, List.append_assoc] at hzeros hmarks hheader hcrc hgap ⊢
  exact ⟨hzeros, hmarks, hheader, hcrc, hgap⟩

/-- R271: the data field of a DOS sector and the gap behind it, each part at its offset. -/
theorem dosSectorData_dataParts (t k : Nat) {p : List Byte} (hp : p.length = 512) :
    let d := dosSectorData t k p
    (d.drop 44).take 12 = List.replicate 12 0x00 ∧ (d.drop 56).take 4 = dosMarks ++ [0xFB] ∧
    (d.drop 60).take 512 = p ∧ (d.drop 572).take 2 = crcBytes (dosMarks ++ [0xFB] ++ p) ∧
    d.drop 574 = List.replicate 84 0x4E := by
  have hparts := parts_at_offsets
    (List.replicate 12 0x00 ++ dosMarks ++ dosHeader t k ++ crcBytes (dosMarks ++ dosHeader t k) ++
      List.replicate 22 0x4E)
    (List.replicate 12 0x00) (dosMarks ++ [0xFB]) p (crcBytes (dosMarks ++ [0xFB] ++ p))
    (List.replicate 84 0x4E)
  simp only [length_dosHeader, length_crcBytes, List.length_append, List.length_replicate, hp,
    show dosMarks.length = 3 from rfl, List.length_singleton] at hparts
  obtain ⟨-, hzeros, hmarks, hdata, hcrc, hgap⟩ := hparts
  simp only [dosSectorData, List.append_assoc] at hzeros hmarks hdata hcrc hgap ⊢
  exact ⟨hzeros, hmarks, hdata, hcrc, hgap⟩

/-- Settles O31: both layouts are their parts put together, and the odd/even format decodes to
what was encoded. -/
theorem mfmSectorLayouts : Obligations.MfmSectorLayouts := by
  intro t k p hp a d hdr
  obtain ⟨hheader, hheaderSum, hdataSum, hdata⟩ := amiSectorBytes_parts t k p
  obtain ⟨hinfo, hlabel⟩ := amiHeader_parts t k
  obtain ⟨hzeros, hmarks, hid, hidCrc, hgap⟩ := dosSectorData_idParts t k p
  refine ⟨⟨?length, rfl, ?info, ?label, ?headerSum, ?dataSum, hdata⟩, ?dosLength, hzeros,
    hmarks, hid, hidCrc, hgap, dosSectorData_dataParts t k hp⟩
  case length => rw [length_amiSectorBytes, hp]
  case info =>
    have h : (a.drop 8).take 8 = ((a.drop 8).take 40).take 8 := by rw [List.take_take]; rfl
    rw [h, hheader, hinfo, oeDecode_oeEncode]
    rfl
  case label =>
    have h : (a.drop 16).take 32 = ((a.drop 8).take 40).drop 8 := by
      rw [List.drop_take, List.drop_drop]
    rw [h, hheader, hlabel]
  case headerSum => rw [hheaderSum, hheader, oeDecode_oeEncode]
  case dataSum => rw [hdataSum, hdata, oeDecode_oeEncode]
  case dosLength => rw [length_dosSectorData, hp]

/-! ## Sync words of a sector (R246, R248, R274, R278) -/

theorem getD_amiSectorBytes_sync (t k : Nat) (p : List Byte) {i : Nat} (hi : 4 ≤ i ∧ i < 8) :
    (amiSectorBytes t k p).getD i 0 = if i % 2 = 0 then 0x44 else 0x89 := by
  obtain rfl | rfl | rfl | rfl : i = 4 ∨ i = 5 ∨ i = 6 ∨ i = 7 := by omega
  all_goals rfl

theorem getD_dosSectorData_sync (t k : Nat) (p : List Byte) {i : Nat}
    (hi : i ∈ [12, 13, 14, 56, 57, 58]) : (dosSectorData t k p).getD i 0 = 0xA1 := by
  simp only [List.mem_cons, List.not_mem_nil, or_false] at hi
  obtain rfl | rfl | rfl | rfl | rfl | rfl := hi
  all_goals rfl

/-- R274: of the two bytes of a sync word the low one is patched. -/
theorem dosIsMark_eq (i : Nat) :
    dosIsMark i = (decide (i / 2 ∈ [12, 13, 14, 56, 57, 58]) && decide (i % 2 = 1)) := by
  rw [dosIsMark, List.contains_eq_mem, ← Bool.decide_and]
  refine decide_eq_decide.2 ?_
  simp only [List.mem_cons, List.not_mem_nil, or_false]
  omega

/-- R248. -/
theorem clockedRun_amiSector (t k : Nat) (p : List Byte) (prev : Byte) :
    ClockedRun amiIsSync (amiSectorBytes t k p) prev
      (addClockRunSkipping amiIsSync 0 (amiSectorBytes t k p) prev) :=
  clockedRun_amiga _ _ _ fun _ _ hsync => getD_amiSectorBytes_sync t k p (of_decide_eq_true hsync)

/-- R278. -/
theorem clockedRun_dosSector (t k : Nat) (p : List Byte) (prev : Byte) :
    ClockedRun (fun i => decide (i / 2 ∈ [12, 13, 14, 56, 57, 58])) (mfmBytes (dosSectorData t k p))
      prev (dosPatch dosIsMark 0 (addClockRun (mfmBytes (dosSectorData t k p)) prev)) := by
  refine clockedRun_dos _ _ _ _ (fun i _ hsync => ⟨?marked, fun j hj => ?whole⟩)
    fun i _ => dosIsMark_eq i
  case marked => exact getD_dosSectorData_sync t k p (of_decide_eq_true hsync)
  case whole => simpa only [hj] using hsync

/-! ## One sector (R248, R278) -/

section running
variable {s : State} (hr : s.Running)
include hr

theorem exec_amiEncsec :
    exec .amiEncsec s =
      .next (encodeSectorOp s s.amiSectorOk Config.mfmPayload 8704 fun p =>
        bytesBits (addClockRunSkipping amiIsSync 0 (amiSectorBytes s.opT s.opS p)
          (s.viewStream.getByte (s.opIter - 8)))) := by
  rw [exec, execAmiEncsec, hostOp_running hr, amiSectorBits]

theorem exec_dosEncsec :
    exec .dosEncsec s =
      .next (encodeSectorOp s s.dosSectorOk Config.mfmPayload 10528 fun p =>
        bytesBits (dosPatch dosIsMark 0 (addClockRun (mfmBytes (dosSectorData s.opT s.opS p))
          (s.viewStream.getByte (s.opIter - 8))))) := by
  rw [exec, execDosEncsec, hostOp_running hr, dosSectorBits]

theorem exec_amiEnctrk :
    exec .amiEnctrk s =
      .next (encodeXtrackOp s 11 101344 (amiTrackBytes s.opT)) := by
  rw [exec, execAmiEnctrk, hostOp_running hr, Config.amigaSectors]

theorem exec_dosEnctrk :
    exec .dosEnctrk s =
      .next (encodeXtrackOp s 9 100000 (dosTrackBytes s.opT)) := by
  rw [exec, execDosEnctrk, hostOp_running hr, Config.dosSectors]

end running

/-- Settles O29: a sector is one run of bits written through the view, and that run is clocked but for
its sync words. -/
theorem mfmEncsecWritesTheSector : Obligations.MfmEncsecWritesTheSector := by
  intro s hr hi hu t k src p before writes ht hsrc
  have hl {legal : Bool} (h : legal = true) :
      LegalIter s.host.a1 ∧ legal = true ∧ InDmem s.opAddr Config.mfmPayload := ⟨hi, h, hsrc⟩
  have hp : p.length = 512 := s.length_readBytes ..
  have ami (hk : k < 11) : s.amiSectorOk = true := s.amiSectorOk_iff.2 ⟨ht, hk⟩
  have dos (hk : k < 9) : s.dosSectorOk = true := s.dosSectorOk_iff.2 ⟨ht, hk⟩
  have stores {op : Instr} {legal : Bool} {n : Nat} {encode : List Byte → List Byte}
      {sync : Nat → Bool} {raw : List Byte}
      (hexec : exec op s =
        .next (encodeSectorOp s legal Config.mfmPayload n fun p => bytesBits (encode p)))
      (hlegal : legal = true) (hfits : n ≤ s.view.size) (hraw : 8 * raw.length = n)
      (hclocked : ClockedRun sync raw before (encode p)) : writes op n sync raw := by
    refine ⟨_, encode p, hexec, ?rest, ?written, by rw [hclocked.1, hraw], hclocked⟩
    case rest =>
      rw [encodeSectorOp_of_fits hu (hl hlegal) hfits, State.withMemoriesOf_answered,
        State.withMemoriesOf_setBits]
      rfl
    case written =>
      rw [encodeSectorOp_of_fits hu (hl hlegal) hfits, wroteBits_answered_iff]
      exact s.wroteBits_setBits s.view s.opIter _
  refine ⟨fun hk hsmall => ?amiCapacity, fun hk hsmall => ?dosCapacity,
    fun hk hfits => stores (exec_amiEncsec hr) (ami hk) hfits ?amiLength
      (clockedRun_amiSector t k p before),
    fun hk hfits => stores (exec_dosEncsec hr) (dos hk) hfits ?dosLength
      (clockedRun_dosSector t k p before)⟩
  case amiCapacity =>
    rw [exec_amiEncsec hr, encodeSectorOp_of_small hu (hl (ami hk)) hsmall, State.raiseFatal_eq hr]
  case dosCapacity =>
    rw [exec_dosEncsec hr, encodeSectorOp_of_small hu (hl (dos hk)) hsmall, State.raiseFatal_eq hr]
  case amiLength => rw [length_amiSectorBytes, hp]
  case dosLength => rw [length_mfmBytes, length_dosSectorData, hp]

/-! ## One whole track (R246, R249, R276, R279) -/

/-- R246: the bytes of an Amiga track before clocking, its payloads read from `DMEM`. -/
def State.amiTrackRaw (s : State) (t src : Nat) : List Byte :=
  (List.range 11).flatMap (fun k => amiSectorBytes t k (s.readBytes .dmem (src + 512 * k) 512)) ++
    List.replicate 700 0

/-- R276: the data bytes of a DOS track, its payloads read from `DMEM`. -/
def State.dosTrackData (s : State) (t src : Nat) : List Byte :=
  (List.range 9).flatMap (fun k => dosSectorData t k (s.readBytes .dmem (src + 512 * k) 512)) ++
    List.replicate 328 0x4E

/-- The sectors of a track, their payloads cut out of an image in `DMEM` or read one by one. -/
theorem State.flatMap_imageChunk_readBytes (s : State) (src n : Nat)
    (f : Nat → List Byte → List Byte) :
    ((List.range n).flatMap fun k =>
        f k (imageChunk (s.readBytes .dmem src (n * Config.mfmPayload)) Config.mfmPayload k)) =
      (List.range n).flatMap fun k => f k (s.readBytes .dmem (src + 512 * k) 512) := by
  rw [List.flatMap, List.flatMap]
  refine congrArg List.flatten (List.map_congr_left fun k hk => ?_)
  rw [Config.mfmPayload, Nat.mul_comm, imageChunk_readBytes s .dmem src 512 n k (List.mem_range.1 hk)]

theorem State.amiTrackBytes_readBytes (s : State) (t src : Nat) :
    amiTrackBytes t (s.readBytes .dmem src (Config.amigaSectors * Config.mfmPayload)) =
      addClockRunSkipping amiIsTrackSync 0 (s.amiTrackRaw t src)
        ((s.amiTrackRaw t src).getLastD 0) := by
  rw [amiTrackBytes, s.flatMap_imageChunk_readBytes src Config.amigaSectors (amiSectorBytes t)]
  rfl

theorem State.dosTrackBytes_readBytes (s : State) (t src : Nat) :
    dosTrackBytes t (s.readBytes .dmem src (Config.dosSectors * Config.mfmPayload)) =
      dosPatch dosIsTrackMark 0 (addClockRun (mfmBytes (s.dosTrackData t src))
        ((mfmBytes (s.dosTrackData t src)).getLastD 0)) := by
  rw [dosTrackBytes, s.flatMap_imageChunk_readBytes src Config.dosSectors (dosSectorData t)]
  rfl

/-- A byte of a run of equal parts, by the part it lies in; what follows the run does not matter. -/
theorem getD_flatMap_range_append {α : Type} {f : Nat → List α} {c : Nat}
    (hf : ∀ k, (f k).length = c) (gap : List α) (d : α) {n i : Nat} (hi : i < n * c) :
    ((List.range n).flatMap f ++ gap).getD i d = (f (i / c)).getD (i % c) d := by
  have hc : 0 < c := Nat.pos_of_ne_zero fun h => by simp [h] at hi
  rw [List.getD_append _ _ _ _ (by rwa [length_flatMap_range n c f fun k _ => hf k]),
    ← getD_flatMap_range f hf d (Nat.div_lt_of_lt_mul (Nat.mul_comm n c ▸ hi)) (Nat.mod_lt i hc),
    Nat.div_add_mod]

theorem State.getD_amiTrackRaw (s : State) (t src : Nat) {i : Nat} (hi : i < 11968) :
    (s.amiTrackRaw t src).getD i 0 =
      (amiSectorBytes t (i / 1088) (s.readBytes .dmem (src + 512 * (i / 1088)) 512)).getD
        (i % 1088) 0 :=
  getD_flatMap_range_append (fun k => by rw [length_amiSectorBytes, State.length_readBytes]) _ 0 hi

theorem State.getD_dosTrackData (s : State) (t src : Nat) {i : Nat} (hi : i < 5922) :
    (s.dosTrackData t src).getD i 0 =
      (dosSectorData t (i / 658) (s.readBytes .dmem (src + 512 * (i / 658)) 512)).getD
        (i % 658) 0 :=
  getD_flatMap_range_append (fun k => by rw [length_dosSectorData, State.length_readBytes]) _ 0 hi

theorem State.length_amiTrackRaw (s : State) (t src : Nat) :
    (s.amiTrackRaw t src).length = 12668 := by
  rw [State.amiTrackRaw, List.length_append, List.length_replicate, length_flatMap_range 11 1088]
  exact fun k _ => by rw [length_amiSectorBytes, State.length_readBytes]

theorem State.length_dosTrackData (s : State) (t src : Nat) :
    (s.dosTrackData t src).length = 6250 := by
  rw [State.dosTrackData, List.length_append, List.length_replicate, length_flatMap_range 9 658]
  exact fun k _ => by rw [length_dosSectorData, State.length_readBytes]

/-- R246: the clocking pass of an Amiga track. -/
theorem State.clockedRun_amiTrack (s : State) (t src : Nat) (prev : Byte) :
    ClockedRun (fun i => decide (i < 11968 ∧ 4 ≤ i % 1088 ∧ i % 1088 < 8))
      (s.amiTrackRaw t src) prev (addClockRunSkipping amiIsTrackSync 0 (s.amiTrackRaw t src) prev) := by
  have hsame : amiIsTrackSync = fun i => decide (i < 11968 ∧ 4 ≤ i % 1088 ∧ i % 1088 < 8) :=
    funext fun i => (Bool.decide_and ..).symm
  rw [hsame]
  refine clockedRun_amiga _ _ _ fun i _ hsync => ?_
  obtain ⟨hi, hword⟩ := of_decide_eq_true hsync
  rw [s.getD_amiTrackRaw t src hi, getD_amiSectorBytes_sync _ _ _ hword,
    Nat.mod_mod_of_dvd i (show 2 ∣ 1088 by decide)]

/-- R276: the clocking pass of a DOS track. -/
theorem State.clockedRun_dosTrack (s : State) (t src : Nat) (prev : Byte) :
    ClockedRun (fun i => decide (i < 11844 ∧ i % 1316 / 2 ∈ [12, 13, 14, 56, 57, 58]))
      (mfmBytes (s.dosTrackData t src)) prev
      (dosPatch dosIsTrackMark 0 (addClockRun (mfmBytes (s.dosTrackData t src)) prev)) := by
  refine clockedRun_dos _ _ _ _ (fun i _ hsync => ?word) fun i _ => ?patched
  case word =>
    obtain ⟨hi, hword⟩ := of_decide_eq_true hsync
    have hhalf : i % 1316 / 2 = i / 2 % 658 := by omega
    refine ⟨?marked, fun j hj => decide_eq_true ⟨by omega, ?whole⟩⟩
    case marked =>
      rw [s.getD_dosTrackData t src (by omega)]
      exact getD_dosSectorData_sync _ _ _ (hhalf ▸ hword)
    case whole => rwa [show j % 1316 / 2 = i % 1316 / 2 by omega]
  case patched =>
    rw [dosIsTrackMark, dosIsMark_eq, Nat.mod_mod_of_dvd i (show 2 ∣ 1316 by decide),
      Bool.decide_and, Bool.and_assoc]

section enctrk
variable {s : State} {n bits : Nat} {encode : List Byte → List Byte}

theorem encodeXtrackOp_of_bad_track (ht : 160 ≤ s.opT) :
    encodeXtrackOp s n bits encode = s.raiseFatal .badOperand := by
  simpa only [ht, Nat.not_lt.2 ht, true_and, false_and, or_false] using
    encodeXtrackOp_cases s n bits encode

variable (ht : s.opT < 160)
include ht

theorem encodeXtrackOp_of_bad_length (hlen : s.opSrcLen ≠ n * Config.mfmPayload) :
    encodeXtrackOp s n bits encode = s.fail .formatErr := by
  simpa only [ht, Nat.not_le.2 ht, hlen, ne_eq, not_false_eq_true, true_and, false_and, and_false,
    or_false, false_or] using encodeXtrackOp_cases s n bits encode

variable (hlen : s.opSrcLen = n * Config.mfmPayload)
include hlen

theorem encodeXtrackOp_of_bad_source (hsrc : ¬InDmem s.opAddr (n * Config.mfmPayload)) :
    encodeXtrackOp s n bits encode = s.raiseFatal .badOperand := by
  simpa only [ht, Nat.not_le.2 ht, hlen, hsrc, ne_eq, not_true_eq_false, not_false_eq_true, true_and,
    false_and, and_false, or_false, false_or] using encodeXtrackOp_cases s n bits encode

theorem encodeXtrackOp_of_legal (hsrc : InDmem s.opAddr (n * Config.mfmPayload)) :
    encodeXtrackOp s n bits encode =
      storeXtrack s (encode (s.readBytes .dmem s.opAddr (n * Config.mfmPayload))) bits := by
  simpa only [ht, Nat.not_le.2 ht, hlen, hsrc, ne_eq, not_true_eq_false, true_and, false_and,
    and_false, false_or] using encodeXtrackOp_cases s n bits encode

end enctrk

/-- Settles O34: one lemma for each check, and the stored track is one clocked run. -/
theorem mfmEnctrkWritesTheTrack : Obligations.MfmEnctrkWritesTheTrack := by
  intro s hr u src srcLen chunk writes
  have stores {op : Instr} {n bits : Nat} {encode : List Byte → List Byte} {sync : Nat → Bool}
      {raw : List Byte} (hexec : exec op s = .next (encodeXtrackOp s n bits encode)) (ht : u < 160)
      (hlen : srcLen = n * 512) (hsrc : InDmem src srcLen) (hraw : 8 * raw.length = bits)
      (hclocked : ClockedRun sync raw (raw.getLastD 0) (encode (s.readBytes .dmem src (n * 512)))) :
      writes op bits sync raw := by
    rw [encodeXtrackOp_of_legal ht hlen (hlen ▸ hsrc)] at hexec
    obtain ⟨hstored, hrest⟩ := storeXtrack_spec s (encode (s.readBytes .dmem src (n * 512))) bits
    exact ⟨_, _, hexec, hstored, by rw [hclocked.1, hraw], hclocked, hrest⟩
  refine ⟨fun ht => ⟨?amiTrack, ?dosTrack⟩, fun ht => ⟨fun hlen => ?amiSrcLen,
    fun hlen => ?dosSrcLen, fun hlen hsrc => ?amiSource, fun hlen hsrc => ?dosSource,
    fun hlen hsrc => stores (exec_amiEnctrk hr) ht hlen hsrc ?amiBits ?amiClocked,
    fun hlen hsrc => stores (exec_dosEnctrk hr) ht hlen hsrc ?dosBits ?dosClocked⟩⟩
  case amiTrack =>
    rw [exec_amiEnctrk hr, encodeXtrackOp_of_bad_track ht, State.raiseFatal_eq hr]
  case dosTrack =>
    rw [exec_dosEnctrk hr, encodeXtrackOp_of_bad_track ht, State.raiseFatal_eq hr]
  case amiSrcLen => rw [exec_amiEnctrk hr, encodeXtrackOp_of_bad_length ht hlen, State.fail_eq]
  case dosSrcLen => rw [exec_dosEnctrk hr, encodeXtrackOp_of_bad_length ht hlen, State.fail_eq]
  case amiSource =>
    rw [exec_amiEnctrk hr, encodeXtrackOp_of_bad_source ht hlen (hlen ▸ hsrc),
      State.raiseFatal_eq hr]
  case dosSource =>
    rw [exec_dosEnctrk hr, encodeXtrackOp_of_bad_source ht hlen (hlen ▸ hsrc),
      State.raiseFatal_eq hr]
  case amiBits => exact congrArg (8 * ·) (s.length_amiTrackRaw u src)
  case amiClocked => exact s.amiTrackBytes_readBytes u src ▸ s.clockedRun_amiTrack u src _
  case dosBits =>
    rw [length_mfmBytes]
    exact congrArg (fun c => 8 * (2 * c)) (s.length_dosTrackData u src)
  case dosClocked => exact s.dosTrackBytes_readBytes u src ▸ s.clockedRun_dosTrack u src _

end Sys2Proof.Machine
end

section
/-! PROOFS. The disk model statements: the life of a disk and its queries, what `DSK.ENCODE` writes, and what
`DSK.RDBLK` and `DSK.WRBLK` do with the sector of a block. -/

namespace Sys2Proof.Machine

/-! ## Operations on the inserted disk (R69) -/

theorem withDisk_of_present {s : State} (h : s.disk.present = true) (run : State → State) :
    withDisk s run = run s :=
  if_pos h

theorem withDisk_of_no_disk {s : State} (h : s.disk.present = false) (run : State → State) :
    withDisk s run = s.failed .noDisk := by
  rw [withDisk, h, if_neg Bool.false_ne_true, State.fail_eq]

/-! ## A disk's life (R305, R312, R313, R314) -/

/-- R304: from `s` to `t` an operation ended well and left the inserted disk unformatted. -/
def LeavesCleared (s t : State) : Prop :=
  { t with disk := s.disk } = s.answered false false none none none none ∧
  t.disk.present = true ∧ t.disk.wp = false ∧ t.disk.modified = false ∧
  (∀ h a, t.byteAt (.trk h) a = 0x55) ∧ ∀ h < 84, t.lenOf h = nominalBits (h / 2)

/-- R304: `clearDisk` on the inserted disk. -/
theorem leavesCleared_clearDisk {s t : State} (hp : t.disk.present = true)
    (hrest : { t with disk := s.disk } = s) : LeavesCleared s t.clearDisk.ok :=
  ⟨congrArg State.ok hrest, hp, rfl, rfl, t.clearDisk_byteAt, t.clearDisk_lenOf⟩

section running
variable {s : State} (hr : s.Running)
include hr

theorem exec_dskInsert : exec .dskInsert s = .next (runDskInsert s) := by
  rw [exec, execDskInsert, hostOp_running hr]

theorem exec_dskClear : exec .dskClear s = .next (withDisk s fun s => s.clearDisk.ok) := by
  rw [exec, execDskClear, hostOp_running hr]

theorem exec_dskSetwp :
    exec .dskSetwp s =
      .next (withDisk s fun s => ({ s with disk.wp := flag s.host.a0 0 } : State).ok) := by
  rw [exec, execDskSetwp, hostOp_running hr]

theorem exec_dskEject :
    exec .dskEject s =
      .next (withDisk s fun s => ({ s with disk.present := false } : State).ok) := by
  rw [exec, execDskEject, hostOp_running hr]

end running

/-- R312: a fresh disk is an unformatted one. -/
theorem runDskInsert_of_fresh {s : State} (h : s.host.a0.getLsbD 0 = true) :
    runDskInsert s = ({ s with disk.present := true } : State).clearDisk.ok :=
  congrArg State.ok (if_pos h)

/-- R312: otherwise the contents and lengths are taken as they are. -/
theorem runDskInsert_of_loaded {s : State} (h : s.host.a0.getLsbD 0 = false) :
    runDskInsert s =
      { s.answered false false none none none none with
        disk := { s.disk with present := true, wp := false, modified := false } } :=
  congrArg State.ok (if_neg (ne_true_of_eq_false h))

/-- Settles O40: `DSK.INSERT` by its `fresh` bit, the others by whether a disk is inserted. -/
theorem diskLifecycle : Obligations.DiskLifecycle := by
  intro s hr cleared
  refine ⟨fun hfresh => ?fresh, fun hloaded => ?loaded, fun hp => ⟨?clear, ?setwp, ?eject⟩,
    fun hp => ⟨?noClear, ?noSetwp, ?noEject⟩⟩
  case fresh =>
    rw [exec_dskInsert hr, runDskInsert_of_fresh hfresh]
    exact ⟨_, rfl, leavesCleared_clearDisk rfl rfl⟩
  case loaded => rw [exec_dskInsert hr, runDskInsert_of_loaded hloaded]
  case clear =>
    rw [exec_dskClear hr, withDisk_of_present hp]
    exact ⟨_, rfl, leavesCleared_clearDisk hp rfl⟩
  case setwp =>
    rw [exec_dskSetwp hr, withDisk_of_present hp]
    rfl
  case eject =>
    rw [exec_dskEject hr, withDisk_of_present hp]
    rfl
  case noClear => rw [exec_dskClear hr, withDisk_of_no_disk hp]
  case noSetwp => rw [exec_dskSetwp hr, withDisk_of_no_disk hp]
  case noEject => rw [exec_dskEject hr, withDisk_of_no_disk hp]

/-! ## Queries (R308, R309, R310, R311, R315) -/

/-- R309, R310: a query of one length, behind the range check of its operand. -/
def lengthQuery (s : State) (legal : Bool) (h : Nat) : State :=
  if legal then withDisk s fun s => (s.setR0 (wordOfNat (s.lenOf h))).ok
  else s.raiseFatal .badOperand

theorem lengthQuery_of_present {s : State} {legal : Bool} (hl : legal = true)
    (hp : s.disk.present = true) (h : Nat) :
    lengthQuery s legal h =
      s.answered false false (some (BitVec.ofNat 64 (s.lenOf h))) none none none := by
  rw [lengthQuery, if_pos hl, withDisk_of_present hp]
  rfl

theorem lengthQuery_of_no_disk {s : State} {legal : Bool} (hl : legal = true)
    (hp : s.disk.present = false) (h : Nat) : lengthQuery s legal h = s.failed .noDisk := by
  rw [lengthQuery, if_pos hl, withDisk_of_no_disk hp]

theorem lengthQuery_of_illegal {s : State} (hr : s.Running) {legal : Bool} (hl : ¬legal = true)
    (h : Nat) : lengthQuery s legal h = s.faulted .badOperand := by
  rw [lengthQuery, if_neg hl, State.raiseFatal_eq hr]

/-- R311: the query of one track's geometry. -/
def defaultsQuery (s : State) (t : Nat) : State :=
  if c64TrackOk t then
    ((((s.setR0 (wordOfNat (sectorCount t + (zone t).val * 2 ^ 8 + tailGapOf s.cfg t * 2 ^ 16 +
      firstBlock t * 2 ^ 32))).setR1 (wordOfNat (nominalBytes t))).setR2
      (wordOfNat (nominalBits t))).setR3 (wordOfNat (staggerOf s.cfg t))).ok
  else s.raiseFatal .badOperand

/-- R400: an operation that ends OK with all four results written. -/
theorem State.setResults_ok_eq (s : State) (a b c d : Word) :
    ((((s.setR0 a).setR1 b).setR2 c).setR3 d).ok =
      s.answered false false (some a) (some b) (some c) (some d) := rfl

theorem defaultsQuery_of_track (s : State) {t : Nat} (ht : t < 42) :
    defaultsQuery s t = s.answered false false
      (some (wordOfNat (sectorCount t + (zone t).val * 2 ^ 8 + tailGapOf s.cfg t * 2 ^ 16 +
        firstBlock t * 2 ^ 32)))
      (some (wordOfNat (nominalBytes t))) (some (wordOfNat (nominalBits t)))
      (some (wordOfNat (staggerOf s.cfg t))) := by
  rw [defaultsQuery, if_pos ((c64TrackOk_iff t).2 ht), State.setResults_ok_eq]

theorem defaultsQuery_of_bad_track {s : State} (hr : s.Running) {t : Nat} (ht : 42 ≤ t) :
    defaultsQuery s t = s.faulted .badOperand := by
  rw [defaultsQuery, if_neg (mt (c64TrackOk_iff t).1 (Nat.not_lt.2 ht)), State.raiseFatal_eq hr]

theorem halftrackOk_iff (h : Nat) : decide (h < Config.numHt) = true ↔ h < 84 :=
  decide_eq_true_iff

section running
variable {s : State} (hr : s.Running)
include hr

theorem exec_dskNumblk :
    exec .dskNumblk s =
      .next (s.answered false false (some (wordOfNat (numBlocks s.cfg))) none none none) := by
  rw [exec, execDskNumblk, hostOp_running hr, State.setR0_ok_eq]

theorem exec_dskFlags :
    exec .dskFlags s = .next (s.answered false false (some (wordOfNat (s.disk.present.toNat +
      2 * s.disk.wp.toNat + 4 * s.disk.modified.toNat))) none none none) := by
  rw [exec, execDskFlags, hostOp_running hr, State.setR0_ok_eq, flagBit_eq_toNat,
    flagBit_eq_toNat, flagBit_eq_toNat]

theorem exec_dskLenht :
    exec .dskLenht s = .next (lengthQuery s (decide (field s.host.a0 0 7 < Config.numHt))
      (field s.host.a0 0 7)) := by
  rw [exec, execDskLenht, hostOp_running hr, lengthQuery]
  simp only [decide_eq_true_eq]

theorem exec_dskLentrk :
    exec .dskLentrk s = .next (lengthQuery s (c64TrackOk (field s.host.a0 0 8))
      (2 * field s.host.a0 0 8)) := by
  rw [exec, execDskLentrk, hostOp_running hr]
  rfl

theorem exec_dskDefaults :
    exec .dskDefaults s = .next (defaultsQuery s (field s.host.a0 0 8)) := by
  rw [exec, execDskDefaults, hostOp_running hr]
  rfl

end running

/-- Settles O41: the two length queries share one shape, the others ask for no disk. -/
theorem diskQueries : Obligations.DiskQueries := by
  intro s hr h u one
  refine ⟨exec_dskNumblk hr, exec_dskFlags hr, fun hh hp => ?lenht, fun hh hp => ?lenhtNoDisk,
    fun hh => ?lenhtRange, fun hu hp => ?lentrk, fun hu hp => ?lentrkNoDisk, fun hu => ?lentrkRange,
    fun hu => ?defaults, fun hu => ?defaultsRange⟩
  case lenht => rw [exec_dskLenht hr, lengthQuery_of_present ((halftrackOk_iff _).2 hh) hp]
  case lenhtNoDisk => rw [exec_dskLenht hr, lengthQuery_of_no_disk ((halftrackOk_iff _).2 hh) hp]
  case lenhtRange =>
    rw [exec_dskLenht hr, lengthQuery_of_illegal hr (mt (halftrackOk_iff _).1 (Nat.not_lt.2 hh))]
  case lentrk => rw [exec_dskLentrk hr, lengthQuery_of_present ((c64TrackOk_iff _).2 hu) hp]
  case lentrkNoDisk => rw [exec_dskLentrk hr, lengthQuery_of_no_disk ((c64TrackOk_iff _).2 hu) hp]
  case lentrkRange =>
    rw [exec_dskLentrk hr, lengthQuery_of_illegal hr (mt (c64TrackOk_iff _).1 (Nat.not_lt.2 hu))]
  case defaults =>
    rw [exec_dskDefaults hr, defaultsQuery_of_track s hu]
    rfl
  case defaultsRange => rw [exec_dskDefaults hr, defaultsQuery_of_bad_track hr hu]

/-! ## Block numbers (R301, R307) -/

/-- R301: the blocks of a track follow those of the track before. -/
theorem firstBlock_succ (t : Nat) : firstBlock (t + 1) = firstBlock t + sectorCount t := by
  unfold firstBlock sectorCount
  split_ifs <;> omega

theorem firstBlock_mono : Monotone firstBlock :=
  monotone_nat_of_le_succ fun t => (firstBlock_succ t).symm ▸ Nat.le_add_right _ _

/-- R307: the track and sector of a block, from its number. -/
theorem blockTS_firstBlock_add {u k : Nat} (hu : u < 42) (hk : k < sectorCount u) :
    blockTS (firstBlock u + k) = (u, k) := by
  have hsucc := firstBlock_succ u
  have htrack : ((List.range Config.numTracks).find? fun t =>
      decide (firstBlock t ≤ firstBlock u + k ∧ firstBlock u + k < firstBlock (t + 1))) =
        some u := by
    refine List.find?_range_eq_some.2 ⟨?found, List.mem_range.2 hu, fun j hj => ?earlier⟩
    case found => exact decide_eq_true ⟨Nat.le_add_right _ _, by omega⟩
    case earlier =>
      have hmono : firstBlock (j + 1) ≤ firstBlock u := firstBlock_mono hj
      exact Bool.not_eq_true' _ ▸ decide_eq_false (by omega)
  rw [blockTS, htrack, Option.getD_some, Nat.add_sub_cancel_left]

/-! ## Operations on one block (R317, R318) -/

/-- What `DSK.RDBLK` and `DSK.WRBLK` share: the checks before the disk is read (R405, log 8). -/
def blockOp (s : State) (run : State → State) : State :=
  if s.blockOk then withDisk s run else s.raiseFatal .badOperand

section running
variable {s : State} (hr : s.Running)
include hr

theorem exec_dskRdblk : exec .dskRdblk s = .next (blockOp s runDskRdblk) := by
  rw [exec, execDskRdblk, hostOp_running hr, blockOp]

theorem exec_dskWrblk : exec .dskWrblk s = .next (blockOp s runDskWrblk) := by
  rw [exec, execDskWrblk, hostOp_running hr, blockOp]

end running

theorem State.blockOk_iff (s : State) :
    s.blockOk = true ↔
      field s.host.a0 0 16 < firstBlock s.cfg.fsTracks.val ∧ InDmem (field s.host.a3 0 32) 256 := by
  rw [State.blockOk, Bool.and_eq_true, decide_eq_true_iff, dmemOk_iff]
  rfl

theorem blockOp_of_bad_operand {s : State} (hr : s.Running)
    (h : firstBlock s.cfg.fsTracks.val ≤ field s.host.a0 0 16 ∨ ¬InDmem (field s.host.a3 0 32) 256)
    (run : State → State) : blockOp s run = s.faulted .badOperand := by
  have hbad : ¬s.blockOk = true := by
    rw [s.blockOk_iff, not_and_or, Nat.not_lt]
    exact h
  rw [blockOp, if_neg hbad, State.raiseFatal_eq hr]

section legal
variable {s : State} (hb : field s.host.a0 0 16 < firstBlock s.cfg.fsTracks.val)
  (hd : InDmem (field s.host.a3 0 32) 256)
include hb hd

theorem blockOp_of_no_disk (hp : s.disk.present = false) (run : State → State) :
    blockOp s run = s.failed .noDisk := by
  rw [blockOp, if_pos (s.blockOk_iff.2 ⟨hb, hd⟩), withDisk_of_no_disk hp]

theorem blockOp_of_present (hp : s.disk.present = true) (run : State → State) :
    blockOp s run = run s := by
  rw [blockOp, if_pos (s.blockOk_iff.2 ⟨hb, hd⟩), withDisk_of_present hp]

end legal

section block
variable {s : State} {u k : Nat} (hb : blockTS s.opBlk = (u, k))
include hb

theorem runDskRdblk_of_empty (hz : s.lenOf (2 * u) = 0) : runDskRdblk s = s.failed .seekErr := by
  rw [runDskRdblk, hb, if_pos hz, State.fail_eq]

theorem runDskWrblk_of_empty (hz : s.lenOf (2 * u) = 0) : runDskWrblk s = s.failed .seekErr := by
  rw [runDskWrblk, hb, if_pos hz, State.fail_eq]

/-- R317, R318: how an operation on the block ends. -/
theorem blockResults_ok (t : State) :
    (t.blockResults s.opBlk).ok =
      t.answered false false (some 256) (some (BitVec.ofNat 64 (u + 256 * k))) none none := by
  rw [State.blockResults, hb, State.ok, State.setR0_setR1_okWith_eq, Nat.mul_comm k]
  rfl

variable (hz : 0 < s.lenOf (2 * u))
include hz

theorem runDskRdblk_of_error {e : ErrCode}
    (he : (s.stream (s.trackView (2 * u))).c64DecodeSector (BitVec.ofNat 8 k) 0 = .error e) :
    runDskRdblk s = s.failed e := by
  simp only [runDskRdblk, State.readBlock, hb, if_neg hz.ne', he, State.fail_eq]

theorem runDskRdblk_of_ok {d : Decoded}
    (hd : (s.stream (s.trackView (2 * u))).c64DecodeSector (BitVec.ofNat 8 k) 0 = .ok d) :
    runDskRdblk s = (s.writeBytes .dmem s.opAddr d.payload).answered false false (some 256)
      (some (BitVec.ofNat 64 (u + 256 * k))) none none := by
  rw [← blockResults_ok hb]
  simp only [runDskRdblk, State.readBlock, hb, if_neg hz.ne', hd]

theorem runDskWrblk_of_none
    (hn : (s.stream (s.trackView (2 * u))).c64SeekSector (BitVec.ofNat 8 k) 0 = none) :
    runDskWrblk s = s.failed .seekErr := by
  simp only [runDskWrblk, State.writeBlock, hb, if_neg hz.ne', hn, State.fail_eq]

theorem runDskWrblk_of_some {r : SectorRange}
    (hs : (s.stream (s.trackView (2 * u))).c64SeekSector (BitVec.ofNat 8 k) 0 = some r) :
    let p := s.readBytes .dmem s.opAddr 256
    runDskWrblk s =
      ((s.setBits (s.trackView (2 * u)) r.first (gcrBits (p ++ [xorBytes p]))).setModified
        true).answered false false (some 256) (some (BitVec.ofNat 64 (u + 256 * k))) none none := by
  intro p
  rw [← blockResults_ok hb]
  simp only [runDskWrblk, State.writeBlock, hb, if_neg hz.ne', hs]
  rfl

end block

/-- `MOD` is no byte of memory. -/
theorem wroteBits_setModified_iff {s t : State} {v : View} {i : Int} {bits : List Bool} (b : Bool) :
    WroteBits s (t.setModified b) v i bits ↔ WroteBits s t v i bits := by
  have hbytes : (t.setModified b).byteAt = t.byteAt := by
    funext sp a
    cases sp <;> rfl
  simp only [WroteBits, State.bufBit, hbytes]

theorem State.withMemoriesOf_setModified (t s : State) (b : Bool) :
    (t.setModified b).withMemoriesOf s = (t.withMemoriesOf s).setModified b := rfl

/-- Settles O43: the checks of a block operation, then the sector decoded from bit 0 of its track. -/
theorem dskRdblkReadsTheBlock : Obligations.DskRdblkReadsTheBlock := by
  intro s hr
  rw [exec_dskRdblk hr]
  refine ⟨fun hbad => ?operand, fun hb hd hp => ?disk, fun u k hp hu hk hblk hb hd => ?block⟩
  case operand => rw [blockOp_of_bad_operand hr hbad]
  case disk => rw [blockOp_of_no_disk hb hd hp]
  case block =>
    have hts : blockTS s.opBlk = (u, k) :=
      (congrArg blockTS hblk).trans (blockTS_firstBlock_add hu hk)
    rw [blockOp_of_present (hblk ▸ hb) hd hp]
    refine ⟨fun hz => ?empty, fun hz => ⟨fun e he => ?error, fun d hdec =>
      ⟨_, rfl, length_c64Payload hdec, ?stored, ?rest⟩⟩⟩
    case empty => rw [runDskRdblk_of_empty hts hz]
    case error => rw [runDskRdblk_of_error hts hz he]
    case stored =>
      rw [runDskRdblk_of_ok hts hz hdec, wroteBytes_answered_iff]
      exact s.wroteBytes_writeBytes .dmem _ _
    case rest =>
      rw [runDskRdblk_of_ok hts hz hdec, State.withMemoriesOf_answered,
        State.withMemoriesOf_writeBytes]

/-- Settles O44: the checks of a block operation, then one run of bits from the payload of the located
sector on. -/
theorem dskWrblkRewritesInPlace : Obligations.DskWrblkRewritesInPlace := by
  intro s hr
  rw [exec_dskWrblk hr]
  refine ⟨fun hbad => ?operand, fun hb hd hp => ?disk, fun u k hp hu hk hblk hb hd => ?block⟩
  case operand => rw [blockOp_of_bad_operand hr hbad]
  case disk => rw [blockOp_of_no_disk hb hd hp]
  case block =>
    have hts : blockTS s.opBlk = (u, k) :=
      (congrArg blockTS hblk).trans (blockTS_firstBlock_add hu hk)
    rw [blockOp_of_present (hblk ▸ hb) hd hp]
    refine ⟨fun hz => ?empty, fun hz => ⟨fun hnone => ?unlocated, fun r hsome =>
      ⟨_, rfl, ?written, ?rest⟩⟩⟩
    case empty => rw [runDskWrblk_of_empty hts hz]
    case unlocated => rw [runDskWrblk_of_none hts hz hnone]
    case written =>
      rw [runDskWrblk_of_some hts hz hsome, wroteBits_answered_iff, wroteBits_setModified_iff]
      exact s.wroteBits_setBits _ _ _
    case rest =>
      rw [runDskWrblk_of_some hts hz hsome, State.withMemoriesOf_answered,
        State.withMemoriesOf_setModified, State.withMemoriesOf_setBits]
      rfl

/-! ## The tracks of an image, one after the other (R306) -/

/-- `t` with the contents of all halftracks as they are in `s`. -/
def State.withTracksOf (t s : State) : State := { t with disk.trk := s.disk.trk }

/-- R304: a whole track at its nominal length leaves the lengths of an unformatted disk. -/
theorem bankSet_nominalLens {t : Nat} (ht : t < 42) :
    bankSet nominalLens (2 * t) (BitVec.ofNat 17 (nominalBits t)) = nominalLens := by
  rw [bankSet_of_lt _ _ _ (by omega)]
  refine Vector.ext fun i hi => ?_
  rw [Vector.getElem_set]
  split
  · next h => simp [← h, nominalLens, trackOf]
  · rfl

/-- R211: on a disk with nominal lengths an encoded track changes nothing but halftracks. -/
theorem State.withTracksOf_c64EncodeTrack {t : State} (hlen : t.disk.len = nominalLens) {u : Nat}
    (hu : u < 42) (s : State) (image : List Byte) (id1 id2 : Byte) (align useErr : Bool) :
    (t.c64EncodeTrack u image id1 id2 align useErr).withTracksOf s = t.withTracksOf s := by
  have hset : bankSet t.disk.len (2 * u) (BitVec.ofNat 17 (nominalBits u)) = t.disk.len := by
    rw [hlen, bankSet_nominalLens hu]
  exact congrArg (fun len => ({ t with disk.trk := s.disk.trk, disk.len := len } : State)) hset

/-- R211: the sectors of a track depend on no halftrack. -/
theorem State.c64TrackBits_congr {s t : State} (hcfg : t.cfg = s.cfg)
    (herr : ∀ a, t.byteAt .errtab a = s.byteAt .errtab a) (u : Nat) (image : List Byte)
    (id1 id2 : Byte) (useErr : Bool) :
    t.c64TrackBits u image id1 id2 useErr = s.c64TrackBits u image id1 id2 useErr := by
  simp only [State.c64TrackBits, State.errorCode, hcfg, herr]

/-- What a track holds is a matter of the bytes of its halftrack. -/
theorem State.TrackHolds.of_trk_eq {s t : State} {u start : Nat} {bits : List Bool}
    (hs : s.TrackHolds u start bits)
    (h : ∀ a, t.byteAt (.trk (halftrack (2 * u))) a = s.byteAt (.trk (halftrack (2 * u))) a) :
    t.TrackHolds u start bits := by
  simpa only [State.TrackHolds, State.bufBit, h] using hs

theorem halftrack_ne {u t : Nat} (hu : u < 42) (ht : t < 42) (hne : u ≠ t) :
    Space.trk (halftrack (2 * u)) ≠ .trk (halftrack (2 * t)) := by
  intro he
  have hval := congrArg Fin.val (Space.trk.inj he)
  rw [halftrack_val (by omega), halftrack_val (by omega)] at hval
  omega

/-- R306: the part of an image that holds track `t`. -/
def imageTrack (image : List Byte) (t : Nat) : List Byte :=
  (image.drop (256 * firstBlock t)).take (256 * sectorCount t)

theorem State.encodeTracks_succ (s : State) (n : Nat) (image : List Byte) :
    s.encodeTracks (n + 1) image =
      (s.encodeTracks n image).c64EncodeTrack n (imageTrack image n)
        (s.encodeTracks n image).opId1 (s.encodeTracks n image).opId2
        (s.encodeTracks n image).opAlign (s.encodeTracks n image).opUseErr := by
  rw [State.encodeTracks, List.range_succ, List.foldl_append]
  rfl

/-- `t` is `s` with the tracks below `n` encoded from `image`, and nothing else changed. -/
structure TracksEncoded (s t : State) (n : Nat) (image : List Byte) : Prop where
  /-- Only halftracks change. -/
  rest : t.withTracksOf s = s
  /-- Every memory but the halftracks of these tracks reads as before. -/
  other : ∀ sp, (∀ u < n, sp ≠ .trk (halftrack (2 * u))) → ∀ a, t.byteAt sp a = s.byteAt sp a
  /-- R211: what each of these tracks holds. -/
  holds : ∀ u < n, t.TrackHolds u (s.c64Start u s.opAlign)
    (s.c64TrackBits u (imageTrack image u) s.opId1 s.opId2 s.opUseErr)

theorem TracksEncoded.zero (s : State) (image : List Byte) : TracksEncoded s s 0 image :=
  ⟨rfl, fun _ _ _ => rfl, fun _ hu => absurd hu (Nat.not_lt_zero _)⟩

/-- R306: one more track. -/
theorem TracksEncoded.succ {s t : State} {n : Nat} {image : List Byte}
    (h : TracksEncoded s t n image) (hn : n < 42) (hlen : s.disk.len = nominalLens)
    (hfit : (s.c64TrackBits n (imageTrack image n) s.opId1 s.opId2 s.opUseErr).length ≤
      nominalBits n) :
    TracksEncoded s (t.c64EncodeTrack n (imageTrack image n) t.opId1 t.opId2 t.opAlign t.opUseErr)
      (n + 1) image := by
  obtain ⟨hrest, hother, hholds⟩ := h
  have hcfg : t.cfg = s.cfg := (congrArg State.cfg hrest :)
  have hlen' : t.disk.len = nominalLens := (congrArg (·.disk.len) hrest :).trans hlen
  have hid1 : t.opId1 = s.opId1 := (congrArg State.opId1 hrest :)
  have hid2 : t.opId2 = s.opId2 := (congrArg State.opId2 hrest :)
  have halign : t.opAlign = s.opAlign := (congrArg State.opAlign hrest :)
  have huseErr : t.opUseErr = s.opUseErr := (congrArg State.opUseErr hrest :)
  have hstart : t.c64Start n s.opAlign = s.c64Start n s.opAlign :=
    (congrArg (State.c64Start · n s.opAlign) hrest :)
  have hbits := State.c64TrackBits_congr hcfg (hother .errtab fun _ _ => Space.noConfusion) n
    (imageTrack image n) s.opId1 s.opId2 s.opUseErr
  rw [hid1, hid2, halign, huseErr]
  obtain ⟨-, -, hkeeps⟩ := t.c64EncodeTrack_frame n (imageTrack image n) s.opId1 s.opId2 s.opAlign
    s.opUseErr
  refine ⟨?rest, fun sp hsp a => ?other, fun u hu => ?holds⟩
  case rest =>
    rw [State.withTracksOf_c64EncodeTrack hlen' hn, hrest]
  case other =>
    exact (hkeeps sp (hsp n n.lt_succ_self) a).trans
      (hother sp (fun u hu => hsp u (Nat.lt_succ_of_lt hu)) a)
  case holds =>
    rcases Nat.lt_succ_iff_lt_or_eq.1 hu with hlt | rfl
    · exact (hholds u hlt).of_trk_eq (hkeeps _ (halftrack_ne (hlt.trans hn) hn hlt.ne))
    · have hnew := t.c64EncodeTrack_holds u (imageTrack image u) s.opId1 s.opId2 s.opAlign s.opUseErr
      rw [hbits, hstart] at hnew
      exact hnew hfit

/-- R306: all tracks, by induction on how many. -/
theorem State.tracksEncoded_encodeTracks {s : State} (hlen : s.disk.len = nominalLens)
    (image : List Byte) :
    ∀ n ≤ 42, (∀ u < n, (s.c64TrackBits u (imageTrack image u) s.opId1 s.opId2
      s.opUseErr).length ≤ nominalBits u) → TracksEncoded s (s.encodeTracks n image) n image := by
  intro n
  induction n with
  | zero => exact fun _ _ => TracksEncoded.zero s image
  | succ n ih =>
    intro hn hfit
    rw [State.encodeTracks_succ]
    exact (ih (by omega) fun u hu => hfit u (by omega)).succ hn hlen (hfit n (by omega))

/-! ## `DSK.ENCODE` (R306) -/

/-- A part of a run of bytes. -/
theorem State.take_drop_readBytes (s : State) (sp : Space) (a i m : Nat) {n : Nat}
    (h : i + m ≤ n) : ((s.readBytes sp a n).drop i).take m = s.readBytes sp (a + i) m := by
  refine List.ext_getElem (by simp; omega) fun j _ _ => ?_
  rw [List.getElem_take, List.getElem_drop, State.getElem_readBytes, State.getElem_readBytes,
    Nat.add_assoc]

/-- R306: track `u` of an image of `n` tracks in `DMEM`. -/
theorem imageTrack_readBytes (s : State) (src : Nat) {u n : Nat} (hu : u < n) :
    imageTrack (s.readBytes .dmem src (256 * firstBlock n)) u =
      s.readBytes .dmem (src + 256 * firstBlock u) (256 * sectorCount u) := by
  have hle : firstBlock u + sectorCount u ≤ firstBlock n := firstBlock_succ u ▸ firstBlock_mono hu
  exact s.take_drop_readBytes .dmem src _ _ (by omega)

/-- R306: the sectors of track `u`, with the payload of each block at its place of the image. -/
theorem State.c64TrackBits_imageTrack (s : State) (src : Nat) {u n : Nat} (hu : u < n) :
    s.c64TrackBits u (imageTrack (s.readBytes .dmem src (256 * firstBlock n)) u) s.opId1 s.opId2
        s.opUseErr =
      (List.range (sectorCount u)).flatMap fun k =>
        c64SectorBits s.cfg u k (s.readBytes .dmem (src + 256 * (firstBlock u + k)) 256)
          (s.host.a4.setWidth 8) ((s.host.a4 >>> 8).setWidth 8)
          (if s.host.a4.getLsbD 17 then s.byteAt .errtab (firstBlock u + k) else 1) := by
  rw [imageTrack_readBytes s src hu, State.c64TrackBits_readBytes, s.opId1_eq, s.opId2_eq]
  simp only [State.errorCode_opUseErr, Nat.mul_add, Nat.add_assoc]

theorem State.length_c64TrackBits_imageTrack (s : State) (src : Nat) {u n : Nat} (hu : u < n)
    (id1 id2 : Byte) (useErr : Bool) :
    (s.c64TrackBits u (imageTrack (s.readBytes .dmem src (256 * firstBlock n)) u) id1 id2
      useErr).length = sectorCount u * sectorBits s.cfg u :=
  s.length_c64TrackBits u _ _ _ _ (by rw [imageTrack_readBytes s src hu, State.length_readBytes])

theorem any_c64TooLong_iff (cfg : ModelArgs) (n : Nat) :
    (List.range n).any (c64TooLong cfg) = true ↔
      ∃ u < n, nominalBits u < sectorCount u * sectorBits cfg u := by
  simp only [List.any_eq_true, List.mem_range, c64TooLong, decide_eq_true_eq, gt_iff_lt]

theorem exec_dskEncode {s : State} (hr : s.Running) :
    exec .dskEncode s = .next (runDskEncode s) := by
  rw [exec, execDskEncode, hostOp_running hr]

/-- R306: what `DSK.ENCODE` leaves of `s` when its checks pass. -/
def State.afterDskEncode (s : State) : State :=
  (s.clearDisk.encodeTracks s.opEncodeTracks
    (s.readBytes .dmem s.opAddr (256 * firstBlock s.opEncodeTracks))).answered
    false false (some (wordOfNat (firstBlock s.opEncodeTracks))) none none none

section encode
variable {s : State}

theorem runDskEncode_of_bad_count (hn : s.opEncodeTracks = 0 ∨ 42 < s.opEncodeTracks) :
    runDskEncode s = s.fail .formatErr :=
  if_pos hn

variable (hn : ¬(s.opEncodeTracks = 0 ∨ 42 < s.opEncodeTracks))
include hn

theorem runDskEncode_of_bad_source (hsrc : ¬InDmem s.opAddr (256 * firstBlock s.opEncodeTracks)) :
    runDskEncode s = s.raiseFatal .badOperand := by
  rw [← dmemOk_iff, Bool.not_eq_true] at hsrc
  simp only [runDskEncode, Config.numTracks, gt_iff_lt, if_neg hn, Config.c64Payload, hsrc,
    Bool.not_false, if_true]

variable (hsrc : InDmem s.opAddr (256 * firstBlock s.opEncodeTracks))
include hsrc

theorem runDskEncode_of_no_disk (hp : s.disk.present = false) :
    runDskEncode s = s.fail .noDisk := by
  rw [← dmemOk_iff] at hsrc
  simp only [runDskEncode, Config.numTracks, gt_iff_lt, if_neg hn, Config.c64Payload, hsrc,
    Bool.not_true, Bool.false_eq_true, if_false, hp, Bool.not_false, if_true]

variable (hp : s.disk.present = true)
include hp

theorem runDskEncode_of_too_long {u : Nat} (hu : u < s.opEncodeTracks)
    (hlong : nominalBits u < sectorCount u * sectorBits s.cfg u) :
    runDskEncode s = s.raiseFatal .capacity := by
  have hany := (any_c64TooLong_iff s.cfg s.opEncodeTracks).2 ⟨u, hu, hlong⟩
  rw [← dmemOk_iff] at hsrc
  simp only [runDskEncode, Config.numTracks, gt_iff_lt, if_neg hn, Config.c64Payload, hsrc,
    Bool.not_true, Bool.false_eq_true, if_false, hp, if_pos hany]

theorem runDskEncode_of_fits
    (hfit : ∀ u < s.opEncodeTracks, sectorCount u * sectorBits s.cfg u ≤ nominalBits u) :
    runDskEncode s = s.afterDskEncode := by
  have hnone : ¬(List.range s.opEncodeTracks).any (c64TooLong s.cfg) = true := fun hany =>
    let ⟨u, hu, hlong⟩ := (any_c64TooLong_iff s.cfg _).1 hany
    absurd (hfit u hu) (Nat.not_le.2 hlong)
  rw [← dmemOk_iff] at hsrc
  simp only [runDskEncode, Config.numTracks, gt_iff_lt, if_neg hn, Config.c64Payload, hsrc,
    Bool.not_true, Bool.false_eq_true, if_false, hp, if_neg hnone, State.setR0_ok_eq,
    State.afterDskEncode]

end encode

/-- Settles O42: the checks in their order, then the tracks one after the other on an unformatted
disk. -/
theorem dskEncodeWritesTheDisk : Obligations.DskEncodeWritesTheDisk := by
  intro s hr n src size
  have hcount (h1 : 1 ≤ n) (h42 : n ≤ 42) : ¬(s.opEncodeTracks = 0 ∨ 42 < s.opEncodeTracks) := by
    show ¬(n = 0 ∨ 42 < n)
    omega
  rw [exec_dskEncode hr]
  refine ⟨fun hn => ?count, fun h1 h42 hsrc => ?source, fun h1 h42 hsrc hp => ?disk,
    fun h1 h42 hsrc hp u hu hlong => ?capacity, fun h1 h42 hsrc hp hfit => ?encoded⟩
  case count => rw [runDskEncode_of_bad_count hn, State.fail_eq]
  case source => rw [runDskEncode_of_bad_source (hcount h1 h42) hsrc, State.raiseFatal_eq hr]
  case disk => rw [runDskEncode_of_no_disk (hcount h1 h42) hsrc hp, State.fail_eq]
  case capacity =>
    rw [runDskEncode_of_too_long (hcount h1 h42) hsrc hp hu hlong, State.raiseFatal_eq hr]
  case encoded =>
    obtain ⟨hrest, hother, hholds⟩ : TracksEncoded s.clearDisk
        (s.clearDisk.encodeTracks n (s.readBytes .dmem src (256 * firstBlock n))) n
        (s.readBytes .dmem src (256 * firstBlock n)) :=
      State.tracksEncoded_encodeTracks rfl _ n h42 fun u hu =>
        (s.length_c64TrackBits_imageTrack src hu ..).trans_le (hfit u hu)
    have hbytes : s.afterDskEncode.byteAt = (s.clearDisk.encodeTracks n
        (s.readBytes .dmem src (256 * firstBlock n))).byteAt := State.byteAt_answered ..
    have hdisk : ({ s.afterDskEncode.disk with trk := blankTracks } : Disk) = s.clearDisk.disk :=
      (congrArg State.disk hrest :)
    refine ⟨s.afterDskEncode, ?exec, ?rest, (congrArg Disk.present hdisk :).trans hp,
      (congrArg Disk.wp hdisk :), (congrArg Disk.modified hdisk :), fun h hh => ?lens,
      fun h hh a => ?blank, fun u hu => ?holds⟩
    case exec => rw [runDskEncode_of_fits (hcount h1 h42) hsrc hp hfit]
    case rest =>
      exact (congrArg (fun t : State => ({ t with disk := s.disk } : State).answered false false
        (some (wordOfNat (firstBlock n))) none none none) hrest :)
    case lens =>
      have hlen : s.afterDskEncode.disk.len = s.clearDisk.disk.len := (congrArg Disk.len hdisk :)
      rw [State.lenOf, hlen]
      exact s.clearDisk_lenOf h hh
    case blank =>
      rw [hbytes, hother, State.clearDisk_byteAt]
      intro u hu he
      have hval := congrArg Fin.val (Space.trk.inj he)
      rw [halftrack_val (by omega)] at hval
      omega
    case holds =>
      rw [← s.c64TrackBits_imageTrack src hu]
      exact State.TrackHolds.of_byteAt_eq hbytes (hholds u hu)

end Sys2Proof.Machine
end

section
/-! PROOFS. The analyzer statements: what `ANA.RUN` and `ANA.XRUN` replace in the report, what each external
sector adds to it, and what `ANA.LAYOUT` and `ANA.LOG` read there. -/

namespace Sys2Proof.Machine

/-! ## The stored report (R338, R339) -/

theorem SectorInfo.hasHeader_or_hasData (i : SectorInfo) :
    (i.hasHeader || i.hasData) =
      decide (i.headerBegin ≠ i.headerEnd ∨ i.dataBegin ≠ i.dataEnd) := by
  simp [SectorInfo.hasHeader, SectorInfo.hasData, bne, Bool.beq_eq_decide_eq]

theorem runAnaLayout_of_legal {s : State} (hh : field s.host.a0 0 8 ≤ 84)
    (hk : field s.host.a1 0 8 ≤ 20) :
    let i := s.report.sectorOf (field s.host.a0 0 8) (field s.host.a1 0 8)
    runAnaLayout s = s.answered (i.hasHeader || i.hasData) false
      (some (wordOfNat i.headerBegin.toNat)) (some (wordOfNat i.headerEnd.toNat))
      (some (wordOfNat i.dataBegin.toNat)) (some (wordOfNat i.dataEnd.toNat)) :=
  if_pos ⟨hh, Nat.lt_succ_of_le hk⟩

theorem runAnaLayout_of_bad_operand {s : State} (hr : s.Running)
    (h : ¬(field s.host.a0 0 8 ≤ 84 ∧ field s.host.a1 0 8 ≤ 20)) :
    runAnaLayout s = s.faulted .badOperand :=
  (if_neg fun ⟨hh, hk⟩ => h ⟨hh, Nat.le_of_lt_succ hk⟩).trans (State.raiseFatal_eq hr _)

theorem runAnaLog_of_some {s : State} (hh : field s.host.a0 0 8 ≤ 84) {e : LogEntry}
    (he : (s.report.logOf (field s.host.a0 0 8))[field s.host.a1 0 8]? = some e) :
    runAnaLog s = s.answered true false (some (wordOfNat (e.code.code + 256 * e.sector.toNat)))
      (some (wordOfNat e.startBit.toNat)) (some (wordOfNat e.endBit.toNat))
      (some (wordOfNat (s.report.logOf (field s.host.a0 0 8)).length)) := by
  simp only [runAnaLog, if_pos hh, he]
  rfl

theorem runAnaLog_of_none {s : State} (hh : field s.host.a0 0 8 ≤ 84)
    (he : (s.report.logOf (field s.host.a0 0 8))[field s.host.a1 0 8]? = none) :
    runAnaLog s = s.answered false false (some 0) (some 0) (some 0)
      (some (wordOfNat (s.report.logOf (field s.host.a0 0 8)).length)) := by
  simp only [runAnaLog, if_pos hh, he]
  rfl

theorem runAnaLog_of_bad_operand {s : State} (hr : s.Running) (hh : ¬field s.host.a0 0 8 ≤ 84) :
    runAnaLog s = s.faulted .badOperand :=
  (if_neg hh).trans (State.raiseFatal_eq hr _)

/-- Settles O46: both operations by their range checks, `ANA.LOG` by whether the entry exists. -/
theorem anaReadsTheStoredReport : Obligations.AnaReadsTheStoredReport := by
  intro s hr h k num
  have hlayout : exec .anaLayout s = .next (runAnaLayout s) := hostOp_running hr _
  have hlog : exec .anaLog s = .next (runAnaLog s) := hostOp_running hr _
  constructor
  · split
    next hlegal =>
      rw [hlayout, runAnaLayout_of_legal hlegal.1 hlegal.2, SectorInfo.hasHeader_or_hasData]
      rfl
    next hbad => rw [hlayout, runAnaLayout_of_bad_operand hr hbad]
  · split
    next hlegal =>
      dsimp only
      rw [hlog]
      split
      next e he =>
        rw [runAnaLog_of_some hlegal he]
        rfl
      next he =>
        rw [runAnaLog_of_none hlegal he]
        rfl
    next hbad => rw [hlog, runAnaLog_of_bad_operand hr hbad]

/-! ## The disk (R331) -/

section running
variable {s : State} (hr : s.Running)
include hr

theorem exec_anaRun_of_present (hn : field s.host.a0 0 8 ≤ 42) (hp : s.disk.present = true) :
    exec .anaRun s =
      .next (s.finishAnalysis (s.analyzeDisk (field s.host.a0 0 8)) (List.range 84)) := by
  rw [exec, execAnaRun, hostOp_running hr]
  exact congrArg _ ((if_pos hn).trans (if_pos hp))

theorem exec_anaRun_of_no_disk (hn : field s.host.a0 0 8 ≤ 42) (hp : s.disk.present = false) :
    exec .anaRun s = .next (s.failed .noDisk) := by
  rw [exec, execAnaRun, hostOp_running hr, ← State.fail_eq]
  exact congrArg _ ((if_pos hn).trans (if_neg (ne_true_of_eq_false hp)))

theorem exec_anaRun_of_bad_operand (hn : 42 < field s.host.a0 0 8) :
    exec .anaRun s = .next (s.faulted .badOperand) := by
  rw [exec, execAnaRun]
  exact hostOp_badOperand hr (if_neg (Nat.not_le.2 hn))

theorem exec_anaXrun_of_platform (h : field s.host.a0 0 2 = 1 ∨ field s.host.a0 0 2 = 2) :
    let sc := s.analyzeXtrack (field s.host.a0 0 2) (s.host.a1.getLsbD 0)
    exec .anaXrun s =
      .next (s.finishAnalysis (s.report.record 84 s.xlen.toNat sc, sc.ovf) [84]) := by
  rw [exec, execAnaXrun, hostOp_running hr]
  exact congrArg _ (if_pos h)

theorem exec_anaXrun_of_no_platform (h : field s.host.a0 0 2 = 0 ∨ field s.host.a0 0 2 = 3) :
    exec .anaXrun s = .next (s.faulted .badOperand) := by
  rw [exec, execAnaXrun]
  exact hostOp_badOperand hr (if_neg (by omega))

end running

/-- R331, R340: an analysis writes the report, the host's results and `STATUS`. -/
theorem State.finishAnalysis_frame (s : State) (r : Report × Bool) (tracks : List Nat) :
    { s.finishAnalysis r tracks with report := s.report, host := s.host } = s := rfl

/-- Settles O45: the checks in their order, then the analysis of the whole disk and of each halftrack. -/
theorem anaRunOnlyReports : Obligations.AnaRunOnlyReports := by
  intro s hr n
  refine ⟨exec_anaRun_of_bad_operand hr, exec_anaRun_of_no_disk hr, fun hn hp => ?report,
    fun h _ => s.analyzeHalftrack_spec n h⟩
  obtain ⟨hinfo, hlog, hovf⟩ := s.analyzeDisk_spec n
  refine ⟨_, exec_anaRun_of_present hr hn hp, s.finishAnalysis_frame .., fun h hh => ⟨?info, ?log⟩,
    (hinfo 84).trans (if_neg (by decide)), (hlog 84).trans (if_neg (by decide)), ?host⟩
  case info => exact (hinfo h).trans (if_pos hh)
  case log => exact (hlog h).trans (if_pos hh)
  case host =>
    rw [State.finishAnalysis_eq, hovf]
    rfl

/-! ## What one sector adds to a scan (R341, R342, R343) -/

/-- R343: the entry for a missing header or data block, when the sector is expected. -/
def missingEntry (expect : Bool) (code : LogCode) (k : Nat) : List LogEntry :=
  if expect then [⟨code, BitVec.ofNat 8 k, extent 0, extent 0⟩] else []

/-- R341, R342: the entry for a check that does not hold. -/
def checkEntry (good : Bool) (code : LogCode) (k : Nat) (lo hi : Int) : List LogEntry :=
  if good then [] else [⟨code, BitVec.ofNat 8 k, extent lo, extent hi⟩]

/-- The entry of a check, in the words of its rule. -/
theorem checkEntry_of_iff {good : Bool} {P : Prop} [Decidable P] (h : good = true ↔ P)
    (code : LogCode) (k : Nat) (lo hi : Int) :
    checkEntry good code k lo hi =
      if P then [] else [⟨code, BitVec.ofNat 8 k, extent lo, extent hi⟩] := by
  simp only [checkEntry, h]

namespace Scan
variable {sc : Scan} {cap : Nat} {es : List LogEntry}

/-- R342: a missing header or data block is logged when the sector is expected. -/
theorem Logs.appendMissing (h : sc.Logs cap es) (expect : Bool) (code : LogCode) (k : Nat) :
    (if expect then sc.append cap code (BitVec.ofNat 8 k) 0 0 else sc).Logs cap
      (es ++ missingEntry expect code k) := by
  cases expect
  case false => simpa [missingEntry] using h
  case true => exact h.append ..

/-- R341, R342: a wholly missing sector gives its header entry, then its data entry. -/
theorem Logs.missing (h : sc.Logs cap es) (expect : Bool) (k : Nat) :
    (sc.missing cap expect k).Logs cap
      (es ++ (missingEntry expect .hdrMissing k ++ missingEntry expect .dataMissing k)) := by
  have hboth := (h.appendMissing expect .hdrMissing k).appendMissing expect .dataMissing k
  rw [List.append_assoc] at hboth
  cases expect <;> exact hboth

theorem Logs.check (h : sc.Logs cap es) (good : Bool) (code : LogCode) (k : Nat) (lo hi : Int) :
    (sc.check cap good code k lo hi).Logs cap (es ++ checkEntry good code k lo hi) := by
  cases good
  case false => exact h.append ..
  case true => simpa [checkEntry, Scan.check] using h

theorem at_appendMissing (sc : Scan) (cap : Nat) (expect : Bool) (code : LogCode) (k : Nat) :
    (if expect then sc.append cap code (BitVec.ofNat 8 k) 0 0 else sc).at = sc.at := by
  cases expect
  case false => rfl
  case true => exact funext fun j => sc.at_append ..

theorem at_missing (sc : Scan) (cap : Nat) (expect : Bool) (k : Nat) :
    (sc.missing cap expect k).at = sc.at := by
  cases expect
  case false => rfl
  case true => exact funext fun j => (at_append ..).trans (at_append ..)

/-- A missing sector stays one of which nothing is recorded. -/
theorem at_missing_of_new {k : Nat} (hnew : sc.at k = SectorInfo.none) (cap : Nat) (expect : Bool)
    (j : Nat) :
    (sc.missing cap expect k).at j = if j = k then SectorInfo.none else sc.at j := by
  rw [at_missing]
  split
  next hj => rw [hj, hnew]
  next => rfl

theorem at_check (sc : Scan) (cap : Nat) (good : Bool) (code : LogCode) (k : Nat) (lo hi : Int) :
    (sc.check cap good code k lo hi).at = sc.at := by
  cases good
  case false => exact funext fun j => sc.at_append ..
  case true => rfl

theorem at_start (k : Nat) : Scan.start.at k = SectorInfo.none := by
  simp only [Scan.start, Scan.at, bankGet, Vector.getElem?_replicate]
  split <;> rfl

end Scan

/-- One step of an analysis that treats its sectors one by one: for a sector of which nothing is recorded
yet it records `info k`, and it logs the entries `logs k`. -/
def ScansSectors (cap : Nat) (step : Scan → Nat → Scan) (info : Nat → SectorInfo)
    (logs : Nat → List LogEntry) : Prop :=
  ∀ (sc : Scan) (k : Nat) (es : List LogEntry), k < 21 → sc.at k = SectorInfo.none →
    sc.Logs cap es →
    (∀ j, (step sc k).at j = if j = k then info k else sc.at j) ∧
      (step sc k).Logs cap (es ++ logs k)

/-- The sectors `0 .. n - 1` one after the other. -/
theorem ScansSectors.foldl {cap : Nat} {step : Scan → Nat → Scan} {info : Nat → SectorInfo}
    {logs : Nat → List LogEntry} (h : ScansSectors cap step info logs) {n : Nat} (hn : n ≤ 21) :
    let sc := (List.range n).foldl step Scan.start
    (∀ j, sc.at j = if j < n then info j else SectorInfo.none) ∧
      sc.Logs cap ((List.range n).flatMap logs) := by
  induction n with
  | zero => exact ⟨Scan.at_start, by simp [Scan.Logs, Scan.start]⟩
  | succ n ih =>
    obtain ⟨hat, hlogs⟩ := ih (by omega)
    obtain ⟨hat', hlogs'⟩ := h _ n _ (by omega) ((hat n).trans (if_neg (Nat.lt_irrefl n))) hlogs
    simp only [List.range_succ, List.foldl_append, List.foldl_cons, List.foldl_nil,
      List.flatMap_append, List.flatMap_cons, List.flatMap_nil, List.append_nil]
    refine ⟨fun j => ?_, hlogs'⟩
    rw [hat', hat]
    rcases Nat.lt_trichotomy j n with hj | rfl | hj
    · rw [if_neg hj.ne, if_pos hj, if_pos (by omega)]
    · rw [if_pos rfl, if_pos (by omega)]
    · rw [if_neg hj.ne', if_neg (by omega), if_neg (by omega)]

/-! ## Amiga sectors (R341) -/

/-- The sector that `xAmiga` of R341 finds. -/
def BitStream.xAmigaFound (b : BitStream) (k : Nat) : Option SectorRange :=
  if b.size = 0 then none else b.amiSeekSector (BitVec.ofNat 8 k) 0

/-- What R341 records of a sector. -/
def BitStream.xAmigaInfo (b : BitStream) (k : Nat) : SectorInfo :=
  match b.xAmigaFound k with
  | none => SectorInfo.none
  | some r => ⟨extent r.mark, extent (r.mark + 384), extent (r.mark + 384), extent (r.mark + 8640)⟩

/-- What R341 logs of a sector. -/
def BitStream.xAmigaLogs (b : BitStream) (expect : Bool) (k : Nat) : List LogEntry :=
  match b.xAmigaFound k with
  | none => missingEntry expect .hdrMissing k ++ missingEntry expect .dataMissing k
  | some r =>
    checkEntry (amiHeaderOk (b.bytesAt r.mark 1080)) .hdrCksum k r.mark (r.mark + 384) ++
      checkEntry (amiDataOk (b.bytesAt r.mark 1080)) .dataCksum k (r.mark + 384) (r.mark + 8640)

theorem BitStream.xAmiga_scansSectors (b : BitStream) (cap : Nat) (expect : Bool) :
    ScansSectors cap (b.xAmiga cap expect) b.xAmigaInfo (b.xAmigaLogs expect) := by
  intro sc k es hk hnew hes
  unfold BitStream.xAmiga BitStream.xAmigaInfo BitStream.xAmigaLogs
  rw [← BitStream.xAmigaFound]
  rcases b.xAmigaFound k with _ | r
  · exact ⟨Scan.at_missing_of_new hnew cap expect, hes.missing expect k⟩
  · refine ⟨fun j => ?_, ?_⟩
    · rw [Scan.at_check, Scan.at_check, Scan.at_put _ _ _ _ hk]
    · rw [← List.append_assoc]
      exact ((hes.put k _).check ..).check ..

/-! ## DOS sectors (R342) -/

/-- The header that `xDos` of R342 finds. -/
def BitStream.xDosFound (b : BitStream) (k : Nat) : Option Int :=
  if b.size = 0 then none else b.dosFindHeader (BitVec.ofNat 8 k) 0

/-- The data block behind the header at `p` (R342): the very next marked block, when it is one. -/
def BitStream.xDosData (b : BitStream) (p : Int) : Option Int :=
  (b.forward (p + 112) dosSync 48).filter fun q => b.rdMfm q == 0xFB

/-- What R342 records of a sector. -/
def BitStream.xDosInfo (b : BitStream) (k : Nat) : SectorInfo :=
  match b.xDosFound k with
  | none => SectorInfo.none
  | some p => match b.xDosData p with
    | none => ⟨extent p, extent (p + 112), 0, 0⟩
    | some q => ⟨extent p, extent (p + 112), extent q, extent (q + 8240)⟩

/-- What R342 logs of a sector. -/
def BitStream.xDosLogs (b : BitStream) (expect : Bool) (k : Nat) : List LogEntry :=
  match b.xDosFound k with
  | none => missingEntry expect .hdrMissing k ++ missingEntry expect .dataMissing k
  | some p =>
    checkEntry (dosHeaderOk (b.rdMfmRun p 7)) .hdrCksum k p (p + 112) ++
      match b.xDosData p with
      | none => missingEntry expect .dataMissing k
      | some q => checkEntry (dosDataOk (b.rdMfmRun (q + 16) 514)) .dataCksum k q (q + 8240)

/-- R342, by what stands behind the header. -/
theorem BitStream.xDos_eq (b : BitStream) (cap : Nat) (expect : Bool) (sc : Scan) (k : Nat) :
    b.xDos cap expect sc k = match b.xDosFound k with
      | none => sc.missing cap expect k
      | some p =>
        let sc1 := (sc.put k
          { sc.at k with headerBegin := extent p, headerEnd := extent (p + 112) }).check cap
          (dosHeaderOk (b.rdMfmRun p 7)) .hdrCksum k p (p + 112)
        match b.xDosData p with
        | none => if expect then sc1.append cap .dataMissing (BitVec.ofNat 8 k) 0 0 else sc1
        | some q =>
          (sc1.put k { sc1.at k with dataBegin := extent q, dataEnd := extent (q + 8240) }).check cap
            (dosDataOk (b.rdMfmRun (q + 16) 514)) .dataCksum k q (q + 8240) := by
  rw [BitStream.xDos, ← BitStream.xDosFound]
  rcases b.xDosFound k with _ | p
  · rfl
  unfold BitStream.xDosData
  dsimp only
  rcases b.forward (p + 112) dosSync 48 with _ | q
  · rfl
  by_cases hq : b.rdMfm q = 0xFB
  · rw [Option.filter_some, if_pos (beq_iff_eq.2 hq)]
    exact if_pos hq
  · rw [Option.filter_some, if_neg (mt beq_iff_eq.1 hq)]
    exact if_neg hq

theorem BitStream.xDos_scansSectors (b : BitStream) (cap : Nat) (expect : Bool) :
    ScansSectors cap (b.xDos cap expect) b.xDosInfo (b.xDosLogs expect) := by
  intro sc k es hk hnew hes
  rw [BitStream.xDos_eq, BitStream.xDosInfo, BitStream.xDosLogs]
  rcases b.xDosFound k with _ | p
  · exact ⟨Scan.at_missing_of_new hnew cap expect, hes.missing expect k⟩
  dsimp only
  have hheader := (hes.put k { sc.at k with
    headerBegin := extent p, headerEnd := extent (p + 112) }).check
    (dosHeaderOk (b.rdMfmRun p 7)) .hdrCksum k p (p + 112)
  rcases b.xDosData p with _ | q
  · refine ⟨fun j => ?_, ?_⟩
    · rw [Scan.at_appendMissing, Scan.at_check, Scan.at_put _ _ _ _ hk, hnew]
      rfl
    · rw [← List.append_assoc]
      exact hheader.appendMissing ..
  · refine ⟨fun j => ?_, ?_⟩
    · rw [Scan.at_check, Scan.at_put _ _ _ _ hk, Scan.at_check, Scan.at_put _ _ _ _ hk,
        Scan.at_put _ _ _ _ hk, if_pos rfl]
      split <;> rfl
    · rw [← List.append_assoc]
      exact (hheader.put ..).check ..

/-! ## The external track (R340) -/

theorem State.size_xtrack (s : State) :
    (s.stream (View.whole .xtrk s.xlen.toNat)).size = s.xlen.toNat :=
  View.size_whole _ _ (Nat.lt_trans s.xlen.isLt (by decide))

/-- An external track holds no bit exactly when `XLEN` is 0. -/
theorem State.size_xtrack_eq_zero_iff (s : State) :
    (s.stream (View.whole .xtrk s.xlen.toNat)).size = 0 ↔ s.xlen = 0 := by
  rw [s.size_xtrack, BitVec.toNat_eq]
  rfl

theorem BitStream.xAmigaFound_some {b : BitStream} {k : Nat} {r : SectorRange}
    (h : b.xAmigaFound k = some r) :
    0 ≤ r.mark - 32 ∧ r.mark - 32 < b.size ∧ b.getBits (r.mark - 32) 32 = 0x44894489 ∧
      (oeDecode (b.bytesAt r.mark 8)).getD 2 0 = BitVec.ofNat 8 k := by
  obtain ⟨-, hseek⟩ := Option.ite_none_left_eq_some.1 h
  obtain ⟨hstart, hround, hsync, hsec, -, -⟩ := BitStream.amiSeekLoop_some le_rfl hseek
  exact ⟨by omega, by omega, hsync, hsec⟩

theorem BitStream.xDosFound_some {b : BitStream} {k : Nat} {p : Int}
    (h : b.xDosFound k = some p) :
    0 ≤ p - 48 ∧ p - 48 < b.size ∧ b.getBits (p - 48) 48 = 0x448944894489 ∧
      b.rdMfm p = 0xFE ∧ b.rdMfm (p + 48) = BitVec.ofNat 8 (k + 1) := by
  obtain ⟨-, hfind⟩ := Option.ite_none_left_eq_some.1 h
  obtain ⟨hstart, hround, hsync, hid, hsec⟩ := BitStream.dosFindHeader_some hfind
  refine ⟨by omega, by omega, hsync, hid, ?_⟩
  rw [BitVec.ofNat_add]
  exact sub_eq_iff_eq_add.1 hsec

/-- Settles O47: the report as `ANA.RUN` leaves it, then each platform by what one sector adds. -/
theorem anaXrunReportsTheExternalTrack : Obligations.AnaXrunReportsTheExternalTrack := by
  intro s hr plat expect sc b pos entry missing nothing
  refine ⟨fun hplat => ?report, exec_anaXrun_of_no_platform hr, fun hplat => ?amiga,
    fun hplat => ?dos⟩
  case report =>
    have hinfo (h : Nat) := s.report.infoOf_record 84 s.xlen.toNat h sc
    have hlog (h : Nat) := s.report.logOf_record 84 s.xlen.toNat h sc
    refine ⟨s.finishAnalysis (s.report.record 84 s.xlen.toNat sc, sc.ovf) [84],
      exec_anaXrun_of_platform hr hplat, s.finishAnalysis_frame .., ?info,
      (hlog 84).trans (if_pos (by decide)), fun h hh => ⟨?otherInfo, ?otherLog⟩, ?host⟩
    case info =>
      refine (hinfo 84).trans ((if_pos (by decide)).trans ?_)
      rw [BitVec.ofNat_toNat, BitVec.setWidth_eq]
    case otherInfo => exact (hinfo h).trans (if_neg (by omega))
    case otherLog => exact (hlog h).trans (if_neg (by omega))
    case host =>
      rw [State.finishAnalysis_eq]
      simp only [List.map_cons, List.map_nil, List.sum_cons, List.sum_nil, Nat.add_zero, hlog]
      rfl
  case amiga =>
    have hsc : sc = (List.range 11).foldl (b.xAmiga s.cfg.logCap expect) Scan.start := if_pos hplat
    obtain ⟨hat, hlogs⟩ := (b.xAmiga_scansSectors s.cfg.logCap expect).foldl (n := 11) (by decide)
    rw [← hsc] at hat hlogs
    refine ⟨b.xAmigaLogs expect, hlogs, fun k hk _ => (hat k).trans (if_neg (by omega)),
      fun k hk => ?_⟩
    have hfound : (if s.xlen = 0 then none else b.amiSeekSector (BitVec.ofNat 8 k) 0) =
        b.xAmigaFound k := if_congr s.size_xtrack_eq_zero_iff.symm rfl rfl
    rw [hfound, hat k, if_pos hk, BitStream.xAmigaInfo, BitStream.xAmigaLogs]
    rcases h : b.xAmigaFound k with _ | r
    · exact ⟨rfl, rfl⟩
    · obtain ⟨hstart, hround, hsync, hsec⟩ := BitStream.xAmigaFound_some h
      exact ⟨hstart, hround, hsync, hsec, rfl, congrArg₂ (· ++ ·)
        (checkEntry_of_iff (b.amiHeaderOk_iff r.mark) ..)
        (checkEntry_of_iff (b.amiDataOk_iff r.mark) ..)⟩
  case dos =>
    have hsc : sc = (List.range 9).foldl (b.xDos s.cfg.logCap expect) Scan.start :=
      if_neg (by omega)
    obtain ⟨hat, hlogs⟩ := (b.xDos_scansSectors s.cfg.logCap expect).foldl (n := 9) (by decide)
    rw [← hsc] at hat hlogs
    refine ⟨b.xDosLogs expect, hlogs, fun k hk _ => (hat k).trans (if_neg (by omega)),
      fun k hk => ?_⟩
    have hfound : (if s.xlen = 0 then none else b.dosFindHeader (BitVec.ofNat 8 k) 0) =
        b.xDosFound k := if_congr s.size_xtrack_eq_zero_iff.symm rfl rfl
    rw [hfound, hat k, if_pos hk, BitStream.xDosInfo, BitStream.xDosLogs]
    rcases h : b.xDosFound k with _ | p
    · exact ⟨rfl, rfl⟩
    · obtain ⟨hstart, hround, hsync, hid, hsec⟩ := BitStream.xDosFound_some h
      refine ⟨hstart, hround, hsync, hid, hsec, ?_⟩
      have hheader := checkEntry_of_iff (b.dosHeaderOk_iff p) .hdrCksum k p (p + 112)
      have hdata : (b.forward (p + 112) 0x448944894489 48).filter (fun q => b.rdMfm q == 0xFB) =
          b.xDosData p := rfl
      rw [hdata]
      dsimp only
      rcases b.xDosData p with _ | q
      · exact ⟨rfl, congrArg (· ++ missingEntry expect .dataMissing k) hheader⟩
      · have hok := b.dosDataOk_iff (q + 16)
        rw [Int.add_assoc] at hok
        exact ⟨rfl, congrArg₂ (· ++ ·) hheader (checkEntry_of_iff hok ..)⟩

end Sys2Proof.Machine
end

section
/-! PROOFS. The statements on the drive bit engine: what a tick does in each phase, the bit under the head,
the register reads, and a move to another halftrack. -/

namespace Sys2Proof.Machine

/-! ## The bit under the head (R365, R366, R370) -/

/-- R374: the bit under the head is 1 when there is one and it is stored as 1. -/
theorem State.headBit_iff (s : State) :
    s.headBit = true ↔ s.noTrack = false ∧ s.bufBit s.headSpace s.headPos = true := by
  cases hn : s.noTrack <;> simp [State.headBit, hn]

theorem State.headBit_of_noTrack {s : State} (h : s.noTrack = true) : s.headBit = false := by
  simp [State.headBit, h]

theorem State.headBit_of_track {s : State} (h : s.noTrack = false) :
    s.headBit = s.bufBit s.headSpace s.headPos := by
  simp [State.headBit, h]

theorem State.nextOffset_of_noTrack {s : State} (h : s.noTrack = true) : s.nextOffset = 0 := by
  simp [State.nextOffset, h]

theorem State.nextOffset_of_track {s : State} (h : s.noTrack = false) :
    s.nextOffset = BitVec.ofNat 16 ((s.headPos + 1) % s.headLen) := by
  simp [State.nextOffset, h]

/-- R365, R370, R371: the signals word over the numbers of its flags. -/
theorem State.sig_eq (s : State) : s.sig = BitVec.ofNat 64 (s.engine.sync.toNat +
    2 * s.engine.byteReady.toNat +
    4 * (decide (s.disk.present = false ∨ s.lenOf s.engine.ht.toNat = 0)).toNat +
    8 * (s.disk.present && s.disk.wp).toNat + 256 * s.engine.dataLatch.toNat) := by
  have hn : s.noTrack = decide (s.disk.present = false ∨ s.lenOf s.engine.ht.toNat = 0) := by
    rw [Bool.eq_iff_iff, decide_eq_true_iff]
    exact s.noTrack_iff
  simp only [State.sig, State.lightBarrier, flagBit_eq, hn]

/-- R369, R375: what the write of the bit under the head does when there is one. -/
theorem State.writeHeadBit_of_track {s : State} (h : s.noTrack = false) (b : Bool) :
    (s.writeHeadBit b).withMemoriesOf s = { s with disk.modified := true } ∧
    { (s.writeHeadBit b).disk with trk := s.disk.trk } = { s.disk with modified := true } ∧
    ∀ sp j, (s.writeHeadBit b).bufBit sp j =
      if sp = s.headSpace ∧ j = s.headPos then b else s.bufBit sp j := by
  rcases s.writeHeadBit_cases b with ⟨hn, _⟩ | ⟨_, hmem, _, hdisk, hbits⟩
  · rw [h] at hn
    cases hn
  · exact ⟨hmem, hdisk, hbits⟩

theorem State.writeHeadBit_of_noTrack {s : State} (h : s.noTrack = true) (b : Bool) :
    s.writeHeadBit b = s := if_pos h

/-! ## The phases of a tick (R361) -/

/-- R364: the engine after a bit was counted. -/
def Engine.counted (e : Engine) : Engine :=
  { e with
    brc := if e.sync then e.brc + 1 else e.brc
    dataLatch := if e.sync ∧ e.brc = 7 then e.rsr.setWidth 8 else e.dataLatch
    byteReady := e.byteReady || (e.sync && decide (e.brc = 7)) }

theorem State.countBit_eq_counted (s : State) : s.countBit = s.setEngine s.engine.counted :=
  s.countBit_eq

/-- Counting a bit does not move the head, so the write may come before or after it. -/
theorem State.writeHeadBit_counted (s : State) (b : Bool) :
    (s.setEngine s.engine.counted).writeHeadBit b =
      (s.writeHeadBit b).setEngine s.engine.counted := by
  have hn : (s.setEngine s.engine.counted).noTrack = s.noTrack := rfl
  unfold State.writeHeadBit
  rw [hn]
  cases s.noTrack <;> rfl

/-- R367: phase 1. -/
theorem State.phase1_eq (s : State) : s.phase1 = s.setEngine { s.engine with
    sync := decide (s.engine.rsr ≠ 0x3FF)
    brc := if s.engine.rsr = 0x3FF then 0 else s.engine.brc } := by
  by_cases h : s.engine.rsr = 0x3FF
  · rw [State.phase1, h]
    rfl
  · rw [State.phase1, bne_iff_ne.2 h, if_neg h, decide_eq_true h]
    rfl

/-- R364: phase 2 in read mode. -/
theorem State.phase2_read (s : State) : s.phase2 false = s.setEngine s.engine.counted :=
  s.countBit_eq_counted

/-- R364, R369: phase 2 in write mode. -/
theorem State.phase2_write (s : State) : s.phase2 true =
    (s.writeHeadBit (s.engine.wsr.getLsbD 7)).setEngine
      { s.engine.counted with wsr := s.engine.wsr <<< 1 } := by
  have hcell : s.phase2 true = s.countBit.writeCell := rfl
  rw [hcell, State.writeCell, s.countBit_eq_counted, s.writeHeadBit_counted]
  rfl

/-- R363: phase 3. -/
theorem State.phase3_eq (s : State) (wdata : Byte) : s.phase3 wdata =
    s.setEngine { s.engine with wsr := if s.engine.byteReady then wdata else s.engine.wsr } := by
  unfold State.phase3
  split <;> rfl

section phases
variable {s : State} (write : Bool) (wdata : Byte)

theorem State.runPhase_zero (h : s.engine.phase = 0) : s.runPhase write wdata = s.phase0 write :=
  if_pos h

theorem State.runPhase_one (h : s.engine.phase = 1) : s.runPhase write wdata = s.phase1 := by
  simp [State.runPhase, h]

theorem State.runPhase_two (h : s.engine.phase = 2) : s.runPhase write wdata = s.phase2 write := by
  simp [State.runPhase, h]

theorem State.runPhase_three (h : s.engine.phase = 3) :
    s.runPhase write wdata = s.phase3 wdata := by
  simp [State.runPhase, h]

/-- R361: the four values of `phase`. -/
theorem phase_cases (p : BitVec 2) : p = 0 ∨ p = 1 ∨ p = 2 ∨ p = 3 := by
  revert p
  decide

/-- R369: a phase other than phase 2 in write mode writes engine registers only. -/
theorem State.runPhase_of_reader (h : s.engine.phase ≠ 2 ∨ write = false) :
    ∃ e, s.runPhase write wdata = s.setEngine e := by
  rcases phase_cases s.engine.phase with h0 | h1 | h2 | h3
  · exact ⟨_, s.runPhase_zero write wdata h0⟩
  · exact ⟨_, s.runPhase_one write wdata h1⟩
  · obtain rfl := h.resolve_left (not_not_intro h2)
    exact ⟨_, (s.runPhase_two false wdata h2).trans s.phase2_read⟩
  · exact ⟨_, (s.runPhase_three write wdata h3).trans (s.phase3_eq wdata)⟩

/-- R361, R369: a phase writes the engine and the disk only. -/
theorem State.runPhase_frame :
    { s.runPhase write wdata with disk := s.disk, engine := s.engine } = s := by
  by_cases h : s.engine.phase ≠ 2 ∨ write = false
  · obtain ⟨e, he⟩ := s.runPhase_of_reader write wdata h
    rw [he]
    rfl
  · obtain ⟨h2, hw⟩ := not_or.1 h
    obtain rfl : write = true := by simpa using hw
    rw [s.runPhase_two true wdata (not_not.1 h2), s.phase2_write]
    have hframe := s.writeHeadBit_frame (s.engine.wsr.getLsbD 7)
    exact congrArg (State.setEngine · s.engine) hframe

end phases

/-! ## A tick (R361, R365) -/

theorem exec_engTick (s : State) : exec .engTick s = .next (runEngTick s) := rfl

/-- R361: `phase` advances whatever the executed phase did. -/
theorem runEngTick_engine (s : State) : (runEngTick s).engine =
    { (s.runPhase (s.ctrl.ea0.getLsbD 0) s.ctrl.ea1).engine with phase := s.engine.phase + 1 } := rfl

theorem runEngTick_disk (s : State) :
    (runEngTick s).disk = (s.runPhase (s.ctrl.ea0.getLsbD 0) s.ctrl.ea1).disk := rfl

theorem runEngTick_bufBit (s : State) (sp : Space) (j : Nat) : (runEngTick s).bufBit sp j =
    (s.runPhase (s.ctrl.ea0.getLsbD 0) s.ctrl.ea1).bufBit sp j := by
  cases sp <;> rfl

theorem runEngTick_frame (s : State) :
    { runEngTick s with disk := s.disk, engine := s.engine, ctrl := s.ctrl } = s := by
  have hframe := State.runPhase_frame (s := s) (s.ctrl.ea0.getLsbD 0) s.ctrl.ea1
  exact congrArg (fun t : State => { t with ctrl := s.ctrl }) hframe

/-- R365: the signals are those after the phase, with the disk's length and flags as before. -/
theorem runEngTick_ctrl (s : State) : (runEngTick s).ctrl = { s.ctrl with
    er0 := BitVec.ofNat 64 ((runEngTick s).engine.sync.toNat +
      2 * (runEngTick s).engine.byteReady.toNat +
      4 * (decide (s.disk.present = false ∨ s.lenOf s.engine.ht.toNat = 0)).toNat +
      8 * (s.disk.present && s.disk.wp).toNat + 256 * (runEngTick s).engine.dataLatch.toNat)
    er1 := BitVec.ofNat 64 s.engine.phase.toNat } := by
  have hframe := (runEngTick_effect s).frame
  simp only [State.engineFrame, Prod.mk.injEq] at hframe
  obtain ⟨-, -, -, -, -, -, -, hea0, hea1, hlen, hwp, hpresent, -⟩ := hframe
  have hht : (runEngTick s).engine.ht = s.engine.ht := (s.runPhase_head _ _).1
  have hsig := (runEngTick s).sig_eq
  simp only [State.lenOf, hlen, hwp, hpresent, hht] at hsig
  have hphase := congrArg State.ctrl (State.runPhase_frame (s := s) (s.ctrl.ea0.getLsbD 0) s.ctrl.ea1)
  have hctrl : (runEngTick s).ctrl = { s.ctrl with
      er0 := (runEngTick s).sig, er1 := BitVec.ofNat 64 s.engine.phase.toNat } :=
    congrArg (fun c : CtrlPort => { c with
      er0 := (runEngTick s).sig, er1 := BitVec.ofNat 64 s.engine.phase.toNat }) hphase
  rw [hctrl, hsig]
  rfl

/-- R369: with a track, phase 2 in write mode stores the high bit of `wsr` under the head. -/
theorem runEngTick_writes {s : State} (hp : s.engine.phase = 2)
    (hw : s.ctrl.ea0.getLsbD 0 = true) (hn : s.noTrack = false) :
    { (runEngTick s).disk with trk := s.disk.trk } = { s.disk with modified := true } ∧
    ∀ sp j, (runEngTick s).bufBit sp j =
      if sp = s.headSpace ∧ j = s.headPos then s.engine.wsr.getLsbD 7 else s.bufBit sp j := by
  have hrun : s.runPhase (s.ctrl.ea0.getLsbD 0) s.ctrl.ea1 =
      (s.writeHeadBit (s.engine.wsr.getLsbD 7)).setEngine
        { s.engine.counted with wsr := s.engine.wsr <<< 1 } := by
    rw [s.runPhase_two _ _ hp, hw, s.phase2_write]
  obtain ⟨-, hdisk, hbits⟩ := State.writeHeadBit_of_track hn (s.engine.wsr.getLsbD 7)
  refine ⟨?_, fun sp j => ?_⟩
  · rw [runEngTick_disk, hrun]
    exact hdisk
  · rw [runEngTick_bufBit, hrun, ← hbits]
    cases sp <;> rfl

/-- R369: without a track, phase 2 in write mode leaves the disk. -/
theorem runEngTick_writes_nothing {s : State} (hp : s.engine.phase = 2)
    (hw : s.ctrl.ea0.getLsbD 0 = true) (hn : s.noTrack = true) : (runEngTick s).disk = s.disk := by
  rw [runEngTick_disk, s.runPhase_two _ _ hp, hw, s.phase2_write, State.writeHeadBit_of_noTrack hn]
  rfl

/-- Settles O48: the executed phase is one of four, each an update of the engine but for the bit that
phase 2 writes. -/
theorem tickExecutesOnePhase : Obligations.TickExecutesOnePhase := by
  intro s e write len pos sp noTrack
  have hno : s.noTrack = true ↔ noTrack := s.noTrack_iff
  have hyes : s.noTrack = false ↔ ¬noTrack := by rw [← hno, Bool.not_eq_true]
  have engine {t : State} (ht : s.runPhase write s.ctrl.ea1 = t) :
      (runEngTick s).engine = { t.engine with phase := e.phase + 1 } := by
    rw [runEngTick_engine, ← ht]
  refine ⟨runEngTick s, exec_engTick s, runEngTick_frame s, runEngTick_ctrl s, fun h => ?reader,
    fun h => ?zero, fun h => ?one, fun h => ⟨?two, fun hw hn => ?suppressed, fun hw hn => ?writes⟩,
    fun h => ?three⟩
  case reader =>
    obtain ⟨e', he'⟩ := s.runPhase_of_reader write s.ctrl.ea1 h
    rw [runEngTick_disk, he']
    rfl
  case zero =>
    have hbit : (!write && s.headBit) = true ↔ ¬noTrack ∧ write = false ∧ s.bufBit sp pos = true := by
      rw [Bool.and_eq_true, Bool.not_eq_true', s.headBit_iff, hyes, and_left_comm]
      rfl
    rw [engine (s.runPhase_zero _ _ h), h]
    simp only [State.phase0, State.setEngine_engine, State.nextOffset, if_congr hno rfl rfl,
      if_congr hbit rfl rfl]
    rfl
  case one =>
    rw [engine (s.runPhase_one _ _ h), h, s.phase1_eq]
    rfl
  case two =>
    rw [engine (s.runPhase_two _ _ h), h]
    cases hw : write with
    | false => rw [s.phase2_read]; rfl
    | true => rw [s.phase2_write]; rfl
  case suppressed => exact runEngTick_writes_nothing h hw (hno.2 hn)
  case writes => exact runEngTick_writes h hw (hyes.2 hn)
  case three => rw [engine (s.runPhase_three _ _ h), h, s.phase3_eq]; rfl

/-! ## Operations on the bit under the head (R374, R375, R376) -/

theorem exec_engRdbit (s : State) :
    exec .engRdbit s = .next (s.setER0 (wordOfNat s.headBit.toNat)) := by
  rw [← flagBit_eq]
  rfl

theorem exec_engWrbit (s : State) : exec .engWrbit s =
    .next ((s.writeHeadBit (s.ctrl.ea0.getLsbD 0)).setER0 (wordOfNat (!s.noTrack).toNat)) := by
  rw [← flagBit_eq]
  rfl

theorem exec_engRot (s : State) : exec .engRot s =
    .next ((s.setEngine { s.engine with offset := s.nextOffset }).setER0
      (wordOfNat s.nextOffset.toNat)) := rfl

/-- R375: `ENG.WRBIT` with a track. -/
theorem exec_engWrbit_of_track {s : State} (hn : s.noTrack = false) :
    ∃ t, exec .engWrbit s = .next t ∧
      t.withMemoriesOf s = { s with ctrl.er0 := BitVec.ofNat 64 1, disk.modified := true } ∧
      ∀ sp j, t.bufBit sp j =
        if sp = s.headSpace ∧ j = s.headPos then s.ctrl.ea0.getLsbD 0 else s.bufBit sp j := by
  obtain ⟨hmem, -, hbits⟩ := State.writeHeadBit_of_track hn (s.ctrl.ea0.getLsbD 0)
  refine ⟨_, exec_engWrbit s, ?_, fun sp j => ?_⟩
  · rw [hn]
    exact congrArg (State.setER0 · 1) hmem
  · rw [← hbits]
    cases sp <;> rfl

/-- Settles O49: the three operations by whether a bit is under the head. -/
theorem headBitOperations : Obligations.HeadBitOperations := by
  intro s len pos sp er0
  refine ⟨fun h => ?without, fun hp hl => ?track⟩
  case without =>
    have hn : s.noTrack = true := s.noTrack_iff.2 h
    refine ⟨?_, ?_, ?_⟩
    · rw [exec_engRdbit, State.headBit_of_noTrack hn]; rfl
    · rw [exec_engWrbit, State.writeHeadBit_of_noTrack hn, hn]; rfl
    · rw [exec_engRot, State.nextOffset_of_noTrack hn]; rfl
  case track =>
    have hn : s.noTrack = false := s.noTrack_false_iff.2 ⟨hp, hl⟩
    refine ⟨?_, exec_engWrbit_of_track hn, ?_⟩
    · rw [exec_engRdbit, State.headBit_of_track hn]; rfl
    · rw [exec_engRot, State.nextOffset_of_track hn]; rfl

/-! ## Reads of the engine's registers (R372, R377, R379) -/

theorem exec_engSync (s : State) :
    exec .engSync s = .next (s.setER0 (wordOfNat s.engine.sync.toNat)) := by
  rw [← flagBit_eq]
  rfl

theorem exec_engLatch (s : State) : exec .engLatch s =
    .next ((((s.setER0 (wordOfNat s.engine.dataLatch.toNat)).setER1
      (wordOfNat s.engine.byteReady.toNat)).setER2 (wordOfNat s.engine.rsr.toNat)).setER3
      (wordOfNat s.engine.wsr.toNat)) := by
  rw [← flagBit_eq]
  rfl

/-- Settles O50: each operation puts registers into `ER0` to `ER3`. -/
theorem engineRegisterReads : Obligations.EngineRegisterReads :=
  fun s => ⟨exec_engSync s, exec_engLatch s, rfl⟩

/-! ## A move to another halftrack (R378) -/

theorem exec_engSetht (s : State) : exec .engSetht s = .next (runEngSetht s) := rfl

/-- R378: `h' = EA0[6:0]`. -/
theorem field_ea0 (b : Byte) : field (b.zeroExtend 64) 0 7 = (b.extractLsb' 0 7).toNat := by
  have hb := b.isLt
  simp only [field, BitVec.extractLsb'_toNat, BitVec.zeroExtend, BitVec.toNat_setWidth]
  omega

/-- Settles O51: `ENG.SETHT` by its range check. -/
theorem sethtKeepsTheAngle : Obligations.SethtKeepsTheAngle := by
  intro s h len pos
  have hh : h = (s.ctrl.ea0.extractLsb' 0 7).toNat := field_ea0 _
  rw [exec_engSetht, hh, BitVec.ofNat_toNat, BitVec.setWidth_eq]
  refine ⟨fun hgt => ?refused, fun hle => ?moved⟩
  case refused =>
    have habove : ¬(s.ctrl.ea0.extractLsb' 0 7).toNat < Config.numHt := Nat.not_lt.2 hgt
    rw [runEngSetht, if_neg habove]
    rfl
  case moved =>
    have hlegal : (s.ctrl.ea0.extractLsb' 0 7).toNat < Config.numHt := Nat.lt_succ_of_le hle
    rw [runEngSetht, if_pos hlegal]
    rfl

end Sys2Proof.Machine
end

section
/-! PROOFS. The statements on errors: a command refused while `FAULT` is 1, a Fatal that stays until a reset,
and what an operation that does not end `OK` leaves. -/

namespace Sys2Proof.Machine

/-! ## A command while `FAULT` is 1 (R404) -/

/-- R404: every host-port operation but `RESET`. -/
theorem exec_of_fault {s : State} (hf : s.host.status.fault = true) {i : Instr} (hp : i.port = .host)
    (hr : i ≠ .reset) : exec i s = .next (s.failed .faulted) := by
  obtain ⟨run, hrun⟩ := exec_hostOp i hp hr
  rw [hrun, hostOp_faulted hf, State.refuseFaulted_eq]

/-- R94, R404: every byte but the one of `RESET`, legal or not. -/
theorem deliver_hostCmd_of_fault {s : State} (hf : s.host.status.fault = true) {b : Byte}
    (hb : b ≠ 0x01) : deliver (.hostCmd b) s = .next (s.failed .faulted) := by
  rcases decode_cons_cases .host b [] with ⟨i, hi, hp, hd⟩ | ⟨_, hd⟩
  · have hr : i ≠ .reset := by
      rintro rfl
      exact hb hi.symm
    rw [deliver_hostCmd_of_decode hd, exec_of_fault hf hp hr]
  · rw [deliver_hostCmd_of_illegal hd, if_pos hf]

/-- Settles O3: a legal byte runs an operation that R404 refuses, and for an illegal one `FAULTED` comes
before `ILLEGAL_CMD`. -/
theorem faultedMachineRunsNoCommand : Obligations.FaultedMachineRunsNoCommand :=
  fun _ _ hf hb => deliver_hostCmd_of_fault hf hb

/-! ## `STATUS` under the events that are no host commands -/

/-- R51, R94, R360: no byte written to `ECMD` touches the host port. -/
theorem ctrlCommand_host {s t : State} {b : Byte} (ht : ctrlCommand s b = .next t) :
    t.host = s.host := by
  rcases decode_cons_cases .controller b [] with ⟨i, _, hp, hd⟩ | ⟨_, hd⟩ <;>
    simp only [ctrlCommand, hd] at ht
  · exact congrArg Prod.fst (exec_engineEffect i hp ht).frame
  · cases ht
    rfl

theorem State.writeA_status (s : State) (i : Fin 6) (v : Word) :
    (s.writeA i v).host.status = s.host.status := by
  fin_cases i <;> rfl

theorem State.writeEA_host (s : State) (i : Fin 2) (v : Byte) : (s.writeEA i v).host = s.host := by
  fin_cases i <;> rfl

theorem State.hostWriteByte_host (s : State) (sp : Space) (a : Nat) (b : Byte) :
    (s.hostWriteByte sp a b).host = s.host := by
  unfold State.hostWriteByte
  split
  · exact s.setMem_host sp _
  · rfl

theorem State.hostWriteLen_host (s : State) (h v : Nat) : (s.hostWriteLen h v).host = s.host := by
  unfold State.hostWriteLen
  split <;> rfl

theorem State.hostWriteXlen_host (s : State) (v : Nat) : (s.hostWriteXlen v).host = s.host := by
  unfold State.hostWriteXlen
  split <;> rfl

/-- R23, R400: only host commands and the reset input write `STATUS`. -/
theorem deliver_status {s t : State} {e : Event} (hc : ∀ b, e ≠ .hostCmd b) (hr : e ≠ .resetInput)
    (ht : deliver e s = .next t) : t.host.status = s.host.status := by
  cases e with
  | hostCmd b => exact absurd rfl (hc b)
  | resetInput => exact absurd rfl hr
  | ctrlCmd b => exact congrArg HostPort.status (ctrlCommand_host ht)
  | hostWriteA i v => cases ht; exact s.writeA_status i v
  | ctrlWriteEA i v => cases ht; exact congrArg HostPort.status (s.writeEA_host i v)
  | memWrite sp a b => cases ht; exact congrArg HostPort.status (s.hostWriteByte_host sp a b)
  | lenWrite h v => cases ht; exact congrArg HostPort.status (s.hostWriteLen_host h v)
  | xlenWrite v => cases ht; exact congrArg HostPort.status (s.hostWriteXlen_host v)
  | hostReadReg | ctrlReadReg | memRead | lenRead | xlenRead | infoRead | logRead =>
    cases ht
    rfl

/-- Settles O55: a host command is refused with both fields kept, and no other event writes `STATUS`. -/
theorem fatalStaysUntilReset : Obligations.FatalStaysUntilReset := by
  intro s t e hf hr hc ht
  by_cases hcmd : ∃ b, e = .hostCmd b
  · obtain ⟨b, rfl⟩ := hcmd
    have hb : b ≠ 0x01 := fun h => hc (congrArg Event.hostCmd h)
    rw [deliver_hostCmd_of_fault hf hb] at ht
    cases ht
    exact ⟨hf, rfl⟩
  · have hstatus := deliver_status (fun b hb => hcmd ⟨b, hb⟩) hr ht
    rw [hstatus]
    exact ⟨hf, rfl⟩

/-! ## An operation that does not end `OK` (R401, R403) -/

/-- How `t` may end an operation on `s`: it reports `OK`, or it differs from `s` in `STATUS` only. -/
def OkOrOnlyStatus (s t : State) : Prop :=
  t.host.status.err = .ok ∨ t = s.setStatus t.host.status

namespace OkOrOnlyStatus

theorem okWith (s t : State) (f g : Bool) : OkOrOnlyStatus s (t.okWith f g) := .inl rfl

theorem ok (s t : State) : OkOrOnlyStatus s t.ok := .inl rfl

theorem answered (s t : State) (f g : Bool) (r0 r1 r2 r3 : Option Word) :
    OkOrOnlyStatus s (t.answered f g r0 r1 r2 r3) := .inl rfl

theorem finishAnalysis (s t : State) (r : Report × Bool) (tracks : List Nat) :
    OkOrOnlyStatus s (t.finishAnalysis r tracks) := .inl rfl

theorem fail (s : State) (e : ErrCode) : OkOrOnlyStatus s (s.fail e) := .inr rfl

theorem raiseFatal (s : State) (e : ErrCode) : OkOrOnlyStatus s (s.raiseFatal e) := .inr rfl

/-- A check with two ends. -/
theorem ite {s a b : State} {c : Prop} [Decidable c] (ha : OkOrOnlyStatus s a)
    (hb : OkOrOnlyStatus s b) : OkOrOnlyStatus s (if c then a else b) := by
  split
  · exact ha
  · exact hb

/-- R69: an operation on the inserted disk. -/
theorem withDisk {s : State} {run : State → State} (h : OkOrOnlyStatus s (run s)) :
    OkOrOnlyStatus s (withDisk s run) :=
  ite h (fail s .noDisk)

/-- R404: a refused operation has written `STATUS` only. -/
theorem hostOp {s t : State} {run : State → State} (ht : hostOp s run = .next t)
    (h : OkOrOnlyStatus s (run s)) : OkOrOnlyStatus s t := by
  cases ht
  exact ite (fail s .faulted) h

/-! ### The shapes of host-port operations -/

theorem readThroughView (s : State) (legal : Bool) (f : BitStream → Word) :
    OkOrOnlyStatus s (readThroughView s legal f) := by
  rcases readThroughView_cases s legal f with ⟨_, h⟩ | ⟨_, e, _, h⟩ | ⟨_, _, h⟩ <;> rw [h]
  · exact raiseFatal s _
  · exact fail s e
  · exact ok s _

theorem writeThroughView (s : State) (legal : Bool) (i : Int) (bits : List Bool) :
    OkOrOnlyStatus s (writeThroughView s legal i bits) := by
  rcases writeThroughView_cases s legal i bits with ⟨_, h⟩ | ⟨_, e, _, h⟩ | ⟨_, _, h⟩ <;> rw [h]
  · exact raiseFatal s _
  · exact fail s e
  · exact ok s _

theorem convertRun (s : State) (n m : Nat) (f : List Byte → List Byte) :
    OkOrOnlyStatus s (convertRun s n m f) := by
  rcases convertRun_cases s n m f with ⟨_, h⟩ | ⟨_, h⟩ <;> rw [h]
  · exact raiseFatal s _
  · exact ok s _

theorem seekOp (s : State) (seek : BitStream → Option SectorRange) :
    OkOrOnlyStatus s (seekOp s seek) := by
  rcases seekOp_cases s seek with ⟨_, h⟩ | ⟨_, e, _, h⟩ | ⟨_, _, _, h⟩ | ⟨_, _, r, _, h⟩ <;> rw [h]
  · exact raiseFatal s _
  · exact fail s e
  · exact fail s _
  · exact answered s ..

theorem seekAllOp (s : State) (n : Nat) (seek : BitStream → List SeekEntry) :
    OkOrOnlyStatus s (seekAllOp s n seek) := by
  rcases seekAllOp_cases s n seek with ⟨_, h⟩ | ⟨_, e, _, h⟩ | ⟨_, _, h⟩ <;> rw [h]
  · exact raiseFatal s _
  · exact fail s e
  · exact answered s ..

theorem encodeSectorOp (s : State) (legal : Bool) (payload size : Nat)
    (bits : List Byte → List Bool) :
    OkOrOnlyStatus s (encodeSectorOp s legal payload size bits) := by
  rcases encodeSectorOp_cases s legal payload size bits with
    ⟨_, h⟩ | ⟨_, e, _, h⟩ | ⟨_, _, _, h⟩ | ⟨_, _, _, h⟩ <;> rw [h]
  · exact raiseFatal s _
  · exact fail s e
  · exact raiseFatal s _
  · exact answered s ..

theorem encodeXtrackOp (s : State) (n bits : Nat) (encode : List Byte → List Byte) :
    OkOrOnlyStatus s (encodeXtrackOp s n bits encode) := by
  rcases encodeXtrackOp_cases s n bits encode with
    ⟨_, h⟩ | ⟨_, _, h⟩ | ⟨_, _, _, h⟩ | ⟨_, _, _, h⟩ <;> rw [h]
  · exact raiseFatal s _
  · exact fail s _
  · exact raiseFatal s _
  · exact ok s _

/-- R218, R252, R282: nothing is stored before the whole sector is decoded. -/
theorem decodeSectorOp (s : State) (legal : Bool) (size : Nat)
    (decode : BitStream → Except ErrCode Decoded) (results : State → Decoded → State) :
    OkOrOnlyStatus s (decodeSectorOp s legal size decode results) := by
  rcases decodeSectorOp_cases s legal size decode results with
    ⟨_, h⟩ | ⟨_, e, _, h⟩ | ⟨_, _, e, _, h⟩ | ⟨_, _, d, _, h⟩ <;> rw [h]
  · exact raiseFatal s _
  · exact fail s e
  · exact fail s e
  · exact ok s _

/-! ### The single operations of the host port -/

theorem runBvDef (s : State) : OkOrOnlyStatus s (runBvDef s) := by
  unfold Machine.runBvDef
  split
  · exact raiseFatal s _
  · exact ok s _

theorem runGcrEnc (s : State) : OkOrOnlyStatus s (runGcrEnc s) := by
  unfold Machine.runGcrEnc
  split
  · split
    · exact fail s _
    · exact ok s _
  · exact raiseFatal s _

theorem runGcrDec (s : State) : OkOrOnlyStatus s (runGcrDec s) := by
  unfold Machine.runGcrDec
  split
  · split
    · exact fail s _
    · exact okWith s _ _ _
  · exact raiseFatal s _

theorem runC64Enctrk (s : State) : OkOrOnlyStatus s (runC64Enctrk s) := by
  rcases runC64Enctrk_cases s with ⟨_, h⟩ | ⟨_, _, h⟩ | ⟨_, _, _, h⟩ | ⟨_, _, _, _, h⟩ |
    ⟨_, _, _, _, _, h⟩ | ⟨_, _, _, _, _, h⟩ <;> rw [h]
  · exact raiseFatal s _
  · exact fail s _
  · exact fail s _
  · exact raiseFatal s _
  · exact raiseFatal s _
  · exact ok s _

/-- R306: every check comes before the first write. -/
theorem runDskEncode (s : State) : OkOrOnlyStatus s (runDskEncode s) :=
  ite (fail s _) (ite (raiseFatal s _) (ite (fail s _) (ite (raiseFatal s _) (ok s _))))

theorem runDskRdblk (s : State) : OkOrOnlyStatus s (runDskRdblk s) := by
  unfold Machine.runDskRdblk
  split
  · exact fail s _
  split
  · exact fail s _
  · exact ok s _

theorem runDskWrblk (s : State) : OkOrOnlyStatus s (runDskWrblk s) := by
  unfold Machine.runDskWrblk
  split
  · exact fail s _
  split
  · exact fail s _
  · exact ok s _

theorem runAnaLog (s : State) : OkOrOnlyStatus s (runAnaLog s) := by
  unfold Machine.runAnaLog
  dsimp only
  split
  · split
    · exact okWith s _ _ _
    · exact ok s _
  · exact raiseFatal s _

end OkOrOnlyStatus

/-- R219, R149: the operations that write results also where they do not end `OK`, and `RESET`. -/
abbrev writesOnError : List Instr := [.c64Dectrk, .amiDectrk, .dosDectrk, .bvFwd, .reset]

/-- R401, R403: how the other operations of the host port end. -/
theorem exec_okOrOnlyStatus (i : Instr) (hp : i.port = .host) (hi : i ∉ writesOnError) {s t : State}
    (ht : exec i s = .next t) : OkOrOnlyStatus s t := by
  have fatal := OkOrOnlyStatus.raiseFatal s .badOperand
  cases i <;> dsimp only [exec] at ht
  case engTick | engRdbit | engWrbit | engRot | engSync | engLatch | engSetht | engPos => cases hp
  case c64Dectrk | amiDectrk | dosDectrk | bvFwd | reset => simp at hi
  case nop | bvSize | gcrB2g | mfmClk | dskNumblk | dskFlags | dskInsert =>
    exact .hostOp ht (.ok s _)
  case gcrG2b => exact .hostOp ht (.okWith s _ _ _)
  case bvDef => exact .hostOp ht (.runBvDef s)
  case bvSlice | mfmClkbuf => exact .hostOp ht (.ite (.ok s _) fatal)
  case bvGet | bvGetbyte | bvGetbits | byGet => exact .hostOp ht (.readThroughView s _ _)
  case bvSet | bvSetbyte | bvSetbits | bySet => exact .hostOp ht (.writeThroughView s _ _ _)
  case gcrEnc => exact .hostOp ht (.runGcrEnc s)
  case gcrDec => exact .hostOp ht (.runGcrDec s)
  case mfmEnc | mfmDec | mfmOeenc | mfmOedec => exact .hostOp ht (.convertRun s _ _ _)
  case c64Encsec | amiEncsec | dosEncsec => exact .hostOp ht (.encodeSectorOp s _ _ _ _)
  case c64Enctrk => exact .hostOp ht (.runC64Enctrk s)
  case amiEnctrk | dosEnctrk => exact .hostOp ht (.encodeXtrackOp s _ _ _)
  case c64Decsec | amiDecsec | dosDecsec => exact .hostOp ht (.decodeSectorOp s _ _ _ _)
  case c64Seek | amiSeek | dosSeek => exact .hostOp ht (.seekOp s _)
  case c64Seekall | amiSeekall | dosSeekall => exact .hostOp ht (.seekAllOp s _ _)
  case dskClear | dskSetwp | dskEject => exact .hostOp ht (.withDisk (.ok s _))
  case dskEncode => exact .hostOp ht (.runDskEncode s)
  case dskRdblk => exact .hostOp ht (.ite (.withDisk (.runDskRdblk s)) fatal)
  case dskWrblk => exact .hostOp ht (.ite (.withDisk (.runDskWrblk s)) fatal)
  case dskLenht | dskLentrk => exact .hostOp ht (.ite (.withDisk (.ok s _)) fatal)
  case dskDefaults => exact .hostOp ht (.ite (.ok s _) fatal)
  case anaRun =>
    exact .hostOp ht (.ite (.ite (.finishAnalysis s s _ _) (.fail s .noDisk)) fatal)
  case anaLayout => exact .hostOp ht (.ite (.okWith s _ _ _) fatal)
  case anaLog => exact .hostOp ht (.runAnaLog s)
  case anaXrun => exact .hostOp ht (.ite (.finishAnalysis s s _ _) fatal)

/-- Settles O59: each operation ends with `OK`, or by `fail` or `raise Fatal` before its first write. -/
theorem errorsChangeOnlyStatus : Obligations.ErrorsChangeOnlyStatus :=
  fun _ _ i hp hi ht herr => (exec_okOrOnlyStatus i hp hi ht).resolve_left herr

end Sys2Proof.Machine
end
